-- ==== Sys2Proof/Word.lean ====
section
/-! DEFINITION. The word types of the CPU: 8 data bits and 16 address bits (spec/00_scope.md R7). -/

namespace Sys2Proof

/-- An 8-bit byte, the spec's `u8` (R10); the only width a bus access has (R55). -/
abbrev Byte := BitVec 8

/-- A 16-bit address, the spec's `u16` (R10, R50). -/
abbrev Addr := BitVec 16

end Sys2Proof
end

