-- ==== Sys2Proof/Machine/Bits.lean ====
section
/-! DEFINITION. The bit helpers of spec/00_scope.md R10: joining and splitting 16-bit words, extensions, and the stack's
page (10_state.md R23). -/

namespace Sys2Proof.Machine

/-- `cat(h, l)`: the 16-bit word with high byte `h` and low byte `l` (R10). -/
def cat (h l : Byte) : Addr := h ++ l

/-- `lo(w)`: bits 7 to 0 (R10). -/
def lo8 (w : Addr) : Byte := w.extractLsb' 0 8

/-- `hi(w)`: bits 15 to 8 (R10). -/
def hi8 (w : Addr) : Byte := w.extractLsb' 8 8

/-- `zext_16(v)` (R10); also the zero-page address of a byte (R82). -/
def zext16 (v : Byte) : Addr := v.zeroExtend 16

/-- `sext_16(v)` (R10). -/
def sext16 (v : Byte) : Addr := v.signExtend 16

/-- The stack's address for a value of S: `cat($01, S)` (R23). -/
def stackAddr (sp : Byte) : Addr := cat 0x01 sp

end Sys2Proof.Machine
end

