-- ==== Sys2Proof/Config.lean ====
section
/-! DEFINITION. What an implementation fixes and the spec leaves open: the parameters P_* of
spec/00_scope.md R8, and the free byte a device or an undriven address answers (93 I6, I20). -/

namespace Sys2Proof

/-- The six flags of the processor status that are stored (R25): bits 5 and 4 of P have no storage. -/
structure Flags where
  /-- Negative: bit 7 of a result. -/
  n : Bool
  /-- Signed overflow. -/
  v : Bool
  /-- Decimal mode: stored only, no instruction computes differently (R29). -/
  d : Bool
  /-- IRQ disable. -/
  i : Bool
  /-- The result is zero. -/
  z : Bool
  /-- Carry, or not-borrow. -/
  c : Bool
deriving DecidableEq, Repr, Inhabited

/-- `P_POWERON_REGS` (R8): the register values a hard reset loads before its sequence runs (R351). -/
structure PowerOn where
  a : Byte
  x : Byte
  y : Byte
  sp : Byte
  p : Flags
  pc : Addr
deriving DecidableEq, Repr, Inhabited

/-- `P_SH_MODEL` (R8): the address model of AHX, SHX, SHY and TAS on a page crossing (R264). -/
inductive ShModel where
  | h1Glitch
  | h1Plain
deriving DecidableEq, Repr, Inhabited

/-- `P_HIJACK_CYCLE` (R8): the cycle, 4 or 5, whose NMI sample redirects the vector (R310). -/
inductive HijackCycle where
  | four
  | five
deriving DecidableEq, Repr, Inhabited

/-- The named parameters of R8. The machine takes them as data of its state, so a statement about every state
holds for every value of every parameter. -/
structure Params where
  /-- `P_BRANCH_IRQ_DELAY` (R306, D8). -/
  branchIrqDelay : Bool
  /-- `P_XAA_MAGIC` (R262, D17). -/
  xaaMagic : Byte
  /-- `P_LXA_MAGIC` (R256, D17). -/
  lxaMagic : Byte
  /-- `P_SH_MODEL` (R264, D18). -/
  shModel : ShModel
  /-- `P_HIJACK_CYCLE` (R310, D9). -/
  hijackCycle : HijackCycle
  /-- `P_STALL_REREAD` (R320, D16). -/
  stallReread : Bool
  /-- `P_POWERON_REGS` (R351, D12). -/
  powerOn : PowerOn
  /-- `P_OPENBUS_INIT` (R355, D4). -/
  openBusInit : Byte
deriving DecidableEq, Repr, Inhabited

/-- The default of `P_POWERON_REGS` (R351, D12): DESIGN CHOICE, log 7, unsafe. -/
def PowerOn.default : PowerOn :=
  { a := 0, x := 0, y := 0, sp := 0, pc := 0,
    p := { n := false, v := false, d := false, i := true, z := false, c := false } }

/-- The defaults the spec gives for its test vectors (92 D4, D8, D9, D12, D16, D17, D18). The tests use them;
no state the machine starts in does. -/
def Params.vectorDefaults : Params :=
  { branchIrqDelay := false, xaaMagic := 0xEE, lxaMagic := 0xEE, shModel := .h1Glitch, hijackCycle := .four,
    stallReread := true, powerOn := PowerOn.default, openBusInit := 0x00 }

/-- The open parameters of this machine at reset (log 6): no body, so nothing can be proved of a value of it. -/
opaque Config.params : Params

/-- The byte a device or an undriven address answers in a read, once the input timeline is used up: a FREE VALUE
(93 I6, I7, I20; log 4), applied to the counter `draws` of the state. No body. -/
opaque Config.freeByte : Nat → Byte

/-- What a byte of plain memory that nothing has written reads as: DESIGN CHOICE, log 3, unsafe. -/
def Config.unlistedByte : Byte := 0x00

end Sys2Proof
end

