-- ==== Sys2Proof/Machine/State.lean ====
section
/-! DEFINITION. The state of the machine (spec/10_state.md), as plain data: the registers, the interrupt latches, the
micro-state between cycles, the counters, and what R38 calls the parameters of the step (the bus environment, the input
lines, the host's debugging), held beside it so that one step is a function of the state alone. -/

namespace Sys2Proof.Machine

/-- The programmer-visible registers (R20 to R25). -/
structure Regs where
  /-- The accumulator A (R20). -/
  a : Byte
  /-- The index register X (R21). -/
  x : Byte
  /-- The index register Y (R22). -/
  y : Byte
  /-- The stack pointer S; the stack is page $01 (R23). -/
  sp : Byte
  /-- The program counter PC (R24). -/
  pc : Addr
  /-- The stored flags of P (R25). -/
  p : Flags
deriving DecidableEq, Repr

/-- Which interrupt a sequence is: by its vector, chosen at the hijack sample (R308, R310). -/
inductive IntKind where
  | nmi
  | irq
deriving DecidableEq, Repr

/-- What is executing (R33). `halted` is the halted state of KIL (R288): the one home of R32's `halted`. -/
inductive Seq where
  | instr
  | intSeq (kind : IntKind)
  | resetSeq
  | halted
deriving DecidableEq, Repr

/-- The micro-state of the executing instruction (R33); dead at an instruction boundary. -/
structure Micro where
  /-- What is executing. -/
  seq : Seq
  /-- The opcode being executed, `IR`. -/
  ir : Byte
  /-- The index of the current cycle, 1 to 8. -/
  t : Nat
  /-- A base address assembled from operand bytes. -/
  base : Addr
  /-- The effective address; in BRK and the interrupt sequence, the vector's address (R310). -/
  ea : Addr
  /-- A zero-page pointer. -/
  ptr : Byte
  /-- The operand value read, or the value being modified. -/
  data : Byte
  /-- Whether an index addition or a branch crossed a page. -/
  crossed : Bool
  /-- Whether a branch condition holds. -/
  taken : Bool
deriving DecidableEq, Repr

/-- The interrupt latches (R30). -/
structure Latches where
  /-- The level of `nmi_line` at the previous end-of-cycle sample (R301). -/
  nmiPrev : Bool
  /-- The NMI edge latch (R301, R311). -/
  nmiDetected : Bool
  /-- The poll of the previous cycle (R304). -/
  pollPrev : Bool
  /-- The poll of the current cycle (R303). -/
  pollCur : Bool
  /-- The interrupt decision for the instruction boundary ahead (R305). -/
  takeInt : Bool
deriving DecidableEq, Repr

/-- The kind of a reset request (R350). -/
inductive ResetKind where
  | hard
  | soft
deriving DecidableEq, Repr

/-- The direction of a bus access (R52). -/
inductive Dir where
  | read
  | write
deriving DecidableEq, Repr

/-- The kind of a bus access (R52, D22). -/
inductive Kind where
  | opcode
  | operand
  | data
  | dummy
  | pointer
  | stack
  | vector
deriving DecidableEq, Repr

/-- A bus access (R52): for a read, `data` is the byte the bus answered. -/
structure Access where
  addr : Addr
  dir : Dir
  data : Byte
  kind : Kind
deriving DecidableEq, Repr

/-- What a part of the bus map is: plain memory that repeats every `span` bytes (0: it does not repeat) and takes
writes or not, or a device, which answers reads itself (R51, R58, R59). -/
inductive RegionKind where
  | memory (span : Nat) (writable : Bool)
  | device
deriving DecidableEq, Repr

/-- A part of the bus map: `size` addresses from `base` (R51). -/
structure Region where
  base : Nat
  size : Nat
  kind : RegionKind
deriving DecidableEq, Repr

/-- What reaches the CPU in one cycle: the lines and stall inputs of R5, the host's stop flag (R332), and the bytes that
others put on the bus, should they do so in this cycle. -/
structure CycleIn where
  /-- `nmi_line`, true when asserted (R301). -/
  nmiLine : Bool
  /-- `irq_line` (R302). -/
  irqLine : Bool
  /-- `stall_req` (R320). -/
  stallReq : Bool
  /-- `dma_drives_bus` (R320). -/
  dmaDrives : Bool
  /-- The byte the DMA controller's own access leaves on the bus, where it drives it (R57). -/
  dmaData : Byte
  /-- The host sets its stop flag in this cycle (R332). -/
  stop : Bool
  /-- The byte a device, or an undriven address, answers to a read in this cycle (R52, R59). -/
  reply : Byte
deriving DecidableEq, Repr

/-- What a breakpoint matches (R330). -/
inductive BreakOn where
  | read
  | write
  | exec
deriving DecidableEq, Repr

/-- A breakpoint of the host (R330). -/
structure Breakpoint where
  addr : Addr
  on : BreakOn
  ignoreDummy : Bool
deriving DecidableEq, Repr

/-- What `poll_break_reason()` tells the host (R330). R330 and D26 only say that a reason is recorded; that it is the address
and the read, write or exec of the match, and neither the access kind, the byte nor the breakpoint, and that a stop by the
host's flag leaves none, is DESIGN CHOICE (log 26). -/
structure BreakReason where
  addr : Addr
  on : BreakOn
deriving DecidableEq, Repr

/-- The registers and the micro-state: what the action of a skeleton's cycle may change (R120). -/
structure Cpu extends Regs, Micro
deriving DecidableEq, Repr

/-- The state of the machine. -/
structure State extends Cpu, Latches where
  /-- A reset request the CPU has not started yet (R31). -/
  rstPending : Option ResetKind
  /-- The cycle counter, a u64 (R34). -/
  cycles : BitVec 64
  /-- The last byte the CPU's data bus carried (R35, R57). -/
  busLatch : Byte
  /-- The DMA controller holds the CPU in this cycle (R36, R320). -/
  stalled : Bool
  /-- Plain memory: the listed bytes, by rising address, none equal to the byte an unlisted address reads as. -/
  mem : List Host.Cell
  /-- The bus map (R51). -/
  busMap : List Region
  /-- The parameters of R8. -/
  params : Params
  /-- The inputs of the cycles to come, the next one first (R5, R38). -/
  inputs : List CycleIn
  /-- The model's own counter of free bytes (log 4). -/
  draws : Nat
  /-- The CPU's bus accesses so far, each with the count of `cycles` at which it took place, the latest first (log 21). -/
  busLog : List (BitVec 64 × Access)
  /-- The host's breakpoints (R330). -/
  breakpoints : List Breakpoint
  /-- The break reason not yet polled (R330). -/
  breakReason : Option BreakReason
  /-- The host's stop flag (R332). -/
  stop : Bool
deriving DecidableEq, Repr

/-- The CPU raises no fault: it has no illegal-instruction, alignment, bus-error or privilege trap, and a model must
not add one (R13, R316; 93 I22). So there is no constructor, and nothing raises one. -/
inductive Fault where
deriving DecidableEq, Repr

/-- Why an instruction has no meaning in this model. -/
inductive Refusal where
  /-- Raised by an arm of `exec` whose instruction has no meaning yet, by its mnemonic. Safe: the machine stops where the
  hardware goes on. No arm raises it in this model. -/
  | notModelled (mnemonic : String)
deriving DecidableEq, Repr

/-- What an instruction or a step answers. -/
abbrev Result := Host.Outcome State Fault Refusal

/-- The bus map of R51 (log 2): 2 KiB of RAM mirrored up to $1FFF, the devices of $2000 to $401F, and the mapper's
range as plain memory (DESIGN CHOICE, unsafe). -/
def nesMap : List Region :=
  [{ base := 0x0000, size := 0x2000, kind := .memory 0x0800 true },
   { base := 0x2000, size := 0x2020, kind := .device },
   { base := 0x4020, size := 0xBFE0, kind := .memory 0 true }]

/-- The flat 64 KiB harness of 92 D21, on which the vectors of 95_test_vectors.md run. -/
def flatMap : List Region := [{ base := 0x0000, size := 0x10000, kind := .memory 0 true }]

/-- The machine right after the host's `reset(hard)` (R350, R351, R353 to R355): the reset sequence has not run yet. The
power-on registers and the open-bus latch have the defaults of D12 and D4 (DESIGN CHOICE, log 7), the other parameters
are open (log 6), and the rest is the model's own (log 2, 3, 5, 8). -/
def State.reset : State where
  a := PowerOn.default.a
  x := PowerOn.default.x
  y := PowerOn.default.y
  sp := PowerOn.default.sp
  pc := PowerOn.default.pc
  p := PowerOn.default.p
  seq := .instr
  ir := 0x00
  t := 1
  base := 0x0000
  ea := 0x0000
  ptr := 0x00
  data := 0x00
  crossed := false
  taken := false
  nmiPrev := false
  nmiDetected := false
  pollPrev := false
  pollCur := false
  takeInt := false
  rstPending := some .hard
  cycles := 0
  busLatch := 0x00
  stalled := false
  mem := []
  busMap := nesMap
  params := { Config.params with powerOn := PowerOn.default, openBusInit := 0x00 }
  inputs := []
  draws := 0
  busLog := []
  breakpoints := []
  breakReason := none
  stop := false

end Sys2Proof.Machine
end

