-- ==== Sys2Proof/Machine/Flags.lean ====
section
/-! DEFINITION. The processor status as a byte (spec/10_state.md R25 to R27) and every flag computation: the helpers of
42_arith_logic.md R160 to R162. -/

namespace Sys2Proof.Machine

/-- A flag as a bit, 1 or 0 (R10). -/
def bit (b : Bool) : Byte := if b then 1 else 0

/-- `pack(B)` (R26): the byte written when P is pushed. Bit 5 is 1, bit 4 is B. -/
def packFlags (p : Flags) (b : Bool) : Byte :=
  bit p.n <<< 7 ||| bit p.v <<< 6 ||| 1 <<< 5 ||| bit b <<< 4 ||| bit p.d <<< 3 ||| bit p.i <<< 2 ||| bit p.z <<< 1 |||
    bit p.c

/-- `unpack` (R27): the six stored flags from a byte loaded into P; its bits 5 and 4 are discarded. -/
def unpackFlags (m : Byte) : Flags where
  n := m.getLsbD 7
  v := m.getLsbD 6
  d := m.getLsbD 3
  i := m.getLsbD 2
  z := m.getLsbD 1
  c := m.getLsbD 0

/-- `setNZ(v)` (R11). -/
def flagsNZ (p : Flags) (v : Byte) : Flags := { p with n := v.getLsbD 7, z := v == 0 }

/-- `setNZ(v)` on the registers (R11). -/
def Regs.setNZ (r : Regs) (v : Byte) : Regs := { r with p := flagsNZ r.p v }

/-- The nine-bit sum of `adc8` (R160). -/
def adcSum (a m : Byte) (c : Bool) : BitVec 9 := a.zeroExtend 9 + m.zeroExtend 9 + (if c then 1 else 0)

/-- `adc8(a, m, c)` (R160): the binary add with carry, with the flags it writes. D is not read (R29). -/
def adc8 (a m : Byte) (p : Flags) : Byte × Flags :=
  let sum := adcSum a m p.c
  let r : Byte := sum.extractLsb' 0 8
  (r, flagsNZ { p with c := sum.getLsbD 8, v := (~~~(a ^^^ m) &&& (a ^^^ r)).getLsbD 7 } r)

/-- `cmp8(r, m)` (R161): writes N, Z and C. -/
def cmp8 (r m : Byte) (p : Flags) : Flags :=
  { p with c := m.ule r, z := r == m, n := (r - m).getLsbD 7 }

/-- `asl(v)` (R162). -/
def asl8 (v : Byte) (p : Flags) : Byte × Flags :=
  let r := v <<< 1
  (r, flagsNZ { p with c := v.getLsbD 7 } r)

/-- `lsr(v)` (R162). -/
def lsr8 (v : Byte) (p : Flags) : Byte × Flags :=
  let r := v >>> 1
  (r, flagsNZ { p with c := v.getLsbD 0 } r)

/-- `rol(v)` (R162): the carry before the instruction enters at bit 0. -/
def rol8 (v : Byte) (p : Flags) : Byte × Flags :=
  let r := v <<< 1 ||| bit p.c
  (r, flagsNZ { p with c := v.getLsbD 7 } r)

/-- `ror(v)` (R162): the carry before the instruction enters at bit 7. -/
def ror8 (v : Byte) (p : Flags) : Byte × Flags :=
  let r := v >>> 1 ||| bit p.c <<< 7
  (r, flagsNZ { p with c := v.getLsbD 0 } r)

end Sys2Proof.Machine
end

