-- ==== Sys2Proof/Machine/Memory.lean ====
section
/-! DEFINITION. Plain memory: a list of bytes by address in one canonical form, and the bus map that says which addresses
reach it (spec/20_memory.md R50, R51, R59). -/

namespace Sys2Proof.Machine

/-- The byte a memory holds at a cell. -/
def Memory.read : List Host.Cell → Nat → Byte
  | [], _ => Config.unlistedByte
  | (k, v) :: m, a => if k = a then v else Memory.read m a

/-- A memory without a cell: it reads there as an unlisted one. -/
def Memory.erase (m : List Host.Cell) (a : Nat) : List Host.Cell := m.filter (fun c => c.1 != a)

/-- Listing a cell that is not listed, in front of the first one with a larger address. -/
def Memory.insert : List Host.Cell → Nat → Byte → List Host.Cell
  | [], a, v => [(a, v)]
  | (k, w) :: m, a, v => if a < k then (a, v) :: (k, w) :: m else (k, w) :: Memory.insert m a v

/-- Writing a byte at a cell. Writing what an unlisted cell reads as takes the cell off the list. -/
def Memory.write (m : List Host.Cell) (a : Nat) (v : Byte) : List Host.Cell :=
  if v = Config.unlistedByte then Memory.erase m a else Memory.insert (Memory.erase m a) a v

/-- The canonical form: the addresses rise strictly, lie in the 64 KiB space, and no entry says what an unlisted
address reads as anyway. -/
abbrev Memory.wf (m : List Host.Cell) : Prop :=
  m.Pairwise (fun c d => c.1 < d.1) ∧ ∀ c ∈ m, c.1 < 65536 ∧ c.2 ≠ Config.unlistedByte

/-- Whether an address lies in a region. -/
def Region.holds (r : Region) (a : Addr) : Bool := r.base ≤ a.toNat && a.toNat < r.base + r.size

/-- The memory cell an address of a region selects, if the region is plain memory: addresses `span` apart share one. -/
def Region.cell? (r : Region) (a : Addr) : Option Nat :=
  match r.kind with
  | .memory span _ => some (r.base + (a.toNat - r.base) % span)
  | .device => none

/-- Whether a region is plain memory that takes writes. -/
def Region.writable (r : Region) : Bool :=
  match r.kind with
  | .memory _ w => w
  | .device => false

/-- The region of an address: the first of the map that holds it. -/
def regionOf (map : List Region) (a : Addr) : Option Region := map.find? (·.holds a)

/-- The memory cell an address selects, or none: a device, or no device at all (R59). -/
def cellOf (map : List Region) (a : Addr) : Option Nat := (regionOf map a).bind (·.cell? a)

/-- Whether a write at an address reaches plain memory. -/
def writableAt (map : List Region) (a : Addr) : Bool := (regionOf map a).any (·.writable)

/-- The byte plain memory holds at an address, none where a device answers. -/
def peekIn (map : List Region) (m : List Host.Cell) (a : Addr) : Option Byte := (cellOf map a).map (Memory.read m)

/-- Plain memory after a write at an address: a byte stored where memory takes writes, no change elsewhere
(R59; log 19). -/
def storeIn (map : List Region) (m : List Host.Cell) (a : Addr) (v : Byte) : List Host.Cell :=
  match cellOf map a with
  | some k => if writableAt map a then Memory.write m k v else m
  | none => m

/-- The memory cell an address selects in a state. -/
def State.cell? (s : State) (a : Addr) : Option Nat := cellOf s.busMap a

/-- Whether a write at an address reaches plain memory in a state. -/
def State.writable (s : State) (a : Addr) : Bool := writableAt s.busMap a

/-- The byte plain memory holds at an address, none where a device answers: a look without a bus access. -/
def State.peek (s : State) (a : Addr) : Option Byte := peekIn s.busMap s.mem a

/-- What a write does to plain memory, and nothing else. -/
def State.store (s : State) (a : Addr) (v : Byte) : State := { s with mem := storeIn s.busMap s.mem a v }

/-- Whether a write at `w` changes the memory byte that a later read at `a` finds: both select one cell of memory that
takes the write. -/
def State.overwrites (s : State) (w a : Addr) : Bool :=
  (s.cell? a).isSome && s.cell? a == s.cell? w && s.writable w

end Sys2Proof.Machine
end

