-- ==== Sys2Proof/Machine/Ops.lean ====
section
/-! DEFINITION. One CPU cycle (spec/60_exceptions.md R324) and what it is made of: the bus access, the end-of-cycle
interrupt sample, the stall, the end of an instruction; the run of a skeleton's cycles; and the sequences that push PC and P,
with the return that pulls them. -/

namespace Sys2Proof.Machine

/-! ### Where the CPU is -/

/-- The halted state of KIL (R32, R288). -/
def State.halted (s : State) : Bool := s.seq == .halted

/-- An instruction boundary: no reset is waiting to start, the CPU is not halted, and the next cycle is the first one of
an instruction, or of the interrupt sequence that `takeInt` puts in its place (R16, R305). A CPU that the DMA controller holds
in an opcode fetch is not at one (R36). -/
def State.atBoundary (s : State) : Bool := s.rstPending == none && s.seq == .instr && s.t == 1 && !s.stalled

/-! ### The inputs of a cycle -/

/-- A cycle past the end of the input timeline: no line is active (log 5), and a device answers a free byte (log 4). -/
def idleInput (n : Nat) : CycleIn where
  nmiLine := false
  irqLine := false
  stallReq := false
  dmaDrives := false
  dmaData := 0
  stop := false
  reply := Config.freeByte n

/-- What reaches the CPU `n` cycles from now (R5). -/
def State.inputAt (s : State) (n : Nat) : CycleIn := s.inputs.getD n (idleInput (s.draws + n))

/-- What reaches the CPU in the cycle at hand (R5). -/
def State.input (s : State) : CycleIn := s.inputAt 0

/-! ### The bus port -/

/-- A bus access a cycle asks for (R52). -/
inductive Req where
  | read (addr : Addr) (kind : Kind)
  | write (addr : Addr) (data : Byte) (kind : Kind)
deriving DecidableEq, Repr

/-- Whether the access is a read: only a read can be stalled (R320). -/
def Req.isRead : Req → Bool
  | .read _ _ => true
  | .write _ _ _ => false

/-- The address of the access. -/
def Req.addr : Req → Addr
  | .read a _ => a
  | .write a _ _ => a

/-- The direction of the access. -/
def Req.dir : Req → Dir
  | .read _ _ => .read
  | .write _ _ _ => .write

/-- The kind of the access. -/
def Req.kind : Req → Kind
  | .read _ k => k
  | .write _ _ k => k

/-- The byte the bus answers to a read in the cycle at hand (R52, R59): what plain memory holds there, or what the device
or the undriven bus puts on it. -/
def State.answerNow (s : State) (a : Addr) : Byte := (s.peek a).getD s.input.reply

/-- Whether a breakpoint matches an access (R330): not an opcode fetch, and not a dummy access where those are ignored. -/
def Breakpoint.hits (b : Breakpoint) (acc : Access) : Bool :=
  b.addr == acc.addr && !(b.ignoreDummy && acc.kind == .dummy) &&
    match b.on, acc.dir with
    | .read, .read => acc.kind != .opcode
    | .write, .write => true
    | _, _ => false

/-- The direction of a break, from the access it matched. -/
def Access.breakOn (acc : Access) : BreakOn :=
  match acc.dir with
  | .read => .read
  | .write => .write

/-- Whether any breakpoint matches an access (R330). -/
def State.breaksOn (s : State) (acc : Access) : Bool := s.breakpoints.any (·.hits acc)

/-- What an access leaves beside its effect on memory: the open-bus latch (R57), the record of the bus port, and a break
where a breakpoint matches (R330, log 14). -/
def State.noteAccess (s : State) (acc : Access) : State :=
  { s with
    busLatch := acc.data
    busLog := (s.cycles, acc) :: s.busLog
    breakReason := if s.breaksOn acc then some { addr := acc.addr, on := acc.breakOn } else s.breakReason
    stop := s.stop || s.breaksOn acc }

/-- The byte an access carries: for a read the byte that is given for it, or the bus's answer; for a write the byte
written (R52). -/
def State.byteOf (s : State) (given : Option Byte) : Req → Byte
  | .read a _ => given.getD (s.answerNow a)
  | .write _ v _ => v

/-- A bus access (R52): a write reaches plain memory first, and both leave their traces. -/
def State.perform (s : State) (given : Option Byte) (r : Req) : State :=
  match r with
  | .read a k => { s with stalled := false }.noteAccess { addr := a, dir := .read, data := s.byteOf given r, kind := k }
  | .write a v k =>
    { s.store a v with stalled := false }.noteAccess { addr := a, dir := .write, data := v, kind := k }

/-! ### The end of a cycle -/

/-- The NMI edge detector, run at the end of every cycle (R301). -/
def State.edge (s : State) : State :=
  { s with
    nmiDetected := s.nmiDetected || (s.input.nmiLine && !s.nmiPrev)
    nmiPrev := s.input.nmiLine }

/-- The poll of the cycle and the shift of the poll history (R303, R304). -/
def State.pollShift (s : State) : State :=
  { s with
    pollPrev := s.pollCur
    pollCur := s.nmiDetected || (s.input.irqLine && !s.p.i) }

/-- The cycle is over: it is counted (R34), its inputs are gone, and the host's stop flag is looked at (R332). -/
def State.tick (s : State) : State :=
  { s with
    cycles := s.cycles + 1
    draws := s.draws + 1
    stop := s.stop || s.input.stop
    inputs := s.inputs.tail }

/-- What else a skeleton asks for at the end of a cycle. -/
inductive Hook where
  | none
  /-- Cycle 2 of a conditional branch (R306). -/
  | branch
  /-- A cycle at whose end the vector may be chosen (R310). -/
  | vector (cycle : HijackCycle)
deriving DecidableEq, Repr

/-- Whether the branch at hand is taken to a target in the page of the next instruction; asked at the end of its cycle 2,
when `data` holds the offset (R306). -/
def Cpu.takenInPage (c : Cpu) : Bool := c.taken && hi8 (c.pc + sext16 c.data) == hi8 c.pc

/-- R306: a taken branch in the page forgets an interrupt that became pending in its cycle 2, if `P_BRANCH_IRQ_DELAY`. -/
def State.branchHook (s : State) : State :=
  { s with
    pollCur := s.pollCur && !(!s.pollPrev && s.takenInPage && s.params.branchIrqDelay) }

/-- The kind of a sequence whose vector has just been chosen for an NMI: BRK stays an instruction. -/
def Seq.hijack : Seq → Seq
  | .intSeq _ => .intSeq .nmi
  | q => q

/-- The kind of a sequence whose vector has just been chosen with no NMI detected. -/
def Seq.plain : Seq → Seq
  | .intSeq _ => .intSeq .irq
  | q => q

/-- R310: at the end of cycle `P_HIJACK_CYCLE` of an interrupt sequence or of BRK an NMI detected so far takes the vector,
$FFFA, and is cleared; otherwise the vector is $FFFE, which the skeletons have put into `ea` before. -/
def State.vectorHook (s : State) (k : HijackCycle) : State :=
  { s with
    ea := if s.nmiDetected && s.params.hijackCycle == k then 0xFFFA else s.ea
    seq := if s.nmiDetected && s.params.hijackCycle == k then s.seq.hijack else
      if !s.nmiDetected && s.params.hijackCycle == k then s.seq.plain else s.seq
    nmiDetected := s.nmiDetected && !(s.params.hijackCycle == k) }

/-- A hook's effect. -/
def State.hook (s : State) : Hook → State
  | .none => s
  | .branch => s.branchHook
  | .vector k => s.vectorHook k

/-! ### The cycles of a skeleton -/

/-- Which rule applies when a cycle is the last one: the interrupt decision (R305), none (R307), or the halted state. -/
inductive Ending where
  | poll
  | noPoll
  | halt
deriving DecidableEq, Repr

/-- One row of a skeleton of 40_addressing.md: the access, the action on registers and micro-state at the end of the cycle
(R120), and what else the engine must know of it. -/
structure Cycle where
  /-- The access: address, direction, kind and, in a write, the byte. -/
  req : Params → Cpu → Req
  /-- The action, given the byte on the bus. -/
  act : Params → Byte → Cpu → Cpu := fun _ _ c => c
  /-- Whether the instruction is done after this cycle, asked after the action: the rows that follow are then not
  performed (R107, R110, R112). -/
  fin : Cpu → Bool := fun _ => false
  /-- Whether the cycle fetches a byte of the instruction. -/
  fetch : Bool := false
  /-- The byte the bus answers in this cycle, where it is known before (log 11). -/
  given : Option Byte := none
  /-- What else happens at the end of the cycle. -/
  hook : Hook := .none
  /-- Which rule applies, if this is the last cycle. -/
  ending : Ending := .poll

/-- The access of a cycle in a state. -/
def State.reqOf (s : State) (c : Cycle) : Req := c.req s.params s.toCpu

/-- A cycle up to its end-of-cycle part: the access, then the action, then R301, R303, R304 and the hook (R120, R324). -/
def State.accessPhase (s : State) (c : Cycle) : State :=
  ({ s.perform c.given (s.reqOf c) with
     toCpu := c.act s.params (s.byteOf c.given (s.reqOf c)) s.toCpu }.edge.pollShift).hook c.hook

/-- Whether an exec breakpoint matches: the next cycle is an opcode fetch at PC (R330). -/
def State.breaksAtFetch (s : State) : Bool :=
  !s.takeInt && s.breakpoints.any (fun b => b.on == .exec && b.addr == s.pc)

/-- Arriving at an instruction boundary, where an exec breakpoint is reported (R330, log 14). -/
def State.arrive (s : State) : State :=
  { s with
    seq := .instr
    t := 1
    breakReason := if s.breaksAtFetch then some { addr := s.pc, on := .exec } else s.breakReason
    stop := s.stop || s.breaksAtFetch }

/-- The end of the last cycle of an instruction or a sequence (R305, R307, R324; log 10). -/
def State.finish (s : State) : Ending → State
  | .poll => { s with takeInt := s.pollPrev }.arrive
  | .noPoll => { s with takeInt := false }.arrive
  | .halt => { s with seq := .halted, t := 1 }

/-- The next cycle of the same instruction or sequence. -/
def State.nextT (s : State) : State := { s with t := s.t + 1 }

/-- A CPU cycle that is not stalled (R324); `last` says that its skeleton has no further row. -/
def State.normalCycle (s : State) (c : Cycle) (last : Bool) : State :=
  let s' := s.accessPhase c
  (if last || c.fin s'.toCpu then s'.finish c.ending else s'.nextT).tick

/-- The bus in a stall cycle (R320, R57): the CPU reads the same address again, as a dummy read, if `P_STALL_REREAD` says
so and the DMA controller does not drive the bus; if it does, its own access sets the latch. -/
def State.stallBus (s : State) (a : Addr) : State :=
  if s.input.dmaDrives then { s with busLatch := s.input.dmaData }
  else if s.params.stallReread then
    s.noteAccess { addr := a, dir := .read, data := s.answerNow a, kind := .dummy }
  else s

/-- A stall cycle (R320): nothing of the instruction advances; the edge detector runs and the cycle is counted. -/
def State.stallCycle (s : State) (c : Cycle) : State :=
  { s.stallBus (s.reqOf c).addr with stalled := true }.edge.tick

/-- A halted cycle (R288, R319, R324): no CPU access, no poll. -/
def State.haltedCycle (s : State) : State :=
  { s with
    stalled := s.input.stallReq
    busLatch := if s.input.stallReq && s.input.dmaDrives then s.input.dmaData else s.busLatch }.edge.tick

/-- The stall cycles before a cycle that reads: as many as `stall_req` is true in a row, unless the host stops the run. -/
def stallRun (c : Cycle) : List CycleIn → State → State
  | [], s => s
  | i :: is, s => if s.stop || !i.stallReq then s else stallRun c is (s.stallCycle c)

/-- The state in which a cycle's access can take place: a write is never stalled (R320). -/
def State.waitBus (s : State) (c : Cycle) : State := if (s.reqOf c).isRead then stallRun c s.inputs s else s

/-- The cycles of a skeleton, one after the other, each with the stall cycles before it, to the end of the instruction or
sequence (R329), or until the host stops the run after a cycle (R332). -/
def runSeq : List Cycle → State → State
  | [], s => { s with seq := .instr, t := 1 }
  | c :: cs, s =>
    let s₁ := s.waitBus c
    if s₁.stop then s₁
    else
      let s₂ := s₁.accessPhase c
      if cs.isEmpty || c.fin s₂.toCpu then (s₂.finish c.ending).tick
      else
        let s₃ := s₂.nextT.tick
        if s₃.stop then s₃ else runSeq cs s₃

/-- The cycles of a skeleton with the bytes its fetch cycles receive. -/
def supply : List Byte → List Cycle → List Cycle
  | b :: bs, c :: cs => if c.fetch then { c with given := some b } :: supply bs cs else c :: supply (b :: bs) cs
  | _, cs => cs

/-- The start of an instruction: cycle 1, with the host's stop flag down (log 12, 13). -/
def State.begin (s : State) : State := { s with seq := .instr, t := 1, stop := false }

/-- Running an instruction: its bytes arrive in the fetch cycles of its skeleton (R101, R329; log 11). -/
def runInstr (bytes : List Byte) (skeleton : List Cycle) (s : State) : Host.Outcome State Fault Refusal :=
  .next (runSeq (supply bytes skeleton) s.begin)

/-! ### Cycles that several skeletons share -/

/-- Cycle 1 of every instruction (R101): the opcode fetch. -/
def opcodeFetch : Cycle where
  req := fun _ c => .read c.pc .opcode
  act := fun _ b c => { c with pc := c.pc + 1, ir := b }
  fetch := true

/-- The fetch of an operand byte at PC, which PC then passes, with what is done with it. -/
def operandFetch (act : Params → Byte → Cpu → Cpu) : Cycle where
  req := fun _ c => .read c.pc .operand
  act := fun q b c => act q b { c with pc := c.pc + 1 }
  fetch := true

/-- A dummy read at PC, which stays (R102, R114, R309). -/
def dummyPc : Cycle where
  req := fun _ c => .read c.pc .dummy

/-- A dummy read of the stack's top byte: an internal cycle (R116). -/
def dummyStack : Cycle where
  req := fun _ c => .read (stackAddr c.sp) .dummy

/-- The dummy read of the stack in which a pull moves S up (R114, R117, R118). -/
def pullStart : Cycle where
  req := fun _ c => .read (stackAddr c.sp) .dummy
  act := fun _ _ c => { c with sp := c.sp + 1 }

/-- A push (R23): the byte is written at `cat($01, S)`, and S goes down by one. -/
def pushCycle (v : Cpu → Byte) (act : Cpu → Cpu := fun c => c) : Cycle where
  req := fun _ c => .write (stackAddr c.sp) (v c) .stack
  act := fun _ _ c => act { c with sp := c.sp - 1 }

/-- The read of a pull (R23), once S points at the byte, with what is done with it. -/
def pullCycle (act : Byte → Cpu → Cpu) : Cycle where
  req := fun _ c => .read (stackAddr c.sp) .stack
  act := fun _ b c => act b c

/-! ### Taking an interrupt, a BRK or a reset, and returning (R309 to R314) -/

/-- The two reads of a vector, low byte first (R309, R119): PC becomes the word found. -/
def vectorFetch (vec : Cpu → Addr) : List Cycle :=
  [{ req := fun _ c => .read (vec c) .vector
     act := fun _ b c => { c with data := b }
     ending := .noPoll },
   { req := fun _ c => .read (vec c + 1) .vector
     act := fun _ b c => { c with pc := cat b c.data }
     ending := .noPoll }]

/-- Taking an exception, from cycle 3 on: PCH, PCL and `pack(B)` are pushed, I is set, the vector is chosen at the end of
cycle `P_HIJACK_CYCLE`, and PC is loaded from it (R309, R310, R313; BRK: R119). -/
def exceptionEntry (b : Bool) : List Cycle :=
  [pushCycle (fun c => hi8 c.pc) (fun c => { c with ea := 0xFFFE }),
   { pushCycle (fun c => lo8 c.pc) with hook := .vector .four },
   { pushCycle (fun c => packFlags c.p b) (fun c => { c with p := { c.p with i := true } }) with hook := .vector .five }] ++
  vectorFetch (·.ea)

/-- The NMI/IRQ sequence (R309): the suppressed opcode fetch, a dummy read, and the entry with B = 0. -/
def interruptSequence : List Cycle := dummyPc :: dummyPc :: exceptionEntry false

/-- A push of the reset sequence, which reads instead of writing (R312). -/
def suppressedPush (act : Cpu → Cpu := fun c => c) : Cycle where
  req := fun _ c => .read (stackAddr c.sp) .dummy
  act := fun _ _ c => act { c with sp := c.sp - 1 }

/-- The reset sequence (R312): it writes nothing, lowers S by 3, sets I and loads PC from $FFFC. -/
def resetSequence : List Cycle :=
  [dummyPc, dummyPc, suppressedPush, suppressedPush,
   suppressedPush (fun c => { c with p := { c.p with i := true } })] ++
  vectorFetch (fun _ => 0xFFFC)

/-- The return from an exception, from cycle 3 of RTI on (R118, R314): S moves up, then P, PCL and PCH are pulled. -/
def exceptionReturn : List Cycle :=
  [pullStart,
   pullCycle (fun b c => { c with p := unpackFlags b, sp := c.sp + 1 }),
   pullCycle (fun b c => { c with data := b, sp := c.sp + 1 }),
   pullCycle (fun b c => { c with pc := cat b c.data })]

/-! ### What the bus will answer, for the instruction about to be fetched -/

/-- How many cycles from now a read takes place that follows accesses in the given directions: each access waits while
`stall_req` holds, if it is a read, and so does the read itself (R320). -/
def delay : List Dir → List CycleIn → Nat
  | [], i :: is => if i.stallReq then 1 + delay [] is else 0
  | .read :: ds, i :: is => if i.stallReq then 1 + delay (.read :: ds) is else 1 + delay ds is
  | .write :: ds, _ :: is => 1 + delay ds is
  | ds, [] => ds.length

/-- The byte the bus answers to a read at an address that follows accesses in the given directions, none of which writes
that address: plain memory's byte, or the device's in the cycle of that read. -/
def State.answer (s : State) (pre : List Dir) (a : Addr) : Byte :=
  (s.peek a).getD (s.inputAt (delay pre s.inputs)).reply

/-! ### The start of a cycle -/

/-- The start of a cycle (R324): a reset request starts its sequence, whatever was running; else, at a boundary, the
decision taken there starts the interrupt sequence (R305, R308; log 10). -/
def State.startCycle (s : State) : State :=
  if s.rstPending.isSome then { s with rstPending := none, seq := .resetSeq, t := 1 }
  else if s.seq == .instr && s.t == 1 && s.takeInt then
    { s with takeInt := false, seq := .intSeq (if s.nmiDetected then .nmi else .irq) }
  else s

end Sys2Proof.Machine
end

