-- ==== Sys2Proof/Machine/Operands.lean ====
section
/-! DEFINITION. The operand forms: the effective address of every addressing mode (spec/30_encoding.md R82) and the cycle
skeletons of spec/40_addressing.md R102 to R119, each a list of cycles over the operation of the instruction. -/

namespace Sys2Proof.Machine

/-! ### Effective addresses (R82, R56) -/

/-- zeropage,X and zeropage,Y: the sum stays in page $00 (R105). -/
def zpIndexed (zp idx : Byte) : Addr := zext16 (zp + idx)

/-- absolute,X, absolute,Y and the last step of (zeropage),Y: a 16-bit sum that wraps (R107, R110). -/
def indexed (base : Addr) (idx : Byte) : Addr := base + zext16 idx

/-- Whether adding an index to the low byte of a base carries into its high byte: `lo + idx > 255` (R107). -/
def crosses (lo idx : Byte) : Bool := 255 < lo.toNat + idx.toNat

/-- The unfixed address (R107): the index added to the low byte, with no carry into the high byte. -/
def unfixed (base : Addr) (idx : Byte) : Addr := cat (hi8 base) (lo8 base + idx)

/-- The address of the high byte of a 16-bit pointer of JMP (ind): no carry into the pointer's high byte (R113, R221). -/
def samePageNext (p : Addr) : Addr := cat (hi8 p) (lo8 p + 1)

/-- The target of a branch: the offset is signed and counts from the next instruction (R112, R226). -/
def branchTarget (pcNext : Addr) (rel : Byte) : Addr := pcNext + sext16 rel

/-! ### The operations a skeleton takes -/

/-- The operation of a read-class instruction: it consumes the operand `M`. -/
abbrev ReadOp := Byte → Regs → Regs

/-- The operation of a read-modify-write instruction: the new value from the old one, and the registers and flags. -/
abbrev RmwOp := Byte → Regs → Byte × Regs

/-- The index register of an addressing mode. -/
abbrev Index := Regs → Byte

/-- Applying a function to the registers alone. -/
def Cpu.onRegs (c : Cpu) (f : Regs → Regs) : Cpu := { c with toRegs := f c.toRegs }

/-! ### The rows that assemble an address -/

/-- `zp <- byte`: the zero-page byte, which is the effective address until it is indexed (R104). -/
def fetchZp : Cycle := operandFetch fun _ b c => { c with ptr := b, ea := zext16 b }

/-- `lo <- byte` (R106). -/
def fetchLo : Cycle := operandFetch fun _ b c => { c with base := zext16 b }

/-- `hi <- byte`, and the effective address without an index (R106). -/
def fetchHi : Cycle := operandFetch fun _ b c =>
  { c with base := cat b (lo8 c.base), ea := cat b (lo8 c.base) }

/-- The indexing of a base whose high byte has just arrived: the effective address, and whether a page is crossed (R107). -/
def Cpu.indexBase (c : Cpu) (hi : Byte) (idx : Index) : Cpu :=
  { c with
    base := cat hi (lo8 c.base)
    ea := indexed (cat hi (lo8 c.base)) (idx c.toRegs)
    crossed := crosses (lo8 c.base) (idx c.toRegs) }

/-- `hi <- byte`, and the indexed effective address (R107). -/
def fetchHiIndexed (idx : Index) : Cycle := operandFetch fun _ b c => c.indexBase b idx

/-- Cycle 3 of zeropage,X and zeropage,Y (R105): a dummy read at the unindexed address. -/
def zpIndexCycle (idx : Index) : Cycle where
  req := fun _ c => .read (zext16 c.ptr) .dummy
  act := fun _ _ c => { c with ea := zpIndexed c.ptr (idx c.toRegs) }

/-- Cycle 3 of (zeropage,X) (R109): a dummy read, then the pointer is indexed. -/
def ptrIndexCycle : Cycle where
  req := fun _ c => .read (zext16 c.ptr) .dummy
  act := fun _ _ c => { c with ptr := c.ptr + c.x }

/-- The low byte of a zero-page pointer (R109, R110). -/
def ptrLo : Cycle where
  req := fun _ c => .read (zext16 c.ptr) .pointer
  act := fun _ b c => { c with base := zext16 b }

/-- The high byte of a zero-page pointer, which never leaves page $00 (R109). -/
def ptrHi : Cycle where
  req := fun _ c => .read (zext16 (c.ptr + 1)) .pointer
  act := fun _ b c => { c with base := cat b (lo8 c.base), ea := cat b (lo8 c.base) }

/-- The high byte of a zero-page pointer, then the index Y (R110). -/
def ptrHiIndexed : Cycle where
  req := fun _ c => .read (zext16 (c.ptr + 1)) .pointer
  act := fun _ b c => c.indexBase b Regs.y

/-- The dummy read at the unfixed address of the write and read-modify-write classes, crossed or not (R108, R111). -/
def dummyUnfixed (idx : Index) : Cycle where
  req := fun _ c => .read (unfixed c.base (idx c.toRegs)) .dummy

/-! ### The rows that perform the operation -/

/-- The DATA read of the read class: `M <- byte`, then OP(M) (R104). -/
def readCycle (op : ReadOp) : Cycle where
  req := fun _ c => .read c.ea .data
  act := fun _ b c => { c with data := b }.onRegs (op b)

/-- The read at the unfixed address of the read class (R107, R110): the real read and the end if no page is crossed, a
dummy read if one is. -/
def readUnfixed (idx : Index) (op : ReadOp) : Cycle where
  req := fun _ c => .read (unfixed c.base (idx c.toRegs)) (if c.crossed then .dummy else .data)
  act := fun _ b c => if c.crossed then c else { c with data := b }.onRegs (op b)
  fin := fun c => !c.crossed

/-- The DATA write of the write class: `W` at the effective address (R104). -/
def writeCycle (w : Regs → Byte) : Cycle where
  req := fun _ c => .write c.ea (w c.toRegs) .data

/-- The three last rows of a read-modify-write (R104, R122): the data read, the write of the unchanged value, and the
write of the new one, with which flags and registers take effect (R120). -/
def rmwTail (f : RmwOp) : List Cycle :=
  [{ req := fun _ c => .read c.ea .data
     act := fun _ b c => { c with data := b } },
   { req := fun _ c => .write c.ea c.data .dummy },
   { req := fun _ c => .write c.ea (f c.data c.toRegs).1 .data
     act := fun _ _ c => c.onRegs fun r => (f c.data r).2 }]

/-! ### The skeletons -/

/-- Implied and accumulator mode (R102). -/
def impliedOp (f : Regs → Regs) : List Cycle :=
  [opcodeFetch, { dummyPc with act := fun _ _ c => c.onRegs f }]

/-- Immediate mode (R103), for an operation that reads a parameter (R256, R262). -/
def immediateWith (op : Params → ReadOp) : List Cycle :=
  [opcodeFetch, operandFetch fun q b c => { c with data := b }.onRegs (op q b)]

/-- Immediate mode (R103). -/
def immediate (op : ReadOp) : List Cycle := immediateWith fun _ => op

/-- The rows up to the effective address, of each mode. -/
def zpAddress : List Cycle := [opcodeFetch, fetchZp]

/-- zeropage,X and zeropage,Y (R105). -/
def zpIndexedAddress (idx : Index) : List Cycle := [opcodeFetch, fetchZp, zpIndexCycle idx]

/-- absolute (R106). -/
def absAddress : List Cycle := [opcodeFetch, fetchLo, fetchHi]

/-- absolute,X and absolute,Y (R107). -/
def absIndexedAddress (idx : Index) : List Cycle := [opcodeFetch, fetchLo, fetchHiIndexed idx]

/-- (zeropage,X) (R109). -/
def indXAddress : List Cycle := [opcodeFetch, fetchZp, ptrIndexCycle, ptrLo, ptrHi]

/-- (zeropage),Y (R110). -/
def indYAddress : List Cycle := [opcodeFetch, fetchZp, ptrLo, ptrHiIndexed]

/-- The read class of each mode (R104 to R107, R109, R110). -/
def readZp (op : ReadOp) : List Cycle := zpAddress ++ [readCycle op]
def readZpX (op : ReadOp) : List Cycle := zpIndexedAddress Regs.x ++ [readCycle op]
def readZpY (op : ReadOp) : List Cycle := zpIndexedAddress Regs.y ++ [readCycle op]
def readAbs (op : ReadOp) : List Cycle := absAddress ++ [readCycle op]
def readAbsX (op : ReadOp) : List Cycle := absIndexedAddress Regs.x ++ [readUnfixed Regs.x op, readCycle op]
def readAbsY (op : ReadOp) : List Cycle := absIndexedAddress Regs.y ++ [readUnfixed Regs.y op, readCycle op]
def readIndX (op : ReadOp) : List Cycle := indXAddress ++ [readCycle op]
def readIndY (op : ReadOp) : List Cycle := indYAddress ++ [readUnfixed Regs.y op, readCycle op]

/-- The write class of each mode (R104 to R106, R108, R109, R111). -/
def writeZp (w : Regs → Byte) : List Cycle := zpAddress ++ [writeCycle w]
def writeZpX (w : Regs → Byte) : List Cycle := zpIndexedAddress Regs.x ++ [writeCycle w]
def writeZpY (w : Regs → Byte) : List Cycle := zpIndexedAddress Regs.y ++ [writeCycle w]
def writeAbs (w : Regs → Byte) : List Cycle := absAddress ++ [writeCycle w]
def writeAbsX (w : Regs → Byte) : List Cycle := absIndexedAddress Regs.x ++ [dummyUnfixed Regs.x, writeCycle w]
def writeAbsY (w : Regs → Byte) : List Cycle := absIndexedAddress Regs.y ++ [dummyUnfixed Regs.y, writeCycle w]
def writeIndX (w : Regs → Byte) : List Cycle := indXAddress ++ [writeCycle w]
def writeIndY (w : Regs → Byte) : List Cycle := indYAddress ++ [dummyUnfixed Regs.y, writeCycle w]

/-- The read-modify-write class of each mode (R104 to R106, R108, R109, R111). -/
def rmwZp (f : RmwOp) : List Cycle := zpAddress ++ rmwTail f
def rmwZpX (f : RmwOp) : List Cycle := zpIndexedAddress Regs.x ++ rmwTail f
def rmwAbs (f : RmwOp) : List Cycle := absAddress ++ rmwTail f
def rmwAbsX (f : RmwOp) : List Cycle := absIndexedAddress Regs.x ++ [dummyUnfixed Regs.x] ++ rmwTail f
def rmwAbsY (f : RmwOp) : List Cycle := absIndexedAddress Regs.y ++ [dummyUnfixed Regs.y] ++ rmwTail f
def rmwIndX (f : RmwOp) : List Cycle := indXAddress ++ rmwTail f
def rmwIndY (f : RmwOp) : List Cycle := indYAddress ++ [dummyUnfixed Regs.y] ++ rmwTail f

/-- The push skeleton (R114). -/
def pushSkeleton (v : Regs → Byte) : List Cycle := [opcodeFetch, dummyPc, pushCycle fun c => v c.toRegs]

/-- The pull skeleton (R114). -/
def pullSkeleton (op : ReadOp) : List Cycle :=
  [opcodeFetch, dummyPc, pullStart, pullCycle fun b c => { c with data := b }.onRegs (op b)]

/-- The relative mode of the conditional branches (R112). -/
def branchSkeleton (cond : Flags → Bool) : List Cycle :=
  [opcodeFetch,
   { operandFetch (fun _ b c => { c with data := b, taken := cond c.p }) with
     fin := fun c => !c.taken
     hook := .branch },
   { req := fun _ c => .read c.pc .dummy
     act := fun _ _ c =>
       let target := branchTarget c.pc c.data
       let far := hi8 target != hi8 c.pc
       { c with ea := target, crossed := far, pc := if far then c.pc else target }
     fin := fun c => !c.crossed },
   { req := fun _ c => .read (cat (hi8 c.pc) (lo8 c.ea)) .dummy
     act := fun _ _ c => { c with pc := c.ea } }]

/-- JMP absolute (R115). -/
def jumpSkeleton : List Cycle :=
  [opcodeFetch, fetchLo, operandFetch fun _ b c => { c with pc := cat b (lo8 c.base) }]

/-- JMP indirect (R113): the high byte of the target comes from the page of its low byte. -/
def jumpIndirectSkeleton : List Cycle :=
  [opcodeFetch, fetchLo, fetchHi,
   { req := fun _ c => .read c.base .pointer
     act := fun _ b c => { c with data := b } },
   { req := fun _ c => .read (samePageNext c.base) .pointer
     act := fun _ b c => { c with pc := cat b c.data } }]

/-- JSR (R116): the high byte of the target is fetched after the pushes. -/
def callSkeleton : List Cycle :=
  [opcodeFetch, fetchLo, dummyStack, pushCycle (fun c => hi8 c.pc), pushCycle (fun c => lo8 c.pc),
   operandFetch fun _ b c => { c with pc := cat b (lo8 c.base) }]

/-- RTS (R117): the pulled address is passed by one in the last cycle. -/
def returnSkeleton : List Cycle :=
  [opcodeFetch, dummyPc, pullStart,
   pullCycle (fun b c => { c with data := b, sp := c.sp + 1 }),
   pullCycle (fun b c => { c with pc := cat b c.data }),
   { dummyPc with act := fun _ _ c => { c with pc := c.pc + 1 } }]

/-- RTI (R118). -/
def interruptReturnSkeleton : List Cycle := opcodeFetch :: dummyPc :: exceptionReturn

/-- BRK (R119): the padding byte is read as a dummy and passed; then the entry with B = 1. -/
def breakSkeleton : List Cycle :=
  opcodeFetch :: { dummyPc with act := fun _ _ c => { c with pc := c.pc + 1 } } :: exceptionEntry true

/-- KIL (R272): the opcode fetch, a dummy read at PC, and the halted state. -/
def haltSkeleton : List Cycle := [opcodeFetch, { dummyPc with ending := .halt }]

/-- The value the SH family stores: its source ANDed with the base's high byte plus one (R264). -/
def shValue (base : Addr) (reg : Byte) : Byte := reg &&& (hi8 base + 1)

/-- The address the SH family stores at (R264), for a base, an index and the value stored. -/
def shAddress (m : ShModel) (base : Addr) (idx value : Byte) : Addr :=
  match m with
  | .h1Glitch => if crosses (lo8 base) idx then cat value (lo8 base + idx) else cat (hi8 base) (lo8 base + idx)
  | .h1Plain => indexed base idx

/-- The DATA write of the SH family (R264), with what else happens in that cycle (TAS: R268). -/
def shCycle (idx : Index) (reg : Regs → Byte) (act : Regs → Regs := fun r => r) : Cycle where
  req := fun q c =>
    let v := shValue c.base (reg c.toRegs)
    .write (shAddress q.shModel c.base (idx c.toRegs) v) v .data
  act := fun _ _ c => c.onRegs act

/-- The SH family's absolute,X, absolute,Y and (zeropage),Y forms: write-class skeletons with their own last row
(R108, R111, R264). -/
def shAbsX (reg : Regs → Byte) : List Cycle := absIndexedAddress Regs.x ++ [dummyUnfixed Regs.x, shCycle Regs.x reg]
def shAbsY (reg : Regs → Byte) (act : Regs → Regs := fun r => r) : List Cycle :=
  absIndexedAddress Regs.y ++ [dummyUnfixed Regs.y, shCycle Regs.y reg act]
def shIndY (reg : Regs → Byte) : List Cycle := indYAddress ++ [dummyUnfixed Regs.y, shCycle Regs.y reg]

end Sys2Proof.Machine
end

