-- ==== Sys2Proof/Machine/Arith.lean ====
section
/-! DEFINITION. Arithmetic, logic, compare, increment and shift instructions (spec/42_arith_logic.md R163 to R181): the
operation of each mnemonic over the helpers of Flags.lean, and one meaning per opcode. -/

namespace Sys2Proof.Machine

/-- `A <- adc8(A, m, P.C)` (R160). -/
def addToA (m : Byte) (r : Regs) : Regs := { r with a := (adc8 r.a m r.p).1, p := (adc8 r.a m r.p).2 }

/-- ADC (R163). -/
def adcOp : ReadOp := fun m r => addToA m r

/-- SBC (R164): the complement of `M` is added. -/
def sbcOp : ReadOp := fun m r => addToA (~~~m) r

/-- AND (R165). -/
def andOp : ReadOp := fun m r => { r with a := r.a &&& m }.setNZ (r.a &&& m)

/-- ORA (R166). -/
def oraOp : ReadOp := fun m r => { r with a := r.a ||| m }.setNZ (r.a ||| m)

/-- EOR (R167). -/
def eorOp : ReadOp := fun m r => { r with a := r.a ^^^ m }.setNZ (r.a ^^^ m)

/-- BIT (R168): N and V are bits 7 and 6 of memory, Z tells whether `A & M` is zero. -/
def bitOp : ReadOp := fun m r =>
  { r with p := { r.p with z := r.a &&& m == 0, n := m.getLsbD 7, v := m.getLsbD 6 } }

/-- CMP (R169). -/
def cmpOp : ReadOp := fun m r => { r with p := cmp8 r.a m r.p }

/-- CPX (R170). -/
def cpxOp : ReadOp := fun m r => { r with p := cmp8 r.x m r.p }

/-- CPY (R171). -/
def cpyOp : ReadOp := fun m r => { r with p := cmp8 r.y m r.p }

/-- INC (R172). -/
def incOp : RmwOp := fun m r => (m + 1, r.setNZ (m + 1))

/-- DEC (R173). -/
def decOp : RmwOp := fun m r => (m - 1, r.setNZ (m - 1))

/-- INX (R174). -/
def inxOp (r : Regs) : Regs := { r with x := r.x + 1 }.setNZ (r.x + 1)

/-- INY (R175). -/
def inyOp (r : Regs) : Regs := { r with y := r.y + 1 }.setNZ (r.y + 1)

/-- DEX (R176). -/
def dexOp (r : Regs) : Regs := { r with x := r.x - 1 }.setNZ (r.x - 1)

/-- DEY (R177). -/
def deyOp (r : Regs) : Regs := { r with y := r.y - 1 }.setNZ (r.y - 1)

/-- ASL (R178). -/
def aslOp : RmwOp := fun m r => ((asl8 m r.p).1, { r with p := (asl8 m r.p).2 })

/-- LSR (R179). -/
def lsrOp : RmwOp := fun m r => ((lsr8 m r.p).1, { r with p := (lsr8 m r.p).2 })

/-- ROL (R180). -/
def rolOp : RmwOp := fun m r => ((rol8 m r.p).1, { r with p := (rol8 m r.p).2 })

/-- ROR (R181). -/
def rorOp : RmwOp := fun m r => ((ror8 m r.p).1, { r with p := (ror8 m r.p).2 })

/-- The accumulator form of a shift or a rotate: the operand and the destination are A (R178 to R181). -/
def onA (f : RmwOp) (r : Regs) : Regs := { (f r.a r).2 with a := (f r.a r).1 }

/-! ### ORA -/

/-- $01 ORA (zp,X) (R166, R109). -/
def execOraIndX (zp : Byte) (s : State) : Result := runInstr [0x01, zp] (readIndX oraOp) s

/-- $05 ORA zp (R166, R104). -/
def execOraZp (zp : Byte) (s : State) : Result := runInstr [0x05, zp] (readZp oraOp) s

/-- $09 ORA #imm (R166, R103). -/
def execOraImm (imm : Byte) (s : State) : Result := runInstr [0x09, imm] (immediate oraOp) s

/-- $0D ORA abs (R166, R106). -/
def execOraAbs (lo hi : Byte) (s : State) : Result := runInstr [0x0D, lo, hi] (readAbs oraOp) s

/-- $11 ORA (zp),Y (R166, R110). -/
def execOraIndY (zp : Byte) (s : State) : Result := runInstr [0x11, zp] (readIndY oraOp) s

/-- $15 ORA zp,X (R166, R105). -/
def execOraZpX (zp : Byte) (s : State) : Result := runInstr [0x15, zp] (readZpX oraOp) s

/-- $19 ORA abs,Y (R166, R107). -/
def execOraAbsY (lo hi : Byte) (s : State) : Result := runInstr [0x19, lo, hi] (readAbsY oraOp) s

/-- $1D ORA abs,X (R166, R107). -/
def execOraAbsX (lo hi : Byte) (s : State) : Result := runInstr [0x1D, lo, hi] (readAbsX oraOp) s

/-! ### ASL -/

/-- $06 ASL zp (R178, R104). -/
def execAslZp (zp : Byte) (s : State) : Result := runInstr [0x06, zp] (rmwZp aslOp) s

/-- $0A ASL A (R178, R102). -/
def execAslA (s : State) : Result := runInstr [0x0A] (impliedOp (onA aslOp)) s

/-- $0E ASL abs (R178, R106). -/
def execAslAbs (lo hi : Byte) (s : State) : Result := runInstr [0x0E, lo, hi] (rmwAbs aslOp) s

/-- $16 ASL zp,X (R178, R105). -/
def execAslZpX (zp : Byte) (s : State) : Result := runInstr [0x16, zp] (rmwZpX aslOp) s

/-- $1E ASL abs,X (R178, R108). -/
def execAslAbsX (lo hi : Byte) (s : State) : Result := runInstr [0x1E, lo, hi] (rmwAbsX aslOp) s

/-! ### AND -/

/-- $21 AND (zp,X) (R165, R109). -/
def execAndIndX (zp : Byte) (s : State) : Result := runInstr [0x21, zp] (readIndX andOp) s

/-- $25 AND zp (R165, R104). -/
def execAndZp (zp : Byte) (s : State) : Result := runInstr [0x25, zp] (readZp andOp) s

/-- $29 AND #imm (R165, R103). -/
def execAndImm (imm : Byte) (s : State) : Result := runInstr [0x29, imm] (immediate andOp) s

/-- $2D AND abs (R165, R106). -/
def execAndAbs (lo hi : Byte) (s : State) : Result := runInstr [0x2D, lo, hi] (readAbs andOp) s

/-- $31 AND (zp),Y (R165, R110). -/
def execAndIndY (zp : Byte) (s : State) : Result := runInstr [0x31, zp] (readIndY andOp) s

/-- $35 AND zp,X (R165, R105). -/
def execAndZpX (zp : Byte) (s : State) : Result := runInstr [0x35, zp] (readZpX andOp) s

/-- $39 AND abs,Y (R165, R107). -/
def execAndAbsY (lo hi : Byte) (s : State) : Result := runInstr [0x39, lo, hi] (readAbsY andOp) s

/-- $3D AND abs,X (R165, R107). -/
def execAndAbsX (lo hi : Byte) (s : State) : Result := runInstr [0x3D, lo, hi] (readAbsX andOp) s

/-! ### BIT -/

/-- $24 BIT zp (R168, R104). -/
def execBitZp (zp : Byte) (s : State) : Result := runInstr [0x24, zp] (readZp bitOp) s

/-- $2C BIT abs (R168, R106). -/
def execBitAbs (lo hi : Byte) (s : State) : Result := runInstr [0x2C, lo, hi] (readAbs bitOp) s

/-! ### ROL -/

/-- $26 ROL zp (R180, R104). -/
def execRolZp (zp : Byte) (s : State) : Result := runInstr [0x26, zp] (rmwZp rolOp) s

/-- $2A ROL A (R180, R102). -/
def execRolA (s : State) : Result := runInstr [0x2A] (impliedOp (onA rolOp)) s

/-- $2E ROL abs (R180, R106). -/
def execRolAbs (lo hi : Byte) (s : State) : Result := runInstr [0x2E, lo, hi] (rmwAbs rolOp) s

/-- $36 ROL zp,X (R180, R105). -/
def execRolZpX (zp : Byte) (s : State) : Result := runInstr [0x36, zp] (rmwZpX rolOp) s

/-- $3E ROL abs,X (R180, R108). -/
def execRolAbsX (lo hi : Byte) (s : State) : Result := runInstr [0x3E, lo, hi] (rmwAbsX rolOp) s

/-! ### EOR -/

/-- $41 EOR (zp,X) (R167, R109). -/
def execEorIndX (zp : Byte) (s : State) : Result := runInstr [0x41, zp] (readIndX eorOp) s

/-- $45 EOR zp (R167, R104). -/
def execEorZp (zp : Byte) (s : State) : Result := runInstr [0x45, zp] (readZp eorOp) s

/-- $49 EOR #imm (R167, R103). -/
def execEorImm (imm : Byte) (s : State) : Result := runInstr [0x49, imm] (immediate eorOp) s

/-- $4D EOR abs (R167, R106). -/
def execEorAbs (lo hi : Byte) (s : State) : Result := runInstr [0x4D, lo, hi] (readAbs eorOp) s

/-- $51 EOR (zp),Y (R167, R110). -/
def execEorIndY (zp : Byte) (s : State) : Result := runInstr [0x51, zp] (readIndY eorOp) s

/-- $55 EOR zp,X (R167, R105). -/
def execEorZpX (zp : Byte) (s : State) : Result := runInstr [0x55, zp] (readZpX eorOp) s

/-- $59 EOR abs,Y (R167, R107). -/
def execEorAbsY (lo hi : Byte) (s : State) : Result := runInstr [0x59, lo, hi] (readAbsY eorOp) s

/-- $5D EOR abs,X (R167, R107). -/
def execEorAbsX (lo hi : Byte) (s : State) : Result := runInstr [0x5D, lo, hi] (readAbsX eorOp) s

/-! ### LSR -/

/-- $46 LSR zp (R179, R104). -/
def execLsrZp (zp : Byte) (s : State) : Result := runInstr [0x46, zp] (rmwZp lsrOp) s

/-- $4A LSR A (R179, R102). -/
def execLsrA (s : State) : Result := runInstr [0x4A] (impliedOp (onA lsrOp)) s

/-- $4E LSR abs (R179, R106). -/
def execLsrAbs (lo hi : Byte) (s : State) : Result := runInstr [0x4E, lo, hi] (rmwAbs lsrOp) s

/-- $56 LSR zp,X (R179, R105). -/
def execLsrZpX (zp : Byte) (s : State) : Result := runInstr [0x56, zp] (rmwZpX lsrOp) s

/-- $5E LSR abs,X (R179, R108). -/
def execLsrAbsX (lo hi : Byte) (s : State) : Result := runInstr [0x5E, lo, hi] (rmwAbsX lsrOp) s

/-! ### ADC -/

/-- $61 ADC (zp,X) (R163, R109). -/
def execAdcIndX (zp : Byte) (s : State) : Result := runInstr [0x61, zp] (readIndX adcOp) s

/-- $65 ADC zp (R163, R104). -/
def execAdcZp (zp : Byte) (s : State) : Result := runInstr [0x65, zp] (readZp adcOp) s

/-- $69 ADC #imm (R163, R103). -/
def execAdcImm (imm : Byte) (s : State) : Result := runInstr [0x69, imm] (immediate adcOp) s

/-- $6D ADC abs (R163, R106). -/
def execAdcAbs (lo hi : Byte) (s : State) : Result := runInstr [0x6D, lo, hi] (readAbs adcOp) s

/-- $71 ADC (zp),Y (R163, R110). -/
def execAdcIndY (zp : Byte) (s : State) : Result := runInstr [0x71, zp] (readIndY adcOp) s

/-- $75 ADC zp,X (R163, R105). -/
def execAdcZpX (zp : Byte) (s : State) : Result := runInstr [0x75, zp] (readZpX adcOp) s

/-- $79 ADC abs,Y (R163, R107). -/
def execAdcAbsY (lo hi : Byte) (s : State) : Result := runInstr [0x79, lo, hi] (readAbsY adcOp) s

/-- $7D ADC abs,X (R163, R107). -/
def execAdcAbsX (lo hi : Byte) (s : State) : Result := runInstr [0x7D, lo, hi] (readAbsX adcOp) s

/-! ### ROR -/

/-- $66 ROR zp (R181, R104). -/
def execRorZp (zp : Byte) (s : State) : Result := runInstr [0x66, zp] (rmwZp rorOp) s

/-- $6A ROR A (R181, R102). -/
def execRorA (s : State) : Result := runInstr [0x6A] (impliedOp (onA rorOp)) s

/-- $6E ROR abs (R181, R106). -/
def execRorAbs (lo hi : Byte) (s : State) : Result := runInstr [0x6E, lo, hi] (rmwAbs rorOp) s

/-- $76 ROR zp,X (R181, R105). -/
def execRorZpX (zp : Byte) (s : State) : Result := runInstr [0x76, zp] (rmwZpX rorOp) s

/-- $7E ROR abs,X (R181, R108). -/
def execRorAbsX (lo hi : Byte) (s : State) : Result := runInstr [0x7E, lo, hi] (rmwAbsX rorOp) s

/-! ### DEY -/

/-- $88 DEY (R177, R102). -/
def execDey (s : State) : Result := runInstr [0x88] (impliedOp deyOp) s

/-! ### CPY -/

/-- $C0 CPY #imm (R171, R103). -/
def execCpyImm (imm : Byte) (s : State) : Result := runInstr [0xC0, imm] (immediate cpyOp) s

/-- $C4 CPY zp (R171, R104). -/
def execCpyZp (zp : Byte) (s : State) : Result := runInstr [0xC4, zp] (readZp cpyOp) s

/-- $CC CPY abs (R171, R106). -/
def execCpyAbs (lo hi : Byte) (s : State) : Result := runInstr [0xCC, lo, hi] (readAbs cpyOp) s

/-! ### CMP -/

/-- $C1 CMP (zp,X) (R169, R109). -/
def execCmpIndX (zp : Byte) (s : State) : Result := runInstr [0xC1, zp] (readIndX cmpOp) s

/-- $C5 CMP zp (R169, R104). -/
def execCmpZp (zp : Byte) (s : State) : Result := runInstr [0xC5, zp] (readZp cmpOp) s

/-- $C9 CMP #imm (R169, R103). -/
def execCmpImm (imm : Byte) (s : State) : Result := runInstr [0xC9, imm] (immediate cmpOp) s

/-- $CD CMP abs (R169, R106). -/
def execCmpAbs (lo hi : Byte) (s : State) : Result := runInstr [0xCD, lo, hi] (readAbs cmpOp) s

/-- $D1 CMP (zp),Y (R169, R110). -/
def execCmpIndY (zp : Byte) (s : State) : Result := runInstr [0xD1, zp] (readIndY cmpOp) s

/-- $D5 CMP zp,X (R169, R105). -/
def execCmpZpX (zp : Byte) (s : State) : Result := runInstr [0xD5, zp] (readZpX cmpOp) s

/-- $D9 CMP abs,Y (R169, R107). -/
def execCmpAbsY (lo hi : Byte) (s : State) : Result := runInstr [0xD9, lo, hi] (readAbsY cmpOp) s

/-- $DD CMP abs,X (R169, R107). -/
def execCmpAbsX (lo hi : Byte) (s : State) : Result := runInstr [0xDD, lo, hi] (readAbsX cmpOp) s

/-! ### DEC -/

/-- $C6 DEC zp (R173, R104). -/
def execDecZp (zp : Byte) (s : State) : Result := runInstr [0xC6, zp] (rmwZp decOp) s

/-- $CE DEC abs (R173, R106). -/
def execDecAbs (lo hi : Byte) (s : State) : Result := runInstr [0xCE, lo, hi] (rmwAbs decOp) s

/-- $D6 DEC zp,X (R173, R105). -/
def execDecZpX (zp : Byte) (s : State) : Result := runInstr [0xD6, zp] (rmwZpX decOp) s

/-- $DE DEC abs,X (R173, R108). -/
def execDecAbsX (lo hi : Byte) (s : State) : Result := runInstr [0xDE, lo, hi] (rmwAbsX decOp) s

/-! ### INY -/

/-- $C8 INY (R175, R102). -/
def execIny (s : State) : Result := runInstr [0xC8] (impliedOp inyOp) s

/-! ### DEX -/

/-- $CA DEX (R176, R102). -/
def execDex (s : State) : Result := runInstr [0xCA] (impliedOp dexOp) s

/-! ### CPX -/

/-- $E0 CPX #imm (R170, R103). -/
def execCpxImm (imm : Byte) (s : State) : Result := runInstr [0xE0, imm] (immediate cpxOp) s

/-- $E4 CPX zp (R170, R104). -/
def execCpxZp (zp : Byte) (s : State) : Result := runInstr [0xE4, zp] (readZp cpxOp) s

/-- $EC CPX abs (R170, R106). -/
def execCpxAbs (lo hi : Byte) (s : State) : Result := runInstr [0xEC, lo, hi] (readAbs cpxOp) s

/-! ### SBC -/

/-- $E1 SBC (zp,X) (R164, R109). -/
def execSbcIndX (zp : Byte) (s : State) : Result := runInstr [0xE1, zp] (readIndX sbcOp) s

/-- $E5 SBC zp (R164, R104). -/
def execSbcZp (zp : Byte) (s : State) : Result := runInstr [0xE5, zp] (readZp sbcOp) s

/-- $E9 SBC #imm (R164, R103). -/
def execSbcImm (imm : Byte) (s : State) : Result := runInstr [0xE9, imm] (immediate sbcOp) s

/-- $ED SBC abs (R164, R106). -/
def execSbcAbs (lo hi : Byte) (s : State) : Result := runInstr [0xED, lo, hi] (readAbs sbcOp) s

/-- $F1 SBC (zp),Y (R164, R110). -/
def execSbcIndY (zp : Byte) (s : State) : Result := runInstr [0xF1, zp] (readIndY sbcOp) s

/-- $F5 SBC zp,X (R164, R105). -/
def execSbcZpX (zp : Byte) (s : State) : Result := runInstr [0xF5, zp] (readZpX sbcOp) s

/-- $F9 SBC abs,Y (R164, R107). -/
def execSbcAbsY (lo hi : Byte) (s : State) : Result := runInstr [0xF9, lo, hi] (readAbsY sbcOp) s

/-- $FD SBC abs,X (R164, R107). -/
def execSbcAbsX (lo hi : Byte) (s : State) : Result := runInstr [0xFD, lo, hi] (readAbsX sbcOp) s

/-! ### INC -/

/-- $E6 INC zp (R172, R104). -/
def execIncZp (zp : Byte) (s : State) : Result := runInstr [0xE6, zp] (rmwZp incOp) s

/-- $EE INC abs (R172, R106). -/
def execIncAbs (lo hi : Byte) (s : State) : Result := runInstr [0xEE, lo, hi] (rmwAbs incOp) s

/-- $F6 INC zp,X (R172, R105). -/
def execIncZpX (zp : Byte) (s : State) : Result := runInstr [0xF6, zp] (rmwZpX incOp) s

/-- $FE INC abs,X (R172, R108). -/
def execIncAbsX (lo hi : Byte) (s : State) : Result := runInstr [0xFE, lo, hi] (rmwAbsX incOp) s

/-! ### INX -/

/-- $E8 INX (R174, R102). -/
def execInx (s : State) : Result := runInstr [0xE8] (impliedOp inxOp) s

end Sys2Proof.Machine
end

