-- ==== Sys2Proof/Machine/Control.lean ====
section
/-! DEFINITION. Control-transfer instructions and the official NOP (spec/44_control.md R220 to R235). -/

namespace Sys2Proof.Machine

/-- BPL (R227): `P.N == 0`. -/
def bplCond (p : Flags) : Bool := !p.n

/-- BMI (R228): `P.N == 1`. -/
def bmiCond (p : Flags) : Bool := p.n

/-- BVC (R229): `P.V == 0`. -/
def bvcCond (p : Flags) : Bool := !p.v

/-- BVS (R230): `P.V == 1`. -/
def bvsCond (p : Flags) : Bool := p.v

/-- BCC (R231): `P.C == 0`. -/
def bccCond (p : Flags) : Bool := !p.c

/-- BCS (R232): `P.C == 1`. -/
def bcsCond (p : Flags) : Bool := p.c

/-- BNE (R233): `P.Z == 0`. -/
def bneCond (p : Flags) : Bool := !p.z

/-- BEQ (R234): `P.Z == 1`. -/
def beqCond (p : Flags) : Bool := p.z

/-- The high byte of JSR's target (R116): it is fetched after the pushes, so it is a pushed byte if a push has just
overwritten it; the later push is that of the low byte. -/
def jsrHigh (s : State) (hi : Byte) : Byte :=
  let ret := s.pc + 2
  if s.overwrites (stackAddr (s.sp - 1)) ret then lo8 ret
  else if s.overwrites (stackAddr s.sp) ret then hi8 ret
  else hi

/-! ### BRK -/

/-- $00 BRK (R225, R119). -/
def execBrk (s : State) : Result := runInstr [0x00] (breakSkeleton) s

/-! ### BPL -/

/-- $10 BPL rel (R227, R112). -/
def execBpl (rel : Byte) (s : State) : Result := runInstr [0x10, rel] (branchSkeleton bplCond) s

/-! ### JSR -/

/-- $20 JSR abs (R222, R116). -/
def execJsrAbs (lo hi : Byte) (s : State) : Result := runInstr [0x20, lo, jsrHigh s hi] (callSkeleton) s

/-! ### BMI -/

/-- $30 BMI rel (R228, R112). -/
def execBmi (rel : Byte) (s : State) : Result := runInstr [0x30, rel] (branchSkeleton bmiCond) s

/-! ### RTI -/

/-- $40 RTI (R224, R118). -/
def execRti (s : State) : Result := runInstr [0x40] (interruptReturnSkeleton) s

/-! ### JMP -/

/-- $4C JMP abs (R220, R115). -/
def execJmpAbs (lo hi : Byte) (s : State) : Result := runInstr [0x4C, lo, hi] (jumpSkeleton) s

/-- $6C JMP (ind) (R221, R113). -/
def execJmpInd (lo hi : Byte) (s : State) : Result := runInstr [0x6C, lo, hi] (jumpIndirectSkeleton) s

/-! ### BVC -/

/-- $50 BVC rel (R229, R112). -/
def execBvc (rel : Byte) (s : State) : Result := runInstr [0x50, rel] (branchSkeleton bvcCond) s

/-! ### RTS -/

/-- $60 RTS (R223, R117). -/
def execRts (s : State) : Result := runInstr [0x60] (returnSkeleton) s

/-! ### BVS -/

/-- $70 BVS rel (R230, R112). -/
def execBvs (rel : Byte) (s : State) : Result := runInstr [0x70, rel] (branchSkeleton bvsCond) s

/-! ### BCC -/

/-- $90 BCC rel (R231, R112). -/
def execBcc (rel : Byte) (s : State) : Result := runInstr [0x90, rel] (branchSkeleton bccCond) s

/-! ### BCS -/

/-- $B0 BCS rel (R232, R112). -/
def execBcs (rel : Byte) (s : State) : Result := runInstr [0xB0, rel] (branchSkeleton bcsCond) s

/-! ### BNE -/

/-- $D0 BNE rel (R233, R112). -/
def execBne (rel : Byte) (s : State) : Result := runInstr [0xD0, rel] (branchSkeleton bneCond) s

/-! ### NOP -/

/-- $EA NOP (R235, R102). -/
def execNop (s : State) : Result := runInstr [0xEA] (impliedOp id) s

/-! ### BEQ -/

/-- $F0 BEQ rel (R234, R112). -/
def execBeq (rel : Byte) (s : State) : Result := runInstr [0xF0, rel] (branchSkeleton beqCond) s

end Sys2Proof.Machine
end

