-- ==== Sys2Proof/Machine/LoadStore.lean ====
section
/-! DEFINITION. Load, store and transfer instructions (spec/41_load_store_transfer.md R140 to R151): the operation of each
mnemonic, and one meaning per opcode. -/

namespace Sys2Proof.Machine

/-- LDA (R140): `A <- M; setNZ(A)`. -/
def ldaOp : ReadOp := fun m r => { r with a := m }.setNZ m

/-- LDX (R141): `X <- M; setNZ(X)`. -/
def ldxOp : ReadOp := fun m r => { r with x := m }.setNZ m

/-- LDY (R142): `Y <- M; setNZ(Y)`. -/
def ldyOp : ReadOp := fun m r => { r with y := m }.setNZ m

/-- TAX (R146). -/
def taxOp (r : Regs) : Regs := { r with x := r.a }.setNZ r.a

/-- TAY (R147). -/
def tayOp (r : Regs) : Regs := { r with y := r.a }.setNZ r.a

/-- TXA (R148). -/
def txaOp (r : Regs) : Regs := { r with a := r.x }.setNZ r.x

/-- TYA (R149). -/
def tyaOp (r : Regs) : Regs := { r with a := r.y }.setNZ r.y

/-- TSX (R150). -/
def tsxOp (r : Regs) : Regs := { r with x := r.sp }.setNZ r.sp

/-- TXS (R151): no flag is written. -/
def txsOp (r : Regs) : Regs := { r with sp := r.x }

/-! ### STA -/

/-- $81 STA (zp,X) (R143, R109). -/
def execStaIndX (zp : Byte) (s : State) : Result := runInstr [0x81, zp] (writeIndX Regs.a) s

/-- $85 STA zp (R143, R104). -/
def execStaZp (zp : Byte) (s : State) : Result := runInstr [0x85, zp] (writeZp Regs.a) s

/-- $8D STA abs (R143, R106). -/
def execStaAbs (lo hi : Byte) (s : State) : Result := runInstr [0x8D, lo, hi] (writeAbs Regs.a) s

/-- $91 STA (zp),Y (R143, R111). -/
def execStaIndY (zp : Byte) (s : State) : Result := runInstr [0x91, zp] (writeIndY Regs.a) s

/-- $95 STA zp,X (R143, R105). -/
def execStaZpX (zp : Byte) (s : State) : Result := runInstr [0x95, zp] (writeZpX Regs.a) s

/-- $99 STA abs,Y (R143, R108). -/
def execStaAbsY (lo hi : Byte) (s : State) : Result := runInstr [0x99, lo, hi] (writeAbsY Regs.a) s

/-- $9D STA abs,X (R143, R108). -/
def execStaAbsX (lo hi : Byte) (s : State) : Result := runInstr [0x9D, lo, hi] (writeAbsX Regs.a) s

/-! ### STY -/

/-- $84 STY zp (R145, R104). -/
def execStyZp (zp : Byte) (s : State) : Result := runInstr [0x84, zp] (writeZp Regs.y) s

/-- $8C STY abs (R145, R106). -/
def execStyAbs (lo hi : Byte) (s : State) : Result := runInstr [0x8C, lo, hi] (writeAbs Regs.y) s

/-- $94 STY zp,X (R145, R105). -/
def execStyZpX (zp : Byte) (s : State) : Result := runInstr [0x94, zp] (writeZpX Regs.y) s

/-! ### STX -/

/-- $86 STX zp (R144, R104). -/
def execStxZp (zp : Byte) (s : State) : Result := runInstr [0x86, zp] (writeZp Regs.x) s

/-- $8E STX abs (R144, R106). -/
def execStxAbs (lo hi : Byte) (s : State) : Result := runInstr [0x8E, lo, hi] (writeAbs Regs.x) s

/-- $96 STX zp,Y (R144, R105). -/
def execStxZpY (zp : Byte) (s : State) : Result := runInstr [0x96, zp] (writeZpY Regs.x) s

/-! ### TXA -/

/-- $8A TXA (R148, R102). -/
def execTxa (s : State) : Result := runInstr [0x8A] (impliedOp txaOp) s

/-! ### TYA -/

/-- $98 TYA (R149, R102). -/
def execTya (s : State) : Result := runInstr [0x98] (impliedOp tyaOp) s

/-! ### TXS -/

/-- $9A TXS (R151, R102). -/
def execTxs (s : State) : Result := runInstr [0x9A] (impliedOp txsOp) s

/-! ### LDY -/

/-- $A0 LDY #imm (R142, R103). -/
def execLdyImm (imm : Byte) (s : State) : Result := runInstr [0xA0, imm] (immediate ldyOp) s

/-- $A4 LDY zp (R142, R104). -/
def execLdyZp (zp : Byte) (s : State) : Result := runInstr [0xA4, zp] (readZp ldyOp) s

/-- $AC LDY abs (R142, R106). -/
def execLdyAbs (lo hi : Byte) (s : State) : Result := runInstr [0xAC, lo, hi] (readAbs ldyOp) s

/-- $B4 LDY zp,X (R142, R105). -/
def execLdyZpX (zp : Byte) (s : State) : Result := runInstr [0xB4, zp] (readZpX ldyOp) s

/-- $BC LDY abs,X (R142, R107). -/
def execLdyAbsX (lo hi : Byte) (s : State) : Result := runInstr [0xBC, lo, hi] (readAbsX ldyOp) s

/-! ### LDA -/

/-- $A1 LDA (zp,X) (R140, R109). -/
def execLdaIndX (zp : Byte) (s : State) : Result := runInstr [0xA1, zp] (readIndX ldaOp) s

/-- $A5 LDA zp (R140, R104). -/
def execLdaZp (zp : Byte) (s : State) : Result := runInstr [0xA5, zp] (readZp ldaOp) s

/-- $A9 LDA #imm (R140, R103). -/
def execLdaImm (imm : Byte) (s : State) : Result := runInstr [0xA9, imm] (immediate ldaOp) s

/-- $AD LDA abs (R140, R106). -/
def execLdaAbs (lo hi : Byte) (s : State) : Result := runInstr [0xAD, lo, hi] (readAbs ldaOp) s

/-- $B1 LDA (zp),Y (R140, R110). -/
def execLdaIndY (zp : Byte) (s : State) : Result := runInstr [0xB1, zp] (readIndY ldaOp) s

/-- $B5 LDA zp,X (R140, R105). -/
def execLdaZpX (zp : Byte) (s : State) : Result := runInstr [0xB5, zp] (readZpX ldaOp) s

/-- $B9 LDA abs,Y (R140, R107). -/
def execLdaAbsY (lo hi : Byte) (s : State) : Result := runInstr [0xB9, lo, hi] (readAbsY ldaOp) s

/-- $BD LDA abs,X (R140, R107). -/
def execLdaAbsX (lo hi : Byte) (s : State) : Result := runInstr [0xBD, lo, hi] (readAbsX ldaOp) s

/-! ### LDX -/

/-- $A2 LDX #imm (R141, R103). -/
def execLdxImm (imm : Byte) (s : State) : Result := runInstr [0xA2, imm] (immediate ldxOp) s

/-- $A6 LDX zp (R141, R104). -/
def execLdxZp (zp : Byte) (s : State) : Result := runInstr [0xA6, zp] (readZp ldxOp) s

/-- $AE LDX abs (R141, R106). -/
def execLdxAbs (lo hi : Byte) (s : State) : Result := runInstr [0xAE, lo, hi] (readAbs ldxOp) s

/-- $B6 LDX zp,Y (R141, R105). -/
def execLdxZpY (zp : Byte) (s : State) : Result := runInstr [0xB6, zp] (readZpY ldxOp) s

/-- $BE LDX abs,Y (R141, R107). -/
def execLdxAbsY (lo hi : Byte) (s : State) : Result := runInstr [0xBE, lo, hi] (readAbsY ldxOp) s

/-! ### TAY -/

/-- $A8 TAY (R147, R102). -/
def execTay (s : State) : Result := runInstr [0xA8] (impliedOp tayOp) s

/-! ### TAX -/

/-- $AA TAX (R146, R102). -/
def execTax (s : State) : Result := runInstr [0xAA] (impliedOp taxOp) s

/-! ### TSX -/

/-- $BA TSX (R150, R102). -/
def execTsx (s : State) : Result := runInstr [0xBA] (impliedOp tsxOp) s

end Sys2Proof.Machine
end

