-- ==== Sys2Proof/Machine/StackFlags.lean ====
section
/-! DEFINITION. Stack and flag instructions (spec/43_stack_flags.md R200 to R210). -/

namespace Sys2Proof.Machine

/-- The byte PHP pushes: `pack(B=1)` (R201). -/
def phpValue (r : Regs) : Byte := packFlags r.p true

/-- PLA (R202): `A <- M; setNZ(A)`. -/
def plaOp : ReadOp := fun m r => { r with a := m }.setNZ m

/-- PLP (R203): the six flags take the pulled bits. -/
def plpOp : ReadOp := fun m r => { r with p := unpackFlags m }

/-- CLC (R204). -/
def clcOp (r : Regs) : Regs := { r with p := { r.p with c := false } }

/-- SEC (R205). -/
def secOp (r : Regs) : Regs := { r with p := { r.p with c := true } }

/-- CLI (R206). -/
def cliOp (r : Regs) : Regs := { r with p := { r.p with i := false } }

/-- SEI (R207). -/
def seiOp (r : Regs) : Regs := { r with p := { r.p with i := true } }

/-- CLD (R208). -/
def cldOp (r : Regs) : Regs := { r with p := { r.p with d := false } }

/-- SED (R209). -/
def sedOp (r : Regs) : Regs := { r with p := { r.p with d := true } }

/-- CLV (R210). -/
def clvOp (r : Regs) : Regs := { r with p := { r.p with v := false } }

/-! ### PHP -/

/-- $08 PHP (R201, R114). -/
def execPhp (s : State) : Result := runInstr [0x08] (pushSkeleton phpValue) s

/-! ### CLC -/

/-- $18 CLC (R204, R102). -/
def execClc (s : State) : Result := runInstr [0x18] (impliedOp clcOp) s

/-! ### PLP -/

/-- $28 PLP (R203, R114). -/
def execPlp (s : State) : Result := runInstr [0x28] (pullSkeleton plpOp) s

/-! ### SEC -/

/-- $38 SEC (R205, R102). -/
def execSec (s : State) : Result := runInstr [0x38] (impliedOp secOp) s

/-! ### PHA -/

/-- $48 PHA (R200, R114). -/
def execPha (s : State) : Result := runInstr [0x48] (pushSkeleton Regs.a) s

/-! ### CLI -/

/-- $58 CLI (R206, R102). -/
def execCli (s : State) : Result := runInstr [0x58] (impliedOp cliOp) s

/-! ### PLA -/

/-- $68 PLA (R202, R114). -/
def execPla (s : State) : Result := runInstr [0x68] (pullSkeleton plaOp) s

/-! ### SEI -/

/-- $78 SEI (R207, R102). -/
def execSei (s : State) : Result := runInstr [0x78] (impliedOp seiOp) s

/-! ### CLV -/

/-- $B8 CLV (R210, R102). -/
def execClv (s : State) : Result := runInstr [0xB8] (impliedOp clvOp) s

/-! ### CLD -/

/-- $D8 CLD (R208, R102). -/
def execCld (s : State) : Result := runInstr [0xD8] (impliedOp cldOp) s

/-! ### SED -/

/-- $F8 SED (R209, R102). -/
def execSed (s : State) : Result := runInstr [0xF8] (impliedOp sedOp) s

end Sys2Proof.Machine
end

