-- ==== Sys2Proof/Machine/Undocumented.lean ====
section
/-! DEFINITION. Undocumented instructions and KIL (spec/45_undocumented.md R250 to R272). -/

namespace Sys2Proof.Machine

/-- SLO (R250): shift left, then OR with A. -/
def sloOp : RmwOp := fun m r => ((asl8 m r.p).1, oraOp (asl8 m r.p).1 { r with p := (asl8 m r.p).2 })

/-- RLA (R251): rotate left, then AND with A. -/
def rlaOp : RmwOp := fun m r => ((rol8 m r.p).1, andOp (rol8 m r.p).1 { r with p := (rol8 m r.p).2 })

/-- SRE (R252): shift right, then EOR with A. -/
def sreOp : RmwOp := fun m r => ((lsr8 m r.p).1, eorOp (lsr8 m r.p).1 { r with p := (lsr8 m r.p).2 })

/-- RRA (R253): rotate right, then add with the carry out of the rotate. -/
def rraOp : RmwOp := fun m r => ((ror8 m r.p).1, adcOp (ror8 m r.p).1 { r with p := (ror8 m r.p).2 })

/-- DCP (R257): decrement memory, then compare with A. -/
def dcpOp : RmwOp := fun m r => (m - 1, cmpOp (m - 1) r)

/-- ISC (R258): increment memory, then subtract from A. -/
def iscOp : RmwOp := fun m r => (m + 1, sbcOp (m + 1) r)

/-- `A & X`: what SAX stores (R254), and the source of AHX and TAS (R265, R268). -/
def saxValue (r : Regs) : Byte := r.a &&& r.x

/-- LAX (R255): `A <- M; X <- M; setNZ(M)`. -/
def laxOp : ReadOp := fun m r => { r with a := m, x := m }.setNZ m

/-- LAX immediate, also called LXA (R256), on `P_LXA_MAGIC`. -/
def lxaOp (q : Params) : ReadOp := fun m r => laxOp ((r.a ||| q.lxaMagic) &&& m) r

/-- LAS (R269): A, X and S take `M & S`. -/
def lasOp : ReadOp := fun m r => { r with a := m &&& r.sp, x := m &&& r.sp, sp := m &&& r.sp }.setNZ (m &&& r.sp)

/-- ANC (R259): AND, then C is bit 7 of A. -/
def ancOp : ReadOp := fun m r =>
  let r' := andOp m r
  { r' with p := { r'.p with c := r'.a.getLsbD 7 } }

/-- ALR (R260): AND, then shift right. -/
def alrOp : ReadOp := fun m r => { r with a := (lsr8 (r.a &&& m) r.p).1, p := (lsr8 (r.a &&& m) r.p).2 }

/-- ARR (R261): AND, then rotate right, with its own C and V. -/
def arrOp : ReadOp := fun m r =>
  let v := (r.a &&& m) >>> 1 ||| bit r.p.c <<< 7
  let p := flagsNZ r.p v
  { r with a := v, p := { p with c := v.getLsbD 6, v := v.getLsbD 6 ^^ v.getLsbD 5 } }

/-- XAA, also called ANE (R262), on `P_XAA_MAGIC`. -/
def xaaOp (q : Params) : ReadOp := fun m r =>
  { r with a := (r.a ||| q.xaaMagic) &&& r.x &&& m }.setNZ ((r.a ||| q.xaaMagic) &&& r.x &&& m)

/-- AXS, also called SBX (R263): X is `(A & X) - imm`, with the carry of a compare. -/
def axsOp : ReadOp := fun m r =>
  let t := saxValue r
  { r with x := t - m, p := { flagsNZ r.p (t - m) with c := m.ule t } }

/-- The undocumented NOPs (R270): the byte is discarded. -/
def nopOp : ReadOp := fun _ r => r

/-- What TAS does beside its store (R268): `S <- A & X`. -/
def tasOp (r : Regs) : Regs := { r with sp := saxValue r }

/-! ### KIL -/

/-- $02 KIL (R272, R272). -/
def execKil02 (s : State) : Result := runInstr [0x02] (haltSkeleton) s

/-- $12 KIL (R272, R272). -/
def execKil12 (s : State) : Result := runInstr [0x12] (haltSkeleton) s

/-- $22 KIL (R272, R272). -/
def execKil22 (s : State) : Result := runInstr [0x22] (haltSkeleton) s

/-- $32 KIL (R272, R272). -/
def execKil32 (s : State) : Result := runInstr [0x32] (haltSkeleton) s

/-- $42 KIL (R272, R272). -/
def execKil42 (s : State) : Result := runInstr [0x42] (haltSkeleton) s

/-- $52 KIL (R272, R272). -/
def execKil52 (s : State) : Result := runInstr [0x52] (haltSkeleton) s

/-- $62 KIL (R272, R272). -/
def execKil62 (s : State) : Result := runInstr [0x62] (haltSkeleton) s

/-- $72 KIL (R272, R272). -/
def execKil72 (s : State) : Result := runInstr [0x72] (haltSkeleton) s

/-- $92 KIL (R272, R272). -/
def execKil92 (s : State) : Result := runInstr [0x92] (haltSkeleton) s

/-- $B2 KIL (R272, R272). -/
def execKilB2 (s : State) : Result := runInstr [0xB2] (haltSkeleton) s

/-- $D2 KIL (R272, R272). -/
def execKilD2 (s : State) : Result := runInstr [0xD2] (haltSkeleton) s

/-- $F2 KIL (R272, R272). -/
def execKilF2 (s : State) : Result := runInstr [0xF2] (haltSkeleton) s

/-! ### SLO -/

/-- $03 SLO (zp,X) (R250, R109). -/
def execSloIndX (zp : Byte) (s : State) : Result := runInstr [0x03, zp] (rmwIndX sloOp) s

/-- $07 SLO zp (R250, R104). -/
def execSloZp (zp : Byte) (s : State) : Result := runInstr [0x07, zp] (rmwZp sloOp) s

/-- $0F SLO abs (R250, R106). -/
def execSloAbs (lo hi : Byte) (s : State) : Result := runInstr [0x0F, lo, hi] (rmwAbs sloOp) s

/-- $13 SLO (zp),Y (R250, R111). -/
def execSloIndY (zp : Byte) (s : State) : Result := runInstr [0x13, zp] (rmwIndY sloOp) s

/-- $17 SLO zp,X (R250, R105). -/
def execSloZpX (zp : Byte) (s : State) : Result := runInstr [0x17, zp] (rmwZpX sloOp) s

/-- $1B SLO abs,Y (R250, R108). -/
def execSloAbsY (lo hi : Byte) (s : State) : Result := runInstr [0x1B, lo, hi] (rmwAbsY sloOp) s

/-- $1F SLO abs,X (R250, R108). -/
def execSloAbsX (lo hi : Byte) (s : State) : Result := runInstr [0x1F, lo, hi] (rmwAbsX sloOp) s

/-! ### NOP -/

/-- $04 NOP zp (R270, R104). -/
def execNopZp04 (zp : Byte) (s : State) : Result := runInstr [0x04, zp] (readZp nopOp) s

/-- $0C NOP abs (R270, R106). -/
def execNopAbs0C (lo hi : Byte) (s : State) : Result := runInstr [0x0C, lo, hi] (readAbs nopOp) s

/-- $14 NOP zp,X (R270, R105). -/
def execNopZpX14 (zp : Byte) (s : State) : Result := runInstr [0x14, zp] (readZpX nopOp) s

/-- $1A NOP (R270, R102). -/
def execNop1A (s : State) : Result := runInstr [0x1A] (impliedOp id) s

/-- $1C NOP abs,X (R270, R107). -/
def execNopAbsX1C (lo hi : Byte) (s : State) : Result := runInstr [0x1C, lo, hi] (readAbsX nopOp) s

/-- $34 NOP zp,X (R270, R105). -/
def execNopZpX34 (zp : Byte) (s : State) : Result := runInstr [0x34, zp] (readZpX nopOp) s

/-- $3A NOP (R270, R102). -/
def execNop3A (s : State) : Result := runInstr [0x3A] (impliedOp id) s

/-- $3C NOP abs,X (R270, R107). -/
def execNopAbsX3C (lo hi : Byte) (s : State) : Result := runInstr [0x3C, lo, hi] (readAbsX nopOp) s

/-- $44 NOP zp (R270, R104). -/
def execNopZp44 (zp : Byte) (s : State) : Result := runInstr [0x44, zp] (readZp nopOp) s

/-- $54 NOP zp,X (R270, R105). -/
def execNopZpX54 (zp : Byte) (s : State) : Result := runInstr [0x54, zp] (readZpX nopOp) s

/-- $5A NOP (R270, R102). -/
def execNop5A (s : State) : Result := runInstr [0x5A] (impliedOp id) s

/-- $5C NOP abs,X (R270, R107). -/
def execNopAbsX5C (lo hi : Byte) (s : State) : Result := runInstr [0x5C, lo, hi] (readAbsX nopOp) s

/-- $64 NOP zp (R270, R104). -/
def execNopZp64 (zp : Byte) (s : State) : Result := runInstr [0x64, zp] (readZp nopOp) s

/-- $74 NOP zp,X (R270, R105). -/
def execNopZpX74 (zp : Byte) (s : State) : Result := runInstr [0x74, zp] (readZpX nopOp) s

/-- $7A NOP (R270, R102). -/
def execNop7A (s : State) : Result := runInstr [0x7A] (impliedOp id) s

/-- $7C NOP abs,X (R270, R107). -/
def execNopAbsX7C (lo hi : Byte) (s : State) : Result := runInstr [0x7C, lo, hi] (readAbsX nopOp) s

/-- $80 NOP #imm (R270, R103). -/
def execNopImm80 (imm : Byte) (s : State) : Result := runInstr [0x80, imm] (immediate nopOp) s

/-- $82 NOP #imm (R270, R103). -/
def execNopImm82 (imm : Byte) (s : State) : Result := runInstr [0x82, imm] (immediate nopOp) s

/-- $89 NOP #imm (R270, R103). -/
def execNopImm89 (imm : Byte) (s : State) : Result := runInstr [0x89, imm] (immediate nopOp) s

/-- $C2 NOP #imm (R270, R103). -/
def execNopImmC2 (imm : Byte) (s : State) : Result := runInstr [0xC2, imm] (immediate nopOp) s

/-- $D4 NOP zp,X (R270, R105). -/
def execNopZpXD4 (zp : Byte) (s : State) : Result := runInstr [0xD4, zp] (readZpX nopOp) s

/-- $DA NOP (R270, R102). -/
def execNopDA (s : State) : Result := runInstr [0xDA] (impliedOp id) s

/-- $DC NOP abs,X (R270, R107). -/
def execNopAbsXDC (lo hi : Byte) (s : State) : Result := runInstr [0xDC, lo, hi] (readAbsX nopOp) s

/-- $E2 NOP #imm (R270, R103). -/
def execNopImmE2 (imm : Byte) (s : State) : Result := runInstr [0xE2, imm] (immediate nopOp) s

/-- $F4 NOP zp,X (R270, R105). -/
def execNopZpXF4 (zp : Byte) (s : State) : Result := runInstr [0xF4, zp] (readZpX nopOp) s

/-- $FA NOP (R270, R102). -/
def execNopFA (s : State) : Result := runInstr [0xFA] (impliedOp id) s

/-- $FC NOP abs,X (R270, R107). -/
def execNopAbsXFC (lo hi : Byte) (s : State) : Result := runInstr [0xFC, lo, hi] (readAbsX nopOp) s

/-! ### ANC -/

/-- $0B ANC #imm (R259, R103). -/
def execAncImm0B (imm : Byte) (s : State) : Result := runInstr [0x0B, imm] (immediate ancOp) s

/-- $2B ANC #imm (R259, R103). -/
def execAncImm2B (imm : Byte) (s : State) : Result := runInstr [0x2B, imm] (immediate ancOp) s

/-! ### RLA -/

/-- $23 RLA (zp,X) (R251, R109). -/
def execRlaIndX (zp : Byte) (s : State) : Result := runInstr [0x23, zp] (rmwIndX rlaOp) s

/-- $27 RLA zp (R251, R104). -/
def execRlaZp (zp : Byte) (s : State) : Result := runInstr [0x27, zp] (rmwZp rlaOp) s

/-- $2F RLA abs (R251, R106). -/
def execRlaAbs (lo hi : Byte) (s : State) : Result := runInstr [0x2F, lo, hi] (rmwAbs rlaOp) s

/-- $33 RLA (zp),Y (R251, R111). -/
def execRlaIndY (zp : Byte) (s : State) : Result := runInstr [0x33, zp] (rmwIndY rlaOp) s

/-- $37 RLA zp,X (R251, R105). -/
def execRlaZpX (zp : Byte) (s : State) : Result := runInstr [0x37, zp] (rmwZpX rlaOp) s

/-- $3B RLA abs,Y (R251, R108). -/
def execRlaAbsY (lo hi : Byte) (s : State) : Result := runInstr [0x3B, lo, hi] (rmwAbsY rlaOp) s

/-- $3F RLA abs,X (R251, R108). -/
def execRlaAbsX (lo hi : Byte) (s : State) : Result := runInstr [0x3F, lo, hi] (rmwAbsX rlaOp) s

/-! ### SRE -/

/-- $43 SRE (zp,X) (R252, R109). -/
def execSreIndX (zp : Byte) (s : State) : Result := runInstr [0x43, zp] (rmwIndX sreOp) s

/-- $47 SRE zp (R252, R104). -/
def execSreZp (zp : Byte) (s : State) : Result := runInstr [0x47, zp] (rmwZp sreOp) s

/-- $4F SRE abs (R252, R106). -/
def execSreAbs (lo hi : Byte) (s : State) : Result := runInstr [0x4F, lo, hi] (rmwAbs sreOp) s

/-- $53 SRE (zp),Y (R252, R111). -/
def execSreIndY (zp : Byte) (s : State) : Result := runInstr [0x53, zp] (rmwIndY sreOp) s

/-- $57 SRE zp,X (R252, R105). -/
def execSreZpX (zp : Byte) (s : State) : Result := runInstr [0x57, zp] (rmwZpX sreOp) s

/-- $5B SRE abs,Y (R252, R108). -/
def execSreAbsY (lo hi : Byte) (s : State) : Result := runInstr [0x5B, lo, hi] (rmwAbsY sreOp) s

/-- $5F SRE abs,X (R252, R108). -/
def execSreAbsX (lo hi : Byte) (s : State) : Result := runInstr [0x5F, lo, hi] (rmwAbsX sreOp) s

/-! ### ALR -/

/-- $4B ALR #imm (R260, R103). -/
def execAlrImm (imm : Byte) (s : State) : Result := runInstr [0x4B, imm] (immediate alrOp) s

/-! ### RRA -/

/-- $63 RRA (zp,X) (R253, R109). -/
def execRraIndX (zp : Byte) (s : State) : Result := runInstr [0x63, zp] (rmwIndX rraOp) s

/-- $67 RRA zp (R253, R104). -/
def execRraZp (zp : Byte) (s : State) : Result := runInstr [0x67, zp] (rmwZp rraOp) s

/-- $6F RRA abs (R253, R106). -/
def execRraAbs (lo hi : Byte) (s : State) : Result := runInstr [0x6F, lo, hi] (rmwAbs rraOp) s

/-- $73 RRA (zp),Y (R253, R111). -/
def execRraIndY (zp : Byte) (s : State) : Result := runInstr [0x73, zp] (rmwIndY rraOp) s

/-- $77 RRA zp,X (R253, R105). -/
def execRraZpX (zp : Byte) (s : State) : Result := runInstr [0x77, zp] (rmwZpX rraOp) s

/-- $7B RRA abs,Y (R253, R108). -/
def execRraAbsY (lo hi : Byte) (s : State) : Result := runInstr [0x7B, lo, hi] (rmwAbsY rraOp) s

/-- $7F RRA abs,X (R253, R108). -/
def execRraAbsX (lo hi : Byte) (s : State) : Result := runInstr [0x7F, lo, hi] (rmwAbsX rraOp) s

/-! ### ARR -/

/-- $6B ARR #imm (R261, R103). -/
def execArrImm (imm : Byte) (s : State) : Result := runInstr [0x6B, imm] (immediate arrOp) s

/-! ### SAX -/

/-- $83 SAX (zp,X) (R254, R109). -/
def execSaxIndX (zp : Byte) (s : State) : Result := runInstr [0x83, zp] (writeIndX saxValue) s

/-- $87 SAX zp (R254, R104). -/
def execSaxZp (zp : Byte) (s : State) : Result := runInstr [0x87, zp] (writeZp saxValue) s

/-- $8F SAX abs (R254, R106). -/
def execSaxAbs (lo hi : Byte) (s : State) : Result := runInstr [0x8F, lo, hi] (writeAbs saxValue) s

/-- $97 SAX zp,Y (R254, R105). -/
def execSaxZpY (zp : Byte) (s : State) : Result := runInstr [0x97, zp] (writeZpY saxValue) s

/-! ### XAA -/

/-- $8B XAA #imm (R262, R103). -/
def execXaaImm (imm : Byte) (s : State) : Result := runInstr [0x8B, imm] (immediateWith xaaOp) s

/-! ### AHX -/

/-- $93 AHX (zp),Y (R265, R111). -/
def execAhxIndY (zp : Byte) (s : State) : Result := runInstr [0x93, zp] (shIndY saxValue) s

/-- $9F AHX abs,Y (R265, R108). -/
def execAhxAbsY (lo hi : Byte) (s : State) : Result := runInstr [0x9F, lo, hi] (shAbsY saxValue) s

/-! ### TAS -/

/-- $9B TAS abs,Y (R268, R108). -/
def execTasAbsY (lo hi : Byte) (s : State) : Result := runInstr [0x9B, lo, hi] (shAbsY saxValue tasOp) s

/-! ### SHY -/

/-- $9C SHY abs,X (R266, R108). -/
def execShyAbsX (lo hi : Byte) (s : State) : Result := runInstr [0x9C, lo, hi] (shAbsX Regs.y) s

/-! ### SHX -/

/-- $9E SHX abs,Y (R267, R108). -/
def execShxAbsY (lo hi : Byte) (s : State) : Result := runInstr [0x9E, lo, hi] (shAbsY Regs.x) s

/-! ### LAX -/

/-- $A3 LAX (zp,X) (R255, R109). -/
def execLaxIndX (zp : Byte) (s : State) : Result := runInstr [0xA3, zp] (readIndX laxOp) s

/-- $A7 LAX zp (R255, R104). -/
def execLaxZp (zp : Byte) (s : State) : Result := runInstr [0xA7, zp] (readZp laxOp) s

/-- $AB LAX #imm (R256, R103). -/
def execLaxImm (imm : Byte) (s : State) : Result := runInstr [0xAB, imm] (immediateWith lxaOp) s

/-- $AF LAX abs (R255, R106). -/
def execLaxAbs (lo hi : Byte) (s : State) : Result := runInstr [0xAF, lo, hi] (readAbs laxOp) s

/-- $B3 LAX (zp),Y (R255, R110). -/
def execLaxIndY (zp : Byte) (s : State) : Result := runInstr [0xB3, zp] (readIndY laxOp) s

/-- $B7 LAX zp,Y (R255, R105). -/
def execLaxZpY (zp : Byte) (s : State) : Result := runInstr [0xB7, zp] (readZpY laxOp) s

/-- $BF LAX abs,Y (R255, R107). -/
def execLaxAbsY (lo hi : Byte) (s : State) : Result := runInstr [0xBF, lo, hi] (readAbsY laxOp) s

/-! ### LAS -/

/-- $BB LAS abs,Y (R269, R107). -/
def execLasAbsY (lo hi : Byte) (s : State) : Result := runInstr [0xBB, lo, hi] (readAbsY lasOp) s

/-! ### DCP -/

/-- $C3 DCP (zp,X) (R257, R109). -/
def execDcpIndX (zp : Byte) (s : State) : Result := runInstr [0xC3, zp] (rmwIndX dcpOp) s

/-- $C7 DCP zp (R257, R104). -/
def execDcpZp (zp : Byte) (s : State) : Result := runInstr [0xC7, zp] (rmwZp dcpOp) s

/-- $CF DCP abs (R257, R106). -/
def execDcpAbs (lo hi : Byte) (s : State) : Result := runInstr [0xCF, lo, hi] (rmwAbs dcpOp) s

/-- $D3 DCP (zp),Y (R257, R111). -/
def execDcpIndY (zp : Byte) (s : State) : Result := runInstr [0xD3, zp] (rmwIndY dcpOp) s

/-- $D7 DCP zp,X (R257, R105). -/
def execDcpZpX (zp : Byte) (s : State) : Result := runInstr [0xD7, zp] (rmwZpX dcpOp) s

/-- $DB DCP abs,Y (R257, R108). -/
def execDcpAbsY (lo hi : Byte) (s : State) : Result := runInstr [0xDB, lo, hi] (rmwAbsY dcpOp) s

/-- $DF DCP abs,X (R257, R108). -/
def execDcpAbsX (lo hi : Byte) (s : State) : Result := runInstr [0xDF, lo, hi] (rmwAbsX dcpOp) s

/-! ### AXS -/

/-- $CB AXS #imm (R263, R103). -/
def execAxsImm (imm : Byte) (s : State) : Result := runInstr [0xCB, imm] (immediate axsOp) s

/-! ### ISC -/

/-- $E3 ISC (zp,X) (R258, R109). -/
def execIscIndX (zp : Byte) (s : State) : Result := runInstr [0xE3, zp] (rmwIndX iscOp) s

/-- $E7 ISC zp (R258, R104). -/
def execIscZp (zp : Byte) (s : State) : Result := runInstr [0xE7, zp] (rmwZp iscOp) s

/-- $EF ISC abs (R258, R106). -/
def execIscAbs (lo hi : Byte) (s : State) : Result := runInstr [0xEF, lo, hi] (rmwAbs iscOp) s

/-- $F3 ISC (zp),Y (R258, R111). -/
def execIscIndY (zp : Byte) (s : State) : Result := runInstr [0xF3, zp] (rmwIndY iscOp) s

/-- $F7 ISC zp,X (R258, R105). -/
def execIscZpX (zp : Byte) (s : State) : Result := runInstr [0xF7, zp] (rmwZpX iscOp) s

/-- $FB ISC abs,Y (R258, R108). -/
def execIscAbsY (lo hi : Byte) (s : State) : Result := runInstr [0xFB, lo, hi] (rmwAbsY iscOp) s

/-- $FF ISC abs,X (R258, R108). -/
def execIscAbsX (lo hi : Byte) (s : State) : Result := runInstr [0xFF, lo, hi] (rmwAbsX iscOp) s

/-! ### SBC -/

/-- $EB SBC #imm (R271, R103). -/
def execSbcImmEB (imm : Byte) (s : State) : Result := runInstr [0xEB, imm] (immediate sbcOp) s

end Sys2Proof.Machine
end

