-- ==== Sys2Proof/Syntax.lean ====
section
/-! DEFINITION. The instructions: one constructor per row of spec/opcode_table.json (the opcode map of
spec/30_encoding.md R84), the rows that take operand bytes first, in the table's order, and then those that take none. A name is the row's mnemonic and addressing mode (R82); where several rows share both, the
opcode follows. An operand is the byte or the two bytes that follow the opcode, as R82 assembles them. -/

namespace Sys2Proof

/-- An instruction with its operand bytes (R80 to R82): `imm` an immediate byte, `zp` a zero-page byte, `lo` and `hi` the
low and the high byte of an address, `rel` a branch offset. -/
inductive Instr where
  /-- $01 ORA (zp,X) (R166). -/
  | oraIndX (zp : Byte)
  /-- $03 SLO (zp,X) (R250). -/
  | sloIndX (zp : Byte)
  /-- $04 NOP zp (R270). -/
  | nopZp04 (zp : Byte)
  /-- $05 ORA zp (R166). -/
  | oraZp (zp : Byte)
  /-- $06 ASL zp (R178). -/
  | aslZp (zp : Byte)
  /-- $07 SLO zp (R250). -/
  | sloZp (zp : Byte)
  /-- $09 ORA #imm (R166). -/
  | oraImm (imm : Byte)
  /-- $0B ANC #imm (R259). -/
  | ancImm0B (imm : Byte)
  /-- $0C NOP abs (R270). -/
  | nopAbs0C (lo hi : Byte)
  /-- $0D ORA abs (R166). -/
  | oraAbs (lo hi : Byte)
  /-- $0E ASL abs (R178). -/
  | aslAbs (lo hi : Byte)
  /-- $0F SLO abs (R250). -/
  | sloAbs (lo hi : Byte)
  /-- $10 BPL rel (R227). -/
  | bpl (rel : Byte)
  /-- $11 ORA (zp),Y (R166). -/
  | oraIndY (zp : Byte)
  /-- $13 SLO (zp),Y (R250). -/
  | sloIndY (zp : Byte)
  /-- $14 NOP zp,X (R270). -/
  | nopZpX14 (zp : Byte)
  /-- $15 ORA zp,X (R166). -/
  | oraZpX (zp : Byte)
  /-- $16 ASL zp,X (R178). -/
  | aslZpX (zp : Byte)
  /-- $17 SLO zp,X (R250). -/
  | sloZpX (zp : Byte)
  /-- $19 ORA abs,Y (R166). -/
  | oraAbsY (lo hi : Byte)
  /-- $1B SLO abs,Y (R250). -/
  | sloAbsY (lo hi : Byte)
  /-- $1C NOP abs,X (R270). -/
  | nopAbsX1C (lo hi : Byte)
  /-- $1D ORA abs,X (R166). -/
  | oraAbsX (lo hi : Byte)
  /-- $1E ASL abs,X (R178). -/
  | aslAbsX (lo hi : Byte)
  /-- $1F SLO abs,X (R250). -/
  | sloAbsX (lo hi : Byte)
  /-- $20 JSR abs (R222). -/
  | jsrAbs (lo hi : Byte)
  /-- $21 AND (zp,X) (R165). -/
  | andIndX (zp : Byte)
  /-- $23 RLA (zp,X) (R251). -/
  | rlaIndX (zp : Byte)
  /-- $24 BIT zp (R168). -/
  | bitZp (zp : Byte)
  /-- $25 AND zp (R165). -/
  | andZp (zp : Byte)
  /-- $26 ROL zp (R180). -/
  | rolZp (zp : Byte)
  /-- $27 RLA zp (R251). -/
  | rlaZp (zp : Byte)
  /-- $29 AND #imm (R165). -/
  | andImm (imm : Byte)
  /-- $2B ANC #imm (R259). -/
  | ancImm2B (imm : Byte)
  /-- $2C BIT abs (R168). -/
  | bitAbs (lo hi : Byte)
  /-- $2D AND abs (R165). -/
  | andAbs (lo hi : Byte)
  /-- $2E ROL abs (R180). -/
  | rolAbs (lo hi : Byte)
  /-- $2F RLA abs (R251). -/
  | rlaAbs (lo hi : Byte)
  /-- $30 BMI rel (R228). -/
  | bmi (rel : Byte)
  /-- $31 AND (zp),Y (R165). -/
  | andIndY (zp : Byte)
  /-- $33 RLA (zp),Y (R251). -/
  | rlaIndY (zp : Byte)
  /-- $34 NOP zp,X (R270). -/
  | nopZpX34 (zp : Byte)
  /-- $35 AND zp,X (R165). -/
  | andZpX (zp : Byte)
  /-- $36 ROL zp,X (R180). -/
  | rolZpX (zp : Byte)
  /-- $37 RLA zp,X (R251). -/
  | rlaZpX (zp : Byte)
  /-- $39 AND abs,Y (R165). -/
  | andAbsY (lo hi : Byte)
  /-- $3B RLA abs,Y (R251). -/
  | rlaAbsY (lo hi : Byte)
  /-- $3C NOP abs,X (R270). -/
  | nopAbsX3C (lo hi : Byte)
  /-- $3D AND abs,X (R165). -/
  | andAbsX (lo hi : Byte)
  /-- $3E ROL abs,X (R180). -/
  | rolAbsX (lo hi : Byte)
  /-- $3F RLA abs,X (R251). -/
  | rlaAbsX (lo hi : Byte)
  /-- $41 EOR (zp,X) (R167). -/
  | eorIndX (zp : Byte)
  /-- $43 SRE (zp,X) (R252). -/
  | sreIndX (zp : Byte)
  /-- $44 NOP zp (R270). -/
  | nopZp44 (zp : Byte)
  /-- $45 EOR zp (R167). -/
  | eorZp (zp : Byte)
  /-- $46 LSR zp (R179). -/
  | lsrZp (zp : Byte)
  /-- $47 SRE zp (R252). -/
  | sreZp (zp : Byte)
  /-- $49 EOR #imm (R167). -/
  | eorImm (imm : Byte)
  /-- $4B ALR #imm (R260). -/
  | alrImm (imm : Byte)
  /-- $4C JMP abs (R220). -/
  | jmpAbs (lo hi : Byte)
  /-- $4D EOR abs (R167). -/
  | eorAbs (lo hi : Byte)
  /-- $4E LSR abs (R179). -/
  | lsrAbs (lo hi : Byte)
  /-- $4F SRE abs (R252). -/
  | sreAbs (lo hi : Byte)
  /-- $50 BVC rel (R229). -/
  | bvc (rel : Byte)
  /-- $51 EOR (zp),Y (R167). -/
  | eorIndY (zp : Byte)
  /-- $53 SRE (zp),Y (R252). -/
  | sreIndY (zp : Byte)
  /-- $54 NOP zp,X (R270). -/
  | nopZpX54 (zp : Byte)
  /-- $55 EOR zp,X (R167). -/
  | eorZpX (zp : Byte)
  /-- $56 LSR zp,X (R179). -/
  | lsrZpX (zp : Byte)
  /-- $57 SRE zp,X (R252). -/
  | sreZpX (zp : Byte)
  /-- $59 EOR abs,Y (R167). -/
  | eorAbsY (lo hi : Byte)
  /-- $5B SRE abs,Y (R252). -/
  | sreAbsY (lo hi : Byte)
  /-- $5C NOP abs,X (R270). -/
  | nopAbsX5C (lo hi : Byte)
  /-- $5D EOR abs,X (R167). -/
  | eorAbsX (lo hi : Byte)
  /-- $5E LSR abs,X (R179). -/
  | lsrAbsX (lo hi : Byte)
  /-- $5F SRE abs,X (R252). -/
  | sreAbsX (lo hi : Byte)
  /-- $61 ADC (zp,X) (R163). -/
  | adcIndX (zp : Byte)
  /-- $63 RRA (zp,X) (R253). -/
  | rraIndX (zp : Byte)
  /-- $64 NOP zp (R270). -/
  | nopZp64 (zp : Byte)
  /-- $65 ADC zp (R163). -/
  | adcZp (zp : Byte)
  /-- $66 ROR zp (R181). -/
  | rorZp (zp : Byte)
  /-- $67 RRA zp (R253). -/
  | rraZp (zp : Byte)
  /-- $69 ADC #imm (R163). -/
  | adcImm (imm : Byte)
  /-- $6B ARR #imm (R261). -/
  | arrImm (imm : Byte)
  /-- $6C JMP (ind) (R221). -/
  | jmpInd (lo hi : Byte)
  /-- $6D ADC abs (R163). -/
  | adcAbs (lo hi : Byte)
  /-- $6E ROR abs (R181). -/
  | rorAbs (lo hi : Byte)
  /-- $6F RRA abs (R253). -/
  | rraAbs (lo hi : Byte)
  /-- $70 BVS rel (R230). -/
  | bvs (rel : Byte)
  /-- $71 ADC (zp),Y (R163). -/
  | adcIndY (zp : Byte)
  /-- $73 RRA (zp),Y (R253). -/
  | rraIndY (zp : Byte)
  /-- $74 NOP zp,X (R270). -/
  | nopZpX74 (zp : Byte)
  /-- $75 ADC zp,X (R163). -/
  | adcZpX (zp : Byte)
  /-- $76 ROR zp,X (R181). -/
  | rorZpX (zp : Byte)
  /-- $77 RRA zp,X (R253). -/
  | rraZpX (zp : Byte)
  /-- $79 ADC abs,Y (R163). -/
  | adcAbsY (lo hi : Byte)
  /-- $7B RRA abs,Y (R253). -/
  | rraAbsY (lo hi : Byte)
  /-- $7C NOP abs,X (R270). -/
  | nopAbsX7C (lo hi : Byte)
  /-- $7D ADC abs,X (R163). -/
  | adcAbsX (lo hi : Byte)
  /-- $7E ROR abs,X (R181). -/
  | rorAbsX (lo hi : Byte)
  /-- $7F RRA abs,X (R253). -/
  | rraAbsX (lo hi : Byte)
  /-- $80 NOP #imm (R270). -/
  | nopImm80 (imm : Byte)
  /-- $81 STA (zp,X) (R143). -/
  | staIndX (zp : Byte)
  /-- $82 NOP #imm (R270). -/
  | nopImm82 (imm : Byte)
  /-- $83 SAX (zp,X) (R254). -/
  | saxIndX (zp : Byte)
  /-- $84 STY zp (R145). -/
  | styZp (zp : Byte)
  /-- $85 STA zp (R143). -/
  | staZp (zp : Byte)
  /-- $86 STX zp (R144). -/
  | stxZp (zp : Byte)
  /-- $87 SAX zp (R254). -/
  | saxZp (zp : Byte)
  /-- $89 NOP #imm (R270). -/
  | nopImm89 (imm : Byte)
  /-- $8B XAA #imm (R262). -/
  | xaaImm (imm : Byte)
  /-- $8C STY abs (R145). -/
  | styAbs (lo hi : Byte)
  /-- $8D STA abs (R143). -/
  | staAbs (lo hi : Byte)
  /-- $8E STX abs (R144). -/
  | stxAbs (lo hi : Byte)
  /-- $8F SAX abs (R254). -/
  | saxAbs (lo hi : Byte)
  /-- $90 BCC rel (R231). -/
  | bcc (rel : Byte)
  /-- $91 STA (zp),Y (R143). -/
  | staIndY (zp : Byte)
  /-- $93 AHX (zp),Y (R265). -/
  | ahxIndY (zp : Byte)
  /-- $94 STY zp,X (R145). -/
  | styZpX (zp : Byte)
  /-- $95 STA zp,X (R143). -/
  | staZpX (zp : Byte)
  /-- $96 STX zp,Y (R144). -/
  | stxZpY (zp : Byte)
  /-- $97 SAX zp,Y (R254). -/
  | saxZpY (zp : Byte)
  /-- $99 STA abs,Y (R143). -/
  | staAbsY (lo hi : Byte)
  /-- $9B TAS abs,Y (R268). -/
  | tasAbsY (lo hi : Byte)
  /-- $9C SHY abs,X (R266). -/
  | shyAbsX (lo hi : Byte)
  /-- $9D STA abs,X (R143). -/
  | staAbsX (lo hi : Byte)
  /-- $9E SHX abs,Y (R267). -/
  | shxAbsY (lo hi : Byte)
  /-- $9F AHX abs,Y (R265). -/
  | ahxAbsY (lo hi : Byte)
  /-- $A0 LDY #imm (R142). -/
  | ldyImm (imm : Byte)
  /-- $A1 LDA (zp,X) (R140). -/
  | ldaIndX (zp : Byte)
  /-- $A2 LDX #imm (R141). -/
  | ldxImm (imm : Byte)
  /-- $A3 LAX (zp,X) (R255). -/
  | laxIndX (zp : Byte)
  /-- $A4 LDY zp (R142). -/
  | ldyZp (zp : Byte)
  /-- $A5 LDA zp (R140). -/
  | ldaZp (zp : Byte)
  /-- $A6 LDX zp (R141). -/
  | ldxZp (zp : Byte)
  /-- $A7 LAX zp (R255). -/
  | laxZp (zp : Byte)
  /-- $A9 LDA #imm (R140). -/
  | ldaImm (imm : Byte)
  /-- $AB LAX #imm (R256). -/
  | laxImm (imm : Byte)
  /-- $AC LDY abs (R142). -/
  | ldyAbs (lo hi : Byte)
  /-- $AD LDA abs (R140). -/
  | ldaAbs (lo hi : Byte)
  /-- $AE LDX abs (R141). -/
  | ldxAbs (lo hi : Byte)
  /-- $AF LAX abs (R255). -/
  | laxAbs (lo hi : Byte)
  /-- $B0 BCS rel (R232). -/
  | bcs (rel : Byte)
  /-- $B1 LDA (zp),Y (R140). -/
  | ldaIndY (zp : Byte)
  /-- $B3 LAX (zp),Y (R255). -/
  | laxIndY (zp : Byte)
  /-- $B4 LDY zp,X (R142). -/
  | ldyZpX (zp : Byte)
  /-- $B5 LDA zp,X (R140). -/
  | ldaZpX (zp : Byte)
  /-- $B6 LDX zp,Y (R141). -/
  | ldxZpY (zp : Byte)
  /-- $B7 LAX zp,Y (R255). -/
  | laxZpY (zp : Byte)
  /-- $B9 LDA abs,Y (R140). -/
  | ldaAbsY (lo hi : Byte)
  /-- $BB LAS abs,Y (R269). -/
  | lasAbsY (lo hi : Byte)
  /-- $BC LDY abs,X (R142). -/
  | ldyAbsX (lo hi : Byte)
  /-- $BD LDA abs,X (R140). -/
  | ldaAbsX (lo hi : Byte)
  /-- $BE LDX abs,Y (R141). -/
  | ldxAbsY (lo hi : Byte)
  /-- $BF LAX abs,Y (R255). -/
  | laxAbsY (lo hi : Byte)
  /-- $C0 CPY #imm (R171). -/
  | cpyImm (imm : Byte)
  /-- $C1 CMP (zp,X) (R169). -/
  | cmpIndX (zp : Byte)
  /-- $C2 NOP #imm (R270). -/
  | nopImmC2 (imm : Byte)
  /-- $C3 DCP (zp,X) (R257). -/
  | dcpIndX (zp : Byte)
  /-- $C4 CPY zp (R171). -/
  | cpyZp (zp : Byte)
  /-- $C5 CMP zp (R169). -/
  | cmpZp (zp : Byte)
  /-- $C6 DEC zp (R173). -/
  | decZp (zp : Byte)
  /-- $C7 DCP zp (R257). -/
  | dcpZp (zp : Byte)
  /-- $C9 CMP #imm (R169). -/
  | cmpImm (imm : Byte)
  /-- $CB AXS #imm (R263). -/
  | axsImm (imm : Byte)
  /-- $CC CPY abs (R171). -/
  | cpyAbs (lo hi : Byte)
  /-- $CD CMP abs (R169). -/
  | cmpAbs (lo hi : Byte)
  /-- $CE DEC abs (R173). -/
  | decAbs (lo hi : Byte)
  /-- $CF DCP abs (R257). -/
  | dcpAbs (lo hi : Byte)
  /-- $D0 BNE rel (R233). -/
  | bne (rel : Byte)
  /-- $D1 CMP (zp),Y (R169). -/
  | cmpIndY (zp : Byte)
  /-- $D3 DCP (zp),Y (R257). -/
  | dcpIndY (zp : Byte)
  /-- $D4 NOP zp,X (R270). -/
  | nopZpXD4 (zp : Byte)
  /-- $D5 CMP zp,X (R169). -/
  | cmpZpX (zp : Byte)
  /-- $D6 DEC zp,X (R173). -/
  | decZpX (zp : Byte)
  /-- $D7 DCP zp,X (R257). -/
  | dcpZpX (zp : Byte)
  /-- $D9 CMP abs,Y (R169). -/
  | cmpAbsY (lo hi : Byte)
  /-- $DB DCP abs,Y (R257). -/
  | dcpAbsY (lo hi : Byte)
  /-- $DC NOP abs,X (R270). -/
  | nopAbsXDC (lo hi : Byte)
  /-- $DD CMP abs,X (R169). -/
  | cmpAbsX (lo hi : Byte)
  /-- $DE DEC abs,X (R173). -/
  | decAbsX (lo hi : Byte)
  /-- $DF DCP abs,X (R257). -/
  | dcpAbsX (lo hi : Byte)
  /-- $E0 CPX #imm (R170). -/
  | cpxImm (imm : Byte)
  /-- $E1 SBC (zp,X) (R164). -/
  | sbcIndX (zp : Byte)
  /-- $E2 NOP #imm (R270). -/
  | nopImmE2 (imm : Byte)
  /-- $E3 ISC (zp,X) (R258). -/
  | iscIndX (zp : Byte)
  /-- $E4 CPX zp (R170). -/
  | cpxZp (zp : Byte)
  /-- $E5 SBC zp (R164). -/
  | sbcZp (zp : Byte)
  /-- $E6 INC zp (R172). -/
  | incZp (zp : Byte)
  /-- $E7 ISC zp (R258). -/
  | iscZp (zp : Byte)
  /-- $E9 SBC #imm (R164). -/
  | sbcImm (imm : Byte)
  /-- $EB SBC #imm (R271). -/
  | sbcImmEB (imm : Byte)
  /-- $EC CPX abs (R170). -/
  | cpxAbs (lo hi : Byte)
  /-- $ED SBC abs (R164). -/
  | sbcAbs (lo hi : Byte)
  /-- $EE INC abs (R172). -/
  | incAbs (lo hi : Byte)
  /-- $EF ISC abs (R258). -/
  | iscAbs (lo hi : Byte)
  /-- $F0 BEQ rel (R234). -/
  | beq (rel : Byte)
  /-- $F1 SBC (zp),Y (R164). -/
  | sbcIndY (zp : Byte)
  /-- $F3 ISC (zp),Y (R258). -/
  | iscIndY (zp : Byte)
  /-- $F4 NOP zp,X (R270). -/
  | nopZpXF4 (zp : Byte)
  /-- $F5 SBC zp,X (R164). -/
  | sbcZpX (zp : Byte)
  /-- $F6 INC zp,X (R172). -/
  | incZpX (zp : Byte)
  /-- $F7 ISC zp,X (R258). -/
  | iscZpX (zp : Byte)
  /-- $F9 SBC abs,Y (R164). -/
  | sbcAbsY (lo hi : Byte)
  /-- $FB ISC abs,Y (R258). -/
  | iscAbsY (lo hi : Byte)
  /-- $FC NOP abs,X (R270). -/
  | nopAbsXFC (lo hi : Byte)
  /-- $FD SBC abs,X (R164). -/
  | sbcAbsX (lo hi : Byte)
  /-- $FE INC abs,X (R172). -/
  | incAbsX (lo hi : Byte)
  /-- $FF ISC abs,X (R258). -/
  | iscAbsX (lo hi : Byte)
  /-- $00 BRK (R225). -/
  | brk
  /-- $02 KIL (R272). -/
  | kil02
  /-- $08 PHP (R201). -/
  | php
  /-- $0A ASL A (R178). -/
  | aslA
  /-- $12 KIL (R272). -/
  | kil12
  /-- $18 CLC (R204). -/
  | clc
  /-- $1A NOP (R270). -/
  | nop1A
  /-- $22 KIL (R272). -/
  | kil22
  /-- $28 PLP (R203). -/
  | plp
  /-- $2A ROL A (R180). -/
  | rolA
  /-- $32 KIL (R272). -/
  | kil32
  /-- $38 SEC (R205). -/
  | sec
  /-- $3A NOP (R270). -/
  | nop3A
  /-- $40 RTI (R224). -/
  | rti
  /-- $42 KIL (R272). -/
  | kil42
  /-- $48 PHA (R200). -/
  | pha
  /-- $4A LSR A (R179). -/
  | lsrA
  /-- $52 KIL (R272). -/
  | kil52
  /-- $58 CLI (R206). -/
  | cli
  /-- $5A NOP (R270). -/
  | nop5A
  /-- $60 RTS (R223). -/
  | rts
  /-- $62 KIL (R272). -/
  | kil62
  /-- $68 PLA (R202). -/
  | pla
  /-- $6A ROR A (R181). -/
  | rorA
  /-- $72 KIL (R272). -/
  | kil72
  /-- $78 SEI (R207). -/
  | sei
  /-- $7A NOP (R270). -/
  | nop7A
  /-- $88 DEY (R177). -/
  | dey
  /-- $8A TXA (R148). -/
  | txa
  /-- $92 KIL (R272). -/
  | kil92
  /-- $98 TYA (R149). -/
  | tya
  /-- $9A TXS (R151). -/
  | txs
  /-- $A8 TAY (R147). -/
  | tay
  /-- $AA TAX (R146). -/
  | tax
  /-- $B2 KIL (R272). -/
  | kilB2
  /-- $B8 CLV (R210). -/
  | clv
  /-- $BA TSX (R150). -/
  | tsx
  /-- $C8 INY (R175). -/
  | iny
  /-- $CA DEX (R176). -/
  | dex
  /-- $D2 KIL (R272). -/
  | kilD2
  /-- $D8 CLD (R208). -/
  | cld
  /-- $DA NOP (R270). -/
  | nopDA
  /-- $E8 INX (R174). -/
  | inx
  /-- $EA NOP (R235). -/
  | nop
  /-- $F2 KIL (R272). -/
  | kilF2
  /-- $F8 SED (R209). -/
  | sed
  /-- $FA NOP (R270). -/
  | nopFA
deriving DecidableEq, Repr

end Sys2Proof
end

