-- ==== Sys2Proof/Machine/Dispatch.lean ====
section
/-! DEFINITION. Dispatch: one arm per instruction, in the table's order, each a call of the instruction's own meaning. -/

namespace Sys2Proof.Machine

def exec (i : Instr) (s : State) : Host.Outcome State Fault Refusal :=
  match i with
  | .brk => Sys2Proof.Machine.execBrk s
  | .oraIndX zp => Sys2Proof.Machine.execOraIndX zp s
  | .kil02 => Sys2Proof.Machine.execKil02 s
  | .sloIndX zp => Sys2Proof.Machine.execSloIndX zp s
  | .nopZp04 zp => Sys2Proof.Machine.execNopZp04 zp s
  | .oraZp zp => Sys2Proof.Machine.execOraZp zp s
  | .aslZp zp => Sys2Proof.Machine.execAslZp zp s
  | .sloZp zp => Sys2Proof.Machine.execSloZp zp s
  | .php => Sys2Proof.Machine.execPhp s
  | .oraImm imm => Sys2Proof.Machine.execOraImm imm s
  | .aslA => Sys2Proof.Machine.execAslA s
  | .ancImm0B imm => Sys2Proof.Machine.execAncImm0B imm s
  | .nopAbs0C lo hi => Sys2Proof.Machine.execNopAbs0C lo hi s
  | .oraAbs lo hi => Sys2Proof.Machine.execOraAbs lo hi s
  | .aslAbs lo hi => Sys2Proof.Machine.execAslAbs lo hi s
  | .sloAbs lo hi => Sys2Proof.Machine.execSloAbs lo hi s
  | .bpl rel => Sys2Proof.Machine.execBpl rel s
  | .oraIndY zp => Sys2Proof.Machine.execOraIndY zp s
  | .kil12 => Sys2Proof.Machine.execKil12 s
  | .sloIndY zp => Sys2Proof.Machine.execSloIndY zp s
  | .nopZpX14 zp => Sys2Proof.Machine.execNopZpX14 zp s
  | .oraZpX zp => Sys2Proof.Machine.execOraZpX zp s
  | .aslZpX zp => Sys2Proof.Machine.execAslZpX zp s
  | .sloZpX zp => Sys2Proof.Machine.execSloZpX zp s
  | .clc => Sys2Proof.Machine.execClc s
  | .oraAbsY lo hi => Sys2Proof.Machine.execOraAbsY lo hi s
  | .nop1A => Sys2Proof.Machine.execNop1A s
  | .sloAbsY lo hi => Sys2Proof.Machine.execSloAbsY lo hi s
  | .nopAbsX1C lo hi => Sys2Proof.Machine.execNopAbsX1C lo hi s
  | .oraAbsX lo hi => Sys2Proof.Machine.execOraAbsX lo hi s
  | .aslAbsX lo hi => Sys2Proof.Machine.execAslAbsX lo hi s
  | .sloAbsX lo hi => Sys2Proof.Machine.execSloAbsX lo hi s
  | .jsrAbs lo hi => Sys2Proof.Machine.execJsrAbs lo hi s
  | .andIndX zp => Sys2Proof.Machine.execAndIndX zp s
  | .kil22 => Sys2Proof.Machine.execKil22 s
  | .rlaIndX zp => Sys2Proof.Machine.execRlaIndX zp s
  | .bitZp zp => Sys2Proof.Machine.execBitZp zp s
  | .andZp zp => Sys2Proof.Machine.execAndZp zp s
  | .rolZp zp => Sys2Proof.Machine.execRolZp zp s
  | .rlaZp zp => Sys2Proof.Machine.execRlaZp zp s
  | .plp => Sys2Proof.Machine.execPlp s
  | .andImm imm => Sys2Proof.Machine.execAndImm imm s
  | .rolA => Sys2Proof.Machine.execRolA s
  | .ancImm2B imm => Sys2Proof.Machine.execAncImm2B imm s
  | .bitAbs lo hi => Sys2Proof.Machine.execBitAbs lo hi s
  | .andAbs lo hi => Sys2Proof.Machine.execAndAbs lo hi s
  | .rolAbs lo hi => Sys2Proof.Machine.execRolAbs lo hi s
  | .rlaAbs lo hi => Sys2Proof.Machine.execRlaAbs lo hi s
  | .bmi rel => Sys2Proof.Machine.execBmi rel s
  | .andIndY zp => Sys2Proof.Machine.execAndIndY zp s
  | .kil32 => Sys2Proof.Machine.execKil32 s
  | .rlaIndY zp => Sys2Proof.Machine.execRlaIndY zp s
  | .nopZpX34 zp => Sys2Proof.Machine.execNopZpX34 zp s
  | .andZpX zp => Sys2Proof.Machine.execAndZpX zp s
  | .rolZpX zp => Sys2Proof.Machine.execRolZpX zp s
  | .rlaZpX zp => Sys2Proof.Machine.execRlaZpX zp s
  | .sec => Sys2Proof.Machine.execSec s
  | .andAbsY lo hi => Sys2Proof.Machine.execAndAbsY lo hi s
  | .nop3A => Sys2Proof.Machine.execNop3A s
  | .rlaAbsY lo hi => Sys2Proof.Machine.execRlaAbsY lo hi s
  | .nopAbsX3C lo hi => Sys2Proof.Machine.execNopAbsX3C lo hi s
  | .andAbsX lo hi => Sys2Proof.Machine.execAndAbsX lo hi s
  | .rolAbsX lo hi => Sys2Proof.Machine.execRolAbsX lo hi s
  | .rlaAbsX lo hi => Sys2Proof.Machine.execRlaAbsX lo hi s
  | .rti => Sys2Proof.Machine.execRti s
  | .eorIndX zp => Sys2Proof.Machine.execEorIndX zp s
  | .kil42 => Sys2Proof.Machine.execKil42 s
  | .sreIndX zp => Sys2Proof.Machine.execSreIndX zp s
  | .nopZp44 zp => Sys2Proof.Machine.execNopZp44 zp s
  | .eorZp zp => Sys2Proof.Machine.execEorZp zp s
  | .lsrZp zp => Sys2Proof.Machine.execLsrZp zp s
  | .sreZp zp => Sys2Proof.Machine.execSreZp zp s
  | .pha => Sys2Proof.Machine.execPha s
  | .eorImm imm => Sys2Proof.Machine.execEorImm imm s
  | .lsrA => Sys2Proof.Machine.execLsrA s
  | .alrImm imm => Sys2Proof.Machine.execAlrImm imm s
  | .jmpAbs lo hi => Sys2Proof.Machine.execJmpAbs lo hi s
  | .eorAbs lo hi => Sys2Proof.Machine.execEorAbs lo hi s
  | .lsrAbs lo hi => Sys2Proof.Machine.execLsrAbs lo hi s
  | .sreAbs lo hi => Sys2Proof.Machine.execSreAbs lo hi s
  | .bvc rel => Sys2Proof.Machine.execBvc rel s
  | .eorIndY zp => Sys2Proof.Machine.execEorIndY zp s
  | .kil52 => Sys2Proof.Machine.execKil52 s
  | .sreIndY zp => Sys2Proof.Machine.execSreIndY zp s
  | .nopZpX54 zp => Sys2Proof.Machine.execNopZpX54 zp s
  | .eorZpX zp => Sys2Proof.Machine.execEorZpX zp s
  | .lsrZpX zp => Sys2Proof.Machine.execLsrZpX zp s
  | .sreZpX zp => Sys2Proof.Machine.execSreZpX zp s
  | .cli => Sys2Proof.Machine.execCli s
  | .eorAbsY lo hi => Sys2Proof.Machine.execEorAbsY lo hi s
  | .nop5A => Sys2Proof.Machine.execNop5A s
  | .sreAbsY lo hi => Sys2Proof.Machine.execSreAbsY lo hi s
  | .nopAbsX5C lo hi => Sys2Proof.Machine.execNopAbsX5C lo hi s
  | .eorAbsX lo hi => Sys2Proof.Machine.execEorAbsX lo hi s
  | .lsrAbsX lo hi => Sys2Proof.Machine.execLsrAbsX lo hi s
  | .sreAbsX lo hi => Sys2Proof.Machine.execSreAbsX lo hi s
  | .rts => Sys2Proof.Machine.execRts s
  | .adcIndX zp => Sys2Proof.Machine.execAdcIndX zp s
  | .kil62 => Sys2Proof.Machine.execKil62 s
  | .rraIndX zp => Sys2Proof.Machine.execRraIndX zp s
  | .nopZp64 zp => Sys2Proof.Machine.execNopZp64 zp s
  | .adcZp zp => Sys2Proof.Machine.execAdcZp zp s
  | .rorZp zp => Sys2Proof.Machine.execRorZp zp s
  | .rraZp zp => Sys2Proof.Machine.execRraZp zp s
  | .pla => Sys2Proof.Machine.execPla s
  | .adcImm imm => Sys2Proof.Machine.execAdcImm imm s
  | .rorA => Sys2Proof.Machine.execRorA s
  | .arrImm imm => Sys2Proof.Machine.execArrImm imm s
  | .jmpInd lo hi => Sys2Proof.Machine.execJmpInd lo hi s
  | .adcAbs lo hi => Sys2Proof.Machine.execAdcAbs lo hi s
  | .rorAbs lo hi => Sys2Proof.Machine.execRorAbs lo hi s
  | .rraAbs lo hi => Sys2Proof.Machine.execRraAbs lo hi s
  | .bvs rel => Sys2Proof.Machine.execBvs rel s
  | .adcIndY zp => Sys2Proof.Machine.execAdcIndY zp s
  | .kil72 => Sys2Proof.Machine.execKil72 s
  | .rraIndY zp => Sys2Proof.Machine.execRraIndY zp s
  | .nopZpX74 zp => Sys2Proof.Machine.execNopZpX74 zp s
  | .adcZpX zp => Sys2Proof.Machine.execAdcZpX zp s
  | .rorZpX zp => Sys2Proof.Machine.execRorZpX zp s
  | .rraZpX zp => Sys2Proof.Machine.execRraZpX zp s
  | .sei => Sys2Proof.Machine.execSei s
  | .adcAbsY lo hi => Sys2Proof.Machine.execAdcAbsY lo hi s
  | .nop7A => Sys2Proof.Machine.execNop7A s
  | .rraAbsY lo hi => Sys2Proof.Machine.execRraAbsY lo hi s
  | .nopAbsX7C lo hi => Sys2Proof.Machine.execNopAbsX7C lo hi s
  | .adcAbsX lo hi => Sys2Proof.Machine.execAdcAbsX lo hi s
  | .rorAbsX lo hi => Sys2Proof.Machine.execRorAbsX lo hi s
  | .rraAbsX lo hi => Sys2Proof.Machine.execRraAbsX lo hi s
  | .nopImm80 imm => Sys2Proof.Machine.execNopImm80 imm s
  | .staIndX zp => Sys2Proof.Machine.execStaIndX zp s
  | .nopImm82 imm => Sys2Proof.Machine.execNopImm82 imm s
  | .saxIndX zp => Sys2Proof.Machine.execSaxIndX zp s
  | .styZp zp => Sys2Proof.Machine.execStyZp zp s
  | .staZp zp => Sys2Proof.Machine.execStaZp zp s
  | .stxZp zp => Sys2Proof.Machine.execStxZp zp s
  | .saxZp zp => Sys2Proof.Machine.execSaxZp zp s
  | .dey => Sys2Proof.Machine.execDey s
  | .nopImm89 imm => Sys2Proof.Machine.execNopImm89 imm s
  | .txa => Sys2Proof.Machine.execTxa s
  | .xaaImm imm => Sys2Proof.Machine.execXaaImm imm s
  | .styAbs lo hi => Sys2Proof.Machine.execStyAbs lo hi s
  | .staAbs lo hi => Sys2Proof.Machine.execStaAbs lo hi s
  | .stxAbs lo hi => Sys2Proof.Machine.execStxAbs lo hi s
  | .saxAbs lo hi => Sys2Proof.Machine.execSaxAbs lo hi s
  | .bcc rel => Sys2Proof.Machine.execBcc rel s
  | .staIndY zp => Sys2Proof.Machine.execStaIndY zp s
  | .kil92 => Sys2Proof.Machine.execKil92 s
  | .ahxIndY zp => Sys2Proof.Machine.execAhxIndY zp s
  | .styZpX zp => Sys2Proof.Machine.execStyZpX zp s
  | .staZpX zp => Sys2Proof.Machine.execStaZpX zp s
  | .stxZpY zp => Sys2Proof.Machine.execStxZpY zp s
  | .saxZpY zp => Sys2Proof.Machine.execSaxZpY zp s
  | .tya => Sys2Proof.Machine.execTya s
  | .staAbsY lo hi => Sys2Proof.Machine.execStaAbsY lo hi s
  | .txs => Sys2Proof.Machine.execTxs s
  | .tasAbsY lo hi => Sys2Proof.Machine.execTasAbsY lo hi s
  | .shyAbsX lo hi => Sys2Proof.Machine.execShyAbsX lo hi s
  | .staAbsX lo hi => Sys2Proof.Machine.execStaAbsX lo hi s
  | .shxAbsY lo hi => Sys2Proof.Machine.execShxAbsY lo hi s
  | .ahxAbsY lo hi => Sys2Proof.Machine.execAhxAbsY lo hi s
  | .ldyImm imm => Sys2Proof.Machine.execLdyImm imm s
  | .ldaIndX zp => Sys2Proof.Machine.execLdaIndX zp s
  | .ldxImm imm => Sys2Proof.Machine.execLdxImm imm s
  | .laxIndX zp => Sys2Proof.Machine.execLaxIndX zp s
  | .ldyZp zp => Sys2Proof.Machine.execLdyZp zp s
  | .ldaZp zp => Sys2Proof.Machine.execLdaZp zp s
  | .ldxZp zp => Sys2Proof.Machine.execLdxZp zp s
  | .laxZp zp => Sys2Proof.Machine.execLaxZp zp s
  | .tay => Sys2Proof.Machine.execTay s
  | .ldaImm imm => Sys2Proof.Machine.execLdaImm imm s
  | .tax => Sys2Proof.Machine.execTax s
  | .laxImm imm => Sys2Proof.Machine.execLaxImm imm s
  | .ldyAbs lo hi => Sys2Proof.Machine.execLdyAbs lo hi s
  | .ldaAbs lo hi => Sys2Proof.Machine.execLdaAbs lo hi s
  | .ldxAbs lo hi => Sys2Proof.Machine.execLdxAbs lo hi s
  | .laxAbs lo hi => Sys2Proof.Machine.execLaxAbs lo hi s
  | .bcs rel => Sys2Proof.Machine.execBcs rel s
  | .ldaIndY zp => Sys2Proof.Machine.execLdaIndY zp s
  | .kilB2 => Sys2Proof.Machine.execKilB2 s
  | .laxIndY zp => Sys2Proof.Machine.execLaxIndY zp s
  | .ldyZpX zp => Sys2Proof.Machine.execLdyZpX zp s
  | .ldaZpX zp => Sys2Proof.Machine.execLdaZpX zp s
  | .ldxZpY zp => Sys2Proof.Machine.execLdxZpY zp s
  | .laxZpY zp => Sys2Proof.Machine.execLaxZpY zp s
  | .clv => Sys2Proof.Machine.execClv s
  | .ldaAbsY lo hi => Sys2Proof.Machine.execLdaAbsY lo hi s
  | .tsx => Sys2Proof.Machine.execTsx s
  | .lasAbsY lo hi => Sys2Proof.Machine.execLasAbsY lo hi s
  | .ldyAbsX lo hi => Sys2Proof.Machine.execLdyAbsX lo hi s
  | .ldaAbsX lo hi => Sys2Proof.Machine.execLdaAbsX lo hi s
  | .ldxAbsY lo hi => Sys2Proof.Machine.execLdxAbsY lo hi s
  | .laxAbsY lo hi => Sys2Proof.Machine.execLaxAbsY lo hi s
  | .cpyImm imm => Sys2Proof.Machine.execCpyImm imm s
  | .cmpIndX zp => Sys2Proof.Machine.execCmpIndX zp s
  | .nopImmC2 imm => Sys2Proof.Machine.execNopImmC2 imm s
  | .dcpIndX zp => Sys2Proof.Machine.execDcpIndX zp s
  | .cpyZp zp => Sys2Proof.Machine.execCpyZp zp s
  | .cmpZp zp => Sys2Proof.Machine.execCmpZp zp s
  | .decZp zp => Sys2Proof.Machine.execDecZp zp s
  | .dcpZp zp => Sys2Proof.Machine.execDcpZp zp s
  | .iny => Sys2Proof.Machine.execIny s
  | .cmpImm imm => Sys2Proof.Machine.execCmpImm imm s
  | .dex => Sys2Proof.Machine.execDex s
  | .axsImm imm => Sys2Proof.Machine.execAxsImm imm s
  | .cpyAbs lo hi => Sys2Proof.Machine.execCpyAbs lo hi s
  | .cmpAbs lo hi => Sys2Proof.Machine.execCmpAbs lo hi s
  | .decAbs lo hi => Sys2Proof.Machine.execDecAbs lo hi s
  | .dcpAbs lo hi => Sys2Proof.Machine.execDcpAbs lo hi s
  | .bne rel => Sys2Proof.Machine.execBne rel s
  | .cmpIndY zp => Sys2Proof.Machine.execCmpIndY zp s
  | .kilD2 => Sys2Proof.Machine.execKilD2 s
  | .dcpIndY zp => Sys2Proof.Machine.execDcpIndY zp s
  | .nopZpXD4 zp => Sys2Proof.Machine.execNopZpXD4 zp s
  | .cmpZpX zp => Sys2Proof.Machine.execCmpZpX zp s
  | .decZpX zp => Sys2Proof.Machine.execDecZpX zp s
  | .dcpZpX zp => Sys2Proof.Machine.execDcpZpX zp s
  | .cld => Sys2Proof.Machine.execCld s
  | .cmpAbsY lo hi => Sys2Proof.Machine.execCmpAbsY lo hi s
  | .nopDA => Sys2Proof.Machine.execNopDA s
  | .dcpAbsY lo hi => Sys2Proof.Machine.execDcpAbsY lo hi s
  | .nopAbsXDC lo hi => Sys2Proof.Machine.execNopAbsXDC lo hi s
  | .cmpAbsX lo hi => Sys2Proof.Machine.execCmpAbsX lo hi s
  | .decAbsX lo hi => Sys2Proof.Machine.execDecAbsX lo hi s
  | .dcpAbsX lo hi => Sys2Proof.Machine.execDcpAbsX lo hi s
  | .cpxImm imm => Sys2Proof.Machine.execCpxImm imm s
  | .sbcIndX zp => Sys2Proof.Machine.execSbcIndX zp s
  | .nopImmE2 imm => Sys2Proof.Machine.execNopImmE2 imm s
  | .iscIndX zp => Sys2Proof.Machine.execIscIndX zp s
  | .cpxZp zp => Sys2Proof.Machine.execCpxZp zp s
  | .sbcZp zp => Sys2Proof.Machine.execSbcZp zp s
  | .incZp zp => Sys2Proof.Machine.execIncZp zp s
  | .iscZp zp => Sys2Proof.Machine.execIscZp zp s
  | .inx => Sys2Proof.Machine.execInx s
  | .sbcImm imm => Sys2Proof.Machine.execSbcImm imm s
  | .nop => Sys2Proof.Machine.execNop s
  | .sbcImmEB imm => Sys2Proof.Machine.execSbcImmEB imm s
  | .cpxAbs lo hi => Sys2Proof.Machine.execCpxAbs lo hi s
  | .sbcAbs lo hi => Sys2Proof.Machine.execSbcAbs lo hi s
  | .incAbs lo hi => Sys2Proof.Machine.execIncAbs lo hi s
  | .iscAbs lo hi => Sys2Proof.Machine.execIscAbs lo hi s
  | .beq rel => Sys2Proof.Machine.execBeq rel s
  | .sbcIndY zp => Sys2Proof.Machine.execSbcIndY zp s
  | .kilF2 => Sys2Proof.Machine.execKilF2 s
  | .iscIndY zp => Sys2Proof.Machine.execIscIndY zp s
  | .nopZpXF4 zp => Sys2Proof.Machine.execNopZpXF4 zp s
  | .sbcZpX zp => Sys2Proof.Machine.execSbcZpX zp s
  | .incZpX zp => Sys2Proof.Machine.execIncZpX zp s
  | .iscZpX zp => Sys2Proof.Machine.execIscZpX zp s
  | .sed => Sys2Proof.Machine.execSed s
  | .sbcAbsY lo hi => Sys2Proof.Machine.execSbcAbsY lo hi s
  | .nopFA => Sys2Proof.Machine.execNopFA s
  | .iscAbsY lo hi => Sys2Proof.Machine.execIscAbsY lo hi s
  | .nopAbsXFC lo hi => Sys2Proof.Machine.execNopAbsXFC lo hi s
  | .sbcAbsX lo hi => Sys2Proof.Machine.execSbcAbsX lo hi s
  | .incAbsX lo hi => Sys2Proof.Machine.execIncAbsX lo hi s
  | .iscAbsX lo hi => Sys2Proof.Machine.execIscAbsX lo hi s

end Sys2Proof.Machine
end

