-- ==== Sys2Proof/Decode.lean ====
section
/-! DEFINITION. The decoder and the encoder, both written from the opcode map of spec/30_encoding.md R84 and the operand
assembly of R82. Every opcode byte decodes (R80, R90); only a byte list that ends before the instruction does is refused. -/

namespace Sys2Proof

/-- What an opcode byte still needs: no operand, one operand byte, or two (R80, R82). -/
inductive Shape where
  | none (i : Instr)
  | one (f : Byte → Instr)
  | two (f : Byte → Byte → Instr)

/-- Why a byte list is not an instruction: it ends too early. No opcode is refused (R90). -/
inductive DecodeError where
  /-- There is no opcode byte. -/
  | empty
  /-- The list ends before the operand bytes of this opcode. -/
  | truncated (opcode : Byte)
deriving DecidableEq, Repr
/-- Row 0x of the opcode map (R84). -/
def shapeRow0 : List Shape :=
  [.none .brk, .one .oraIndX, .none .kil02, .one .sloIndX, .one .nopZp04, .one .oraZp,
   .one .aslZp, .one .sloZp, .none .php, .one .oraImm, .none .aslA,
   .one .ancImm0B, .two .nopAbs0C, .two .oraAbs, .two .aslAbs, .two .sloAbs]

/-- Row 1x of the opcode map (R84). -/
def shapeRow1 : List Shape :=
  [.one .bpl, .one .oraIndY, .none .kil12, .one .sloIndY, .one .nopZpX14, .one .oraZpX,
   .one .aslZpX, .one .sloZpX, .none .clc, .two .oraAbsY, .none .nop1A,
   .two .sloAbsY, .two .nopAbsX1C, .two .oraAbsX, .two .aslAbsX, .two .sloAbsX]

/-- Row 2x of the opcode map (R84). -/
def shapeRow2 : List Shape :=
  [.two .jsrAbs, .one .andIndX, .none .kil22, .one .rlaIndX, .one .bitZp, .one .andZp,
   .one .rolZp, .one .rlaZp, .none .plp, .one .andImm, .none .rolA,
   .one .ancImm2B, .two .bitAbs, .two .andAbs, .two .rolAbs, .two .rlaAbs]

/-- Row 3x of the opcode map (R84). -/
def shapeRow3 : List Shape :=
  [.one .bmi, .one .andIndY, .none .kil32, .one .rlaIndY, .one .nopZpX34, .one .andZpX,
   .one .rolZpX, .one .rlaZpX, .none .sec, .two .andAbsY, .none .nop3A,
   .two .rlaAbsY, .two .nopAbsX3C, .two .andAbsX, .two .rolAbsX, .two .rlaAbsX]

/-- Row 4x of the opcode map (R84). -/
def shapeRow4 : List Shape :=
  [.none .rti, .one .eorIndX, .none .kil42, .one .sreIndX, .one .nopZp44, .one .eorZp,
   .one .lsrZp, .one .sreZp, .none .pha, .one .eorImm, .none .lsrA,
   .one .alrImm, .two .jmpAbs, .two .eorAbs, .two .lsrAbs, .two .sreAbs]

/-- Row 5x of the opcode map (R84). -/
def shapeRow5 : List Shape :=
  [.one .bvc, .one .eorIndY, .none .kil52, .one .sreIndY, .one .nopZpX54, .one .eorZpX,
   .one .lsrZpX, .one .sreZpX, .none .cli, .two .eorAbsY, .none .nop5A,
   .two .sreAbsY, .two .nopAbsX5C, .two .eorAbsX, .two .lsrAbsX, .two .sreAbsX]

/-- Row 6x of the opcode map (R84). -/
def shapeRow6 : List Shape :=
  [.none .rts, .one .adcIndX, .none .kil62, .one .rraIndX, .one .nopZp64, .one .adcZp,
   .one .rorZp, .one .rraZp, .none .pla, .one .adcImm, .none .rorA,
   .one .arrImm, .two .jmpInd, .two .adcAbs, .two .rorAbs, .two .rraAbs]

/-- Row 7x of the opcode map (R84). -/
def shapeRow7 : List Shape :=
  [.one .bvs, .one .adcIndY, .none .kil72, .one .rraIndY, .one .nopZpX74, .one .adcZpX,
   .one .rorZpX, .one .rraZpX, .none .sei, .two .adcAbsY, .none .nop7A,
   .two .rraAbsY, .two .nopAbsX7C, .two .adcAbsX, .two .rorAbsX, .two .rraAbsX]

/-- Row 8x of the opcode map (R84). -/
def shapeRow8 : List Shape :=
  [.one .nopImm80, .one .staIndX, .one .nopImm82, .one .saxIndX, .one .styZp, .one .staZp,
   .one .stxZp, .one .saxZp, .none .dey, .one .nopImm89, .none .txa,
   .one .xaaImm, .two .styAbs, .two .staAbs, .two .stxAbs, .two .saxAbs]

/-- Row 9x of the opcode map (R84). -/
def shapeRow9 : List Shape :=
  [.one .bcc, .one .staIndY, .none .kil92, .one .ahxIndY, .one .styZpX, .one .staZpX,
   .one .stxZpY, .one .saxZpY, .none .tya, .two .staAbsY, .none .txs,
   .two .tasAbsY, .two .shyAbsX, .two .staAbsX, .two .shxAbsY, .two .ahxAbsY]

/-- Row Ax of the opcode map (R84). -/
def shapeRowA : List Shape :=
  [.one .ldyImm, .one .ldaIndX, .one .ldxImm, .one .laxIndX, .one .ldyZp, .one .ldaZp,
   .one .ldxZp, .one .laxZp, .none .tay, .one .ldaImm, .none .tax,
   .one .laxImm, .two .ldyAbs, .two .ldaAbs, .two .ldxAbs, .two .laxAbs]

/-- Row Bx of the opcode map (R84). -/
def shapeRowB : List Shape :=
  [.one .bcs, .one .ldaIndY, .none .kilB2, .one .laxIndY, .one .ldyZpX, .one .ldaZpX,
   .one .ldxZpY, .one .laxZpY, .none .clv, .two .ldaAbsY, .none .tsx,
   .two .lasAbsY, .two .ldyAbsX, .two .ldaAbsX, .two .ldxAbsY, .two .laxAbsY]

/-- Row Cx of the opcode map (R84). -/
def shapeRowC : List Shape :=
  [.one .cpyImm, .one .cmpIndX, .one .nopImmC2, .one .dcpIndX, .one .cpyZp, .one .cmpZp,
   .one .decZp, .one .dcpZp, .none .iny, .one .cmpImm, .none .dex,
   .one .axsImm, .two .cpyAbs, .two .cmpAbs, .two .decAbs, .two .dcpAbs]

/-- Row Dx of the opcode map (R84). -/
def shapeRowD : List Shape :=
  [.one .bne, .one .cmpIndY, .none .kilD2, .one .dcpIndY, .one .nopZpXD4, .one .cmpZpX,
   .one .decZpX, .one .dcpZpX, .none .cld, .two .cmpAbsY, .none .nopDA,
   .two .dcpAbsY, .two .nopAbsXDC, .two .cmpAbsX, .two .decAbsX, .two .dcpAbsX]

/-- Row Ex of the opcode map (R84). -/
def shapeRowE : List Shape :=
  [.one .cpxImm, .one .sbcIndX, .one .nopImmE2, .one .iscIndX, .one .cpxZp, .one .sbcZp,
   .one .incZp, .one .iscZp, .none .inx, .one .sbcImm, .none .nop,
   .one .sbcImmEB, .two .cpxAbs, .two .sbcAbs, .two .incAbs, .two .iscAbs]

/-- Row Fx of the opcode map (R84). -/
def shapeRowF : List Shape :=
  [.one .beq, .one .sbcIndY, .none .kilF2, .one .iscIndY, .one .nopZpXF4, .one .sbcZpX,
   .one .incZpX, .one .iscZpX, .none .sed, .two .sbcAbsY, .none .nopFA,
   .two .iscAbsY, .two .nopAbsXFC, .two .sbcAbsX, .two .incAbsX, .two .iscAbsX]

/-- The opcode map (R84), row after row. -/
def shapes : List Shape :=
  shapeRow0 ++ shapeRow1 ++ shapeRow2 ++ shapeRow3 ++ shapeRow4 ++ shapeRow5 ++ shapeRow6 ++ shapeRow7 ++
  shapeRow8 ++ shapeRow9 ++ shapeRowA ++ shapeRowB ++ shapeRowC ++ shapeRowD ++ shapeRowE ++ shapeRowF

/-- The entry of the opcode map for a byte. The map has 256 entries, so the default is never taken. -/
def shapeOf (op : Byte) : Shape := shapes.getD op.toNat (.none .nop)

/-- The instruction an opcode byte begins, given the two bytes after it; it takes as many as its mode says (R81, R82). -/
def Shape.build : Shape → Byte → Byte → Instr
  | .none i, _, _ => i
  | .one f, b, _ => f b
  | .two f, lo, hi => f lo hi

/-- The instruction that three consecutive bytes begin with (R80): total, since every opcode byte is an instruction. -/
def decode3 (op lo hi : Byte) : Instr := (shapeOf op).build lo hi

/-- Decoding a list of bytes: the instruction and the bytes after it, or why there is none (R80, R81, R90). -/
def decode : List Byte → Except DecodeError (Instr × List Byte)
  | [] => .error .empty
  | op :: rest =>
    match shapeOf op, rest with
    | .none i, rest => .ok (i, rest)
    | .one f, b :: rest => .ok (f b, rest)
    | .two f, lo :: hi :: rest => .ok (f lo hi, rest)
    | _, _ => .error (.truncated op)

/-- The bytes of an instruction, opcode first, operand bytes at rising addresses, low byte first (R54, R81). -/
def encode : Instr → List Byte
  | .brk => [0x00]
  | .oraIndX zp => [0x01, zp]
  | .kil02 => [0x02]
  | .sloIndX zp => [0x03, zp]
  | .nopZp04 zp => [0x04, zp]
  | .oraZp zp => [0x05, zp]
  | .aslZp zp => [0x06, zp]
  | .sloZp zp => [0x07, zp]
  | .php => [0x08]
  | .oraImm imm => [0x09, imm]
  | .aslA => [0x0A]
  | .ancImm0B imm => [0x0B, imm]
  | .nopAbs0C lo hi => [0x0C, lo, hi]
  | .oraAbs lo hi => [0x0D, lo, hi]
  | .aslAbs lo hi => [0x0E, lo, hi]
  | .sloAbs lo hi => [0x0F, lo, hi]
  | .bpl rel => [0x10, rel]
  | .oraIndY zp => [0x11, zp]
  | .kil12 => [0x12]
  | .sloIndY zp => [0x13, zp]
  | .nopZpX14 zp => [0x14, zp]
  | .oraZpX zp => [0x15, zp]
  | .aslZpX zp => [0x16, zp]
  | .sloZpX zp => [0x17, zp]
  | .clc => [0x18]
  | .oraAbsY lo hi => [0x19, lo, hi]
  | .nop1A => [0x1A]
  | .sloAbsY lo hi => [0x1B, lo, hi]
  | .nopAbsX1C lo hi => [0x1C, lo, hi]
  | .oraAbsX lo hi => [0x1D, lo, hi]
  | .aslAbsX lo hi => [0x1E, lo, hi]
  | .sloAbsX lo hi => [0x1F, lo, hi]
  | .jsrAbs lo hi => [0x20, lo, hi]
  | .andIndX zp => [0x21, zp]
  | .kil22 => [0x22]
  | .rlaIndX zp => [0x23, zp]
  | .bitZp zp => [0x24, zp]
  | .andZp zp => [0x25, zp]
  | .rolZp zp => [0x26, zp]
  | .rlaZp zp => [0x27, zp]
  | .plp => [0x28]
  | .andImm imm => [0x29, imm]
  | .rolA => [0x2A]
  | .ancImm2B imm => [0x2B, imm]
  | .bitAbs lo hi => [0x2C, lo, hi]
  | .andAbs lo hi => [0x2D, lo, hi]
  | .rolAbs lo hi => [0x2E, lo, hi]
  | .rlaAbs lo hi => [0x2F, lo, hi]
  | .bmi rel => [0x30, rel]
  | .andIndY zp => [0x31, zp]
  | .kil32 => [0x32]
  | .rlaIndY zp => [0x33, zp]
  | .nopZpX34 zp => [0x34, zp]
  | .andZpX zp => [0x35, zp]
  | .rolZpX zp => [0x36, zp]
  | .rlaZpX zp => [0x37, zp]
  | .sec => [0x38]
  | .andAbsY lo hi => [0x39, lo, hi]
  | .nop3A => [0x3A]
  | .rlaAbsY lo hi => [0x3B, lo, hi]
  | .nopAbsX3C lo hi => [0x3C, lo, hi]
  | .andAbsX lo hi => [0x3D, lo, hi]
  | .rolAbsX lo hi => [0x3E, lo, hi]
  | .rlaAbsX lo hi => [0x3F, lo, hi]
  | .rti => [0x40]
  | .eorIndX zp => [0x41, zp]
  | .kil42 => [0x42]
  | .sreIndX zp => [0x43, zp]
  | .nopZp44 zp => [0x44, zp]
  | .eorZp zp => [0x45, zp]
  | .lsrZp zp => [0x46, zp]
  | .sreZp zp => [0x47, zp]
  | .pha => [0x48]
  | .eorImm imm => [0x49, imm]
  | .lsrA => [0x4A]
  | .alrImm imm => [0x4B, imm]
  | .jmpAbs lo hi => [0x4C, lo, hi]
  | .eorAbs lo hi => [0x4D, lo, hi]
  | .lsrAbs lo hi => [0x4E, lo, hi]
  | .sreAbs lo hi => [0x4F, lo, hi]
  | .bvc rel => [0x50, rel]
  | .eorIndY zp => [0x51, zp]
  | .kil52 => [0x52]
  | .sreIndY zp => [0x53, zp]
  | .nopZpX54 zp => [0x54, zp]
  | .eorZpX zp => [0x55, zp]
  | .lsrZpX zp => [0x56, zp]
  | .sreZpX zp => [0x57, zp]
  | .cli => [0x58]
  | .eorAbsY lo hi => [0x59, lo, hi]
  | .nop5A => [0x5A]
  | .sreAbsY lo hi => [0x5B, lo, hi]
  | .nopAbsX5C lo hi => [0x5C, lo, hi]
  | .eorAbsX lo hi => [0x5D, lo, hi]
  | .lsrAbsX lo hi => [0x5E, lo, hi]
  | .sreAbsX lo hi => [0x5F, lo, hi]
  | .rts => [0x60]
  | .adcIndX zp => [0x61, zp]
  | .kil62 => [0x62]
  | .rraIndX zp => [0x63, zp]
  | .nopZp64 zp => [0x64, zp]
  | .adcZp zp => [0x65, zp]
  | .rorZp zp => [0x66, zp]
  | .rraZp zp => [0x67, zp]
  | .pla => [0x68]
  | .adcImm imm => [0x69, imm]
  | .rorA => [0x6A]
  | .arrImm imm => [0x6B, imm]
  | .jmpInd lo hi => [0x6C, lo, hi]
  | .adcAbs lo hi => [0x6D, lo, hi]
  | .rorAbs lo hi => [0x6E, lo, hi]
  | .rraAbs lo hi => [0x6F, lo, hi]
  | .bvs rel => [0x70, rel]
  | .adcIndY zp => [0x71, zp]
  | .kil72 => [0x72]
  | .rraIndY zp => [0x73, zp]
  | .nopZpX74 zp => [0x74, zp]
  | .adcZpX zp => [0x75, zp]
  | .rorZpX zp => [0x76, zp]
  | .rraZpX zp => [0x77, zp]
  | .sei => [0x78]
  | .adcAbsY lo hi => [0x79, lo, hi]
  | .nop7A => [0x7A]
  | .rraAbsY lo hi => [0x7B, lo, hi]
  | .nopAbsX7C lo hi => [0x7C, lo, hi]
  | .adcAbsX lo hi => [0x7D, lo, hi]
  | .rorAbsX lo hi => [0x7E, lo, hi]
  | .rraAbsX lo hi => [0x7F, lo, hi]
  | .nopImm80 imm => [0x80, imm]
  | .staIndX zp => [0x81, zp]
  | .nopImm82 imm => [0x82, imm]
  | .saxIndX zp => [0x83, zp]
  | .styZp zp => [0x84, zp]
  | .staZp zp => [0x85, zp]
  | .stxZp zp => [0x86, zp]
  | .saxZp zp => [0x87, zp]
  | .dey => [0x88]
  | .nopImm89 imm => [0x89, imm]
  | .txa => [0x8A]
  | .xaaImm imm => [0x8B, imm]
  | .styAbs lo hi => [0x8C, lo, hi]
  | .staAbs lo hi => [0x8D, lo, hi]
  | .stxAbs lo hi => [0x8E, lo, hi]
  | .saxAbs lo hi => [0x8F, lo, hi]
  | .bcc rel => [0x90, rel]
  | .staIndY zp => [0x91, zp]
  | .kil92 => [0x92]
  | .ahxIndY zp => [0x93, zp]
  | .styZpX zp => [0x94, zp]
  | .staZpX zp => [0x95, zp]
  | .stxZpY zp => [0x96, zp]
  | .saxZpY zp => [0x97, zp]
  | .tya => [0x98]
  | .staAbsY lo hi => [0x99, lo, hi]
  | .txs => [0x9A]
  | .tasAbsY lo hi => [0x9B, lo, hi]
  | .shyAbsX lo hi => [0x9C, lo, hi]
  | .staAbsX lo hi => [0x9D, lo, hi]
  | .shxAbsY lo hi => [0x9E, lo, hi]
  | .ahxAbsY lo hi => [0x9F, lo, hi]
  | .ldyImm imm => [0xA0, imm]
  | .ldaIndX zp => [0xA1, zp]
  | .ldxImm imm => [0xA2, imm]
  | .laxIndX zp => [0xA3, zp]
  | .ldyZp zp => [0xA4, zp]
  | .ldaZp zp => [0xA5, zp]
  | .ldxZp zp => [0xA6, zp]
  | .laxZp zp => [0xA7, zp]
  | .tay => [0xA8]
  | .ldaImm imm => [0xA9, imm]
  | .tax => [0xAA]
  | .laxImm imm => [0xAB, imm]
  | .ldyAbs lo hi => [0xAC, lo, hi]
  | .ldaAbs lo hi => [0xAD, lo, hi]
  | .ldxAbs lo hi => [0xAE, lo, hi]
  | .laxAbs lo hi => [0xAF, lo, hi]
  | .bcs rel => [0xB0, rel]
  | .ldaIndY zp => [0xB1, zp]
  | .kilB2 => [0xB2]
  | .laxIndY zp => [0xB3, zp]
  | .ldyZpX zp => [0xB4, zp]
  | .ldaZpX zp => [0xB5, zp]
  | .ldxZpY zp => [0xB6, zp]
  | .laxZpY zp => [0xB7, zp]
  | .clv => [0xB8]
  | .ldaAbsY lo hi => [0xB9, lo, hi]
  | .tsx => [0xBA]
  | .lasAbsY lo hi => [0xBB, lo, hi]
  | .ldyAbsX lo hi => [0xBC, lo, hi]
  | .ldaAbsX lo hi => [0xBD, lo, hi]
  | .ldxAbsY lo hi => [0xBE, lo, hi]
  | .laxAbsY lo hi => [0xBF, lo, hi]
  | .cpyImm imm => [0xC0, imm]
  | .cmpIndX zp => [0xC1, zp]
  | .nopImmC2 imm => [0xC2, imm]
  | .dcpIndX zp => [0xC3, zp]
  | .cpyZp zp => [0xC4, zp]
  | .cmpZp zp => [0xC5, zp]
  | .decZp zp => [0xC6, zp]
  | .dcpZp zp => [0xC7, zp]
  | .iny => [0xC8]
  | .cmpImm imm => [0xC9, imm]
  | .dex => [0xCA]
  | .axsImm imm => [0xCB, imm]
  | .cpyAbs lo hi => [0xCC, lo, hi]
  | .cmpAbs lo hi => [0xCD, lo, hi]
  | .decAbs lo hi => [0xCE, lo, hi]
  | .dcpAbs lo hi => [0xCF, lo, hi]
  | .bne rel => [0xD0, rel]
  | .cmpIndY zp => [0xD1, zp]
  | .kilD2 => [0xD2]
  | .dcpIndY zp => [0xD3, zp]
  | .nopZpXD4 zp => [0xD4, zp]
  | .cmpZpX zp => [0xD5, zp]
  | .decZpX zp => [0xD6, zp]
  | .dcpZpX zp => [0xD7, zp]
  | .cld => [0xD8]
  | .cmpAbsY lo hi => [0xD9, lo, hi]
  | .nopDA => [0xDA]
  | .dcpAbsY lo hi => [0xDB, lo, hi]
  | .nopAbsXDC lo hi => [0xDC, lo, hi]
  | .cmpAbsX lo hi => [0xDD, lo, hi]
  | .decAbsX lo hi => [0xDE, lo, hi]
  | .dcpAbsX lo hi => [0xDF, lo, hi]
  | .cpxImm imm => [0xE0, imm]
  | .sbcIndX zp => [0xE1, zp]
  | .nopImmE2 imm => [0xE2, imm]
  | .iscIndX zp => [0xE3, zp]
  | .cpxZp zp => [0xE4, zp]
  | .sbcZp zp => [0xE5, zp]
  | .incZp zp => [0xE6, zp]
  | .iscZp zp => [0xE7, zp]
  | .inx => [0xE8]
  | .sbcImm imm => [0xE9, imm]
  | .nop => [0xEA]
  | .sbcImmEB imm => [0xEB, imm]
  | .cpxAbs lo hi => [0xEC, lo, hi]
  | .sbcAbs lo hi => [0xED, lo, hi]
  | .incAbs lo hi => [0xEE, lo, hi]
  | .iscAbs lo hi => [0xEF, lo, hi]
  | .beq rel => [0xF0, rel]
  | .sbcIndY zp => [0xF1, zp]
  | .kilF2 => [0xF2]
  | .iscIndY zp => [0xF3, zp]
  | .nopZpXF4 zp => [0xF4, zp]
  | .sbcZpX zp => [0xF5, zp]
  | .incZpX zp => [0xF6, zp]
  | .iscZpX zp => [0xF7, zp]
  | .sed => [0xF8]
  | .sbcAbsY lo hi => [0xF9, lo, hi]
  | .nopFA => [0xFA]
  | .iscAbsY lo hi => [0xFB, lo, hi]
  | .nopAbsXFC lo hi => [0xFC, lo, hi]
  | .sbcAbsX lo hi => [0xFD, lo, hi]
  | .incAbsX lo hi => [0xFE, lo, hi]
  | .iscAbsX lo hi => [0xFF, lo, hi]

/-- The opcode byte of an instruction. -/
def Instr.opcode (i : Instr) : Byte := (encode i).headD 0

/-- The length in bytes of an instruction, from its mode (R82). -/
def Instr.length (i : Instr) : Nat :=
  match shapeOf i.opcode with
  | .none _ => 1
  | .one _ => 2
  | .two _ => 3

/-- Byte number `k` of a table word, numbered as spec/opcode_table.json numbers its bits: bits 8k+7 to 8k, the first byte
lowest; the bits from `nbits` on are 0. -/
def tableByte (nbits w k : Nat) : Byte := BitVec.ofNat 8 ((w % 2 ^ nbits) / 2 ^ (8 * k))

/-- The three bytes of a table word, as they lie in memory: no instruction is longer (R80). -/
def tableBytes (nbits w : Nat) : List Byte := [tableByte nbits w 0, tableByte nbits w 1, tableByte nbits w 2]

/-- The instruction the decoder reads from a word of the opcode table. -/
def decodeTableWord (nbits w : Nat) : Option Instr :=
  match decode (tableBytes nbits w) with
  | .ok (i, _) => some i
  | .error _ => none

end Sys2Proof
end

