-- ==== Sys2Proof/Machine/Microcode.lean ====
section
/-! DEFINITION. The skeleton of every opcode as a table (spec/40_addressing.md R100), for the cycle step and for going on with
an instruction that the host stopped between two of its cycles (spec/60_exceptions.md R324, R332); and the fetch of the next
instruction. The laws show that the table and the meanings agree. -/

namespace Sys2Proof.Machine

/-- Row 0x of the opcode map. -/
def microRow0 : List (List Cycle) :=
  [breakSkeleton, readIndX oraOp, haltSkeleton, rmwIndX sloOp, readZp nopOp, readZp oraOp, rmwZp aslOp, rmwZp sloOp,
   pushSkeleton phpValue, immediate oraOp, impliedOp (onA aslOp), immediate ancOp, readAbs nopOp, readAbs oraOp,
   rmwAbs aslOp, rmwAbs sloOp]

/-- Row 1x of the opcode map. -/
def microRow1 : List (List Cycle) :=
  [branchSkeleton bplCond, readIndY oraOp, haltSkeleton, rmwIndY sloOp, readZpX nopOp, readZpX oraOp, rmwZpX aslOp,
   rmwZpX sloOp, impliedOp clcOp, readAbsY oraOp, impliedOp id, rmwAbsY sloOp, readAbsX nopOp, readAbsX oraOp,
   rmwAbsX aslOp, rmwAbsX sloOp]

/-- Row 2x of the opcode map. -/
def microRow2 : List (List Cycle) :=
  [callSkeleton, readIndX andOp, haltSkeleton, rmwIndX rlaOp, readZp bitOp, readZp andOp, rmwZp rolOp, rmwZp rlaOp,
   pullSkeleton plpOp, immediate andOp, impliedOp (onA rolOp), immediate ancOp, readAbs bitOp, readAbs andOp,
   rmwAbs rolOp, rmwAbs rlaOp]

/-- Row 3x of the opcode map. -/
def microRow3 : List (List Cycle) :=
  [branchSkeleton bmiCond, readIndY andOp, haltSkeleton, rmwIndY rlaOp, readZpX nopOp, readZpX andOp, rmwZpX rolOp,
   rmwZpX rlaOp, impliedOp secOp, readAbsY andOp, impliedOp id, rmwAbsY rlaOp, readAbsX nopOp, readAbsX andOp,
   rmwAbsX rolOp, rmwAbsX rlaOp]

/-- Row 4x of the opcode map. -/
def microRow4 : List (List Cycle) :=
  [interruptReturnSkeleton, readIndX eorOp, haltSkeleton, rmwIndX sreOp, readZp nopOp, readZp eorOp, rmwZp lsrOp,
   rmwZp sreOp, pushSkeleton Regs.a, immediate eorOp, impliedOp (onA lsrOp), immediate alrOp, jumpSkeleton,
   readAbs eorOp, rmwAbs lsrOp, rmwAbs sreOp]

/-- Row 5x of the opcode map. -/
def microRow5 : List (List Cycle) :=
  [branchSkeleton bvcCond, readIndY eorOp, haltSkeleton, rmwIndY sreOp, readZpX nopOp, readZpX eorOp, rmwZpX lsrOp,
   rmwZpX sreOp, impliedOp cliOp, readAbsY eorOp, impliedOp id, rmwAbsY sreOp, readAbsX nopOp, readAbsX eorOp,
   rmwAbsX lsrOp, rmwAbsX sreOp]

/-- Row 6x of the opcode map. -/
def microRow6 : List (List Cycle) :=
  [returnSkeleton, readIndX adcOp, haltSkeleton, rmwIndX rraOp, readZp nopOp, readZp adcOp, rmwZp rorOp, rmwZp rraOp,
   pullSkeleton plaOp, immediate adcOp, impliedOp (onA rorOp), immediate arrOp, jumpIndirectSkeleton, readAbs adcOp,
   rmwAbs rorOp, rmwAbs rraOp]

/-- Row 7x of the opcode map. -/
def microRow7 : List (List Cycle) :=
  [branchSkeleton bvsCond, readIndY adcOp, haltSkeleton, rmwIndY rraOp, readZpX nopOp, readZpX adcOp, rmwZpX rorOp,
   rmwZpX rraOp, impliedOp seiOp, readAbsY adcOp, impliedOp id, rmwAbsY rraOp, readAbsX nopOp, readAbsX adcOp,
   rmwAbsX rorOp, rmwAbsX rraOp]

/-- Row 8x of the opcode map. -/
def microRow8 : List (List Cycle) :=
  [immediate nopOp, writeIndX Regs.a, immediate nopOp, writeIndX saxValue, writeZp Regs.y, writeZp Regs.a,
   writeZp Regs.x, writeZp saxValue, impliedOp deyOp, immediate nopOp, impliedOp txaOp, immediateWith xaaOp,
   writeAbs Regs.y, writeAbs Regs.a, writeAbs Regs.x, writeAbs saxValue]

/-- Row 9x of the opcode map. -/
def microRow9 : List (List Cycle) :=
  [branchSkeleton bccCond, writeIndY Regs.a, haltSkeleton, shIndY saxValue, writeZpX Regs.y, writeZpX Regs.a,
   writeZpY Regs.x, writeZpY saxValue, impliedOp tyaOp, writeAbsY Regs.a, impliedOp txsOp, shAbsY saxValue tasOp,
   shAbsX Regs.y, writeAbsX Regs.a, shAbsY Regs.x, shAbsY saxValue]

/-- Row Ax of the opcode map. -/
def microRowA : List (List Cycle) :=
  [immediate ldyOp, readIndX ldaOp, immediate ldxOp, readIndX laxOp, readZp ldyOp, readZp ldaOp, readZp ldxOp,
   readZp laxOp, impliedOp tayOp, immediate ldaOp, impliedOp taxOp, immediateWith lxaOp, readAbs ldyOp,
   readAbs ldaOp, readAbs ldxOp, readAbs laxOp]

/-- Row Bx of the opcode map. -/
def microRowB : List (List Cycle) :=
  [branchSkeleton bcsCond, readIndY ldaOp, haltSkeleton, readIndY laxOp, readZpX ldyOp, readZpX ldaOp, readZpY ldxOp,
   readZpY laxOp, impliedOp clvOp, readAbsY ldaOp, impliedOp tsxOp, readAbsY lasOp, readAbsX ldyOp, readAbsX ldaOp,
   readAbsY ldxOp, readAbsY laxOp]

/-- Row Cx of the opcode map. -/
def microRowC : List (List Cycle) :=
  [immediate cpyOp, readIndX cmpOp, immediate nopOp, rmwIndX dcpOp, readZp cpyOp, readZp cmpOp, rmwZp decOp,
   rmwZp dcpOp, impliedOp inyOp, immediate cmpOp, impliedOp dexOp, immediate axsOp, readAbs cpyOp, readAbs cmpOp,
   rmwAbs decOp, rmwAbs dcpOp]

/-- Row Dx of the opcode map. -/
def microRowD : List (List Cycle) :=
  [branchSkeleton bneCond, readIndY cmpOp, haltSkeleton, rmwIndY dcpOp, readZpX nopOp, readZpX cmpOp, rmwZpX decOp,
   rmwZpX dcpOp, impliedOp cldOp, readAbsY cmpOp, impliedOp id, rmwAbsY dcpOp, readAbsX nopOp, readAbsX cmpOp,
   rmwAbsX decOp, rmwAbsX dcpOp]

/-- Row Ex of the opcode map. -/
def microRowE : List (List Cycle) :=
  [immediate cpxOp, readIndX sbcOp, immediate nopOp, rmwIndX iscOp, readZp cpxOp, readZp sbcOp, rmwZp incOp,
   rmwZp iscOp, impliedOp inxOp, immediate sbcOp, impliedOp id, immediate sbcOp, readAbs cpxOp, readAbs sbcOp,
   rmwAbs incOp, rmwAbs iscOp]

/-- Row Fx of the opcode map. -/
def microRowF : List (List Cycle) :=
  [branchSkeleton beqCond, readIndY sbcOp, haltSkeleton, rmwIndY iscOp, readZpX nopOp, readZpX sbcOp, rmwZpX incOp,
   rmwZpX iscOp, impliedOp sedOp, readAbsY sbcOp, impliedOp id, rmwAbsY iscOp, readAbsX nopOp, readAbsX sbcOp,
   rmwAbsX incOp, rmwAbsX iscOp]

/-- The skeletons of all opcodes, row after row of the opcode map (R84). -/
def microcodeTable : List (List Cycle) :=
  microRow0 ++ microRow1 ++ microRow2 ++ microRow3 ++ microRow4 ++ microRow5 ++ microRow6 ++ microRow7 ++
  microRow8 ++ microRow9 ++ microRowA ++ microRowB ++ microRowC ++ microRowD ++ microRowE ++ microRowF

/-- The skeleton of an opcode, with the operation of its instruction (R100). -/
def microcode (op : Byte) : List Cycle := microcodeTable.getD op.toNat []

/-- The directions of the accesses before the second operand byte is fetched: JSR fetches it after its pushes (R116). -/
def beforeHigh (op : Byte) : List Dir :=
  if op = 0x20 then [.read, .read, .read, .write, .write] else [.read, .read]

/-- The instruction the next fetches will read: its bytes are what the bus answers at PC and after it, each in the cycle of
its own fetch (R81, R101; log 11). -/
def State.fetchInstr (s : State) : Instr :=
  let op := s.answer [] s.pc
  decode3 op (s.answer [.read] (s.pc + 1)) (s.answer (beforeHigh op) (s.pc + 2))

/-- The rows of a skeleton from the cycle at hand on. -/
def State.rowsLeft (s : State) (skeleton : List Cycle) : List Cycle := skeleton.drop (s.t - 1)

/-- Going on with what is executing, to its end: a halted CPU lets one cycle pass (R329). -/
def State.resume (s : State) : State :=
  match s.seq with
  | .instr => runSeq (s.rowsLeft (microcode s.ir)) s
  | .intSeq _ => runSeq (s.rowsLeft interruptSequence) s
  | .resetSeq => runSeq (s.rowsLeft resetSequence) s
  | .halted => s.haltedCycle

/-- The start of a step (R329, R332): the stop flag is down, and what the next cycle begins is settled. -/
def State.startStep (s : State) : State := { s with stop := false }.startCycle

/-- The row of the cycle at hand, and whether it is the last one of its skeleton. Cycle 1 of an instruction is the opcode
fetch, whatever the opcode (R101). -/
def State.currentRow (s : State) : Option (Cycle × Bool) :=
  let ofRows : List Cycle → Option (Cycle × Bool)
    | [] => none
    | c :: cs => some (c, cs.isEmpty)
  match s.seq with
  | .instr => if s.t == 1 then some (opcodeFetch, false) else ofRows (s.rowsLeft (microcode s.ir))
  | .intSeq _ => ofRows (s.rowsLeft interruptSequence)
  | .resetSeq => ofRows (s.rowsLeft resetSequence)
  | .halted => none

/-- One CPU cycle: `cpu_cycle()` of R324. Where `t` names no row, which no run reaches, the CPU is put at a boundary
(log 20). -/
def State.cycle (s : State) : State :=
  let s' := s.startStep
  if s'.halted then s'.haltedCycle
  else
    match s'.currentRow with
    | none => { s' with seq := .instr, t := 1 }
    | some (c, last) =>
      if (s'.reqOf c).isRead && s'.input.stallReq then s'.stallCycle c else s'.normalCycle c last

end Sys2Proof.Machine
end

