-- ==== Sys2Proof/Machine/HostPort.lean ====
section
/-! DEFINITION. What the host does to the CPU between steps: reset (spec/70_reset_and_hazards.md R350 to R355), stepping by
cycles (60_exceptions.md R329), breakpoints (R330), snapshots (10_state.md R39), and loading a program. -/

namespace Sys2Proof.Machine

/-- What both kinds of reset do (R353): the latches are cleared, the halted state is left, and the request is pending. -/
def State.requestReset (s : State) (k : ResetKind) : State :=
  { s with
    nmiDetected := false
    pollPrev := false
    pollCur := false
    takeInt := false
    seq := .instr
    t := 1
    stalled := false
    rstPending := some k }

/-- The host's `reset(hard)` (R350, R351, R353 to R355): power-on. -/
def State.hardReset (s : State) : State :=
  { s with
    a := s.params.powerOn.a
    x := s.params.powerOn.x
    y := s.params.powerOn.y
    sp := s.params.powerOn.sp
    pc := s.params.powerOn.pc
    p := s.params.powerOn.p
    nmiPrev := false
    cycles := 0
    busLatch := s.params.openBusInit }.requestReset .hard

/-- The host's `reset(soft)` (R350, R352, R353): registers, flags, `cycles`, `bus_latch` and `nmi_prev` are kept. -/
def State.softReset (s : State) : State := s.requestReset .soft

/-- The host's `reset(kind)` (R350). -/
def State.hostReset (s : State) : ResetKind → State
  | .hard => s.hardReset
  | .soft => s.softReset

/-- `step_cycles(n)` (R329): exactly `n` cycles, unless the host's stop flag or a breakpoint ends the loop after one of
them (R330, R332). -/
def State.stepCycles : Nat → State → State
  | 0, s => s
  | n + 1, s => if s.cycle.stop then s.cycle else State.stepCycles n s.cycle

/-- `set_breakpoint(addr, read|write|exec, ignore_dummy)` (R330). -/
def State.setBreakpoint (s : State) (b : Breakpoint) : State := { s with breakpoints := b :: s.breakpoints }

/-- `poll_break_reason()` (R330): the reason recorded. That it is gone afterwards is DESIGN CHOICE (log 25): R330 and D26 only
name the call. -/
def State.pollBreakReason (s : State) : Option BreakReason × State := (s.breakReason, { s with breakReason := none })

/-- What a snapshot holds (R39). -/
structure Snapshot where
  a : Byte
  x : Byte
  y : Byte
  sp : Byte
  pc : Addr
  p : Flags
  nmiPrev : Bool
  nmiDetected : Bool
  pollPrev : Bool
  pollCur : Bool
  takeInt : Bool
  rstPending : Option ResetKind
  halted : Bool
  cycles : BitVec 64
  busLatch : Byte
deriving DecidableEq, Repr

/-- Whether a snapshot may be taken (R39, R332, D19): nothing is inside an instruction or a sequence, so the CPU is at an
instruction boundary, about to start its reset sequence, or halted; and the DMA controller does not hold it, halted or not
(R36; log 24). -/
def State.mayStore (s : State) : Bool := (s.seq == .instr || s.seq == .halted) && s.t == 1 && !s.stalled

/-- What a snapshot of a state holds (R39). -/
def State.saved (s : State) : Snapshot where
  a := s.a
  x := s.x
  y := s.y
  sp := s.sp
  pc := s.pc
  p := s.p
  nmiPrev := s.nmiPrev
  nmiDetected := s.nmiDetected
  pollPrev := s.pollPrev
  pollCur := s.pollCur
  takeInt := s.takeInt
  rstPending := s.rstPending
  halted := s.halted
  cycles := s.cycles
  busLatch := s.busLatch

/-- `snapshot()` (R39): what is saved, where a snapshot may be taken. Elsewhere it answers none: DESIGN CHOICE (log 24), for
the spec only says that a snapshot may not be taken there. -/
def State.snapshot (s : State) : Option Snapshot := if s.mayStore then some s.saved else none

/-- `restore(snapshot)` (R39): the CPU takes the saved state, at a boundary; the bus environment, the parameters and the
host's own data stay (log 22). -/
def State.restore (s : State) (n : Snapshot) : State :=
  { s with
    a := n.a
    x := n.x
    y := n.y
    sp := n.sp
    pc := n.pc
    p := n.p
    seq := if n.halted then .halted else .instr
    t := 1
    nmiPrev := n.nmiPrev
    nmiDetected := n.nmiDetected
    pollPrev := n.pollPrev
    pollCur := n.pollCur
    takeInt := n.takeInt
    rstPending := n.rstPending
    cycles := n.cycles
    busLatch := n.busLatch
    stalled := false }

/-- Whether the next cycle is the first of an instruction, once a step has begun. -/
def State.atFetch (s : State) : Bool := s.seq == .instr && s.t == 1

/-- Bytes put into plain memory from outside, from an address on, whether it takes writes or not: no bus access. -/
def State.poke (s : State) : Addr → List Byte → State
  | _, [] => s
  | a, b :: bs =>
    match s.cell? a with
    | some k => State.poke { s with mem := Memory.write s.mem k b } (a + 1) bs
    | none => State.poke s (a + 1) bs

/-- Whether memory holds bytes from an address on. -/
def State.reads (s : State) : Addr → List Byte → Bool
  | _, [] => true
  | a, b :: bs => s.peek a == some b && s.reads (a + 1) bs

/-- The CPU at an instruction boundary at which nothing preempts the next instruction. -/
def State.readyToFetch (s : State) : State := { s with rstPending := none, seq := .instr, t := 1, takeInt := false }

/-- An instruction loaded where the CPU fetches next (log 9): the bytes at PC, no reset and no interrupt before it, and the
flat map of D21 if the bus map has no plain memory of its own there. -/
def State.placeInstr (s : State) (bytes : List Byte) : State :=
  let r := s.readyToFetch
  if (r.poke r.pc bytes).reads r.pc bytes then r.poke r.pc bytes
  else { r with busMap := flatMap }.poke r.pc bytes

end Sys2Proof.Machine
end

