-- ==== Sys2Proof/Machine/Step.lean ====
section
/-! DEFINITION. The step: "advance one instruction" of spec/60_exceptions.md R329. -/

namespace Sys2Proof.Machine

/-- One step (R329): one whole instruction, interrupt sequence or reset sequence with the stall cycles inside it, or the rest
of one that the host stopped; in the halted state, one cycle. -/
def step (s : State) : Host.Outcome State Fault Refusal :=
  if s.startStep.atFetch then exec s.startStep.fetchInstr s.startStep else .next s.startStep.resume

/-- The state with an instruction where the next step fetches, so that the next step runs it (log 9). -/
def State.withFetchWord (s : State) (nbits w : Nat) : State := s.placeInstr (tableBytes nbits w)

end Sys2Proof.Machine
end

