-- ==== Sys2Proof/Safety.lean ====
section
/-! DEFINITION. The terms in which the statements about the machine are made: when nothing of the host cuts a run short, the
effective address and the operand of every addressing mode (spec/30_encoding.md R82), what an instruction leaves behind, and
the invariant that every step keeps. No run is unsafe: the CPU has no fault (00_scope.md R13, 60_exceptions.md R316). -/

namespace Sys2Proof.Machine

/-! ### The environment of a run -/

/-- Neither a breakpoint nor a stop request of the host will cut an instruction short (R330, R332). -/
abbrev State.quiet (s : State) : Prop := s.breakpoints = [] ∧ ∀ i ∈ s.inputs, i.stop = false

/-- The DMA controller will not hold the CPU (R320). -/
abbrev State.unstalled (s : State) : Prop := ∀ i ∈ s.inputs, i.stallReq = false

/-- Accesses in a row that read. -/
abbrev reads (n : Nat) : List Dir := List.replicate n .read

/-- The byte a device, or the undriven bus, answers to a read that follows accesses in the given directions (R59). -/
def State.replyAfter (s : State) (pre : List Dir) : Byte := (s.inputAt (delay pre s.inputs)).reply

/-- How many cycles accesses in the given directions take: one each, and the stall cycles before each read (R320). -/
def elapsed : List Dir → List CycleIn → Nat
  | [], _ => 0
  | .read :: ds, i :: is => if i.stallReq then 1 + elapsed (.read :: ds) is else 1 + elapsed ds is
  | .write :: ds, _ :: is => 1 + elapsed ds is
  | ds, [] => ds.length

/-- Whether `nmi_line` goes from inactive to active in a stretch of cycles, from the level before it on (R301). -/
def nmiEdge (prev : Bool) : List CycleIn → Bool
  | [] => false
  | i :: is => (i.nmiLine && !prev) || nmiEdge i.nmiLine is

/-- Whether an NMI is detected by the end of accesses in the given directions, as long as none is cleared (R301). -/
def State.nmiBy (s : State) (ds : List Dir) : Bool :=
  s.nmiDetected || nmiEdge s.nmiPrev (s.inputs.take (elapsed ds s.inputs))

/-- The accesses of an exception entry up to the end of the cycle that chooses the vector (R310). -/
def sampleAccesses : HijackCycle → List Dir
  | .four => [.read, .read, .write, .write]
  | .five => [.read, .read, .write, .write, .write]

/-- The vector of BRK and of the interrupt sequence, as an entry that starts now chooses it (R310, R313). -/
def State.entryVector (s : State) : Addr := if s.nmiBy (sampleAccesses s.params.hijackCycle) then 0xFFFA else 0xFFFE

/-! ### Operands -/

/-- An addressing mode that reaches memory, with its operand bytes (R82). -/
inductive Mode where
  | zp (b : Byte)
  | zpX (b : Byte)
  | zpY (b : Byte)
  | abs (lo hi : Byte)
  | absX (lo hi : Byte)
  | absY (lo hi : Byte)
  | indX (b : Byte)
  | indY (b : Byte)
deriving DecidableEq, Repr

/-- The bytes of an instruction in a mode. -/
def Mode.bytes (m : Mode) (op : Byte) : List Byte :=
  match m with
  | .zp b | .zpX b | .zpY b | .indX b | .indY b => [op, b]
  | .abs lo hi | .absX lo hi | .absY lo hi => [op, lo, hi]

/-- The address of the first byte after the instruction. -/
def Mode.next (m : Mode) (s : State) : Addr :=
  match m with
  | .abs _ _ | .absX _ _ | .absY _ _ => s.pc + 3
  | _ => s.pc + 2

/-- The base address of a mode, before the index register Y or X is added to it (R82, R109, R110). -/
def Mode.base (m : Mode) (s : State) : Addr :=
  match m with
  | .zp b | .zpX b | .zpY b => zext16 b
  | .abs lo hi | .absX lo hi | .absY lo hi => cat hi lo
  | .indX b => cat (s.answer (reads 4) (zext16 (b + s.x + 1))) (s.answer (reads 3) (zext16 (b + s.x)))
  | .indY b => cat (s.answer (reads 3) (zext16 (b + 1))) (s.answer (reads 2) (zext16 b))

/-- The effective address of a mode (R82). -/
def Mode.ea (m : Mode) (s : State) : Addr :=
  match m with
  | .zpX b => zpIndexed b s.x
  | .zpY b => zpIndexed b s.y
  | .absX _ _ => indexed (m.base s) s.x
  | .absY _ _ | .indY _ => indexed (m.base s) s.y
  | .zp _ | .abs _ _ | .indX _ => m.base s

/-- Whether the index takes the address into another page (R107, R110). -/
def Mode.crosses (m : Mode) (s : State) : Bool :=
  match m with
  | .absX lo _ => Machine.crosses lo s.x
  | .absY lo _ => Machine.crosses lo s.y
  | .indY _ => Machine.crosses (lo8 (m.base s)) s.y
  | _ => false

/-- The reads of a mode before the first access at an address that depends on the whole operand. -/
def Mode.reads (m : Mode) : Nat :=
  match m with
  | .zp _ => 2
  | .zpX _ | .zpY _ | .abs _ _ | .absX _ _ | .absY _ _ => 3
  | .indY _ => 4
  | .indX _ => 5

/-- Whether a 16-bit base is indexed: such a mode has an access at the unfixed address (R107, R108). -/
def Mode.hasUnfixed (m : Mode) : Bool :=
  match m with
  | .absX _ _ | .absY _ _ | .indY _ => true
  | _ => false

/-- The reads before the DATA read of the read class: an access at the unfixed address only if a page is crossed (R107). -/
def Mode.readsBefore (m : Mode) (s : State) : Nat := m.reads + if m.crosses s then 1 else 0

/-- The reads before the DATA access of the write and read-modify-write classes (R108). -/
def Mode.readsBeforeStore (m : Mode) : Nat := m.reads + if m.hasUnfixed then 1 else 0

/-- The operand `M` of a read-class instruction. -/
def Mode.operand (m : Mode) (s : State) : Byte := s.answer (Machine.reads (m.readsBefore s)) (m.ea s)

/-- The operand `M` of a read-modify-write instruction, before it is modified. -/
def Mode.target (m : Mode) (s : State) : Byte := s.answer (Machine.reads m.readsBeforeStore) (m.ea s)

/-- The value of the index register of a mode with an indexed 16-bit base. -/
def Mode.indexValue (m : Mode) (s : State) : Byte :=
  match m with
  | .absX _ _ => s.x
  | _ => s.y

/-! ### Results, as exact numbers -/

/-- `setNZ(v)` on flags (R11): N is bit 7, Z says whether the byte is zero. -/
def nz (p : Flags) (v : Byte) : Flags := { p with n := decide (128 ≤ v.toNat), z := decide (v.toNat = 0) }

/-- The carry as a number. -/
def carryOf (p : Flags) : Nat := if p.c then 1 else 0

/-- `A + M + C` (R160, R163): C is the carry out of the unsigned sum, V says that two operands of one sign gave a result of the
other. -/
def sumTo (r : Regs) (m : Byte) : Regs :=
  let sum := r.a.toNat + m.toNat + carryOf r.p
  let v := BitVec.ofNat 8 sum
  { r with a := v, p := nz { r.p with c := decide (256 ≤ sum), v := r.a.msb == m.msb && v.msb != r.a.msb } v }

/-- `A - M - (1 - C)` (R164): C says that no borrow is needed, V that operands of different signs gave a result whose sign is
not that of A. -/
def differenceTo (r : Regs) (m : Byte) : Regs :=
  let taken := m.toNat + (1 - carryOf r.p)
  let v := BitVec.ofNat 8 (256 + r.a.toNat - taken)
  { r with a := v, p := nz { r.p with c := decide (taken ≤ r.a.toNat), v := r.a.msb != m.msb && v.msb != r.a.msb } v }

/-- The flags of a compare of two bytes (R161): N is bit 7 of the difference modulo 256. -/
def compared (p : Flags) (r m : Byte) : Flags :=
  { p with
    c := decide (m.toNat ≤ r.toNat)
    z := decide (r.toNat = m.toNat)
    n := decide (128 ≤ (256 + r.toNat - m.toNat) % 256) }

/-- A shift or rotate to the left (R162): twice the byte, with the bit that enters; the bit that leaves goes to C. -/
def doubled (p : Flags) (v : Byte) (enters : Nat) : Byte × Flags :=
  let w := BitVec.ofNat 8 (2 * v.toNat + enters)
  (w, nz { p with c := decide (128 ≤ v.toNat) } w)

/-- A shift or rotate to the right (R162): half the byte, with the bit that enters at bit 7; the bit that leaves goes to C. -/
def halved (p : Flags) (v : Byte) (enters : Nat) : Byte × Flags :=
  let w := BitVec.ofNat 8 (v.toNat / 2 + 128 * enters)
  (w, nz { p with c := decide (v.toNat % 2 = 1) } w)

/-- The status byte as it is pushed (R25, R26). -/
def statusByte (p : Flags) (b : Bool) : Byte :=
  BitVec.ofNat 8 (128 * p.n.toNat + 64 * p.v.toNat + 32 + 16 * b.toNat + 8 * p.d.toNat + 4 * p.i.toNat + 2 * p.z.toNat +
    p.c.toNat)

/-- The six flags of a byte loaded into P (R27). -/
def flagsOf (m : Byte) : Flags where
  n := decide (m.toNat / 128 % 2 = 1)
  v := decide (m.toNat / 64 % 2 = 1)
  d := decide (m.toNat / 8 % 2 = 1)
  i := decide (m.toNat / 4 % 2 = 1)
  z := decide (m.toNat / 2 % 2 = 1)
  c := decide (m.toNat % 2 = 1)

/-- `A & v`, `A | v`, `A ^ v` into A, with N and Z, and with the flags given before them. -/
def andTo (r : Regs) (p : Flags) (v : Byte) : Regs := { r with a := r.a &&& v, p := nz p (r.a &&& v) }
def orTo (r : Regs) (p : Flags) (v : Byte) : Regs := { r with a := r.a ||| v, p := nz p (r.a ||| v) }
def xorTo (r : Regs) (p : Flags) (v : Byte) : Regs := { r with a := r.a ^^^ v, p := nz p (r.a ^^^ v) }

/-! ### The opcode map, the cycle counts and the conditions, as the spec tabulates them -/

/-- The mnemonics of the opcode map (R84, R17). -/
inductive Mnemonic where
  | adc
  | ahx
  | alr
  | anc
  | and
  | arr
  | asl
  | axs
  | bcc
  | bcs
  | beq
  | bit
  | bmi
  | bne
  | bpl
  | brk
  | bvc
  | bvs
  | clc
  | cld
  | cli
  | clv
  | cmp
  | cpx
  | cpy
  | dcp
  | dec
  | dex
  | dey
  | eor
  | inc
  | inx
  | iny
  | isc
  | jmp
  | jsr
  | kil
  | las
  | lax
  | lda
  | ldx
  | ldy
  | lsr
  | nop
  | ora
  | pha
  | php
  | pla
  | plp
  | rla
  | rol
  | ror
  | rra
  | rti
  | rts
  | sax
  | sbc
  | sec
  | sed
  | sei
  | shx
  | shy
  | slo
  | sre
  | sta
  | stx
  | sty
  | tas
  | tax
  | tay
  | tsx
  | txa
  | txs
  | tya
  | xaa
deriving DecidableEq, Repr

/-- The mnemonics of the opcode map, row after row (R84). -/
def mnemonicMap : List (List Mnemonic) :=
  [[.brk, .ora, .kil, .slo, .nop, .ora, .asl, .slo, .php, .ora, .asl, .anc, .nop, .ora, .asl, .slo],
   [.bpl, .ora, .kil, .slo, .nop, .ora, .asl, .slo, .clc, .ora, .nop, .slo, .nop, .ora, .asl, .slo],
   [.jsr, .and, .kil, .rla, .bit, .and, .rol, .rla, .plp, .and, .rol, .anc, .bit, .and, .rol, .rla],
   [.bmi, .and, .kil, .rla, .nop, .and, .rol, .rla, .sec, .and, .nop, .rla, .nop, .and, .rol, .rla],
   [.rti, .eor, .kil, .sre, .nop, .eor, .lsr, .sre, .pha, .eor, .lsr, .alr, .jmp, .eor, .lsr, .sre],
   [.bvc, .eor, .kil, .sre, .nop, .eor, .lsr, .sre, .cli, .eor, .nop, .sre, .nop, .eor, .lsr, .sre],
   [.rts, .adc, .kil, .rra, .nop, .adc, .ror, .rra, .pla, .adc, .ror, .arr, .jmp, .adc, .ror, .rra],
   [.bvs, .adc, .kil, .rra, .nop, .adc, .ror, .rra, .sei, .adc, .nop, .rra, .nop, .adc, .ror, .rra],
   [.nop, .sta, .nop, .sax, .sty, .sta, .stx, .sax, .dey, .nop, .txa, .xaa, .sty, .sta, .stx, .sax],
   [.bcc, .sta, .kil, .ahx, .sty, .sta, .stx, .sax, .tya, .sta, .txs, .tas, .shy, .sta, .shx, .ahx],
   [.ldy, .lda, .ldx, .lax, .ldy, .lda, .ldx, .lax, .tay, .lda, .tax, .lax, .ldy, .lda, .ldx, .lax],
   [.bcs, .lda, .kil, .lax, .ldy, .lda, .ldx, .lax, .clv, .lda, .tsx, .las, .ldy, .lda, .ldx, .lax],
   [.cpy, .cmp, .nop, .dcp, .cpy, .cmp, .dec, .dcp, .iny, .cmp, .dex, .axs, .cpy, .cmp, .dec, .dcp],
   [.bne, .cmp, .kil, .dcp, .nop, .cmp, .dec, .dcp, .cld, .cmp, .nop, .dcp, .nop, .cmp, .dec, .dcp],
   [.cpx, .sbc, .nop, .isc, .cpx, .sbc, .inc, .isc, .inx, .sbc, .nop, .sbc, .cpx, .sbc, .inc, .isc],
   [.beq, .sbc, .kil, .isc, .nop, .sbc, .inc, .isc, .sed, .sbc, .nop, .isc, .nop, .sbc, .inc, .isc]]

/-- The mnemonic of an opcode (R84). -/
def mnemonicAt (op : Byte) : Mnemonic := (mnemonicMap.getD (op.toNat / 16) []).getD (op.toNat % 16) .nop

/-- An entry of the cycle grid (R367): a fixed count, a count with one more cycle when the index of abs,X, abs,Y or (zp),Y takes
the address into another page, or a branch. -/
inductive Count where
  | n (cycles : Nat)
  | plusX (cycles : Nat)
  | plusY (cycles : Nat)
  | plusInd (cycles : Nat)
  | branch
deriving DecidableEq, Repr

/-- The cycle grid, row after row (R367). -/
def cycleGrid : List (List Count) :=
  [[.n 7, .n 6, .n 2, .n 8, .n 3, .n 3, .n 5, .n 5, .n 3, .n 2, .n 2, .n 2, .n 4, .n 4, .n 6, .n 6],
   [.branch, .plusInd 5, .n 2, .n 8, .n 4, .n 4, .n 6, .n 6, .n 2, .plusY 4, .n 2, .n 7, .plusX 4, .plusX 4, .n 7,
     .n 7],
   [.n 6, .n 6, .n 2, .n 8, .n 3, .n 3, .n 5, .n 5, .n 4, .n 2, .n 2, .n 2, .n 4, .n 4, .n 6, .n 6],
   [.branch, .plusInd 5, .n 2, .n 8, .n 4, .n 4, .n 6, .n 6, .n 2, .plusY 4, .n 2, .n 7, .plusX 4, .plusX 4, .n 7,
     .n 7],
   [.n 6, .n 6, .n 2, .n 8, .n 3, .n 3, .n 5, .n 5, .n 3, .n 2, .n 2, .n 2, .n 3, .n 4, .n 6, .n 6],
   [.branch, .plusInd 5, .n 2, .n 8, .n 4, .n 4, .n 6, .n 6, .n 2, .plusY 4, .n 2, .n 7, .plusX 4, .plusX 4, .n 7,
     .n 7],
   [.n 6, .n 6, .n 2, .n 8, .n 3, .n 3, .n 5, .n 5, .n 4, .n 2, .n 2, .n 2, .n 5, .n 4, .n 6, .n 6],
   [.branch, .plusInd 5, .n 2, .n 8, .n 4, .n 4, .n 6, .n 6, .n 2, .plusY 4, .n 2, .n 7, .plusX 4, .plusX 4, .n 7,
     .n 7],
   [.n 2, .n 6, .n 2, .n 6, .n 3, .n 3, .n 3, .n 3, .n 2, .n 2, .n 2, .n 2, .n 4, .n 4, .n 4, .n 4],
   [.branch, .n 6, .n 2, .n 6, .n 4, .n 4, .n 4, .n 4, .n 2, .n 5, .n 2, .n 5, .n 5, .n 5, .n 5, .n 5],
   [.n 2, .n 6, .n 2, .n 6, .n 3, .n 3, .n 3, .n 3, .n 2, .n 2, .n 2, .n 2, .n 4, .n 4, .n 4, .n 4],
   [.branch, .plusInd 5, .n 2, .plusInd 5, .n 4, .n 4, .n 4, .n 4, .n 2, .plusY 4, .n 2, .plusY 4, .plusX 4,
     .plusX 4, .plusY 4, .plusY 4],
   [.n 2, .n 6, .n 2, .n 8, .n 3, .n 3, .n 5, .n 5, .n 2, .n 2, .n 2, .n 2, .n 4, .n 4, .n 6, .n 6],
   [.branch, .plusInd 5, .n 2, .n 8, .n 4, .n 4, .n 6, .n 6, .n 2, .plusY 4, .n 2, .n 7, .plusX 4, .plusX 4, .n 7,
     .n 7],
   [.n 2, .n 6, .n 2, .n 8, .n 3, .n 3, .n 5, .n 5, .n 2, .n 2, .n 2, .n 2, .n 4, .n 4, .n 6, .n 6],
   [.branch, .plusInd 5, .n 2, .n 8, .n 4, .n 4, .n 6, .n 6, .n 2, .plusY 4, .n 2, .n 7, .plusX 4, .plusX 4, .n 7,
     .n 7]]

/-- Whether the condition of a branch holds (R227 to R234): bits 7 and 6 of the opcode choose the flag N, V, C or Z, and bit 5
is the value it must have. -/
def branchTaken (op : Byte) (p : Flags) : Bool :=
  (match op.toNat / 64 with
    | 0 => p.n
    | 1 => p.v
    | 2 => p.c
    | _ => p.z) == op.getLsbD 5

/-- Whether an opcode is a conditional branch. -/
def isBranch (op : Byte) : Bool := (cycleGrid.getD (op.toNat / 16) []).getD (op.toNat % 16) (.n 0) == .branch

/-- The cycles an instruction takes where the DMA controller does not hold the CPU, by the grid (R367). -/
def cyclesByGrid (s : State) (i : Instr) : Nat :=
  match (cycleGrid.getD (i.opcode.toNat / 16) []).getD (i.opcode.toNat % 16) (.n 0), encode i with
  | .n k, _ => k
  | .plusX k, [_, lo, hi] => if (Mode.absX lo hi).crosses s then k + 1 else k
  | .plusY k, [_, lo, hi] => if (Mode.absY lo hi).crosses s then k + 1 else k
  | .plusInd k, [_, b] => if (Mode.indY b).crosses s then k + 1 else k
  | .branch, [op, rel] =>
    if branchTaken op s.p then
      if hi8 (s.pc + 2 + sext16 rel) = hi8 (s.pc + 2) then 3 else 4
    else 2
  | _, _ => 0

/-! ### Sampling -/

/-- The poll at the end of the last cycle of accesses in the given directions, with the value of I at that time (R303). -/
def State.pollAfter (s : State) (ds : List Dir) (i : Bool) : Bool :=
  s.nmiBy ds || ((s.inputAt (elapsed ds s.inputs - 1)).irqLine && !i)

/-- The number of the cycle at whose end the vector is chosen (R310). -/
def State.hijackT (s : State) : Nat :=
  match s.params.hijackCycle with
  | .four => 4
  | .five => 5

/-- Whether the vector is chosen at the end of the cycle at hand (R310). -/
def State.samplesVector (s : State) : Bool :=
  s.rstPending == none && s.t == s.hijackT &&
    match s.seq with
    | .intSeq _ => true
    | .instr => s.ir == 0x00
    | _ => false

/-- Whether the cycle at hand is cycle 2 of a taken branch within the page, with `P_BRANCH_IRQ_DELAY` (R306). -/
def State.delaysIrq (s : State) : Bool :=
  s.params.branchIrqDelay && s.rstPending == none && s.seq == .instr && s.t == 2 && isBranch s.ir && branchTaken s.ir s.p &&
    hi8 (s.pc + 1 + sext16 (s.answerNow s.pc)) == hi8 (s.pc + 1)

/-- Whether the cycle at hand is one of the halted state (R288): no reset is waiting. -/
def State.stays (s : State) : Bool := s.rstPending == none && s.halted

/-- A state without what it keeps of the instruction before (R33). -/
def State.forgetMicro (s : State) : State :=
  { s with ir := 0, base := 0, ea := 0, ptr := 0, data := 0, crossed := false, taken := false }

/-- Where a snapshot may be taken (R36, R39, D19): nothing is inside an instruction or a sequence, and the DMA controller does
not hold the CPU. -/
def State.betweenInstructions (s : State) : Prop :=
  s.stalled = false ∧ s.t = 1 ∧ (s.seq = .instr ∨ s.seq = .halted)

/-- Two states with the same surroundings of the CPU: memory and the bus map, the parameters, the inputs to come, the record of
accesses, and what the host set (R38). -/
structure State.SameSurroundings (s u : State) : Prop where
  mem : u.mem = s.mem
  busMap : u.busMap = s.busMap
  params : u.params = s.params
  inputs : u.inputs = s.inputs
  draws : u.draws = s.draws
  busLog : u.busLog = s.busLog
  breakpoints : u.breakpoints = s.breakpoints
  breakReason : u.breakReason = s.breakReason
  stop : u.stop = s.stop

/-! ### The accesses of an instruction -/

/-- The record of accesses, one per cycle from a count of cycles on, the latest first, before an older record. -/
def stamped (cyc : BitVec 64) (log : List (BitVec 64 × Access)) : List Access → List (BitVec 64 × Access)
  | [] => log
  | a :: as => stamped (cyc + 1) ((cyc, a) :: log) as

/-- Where the DMA controller does not hold the CPU, `t` comes from `s` by exactly the given accesses, one per cycle (R53). -/
def Performs (s t : State) (accs : List Access) : Prop :=
  s.unstalled → t.busLog = stamped s.cycles s.busLog accs ∧ t.cycles = s.cycles + BitVec.ofNat 64 accs.length

/-- The opcode fetch of cycle 1 (R101). -/
def opcodeAccess (s : State) (op : Byte) : Access := ⟨s.pc, .read, op, .opcode⟩

/-- A dummy read that follows `n` reads. -/
def dummyAt (s : State) (n : Nat) (a : Addr) : Access := ⟨a, .read, s.answer (reads n) a, .dummy⟩

/-- A read of a pointer byte that follows `n` reads. -/
def pointerAt (s : State) (n : Nat) (a : Addr) : Access := ⟨a, .read, s.answer (reads n) a, .pointer⟩

/-- The accesses of a mode up to its effective address (R104 to R111). -/
def Mode.fetches (m : Mode) (op : Byte) (s : State) : List Access :=
  match m with
  | .zp b => [opcodeAccess s op, ⟨s.pc + 1, .read, b, .operand⟩]
  | .zpX b | .zpY b => [opcodeAccess s op, ⟨s.pc + 1, .read, b, .operand⟩, dummyAt s 2 (zext16 b)]
  | .abs lo hi | .absX lo hi | .absY lo hi =>
    [opcodeAccess s op, ⟨s.pc + 1, .read, lo, .operand⟩, ⟨s.pc + 2, .read, hi, .operand⟩]
  | .indX b =>
    [opcodeAccess s op, ⟨s.pc + 1, .read, b, .operand⟩, dummyAt s 2 (zext16 b),
      pointerAt s 3 (zext16 (b + s.x)), pointerAt s 4 (zext16 (b + s.x + 1))]
  | .indY b =>
    [opcodeAccess s op, ⟨s.pc + 1, .read, b, .operand⟩, pointerAt s 2 (zext16 b), pointerAt s 3 (zext16 (b + 1))]

/-- The dummy read at the unfixed address (R107, R108). -/
def Mode.unfixedRead (m : Mode) (s : State) : Access := dummyAt s m.reads (unfixed (m.base s) (m.indexValue s))

/-- All accesses of a read-class instruction (R104 to R107, R109, R110). -/
def Mode.readAccesses (m : Mode) (op : Byte) (s : State) : List Access :=
  m.fetches op s ++ (if m.crosses s then [m.unfixedRead s] else []) ++ [⟨m.ea s, .read, m.operand s, .data⟩]

/-- All accesses of an instruction of the write or read-modify-write class, whose last ones are given (R104 to R106, R108,
R109, R111). -/
def Mode.storeAccesses (m : Mode) (op : Byte) (s : State) (last : List Access) : List Access :=
  m.fetches op s ++ (if m.hasUnfixed then [m.unfixedRead s] else []) ++ last

/-- The accesses of a conditional branch (R112). -/
def branchAccesses (s : State) (op rel : Byte) (taken : Bool) : List Access :=
  [opcodeAccess s op, ⟨s.pc + 1, .read, rel, .operand⟩] ++
    if taken then
      dummyAt s 2 (s.pc + 2) ::
        if hi8 (branchTarget (s.pc + 2) rel) = hi8 (s.pc + 2) then []
        else [dummyAt s 3 (cat (hi8 (s.pc + 2)) (lo8 (branchTarget (s.pc + 2) rel)))]
    else []

/-- The five last accesses of an exception entry that pushes `pc` and `p` and ends at the address `target` (R309, R119). -/
def entryAccesses (s : State) (pc : Addr) (p : Byte) (target : Addr) : List Access :=
  [⟨stackAddr s.sp, .write, hi8 pc, .stack⟩, ⟨stackAddr (s.sp - 1), .write, lo8 pc, .stack⟩,
    ⟨stackAddr (s.sp - 2), .write, p, .stack⟩, ⟨s.entryVector, .read, lo8 target, .vector⟩,
    ⟨s.entryVector + 1, .read, hi8 target, .vector⟩]

/-! ### What an instruction leaves -/

/-- Every byte of memory reads as before. -/
def SameBytes (s t : State) : Prop := ∀ a, t.peek a = s.peek a

/-- Every byte of memory reads as before, but for those that the cell written at `ea` answers (R51: a mirror is the same
cell), which read `v`. -/
def OneByteStored (s t : State) (ea : Addr) (v : Byte) : Prop :=
  ∀ a, t.peek a = if s.overwrites ea a then some v else s.peek a

/-- The state has the given registers and flags, and is at the boundary before the next instruction; a reset that was asked
for, the bus map and the parameters are as before. -/
def EndsWith (s t : State) (r : Regs) : Prop :=
  t.toRegs = r ∧ t.seq = .instr ∧ t.t = 1 ∧ t.rstPending = s.rstPending ∧ t.busMap = s.busMap ∧ t.params = s.params

/-- The latest bus access of the CPU, in its latest cycle. -/
def LastAccess (t : State) (a : Access) : Prop := ∃ rest, t.busLog = (t.cycles - 1, a) :: rest

/-- The latest three bus accesses of the CPU, in its latest three cycles, the first one first. -/
def LastThree (t : State) (a b c : Access) : Prop :=
  ∃ rest, t.busLog = (t.cycles - 1, c) :: (t.cycles - 2, b) :: (t.cycles - 3, a) :: rest

/-- An implied or accumulator instruction: it completes, with the given registers and the PC after it, and touches no memory
(R102). -/
def DoesImplied (s : State) (i : Instr) (op : Byte) (r : Regs) : Prop :=
  encode i = [op] ∧
  ∃ t, exec i s = .next t ∧ EndsWith s t { r with pc := s.pc + 1 } ∧ SameBytes s t ∧
    Performs s t [opcodeAccess s op, dummyAt s 1 (s.pc + 1)]

/-- An immediate instruction: it completes, with the registers its operation gives, and touches no memory (R103). -/
def ReadsImmediate (s : State) (i : Instr) (op b : Byte) (r : Regs) : Prop :=
  encode i = [op, b] ∧
  ∃ t, exec i s = .next t ∧ EndsWith s t { r with pc := s.pc + 2 } ∧ SameBytes s t ∧
    Performs s t [opcodeAccess s op, ⟨s.pc + 1, .read, b, .operand⟩]

/-- A read-class instruction in a mode: it completes, with the registers its operation makes of the operand, touches no memory,
and performs its mode's accesses, the last one at the effective address (R104 to R107, R109, R110). -/
def ReadsInMode (s : State) (i : Instr) (op : Byte) (m : Mode) (r : Byte → Regs) : Prop :=
  encode i = m.bytes op ∧
  ∃ t, exec i s = .next t ∧ EndsWith s t { r (m.operand s) with pc := m.next s } ∧ SameBytes s t ∧
    LastAccess t ⟨m.ea s, .read, m.operand s, .data⟩ ∧ Performs s t (m.readAccesses op s)

/-- A write-class instruction in a mode: it completes, stores the byte at the effective address and nowhere else, changes no
register but PC and no flag, and performs its mode's accesses (R104 to R106, R108, R109, R111). -/
def StoresInMode (s : State) (i : Instr) (op : Byte) (m : Mode) (v : Byte) : Prop :=
  encode i = m.bytes op ∧
  ∃ t, exec i s = .next t ∧ EndsWith s t { s.toRegs with pc := m.next s } ∧ OneByteStored s t (m.ea s) v ∧
    LastAccess t ⟨m.ea s, .write, v, .data⟩ ∧
    Performs s t (m.storeAccesses op s [⟨m.ea s, .write, v, .data⟩])

/-- A read-modify-write instruction in a mode: it completes, stores what its operation makes of the byte at the effective
address there and nowhere else, writes the registers its operation gives, and performs one read and two writes there, the first
of the unchanged byte, in its three last cycles (R104 to R106, R108, R109, R111, R122). -/
def ModifiesInMode (s : State) (i : Instr) (op : Byte) (m : Mode) (f : Byte → Byte) (r : Byte → Regs) : Prop :=
  encode i = m.bytes op ∧
  ∃ t, exec i s = .next t ∧ EndsWith s t { r (m.target s) with pc := m.next s } ∧
    OneByteStored s t (m.ea s) (f (m.target s)) ∧
    LastThree t ⟨m.ea s, .read, m.target s, .data⟩ ⟨m.ea s, .write, m.target s, .dummy⟩
      ⟨m.ea s, .write, f (m.target s), .data⟩ ∧
    Performs s t (m.storeAccesses op s
      [⟨m.ea s, .read, m.target s, .data⟩, ⟨m.ea s, .write, m.target s, .dummy⟩,
        ⟨m.ea s, .write, f (m.target s), .data⟩])

/-- An instruction of the SH family in a mode: as the write class, with the value and the address of R264, and the registers
given. -/
def StoresHigh (s : State) (i : Instr) (op : Byte) (m : Mode) (reg : Byte) (r : Regs) : Prop :=
  let v := reg &&& (hi8 (m.base s) + 1)
  let a := match s.params.shModel, m.crosses s with
    | .h1Glitch, true => cat v (lo8 (m.base s) + m.indexValue s)
    | .h1Glitch, false => cat (hi8 (m.base s)) (lo8 (m.base s) + m.indexValue s)
    | .h1Plain, _ => m.base s + zext16 (m.indexValue s)
  encode i = m.bytes op ∧
  ∃ t, exec i s = .next t ∧ EndsWith s t { r with pc := m.next s } ∧ OneByteStored s t a v ∧
    LastAccess t ⟨a, .write, v, .data⟩ ∧ Performs s t (m.storeAccesses op s [⟨a, .write, v, .data⟩])

/-- A push (R114, R23): it completes, stores the byte where S points, lowers S by one, and changes nothing else. -/
def Pushes (s : State) (i : Instr) (op v : Byte) : Prop :=
  encode i = [op] ∧
  ∃ t, exec i s = .next t ∧ EndsWith s t { s.toRegs with pc := s.pc + 1, sp := s.sp - 1 } ∧
    OneByteStored s t (stackAddr s.sp) v ∧
    Performs s t [opcodeAccess s op, dummyAt s 1 (s.pc + 1), ⟨stackAddr s.sp, .write, v, .stack⟩]

/-- The byte a pull reads: the one above S (R114, R23). -/
def State.pulled (s : State) : Byte := s.answer (Machine.reads 3) (stackAddr (s.sp + 1))

/-- A pull (R114, R23): it completes, raises S by one, writes the registers given, and changes nothing else; and it ends in a
state of which more may be said. -/
def Pulls (s : State) (i : Instr) (op : Byte) (r : Regs) (more : State → Prop) : Prop :=
  encode i = [op] ∧
  ∃ t, exec i s = .next t ∧ EndsWith s t { r with pc := s.pc + 1, sp := s.sp + 1 } ∧ SameBytes s t ∧
    Performs s t [opcodeAccess s op, dummyAt s 1 (s.pc + 1), dummyAt s 2 (stackAddr s.sp),
      ⟨stackAddr (s.sp + 1), .read, s.pulled, .stack⟩] ∧
    more t

/-- A conditional branch whose condition holds or not (R112, R226). -/
def Branches (s : State) (i : Instr) (op rel : Byte) (cond : Bool) : Prop :=
  encode i = [op, rel] ∧
  ∃ t, exec i s = .next t ∧
    EndsWith s t { s.toRegs with pc := if cond then s.pc + 2 + sext16 rel else s.pc + 2 } ∧ SameBytes s t ∧
    Performs s t (branchAccesses s op rel cond)

/-- A form of an instruction that has a memory operand: the instruction, its opcode and its mode. -/
abbrev Form := Instr × Byte × Mode

/-- Forms of a read-class instruction. -/
def ReadForms (s : State) (r : Byte → Regs) (fs : List Form) : Prop := ∀ f ∈ fs, ReadsInMode s f.1 f.2.1 f.2.2 r

/-- Forms of a write-class instruction. -/
def StoreForms (s : State) (v : Byte) (fs : List Form) : Prop := ∀ f ∈ fs, StoresInMode s f.1 f.2.1 f.2.2 v

/-- Forms of a read-modify-write instruction: what it makes of the byte, and the registers it leaves. -/
def ModifyForms (s : State) (f : Byte → Byte) (r : Byte → Regs) (fs : List Form) : Prop :=
  ∀ g ∈ fs, ModifiesInMode s g.1 g.2.1 g.2.2 f r

/-- The three bytes of an exception entry on the stack: PCH, PCL and P, in the order they are pushed (R309, R119). -/
def ThreePushed (s t : State) (pc : Addr) (p : Byte) : Prop :=
  SameBytes
    (((s.store (stackAddr s.sp) (hi8 pc)).store (stackAddr (s.sp - 1)) (lo8 pc)).store (stackAddr (s.sp - 2)) p) t

/-! ### The invariant of the machine -/

/-- How many cycles the sequence at hand has (R102 to R119, R309, R312). -/
def State.rows (s : State) : Nat :=
  match s.seq with
  | .instr => (microcode s.ir).length
  | .intSeq _ => interruptSequence.length
  | .resetSeq => resetSequence.length
  | .halted => 1

/-- The invariant: memory has its canonical form; `t` counts a cycle of the sequence at hand; a pending interrupt decision
waits at a boundary; a pending reset has cleared the latches, and nothing is executing (R353); and from cycle 4 of an
interrupt sequence, or of BRK, on, `ea` is the vector: $FFFE until it is chosen, then $FFFE or $FFFA (R310). -/
structure State.Inv (s : State) : Prop where
  mem : Memory.wf s.mem
  one_le : 1 ≤ s.t
  le_rows : s.t = 1 ∨ s.t ≤ s.rows
  takeInt : s.takeInt = true → s.seq = .instr ∧ s.t = 1
  reset : s.rstPending ≠ none →
    s.seq = .instr ∧ s.t = 1 ∧ s.takeInt = false ∧ s.nmiDetected = false ∧ s.pollPrev = false ∧ s.pollCur = false
  vector : 4 ≤ s.t → (s.seq = .intSeq .nmi ∨ s.seq = .intSeq .irq ∨ s.seq = .instr ∧ s.ir = 0x00) →
    s.ea = 0xFFFE ∨ s.hijackT < s.t ∧ s.ea = 0xFFFA

end Sys2Proof.Machine
end

