-- ==== Sys2Proof/WellFormed.lean ====
section
/-! DEFINITION. Well-formedness. Every value of every operand byte is a legal operand of every opcode, and no opcode is
reserved (spec/30_encoding.md R80, R87, R90), so a term of `Instr` needs no check beyond its type: an operand field is a byte.
What can be ill-formed is a string of bytes, and the check on it is its length (R80 to R82). -/

namespace Sys2Proof

/-- Whether a string of bytes is exactly one instruction: it begins with an opcode byte and has the length that this
opcode byte fixes (R80, R82). -/
def wellFormedBytes : List Byte → Bool
  | [] => false
  | op :: rest =>
    match shapeOf op, rest with
    | .none _, [] => true
    | .one _, [_] => true
    | .two _, [_, _] => true
    | _, _ => false

/-- An instruction is well formed when its bytes are exactly one instruction that starts with its own opcode. The laws
show that every instruction is (R87). -/
def Instr.WellFormed (i : Instr) : Bool := wellFormedBytes (encode i)

end Sys2Proof
end

