-- ==== Sys2Proof/Certificates/Slice0/Obligations.lean ====
section
/-! DEFINITION. The statements for the provers, from the numbered rules of spec/. A rule quoted whole is cited in
OBLIGATIONS.json; a docstring names the rules a statement follows and the log entries it rests on. The hypothesis
`quiet` says that the host does not stop the run inside an instruction; everything else of the environment (lines,
stalls, devices' answers, the parameters P_*) is any. -/

section

open Sys2Proof Sys2Proof.Machine

/-- Decoding the encoding of any instruction gives the instruction and leaves the bytes that follow it
(30_encoding.md). -/
def Obligations.DecodeOfEncode : Prop :=
  ∀ (i : Instr) (rest : List Byte), decode (encode i ++ rest) = .ok (i, rest)

/-- No bit of a string of bytes is dropped by the decoder (30_encoding.md). -/
def Obligations.EncodeOfDecode : Prop :=
  ∀ (bs rest : List Byte) (i : Instr), decode bs = .ok (i, rest) → encode i ++ rest = bs

/-- A decoder refuses nothing, and the opcode byte alone fixes the length (R80, R87, R90). -/
def Obligations.OpcodeByteFixesTheInstruction : Prop :=
  ∀ op : Byte, ∃ n, 1 ≤ n ∧ n ≤ 3 ∧ ∀ (b c : Byte) (rest : List Byte), ∃ i,
    decode (op :: b :: c :: rest) = .ok (i, (op :: b :: c :: rest).drop n) ∧
    encode i = (op :: b :: c :: rest).take n ∧ i.opcode = op ∧ i.length = n ∧ i.WellFormed = true

/-- A few words of the opcode map (R84): a check of the decoder on bytes written out from the spec. -/
def Obligations.SpecWordsDecode : Prop :=
  decode [0xA9, 0x01] = .ok (.ldaImm 0x01, []) ∧
  decode [0x8D, 0x00, 0x02] = .ok (.staAbs 0x00 0x02, []) ∧
  decode [0x71, 0x20] = .ok (.adcIndY 0x20, []) ∧
  decode [0x6C, 0xFF, 0x02] = .ok (.jmpInd 0xFF 0x02, []) ∧
  decode [0xD0, 0xF8] = .ok (.bne 0xF8, []) ∧
  decode [0x08] = .ok (.php, []) ∧
  decode [0x78] = .ok (.sei, []) ∧
  decode [0x07, 0x10] = .ok (.sloZp 0x10, []) ∧
  decode [0x02] = .ok (.kil02, [])

/-- A step at a boundary with nothing to take is exec of the instruction whose bytes memory holds at PC (R81, R101,
R329). Its last hypothesis uses memory bytes: a device, whose byte is an input, is the case of `State.fetchInstr`. -/
def Obligations.StepRunsTheDecodedInstruction : Prop :=
  ∀ (s : State) (i : Instr), s.rstPending = none → s.seq = .instr → s.t = 1 → s.takeInt = false →
    i.WellFormed = true →
    (∀ (k : Nat) (b : Byte), (encode i)[k]? = some b → s.peek (s.pc + BitVec.ofNat 16 k) = some b) →
    step s = exec i s

/-- The CPU raises no synchronous exception and all step operations are infallible (R316, R329, R13). -/
def Obligations.EveryStepAnswersAState : Prop :=
  (∀ s : State, ∃ t, step s = .next t) ∧ ∀ (i : Instr) (s : State), ∃ t, exec i s = .next t

/-- LDA, LDX and LDY in all their forms (R140 to R142). -/
def Obligations.LoadsPutTheOperandIntoTheirRegister : Prop :=
  ∀ (s : State) (b lo hi : Byte), s.quiet →
    ReadsImmediate s (.ldaImm b) 0xA9 b { s.toRegs with a := b, p := nz s.p b } ∧
    ReadForms s (fun v => { s.toRegs with a := v, p := nz s.p v })
      [(.ldaIndX b, 0xA1, .indX b), (.ldaZp b, 0xA5, .zp b), (.ldaAbs lo hi, 0xAD, .abs lo hi),
       (.ldaIndY b, 0xB1, .indY b), (.ldaZpX b, 0xB5, .zpX b), (.ldaAbsY lo hi, 0xB9, .absY lo hi),
       (.ldaAbsX lo hi, 0xBD, .absX lo hi)] ∧
    ReadsImmediate s (.ldxImm b) 0xA2 b { s.toRegs with x := b, p := nz s.p b } ∧
    ReadForms s (fun v => { s.toRegs with x := v, p := nz s.p v })
      [(.ldxZp b, 0xA6, .zp b), (.ldxAbs lo hi, 0xAE, .abs lo hi), (.ldxZpY b, 0xB6, .zpY b),
       (.ldxAbsY lo hi, 0xBE, .absY lo hi)] ∧
    ReadsImmediate s (.ldyImm b) 0xA0 b { s.toRegs with y := b, p := nz s.p b } ∧
    ReadForms s (fun v => { s.toRegs with y := v, p := nz s.p v })
      [(.ldyZp b, 0xA4, .zp b), (.ldyAbs lo hi, 0xAC, .abs lo hi), (.ldyZpX b, 0xB4, .zpX b),
       (.ldyAbsX lo hi, 0xBC, .absX lo hi)]

/-- STA, STX and STY in all their forms (R143 to R145). -/
def Obligations.StoresWriteTheirRegister : Prop :=
  ∀ (s : State) (b lo hi : Byte), s.quiet →
    StoreForms s s.a
      [(.staIndX b, 0x81, .indX b), (.staZp b, 0x85, .zp b), (.staAbs lo hi, 0x8D, .abs lo hi),
       (.staIndY b, 0x91, .indY b), (.staZpX b, 0x95, .zpX b), (.staAbsY lo hi, 0x99, .absY lo hi),
       (.staAbsX lo hi, 0x9D, .absX lo hi)] ∧
    StoreForms s s.x
      [(.stxZp b, 0x86, .zp b), (.stxAbs lo hi, 0x8E, .abs lo hi), (.stxZpY b, 0x96, .zpY b)] ∧
    StoreForms s s.y
      [(.styZp b, 0x84, .zp b), (.styAbs lo hi, 0x8C, .abs lo hi), (.styZpX b, 0x94, .zpX b)] ∧
    decode [0x89, b] = .ok (.nopImm89 b, []) ∧ decode [0x9E, lo, hi] = .ok (.shxAbsY lo hi, []) ∧
    decode [0x9C, lo, hi] = .ok (.shyAbsX lo hi, [])

/-- The register transfers (R146 to R151). -/
def Obligations.TransfersCopyARegister : Prop :=
  ∀ s : State, s.quiet →
    DoesImplied s .tax 0xAA { s.toRegs with x := s.a, p := nz s.p s.a } ∧
    DoesImplied s .tay 0xA8 { s.toRegs with y := s.a, p := nz s.p s.a } ∧
    DoesImplied s .txa 0x8A { s.toRegs with a := s.x, p := nz s.p s.x } ∧
    DoesImplied s .tya 0x98 { s.toRegs with a := s.y, p := nz s.p s.y } ∧
    DoesImplied s .tsx 0xBA { s.toRegs with x := s.sp, p := nz s.p s.sp } ∧
    DoesImplied s .txs 0x9A { s.toRegs with sp := s.x }

/-- ADC in all its forms, with its result and flags as exact numbers (R163). -/
def Obligations.AdcAddsWithCarry : Prop :=
  ∀ (s : State) (b lo hi : Byte), s.quiet →
    ReadsImmediate s (.adcImm b) 0x69 b (sumTo s.toRegs b) ∧
    ReadForms s (sumTo s.toRegs)
      [(.adcIndX b, 0x61, .indX b), (.adcZp b, 0x65, .zp b), (.adcAbs lo hi, 0x6D, .abs lo hi),
       (.adcIndY b, 0x71, .indY b), (.adcZpX b, 0x75, .zpX b), (.adcAbsY lo hi, 0x79, .absY lo hi),
       (.adcAbsX lo hi, 0x7D, .absX lo hi)]

/-- SBC in all its forms, with its result and flags as exact numbers (R164, R271). -/
def Obligations.SbcSubtractsWithBorrow : Prop :=
  ∀ (s : State) (b lo hi : Byte), s.quiet →
    ReadsImmediate s (.sbcImm b) 0xE9 b (differenceTo s.toRegs b) ∧
    ReadsImmediate s (.sbcImmEB b) 0xEB b (differenceTo s.toRegs b) ∧
    ReadForms s (differenceTo s.toRegs)
      [(.sbcIndX b, 0xE1, .indX b), (.sbcZp b, 0xE5, .zp b), (.sbcAbs lo hi, 0xED, .abs lo hi),
       (.sbcIndY b, 0xF1, .indY b), (.sbcZpX b, 0xF5, .zpX b), (.sbcAbsY lo hi, 0xF9, .absY lo hi),
       (.sbcAbsX lo hi, 0xFD, .absX lo hi)]

/-- The helper adc8 (R160), over all operands: its result, its four flags, what V means, and the subtraction it gives.
-/
def Obligations.BinaryAddIsExact : Prop :=
  ∀ (a m : Byte) (p : Flags),
    let sum := a.toNat + m.toNat + carryOf p
    let r := (adc8 a m p).1
    r = BitVec.ofNat 8 sum ∧
    (adc8 a m p).2 = { p with
      c := sum.testBit 8
      v := (~~~(a ^^^ m) &&& (a ^^^ r)).getLsbD 7
      n := decide (128 ≤ r.toNat)
      z := decide (r.toNat = 0) } ∧
    ((adc8 a m p).2.v = true ↔ a.toInt + m.toInt + carryOf p < -128 ∨ 127 < a.toInt + m.toInt + carryOf p) ∧
    (adc8 a (~~~m) p).1 = BitVec.ofNat 8 (256 + a.toNat - (m.toNat + (1 - carryOf p))) ∧
    ((adc8 a (~~~m) p).2.c = true ↔ m.toNat + (1 - carryOf p) ≤ a.toNat)

/-- The helper cmp8 (R161), over all operands. -/
def Obligations.CompareIsUnsigned : Prop :=
  ∀ (r m : Byte) (p q : Flags),
    cmp8 r m p = compared p r m ∧
    (cmp8 r m p).v = p.v ∧
    (cmp8 r m p).c = (cmp8 r m q).c ∧ (cmp8 r m p).z = (cmp8 r m q).z ∧ (cmp8 r m p).n = (cmp8 r m q).n

/-- The helpers asl, lsr, rol and ror (R162), over all bytes and carries. -/
def Obligations.ShiftsMoveByOneBit : Prop :=
  ∀ (v : Byte) (p : Flags),
    asl8 v p = doubled p v 0 ∧ lsr8 v p = halved p v 0 ∧
    rol8 v p = doubled p v (carryOf p) ∧ ror8 v p = halved p v (carryOf p) ∧
    (lsr8 v p).2.n = false

/-- AND, ORA, EOR and BIT in all their forms (R165 to R168). -/
def Obligations.LogicCombinesAWithTheOperand : Prop :=
  ∀ (s : State) (b lo hi : Byte), s.quiet →
    ReadsImmediate s (.andImm b) 0x29 b (andTo s.toRegs s.p b) ∧
    ReadForms s (andTo s.toRegs s.p)
      [(.andIndX b, 0x21, .indX b), (.andZp b, 0x25, .zp b), (.andAbs lo hi, 0x2D, .abs lo hi),
       (.andIndY b, 0x31, .indY b), (.andZpX b, 0x35, .zpX b), (.andAbsY lo hi, 0x39, .absY lo hi),
       (.andAbsX lo hi, 0x3D, .absX lo hi)] ∧
    ReadsImmediate s (.oraImm b) 0x09 b (orTo s.toRegs s.p b) ∧
    ReadForms s (orTo s.toRegs s.p)
      [(.oraIndX b, 0x01, .indX b), (.oraZp b, 0x05, .zp b), (.oraAbs lo hi, 0x0D, .abs lo hi),
       (.oraIndY b, 0x11, .indY b), (.oraZpX b, 0x15, .zpX b), (.oraAbsY lo hi, 0x19, .absY lo hi),
       (.oraAbsX lo hi, 0x1D, .absX lo hi)] ∧
    ReadsImmediate s (.eorImm b) 0x49 b (xorTo s.toRegs s.p b) ∧
    ReadForms s (xorTo s.toRegs s.p)
      [(.eorIndX b, 0x41, .indX b), (.eorZp b, 0x45, .zp b), (.eorAbs lo hi, 0x4D, .abs lo hi),
       (.eorIndY b, 0x51, .indY b), (.eorZpX b, 0x55, .zpX b), (.eorAbsY lo hi, 0x59, .absY lo hi),
       (.eorAbsX lo hi, 0x5D, .absX lo hi)] ∧
    ReadForms s
      (fun v => { s.toRegs with
        p := { s.p with
          n := decide (v.toNat / 128 % 2 = 1)
          v := decide (v.toNat / 64 % 2 = 1)
          z := decide (s.a &&& v = 0) } })
      [(.bitZp b, 0x24, .zp b), (.bitAbs lo hi, 0x2C, .abs lo hi)] ∧
    decode [0x89, b] = .ok (.nopImm89 b, [])

/-- CMP, CPX and CPY in all their forms (R169 to R171). -/
def Obligations.ComparesSetOnlyFlags : Prop :=
  ∀ (s : State) (b lo hi : Byte), s.quiet →
    ReadsImmediate s (.cmpImm b) 0xC9 b { s.toRegs with p := compared s.p s.a b } ∧
    ReadForms s (fun v => { s.toRegs with p := compared s.p s.a v })
      [(.cmpIndX b, 0xC1, .indX b), (.cmpZp b, 0xC5, .zp b), (.cmpAbs lo hi, 0xCD, .abs lo hi),
       (.cmpIndY b, 0xD1, .indY b), (.cmpZpX b, 0xD5, .zpX b), (.cmpAbsY lo hi, 0xD9, .absY lo hi),
       (.cmpAbsX lo hi, 0xDD, .absX lo hi)] ∧
    ReadsImmediate s (.cpxImm b) 0xE0 b { s.toRegs with p := compared s.p s.x b } ∧
    ReadForms s (fun v => { s.toRegs with p := compared s.p s.x v })
      [(.cpxZp b, 0xE4, .zp b), (.cpxAbs lo hi, 0xEC, .abs lo hi)] ∧
    ReadsImmediate s (.cpyImm b) 0xC0 b { s.toRegs with p := compared s.p s.y b } ∧
    ReadForms s (fun v => { s.toRegs with p := compared s.p s.y v })
      [(.cpyZp b, 0xC4, .zp b), (.cpyAbs lo hi, 0xCC, .abs lo hi)]

/-- INC and DEC in all their forms (R172, R173). -/
def Obligations.IncAndDecChangeMemoryByOne : Prop :=
  ∀ (s : State) (b lo hi : Byte), s.quiet →
    ModifyForms s (fun v => v + 1) (fun v => { s.toRegs with p := nz s.p (v + 1) })
      [(.incZp b, 0xE6, .zp b), (.incAbs lo hi, 0xEE, .abs lo hi), (.incZpX b, 0xF6, .zpX b),
       (.incAbsX lo hi, 0xFE, .absX lo hi)] ∧
    ModifyForms s (fun v => v - 1) (fun v => { s.toRegs with p := nz s.p (v - 1) })
      [(.decZp b, 0xC6, .zp b), (.decAbs lo hi, 0xCE, .abs lo hi), (.decZpX b, 0xD6, .zpX b),
       (.decAbsX lo hi, 0xDE, .absX lo hi)]

/-- INX, INY, DEX and DEY (R174 to R177). -/
def Obligations.IndexRegistersCountByOne : Prop :=
  ∀ s : State, s.quiet →
    DoesImplied s .inx 0xE8 { s.toRegs with x := s.x + 1, p := nz s.p (s.x + 1) } ∧
    DoesImplied s .iny 0xC8 { s.toRegs with y := s.y + 1, p := nz s.p (s.y + 1) } ∧
    DoesImplied s .dex 0xCA { s.toRegs with x := s.x - 1, p := nz s.p (s.x - 1) } ∧
    DoesImplied s .dey 0x88 { s.toRegs with y := s.y - 1, p := nz s.p (s.y - 1) }

/-- ASL, LSR, ROL and ROR in all their forms (R178 to R181). -/
def Obligations.ShiftsWorkOnAAndOnMemory : Prop :=
  (∀ (s : State) (b lo hi : Byte), s.quiet →
    DoesImplied s .aslA 0x0A
      { s.toRegs with a := (doubled s.p s.a 0).1, p := (doubled s.p s.a 0).2 } ∧
    ModifyForms s (fun v => (doubled s.p v 0).1)
      (fun v => { s.toRegs with p := (doubled s.p v 0).2 })
      [(.aslZp b, 0x06, .zp b), (.aslAbs lo hi, 0x0E, .abs lo hi), (.aslZpX b, 0x16, .zpX b),
       (.aslAbsX lo hi, 0x1E, .absX lo hi)] ∧
    DoesImplied s .lsrA 0x4A
      { s.toRegs with a := (halved s.p s.a 0).1, p := (halved s.p s.a 0).2 } ∧
    ModifyForms s (fun v => (halved s.p v 0).1)
      (fun v => { s.toRegs with p := (halved s.p v 0).2 })
      [(.lsrZp b, 0x46, .zp b), (.lsrAbs lo hi, 0x4E, .abs lo hi), (.lsrZpX b, 0x56, .zpX b),
       (.lsrAbsX lo hi, 0x5E, .absX lo hi)] ∧
    DoesImplied s .rolA 0x2A
      { s.toRegs with a := (doubled s.p s.a (carryOf s.p)).1, p := (doubled s.p s.a (carryOf s.p)).2 } ∧
    ModifyForms s (fun v => (doubled s.p v (carryOf s.p)).1)
      (fun v => { s.toRegs with p := (doubled s.p v (carryOf s.p)).2 })
      [(.rolZp b, 0x26, .zp b), (.rolAbs lo hi, 0x2E, .abs lo hi), (.rolZpX b, 0x36, .zpX b),
       (.rolAbsX lo hi, 0x3E, .absX lo hi)] ∧
    DoesImplied s .rorA 0x6A
      { s.toRegs with a := (halved s.p s.a (carryOf s.p)).1, p := (halved s.p s.a (carryOf s.p)).2 } ∧
    ModifyForms s (fun v => (halved s.p v (carryOf s.p)).1)
      (fun v => { s.toRegs with p := (halved s.p v (carryOf s.p)).2 })
      [(.rorZp b, 0x66, .zp b), (.rorAbs lo hi, 0x6E, .abs lo hi), (.rorZpX b, 0x76, .zpX b),
       (.rorAbsX lo hi, 0x7E, .absX lo hi)]) ∧
  ∀ (v : Byte) (p : Flags),
    let nine := (fun q : Byte × Flags => doubled q.2 q.1 (carryOf q.2))^[9] (v, p)
    nine.1 = v ∧ nine.2.c = p.c

/-- pack and unpack (R25 to R27). -/
def Obligations.StatusByteLayout : Prop :=
  (∀ (p : Flags) (b : Bool), packFlags p b = statusByte p b) ∧
  (∀ m : Byte, unpackFlags m = flagsOf m) ∧
  ∀ (p : Flags) (b : Bool), unpackFlags (packFlags p b) = p

/-- PHA, PHP and PLA (R200 to R202), and the stack page (R23). -/
def Obligations.PushesAndPullsOfAAndP : Prop :=
  ∀ s : State, s.quiet →
    Pushes s .pha 0x48 s.a ∧
    Pushes s .php 0x08 (statusByte s.p true) ∧
    Pulls s .pla 0x68 { s.toRegs with a := s.pulled, p := nz s.p s.pulled } (fun _ => True) ∧
    ∀ b : Byte, (stackAddr b).toNat = 256 + b.toNat

/-- The flag instructions (R204 to R210). -/
def Obligations.FlagInstructionsWriteOneFlag : Prop :=
  ∀ s : State, s.quiet →
    DoesImplied s .clc 0x18 { s.toRegs with p := { s.p with c := false } } ∧
    DoesImplied s .sec 0x38 { s.toRegs with p := { s.p with c := true } } ∧
    DoesImplied s .cld 0xD8 { s.toRegs with p := { s.p with d := false } } ∧
    DoesImplied s .sed 0xF8 { s.toRegs with p := { s.p with d := true } } ∧
    DoesImplied s .clv 0xB8 { s.toRegs with p := { s.p with v := false } } ∧
    DoesImplied s .cli 0x58 { s.toRegs with p := { s.p with i := false } } ∧
    DoesImplied s .sei 0x78 { s.toRegs with p := { s.p with i := true } }

/-- The D flag is stored and read, but arithmetic ignores it (R29). -/
def Obligations.DecimalFlagIsOnlyStored : Prop :=
  ∀ (s : State) (i : Instr) (d : Bool),
    (i.opcode ∉ [0x08, 0x00, 0x28, 0x40, 0xD8, 0xF8] →
      ∃ t, exec i s = .next t ∧ exec i { s with p := { s.p with d := d } } = .next { t with p := { t.p with d := d } } ∧
        t.p.d = s.p.d) ∧
    (s.quiet →
      (∃ t, exec .cld s = .next t ∧ exec .cld { s with p := { s.p with d := d } } = .next t ∧ t.p.d = false) ∧
      (∃ t, exec .sed s = .next t ∧ exec .sed { s with p := { s.p with d := d } } = .next t ∧ t.p.d = true) ∧
      (∃ t, exec .plp s = .next t ∧ exec .plp { s with p := { s.p with d := d } } = .next t ∧
        t.p.d = s.pulled.getLsbD 3) ∧
      (∃ t, exec .rti s = .next t ∧ exec .rti { s with p := { s.p with d := d } } = .next t ∧
        t.p.d = s.pulled.getLsbD 3) ∧
      (∃ t, exec .php { s with p := { s.p with d := d } } = .next t ∧ t.p.d = d ∧
        OneByteStored s t (stackAddr s.sp) (statusByte { s.p with d := d } true)) ∧
      (∃ t, exec .brk { s with p := { s.p with d := d } } = .next t ∧ t.p.d = d ∧
        ThreePushed s t (s.pc + 2) (statusByte { s.p with d := d } true)) ∧
      (s.rstPending = none → s.seq = .instr → s.t = 1 → s.takeInt = true →
        ∃ t, step { s with p := { s.p with d := d } } = .next t ∧ t.p.d = d ∧
          ThreePushed s t s.pc (statusByte { s.p with d := d } false)))

/-- When a change of I is seen by the interrupt decision (R203, R206, R207, R307, R360). -/
def Obligations.MaskingIsDelayedByOneInstruction : Prop :=
  ∀ s : State, s.quiet →
    (DoesImplied s .cli 0x58 { s.toRegs with p := { s.p with i := false } } ∧
      ∃ t, exec .cli s = .next t ∧ t.takeInt = s.pollAfter (reads 1) s.p.i) ∧
    (DoesImplied s .sei 0x78 { s.toRegs with p := { s.p with i := true } } ∧
      ∃ t, exec .sei s = .next t ∧ t.takeInt = s.pollAfter (reads 1) s.p.i) ∧
    Pulls s .plp 0x28 { s.toRegs with p := flagsOf s.pulled }
      (fun t => t.takeInt = s.pollAfter (reads 3) s.p.i) ∧
    ∃ t, exec .rti s = .next t ∧ t.takeInt = s.pollAfter (reads 5) (flagsOf s.pulled).i

/-- JMP absolute and JMP indirect with its page-wrap (R220, R221). -/
def Obligations.JumpsLoadPC : Prop :=
  ∀ (s : State) (lo hi : Byte), s.quiet →
    (encode (.jmpAbs lo hi) = [0x4C, lo, hi] ∧
      ∃ t, exec (.jmpAbs lo hi) s = .next t ∧ EndsWith s t { s.toRegs with pc := cat hi lo } ∧ SameBytes s t ∧
        Performs s t [opcodeAccess s 0x4C, ⟨s.pc + 1, .read, lo, .operand⟩, ⟨s.pc + 2, .read, hi, .operand⟩]) ∧
    (encode (.jmpInd lo hi) = [0x6C, lo, hi] ∧
      ∃ t, exec (.jmpInd lo hi) s = .next t ∧
        EndsWith s t { s.toRegs with
          pc := cat (s.answer (reads 4) (cat hi (lo + 1))) (s.answer (reads 3) (cat hi lo)) } ∧
        SameBytes s t ∧
        Performs s t [opcodeAccess s 0x6C, ⟨s.pc + 1, .read, lo, .operand⟩, ⟨s.pc + 2, .read, hi, .operand⟩,
          pointerAt s 3 (cat hi lo), pointerAt s 4 (cat hi (lo + 1))])

/-- JSR (R222, R116). -/
def Obligations.JsrPushesItsLastByteAddress : Prop :=
  ∀ (s : State) (lo hi : Byte), s.quiet →
    let ret := s.pc + 2
    let m := (s.store (stackAddr s.sp) (hi8 ret)).store (stackAddr (s.sp - 1)) (lo8 ret)
    let h := if s.overwrites (stackAddr s.sp) ret || s.overwrites (stackAddr (s.sp - 1)) ret then (m.peek ret).getD hi
      else hi
    encode (.jsrAbs lo hi) = [0x20, lo, hi] ∧
    ∃ t, exec (.jsrAbs lo hi) s = .next t ∧
      EndsWith s t { s.toRegs with pc := cat h lo, sp := s.sp - 2 } ∧ SameBytes m t ∧
      Performs s t [opcodeAccess s 0x20, ⟨s.pc + 1, .read, lo, .operand⟩, dummyAt s 2 (stackAddr s.sp),
        ⟨stackAddr s.sp, .write, hi8 ret, .stack⟩, ⟨stackAddr (s.sp - 1), .write, lo8 ret, .stack⟩,
        ⟨ret, .read, h, .operand⟩]

/-- RTS (R223). -/
def Obligations.RtsReturnsPastTheAddressPulled : Prop :=
  ∀ s : State, s.quiet →
    let lo := s.answer (reads 3) (stackAddr (s.sp + 1))
    let hi := s.answer (reads 4) (stackAddr (s.sp + 2))
    encode .rts = [0x60] ∧
    ∃ t, exec .rts s = .next t ∧ EndsWith s t { s.toRegs with pc := cat hi lo + 1, sp := s.sp + 2 } ∧ SameBytes s t ∧
      Performs s t [opcodeAccess s 0x60, dummyAt s 1 (s.pc + 1), dummyAt s 2 (stackAddr s.sp),
        ⟨stackAddr (s.sp + 1), .read, lo, .stack⟩, ⟨stackAddr (s.sp + 2), .read, hi, .stack⟩, dummyAt s 5 (cat hi lo)]

/-- RTI (R224). -/
def Obligations.RtiRestoresStatusAndPC : Prop :=
  ∀ s : State, s.quiet →
    let m := s.answer (reads 3) (stackAddr (s.sp + 1))
    let lo := s.answer (reads 4) (stackAddr (s.sp + 2))
    let hi := s.answer (reads 5) (stackAddr (s.sp + 3))
    encode .rti = [0x40] ∧
    ∃ t, exec .rti s = .next t ∧ EndsWith s t { s.toRegs with p := flagsOf m, pc := cat hi lo, sp := s.sp + 3 } ∧
      SameBytes s t ∧ t.takeInt = s.pollAfter (reads 5) (flagsOf m).i ∧
      Performs s t [opcodeAccess s 0x40, dummyAt s 1 (s.pc + 1), dummyAt s 2 (stackAddr s.sp),
        ⟨stackAddr (s.sp + 1), .read, m, .stack⟩, ⟨stackAddr (s.sp + 2), .read, lo, .stack⟩,
        ⟨stackAddr (s.sp + 3), .read, hi, .stack⟩]

/-- BRK (R225, R119), with the vector that R310 chooses. -/
def Obligations.BrkTakesTheSoftwareInterrupt : Prop :=
  ∀ s : State, s.quiet →
    encode .brk = [0x00] ∧
    ∃ t, exec .brk s = .next t ∧
      EndsWith s t { s.toRegs with
        sp := s.sp - 3
        p := { s.p with i := true }
        pc := cat ((t.peek (s.entryVector + 1)).getD (s.replyAfter [.read, .read, .write, .write, .write, .read]))
          ((t.peek s.entryVector).getD (s.replyAfter [.read, .read, .write, .write, .write])) } ∧
      ThreePushed s t (s.pc + 2) (statusByte s.p true) ∧ t.takeInt = false ∧
      Performs s t ([opcodeAccess s 0x00, dummyAt s 1 (s.pc + 1)] ++
        entryAccesses s (s.pc + 2) (statusByte s.p true) t.pc)

/-- The address JSR pushes is the one RTS continues after (R222, R223). The two bus maps are the model's (log 2 and 92
D21). -/
def Obligations.CallAndReturnComeBack : Prop :=
  ∀ (s : State) (lo hi : Byte), s.quiet → s.busMap = flatMap ∨ s.busMap = nesMap →
    ∃ t u, exec (.jsrAbs lo hi) s = .next t ∧ exec .rts t = .next u ∧ u.toRegs = { s.toRegs with pc := s.pc + 3 } ∧
      SameBytes t u

/-- Interrupt entry is precise (R313, R314). The two bus maps are the model's (log 2 and 92 D21). -/
def Obligations.ReturnResumesWhatWasInterrupted : Prop :=
  ∀ s : State, s.quiet → s.busMap = flatMap ∨ s.busMap = nesMap →
    (s.rstPending = none → s.seq = .instr → s.t = 1 → s.takeInt = true →
      ∃ t u, step s = .next t ∧ exec .rti t = .next u ∧ u.toRegs = s.toRegs) ∧
    ∃ t u, exec .brk s = .next t ∧ exec .rti t = .next u ∧ u.toRegs = { s.toRegs with pc := s.pc + 2 }

/-- The conditional branches (R226 to R234, R112). -/
def Obligations.BranchesTestOneFlag : Prop :=
  ∀ (s : State) (rel : Byte), s.quiet →
    Branches s (.bpl rel) 0x10 rel (!s.p.n) ∧
    Branches s (.bmi rel) 0x30 rel (s.p.n) ∧
    Branches s (.bvc rel) 0x50 rel (!s.p.v) ∧
    Branches s (.bvs rel) 0x70 rel (s.p.v) ∧
    Branches s (.bcc rel) 0x90 rel (!s.p.c) ∧
    Branches s (.bcs rel) 0xB0 rel (s.p.c) ∧
    Branches s (.bne rel) 0xD0 rel (!s.p.z) ∧
    Branches s (.beq rel) 0xF0 rel (s.p.z)

/-- NOP (R235) and the undocumented NOPs (R270). -/
def Obligations.NopsOnlyAdvancePC : Prop :=
  ∀ (s : State) (b lo hi : Byte), s.quiet →
    DoesImplied s .nop 0xEA s.toRegs ∧
    DoesImplied s .nop1A 0x1A s.toRegs ∧
    DoesImplied s .nop3A 0x3A s.toRegs ∧
    DoesImplied s .nop5A 0x5A s.toRegs ∧
    DoesImplied s .nop7A 0x7A s.toRegs ∧
    DoesImplied s .nopDA 0xDA s.toRegs ∧
    DoesImplied s .nopFA 0xFA s.toRegs ∧
    ReadsImmediate s (.nopImm80 b) 0x80 b s.toRegs ∧
    ReadsImmediate s (.nopImm82 b) 0x82 b s.toRegs ∧
    ReadsImmediate s (.nopImm89 b) 0x89 b s.toRegs ∧
    ReadsImmediate s (.nopImmC2 b) 0xC2 b s.toRegs ∧
    ReadsImmediate s (.nopImmE2 b) 0xE2 b s.toRegs ∧
    ReadForms s (fun _ => s.toRegs)
      [(.nopZp04 b, 0x04, .zp b), (.nopAbs0C lo hi, 0x0C, .abs lo hi), (.nopZpX14 b, 0x14, .zpX b),
       (.nopAbsX1C lo hi, 0x1C, .absX lo hi), (.nopZpX34 b, 0x34, .zpX b), (.nopAbsX3C lo hi, 0x3C, .absX lo hi),
       (.nopZp44 b, 0x44, .zp b), (.nopZpX54 b, 0x54, .zpX b), (.nopAbsX5C lo hi, 0x5C, .absX lo hi),
       (.nopZp64 b, 0x64, .zp b), (.nopZpX74 b, 0x74, .zpX b), (.nopAbsX7C lo hi, 0x7C, .absX lo hi),
       (.nopZpXD4 b, 0xD4, .zpX b), (.nopAbsXDC lo hi, 0xDC, .absX lo hi), (.nopZpXF4 b, 0xF4, .zpX b),
       (.nopAbsXFC lo hi, 0xFC, .absX lo hi)]

/-- SLO, RLA, SRE, RRA, DCP and ISC in all their forms (R250 to R253, R257, R258). -/
def Obligations.CombinedModifyInstructions : Prop :=
  ∀ (s : State) (b lo hi : Byte), s.quiet →
    ModifyForms s (fun v => (doubled s.p v 0).1)
      (fun v => orTo s.toRegs (doubled s.p v 0).2 (doubled s.p v 0).1)
      [(.sloIndX b, 0x03, .indX b), (.sloZp b, 0x07, .zp b), (.sloAbs lo hi, 0x0F, .abs lo hi),
       (.sloIndY b, 0x13, .indY b), (.sloZpX b, 0x17, .zpX b), (.sloAbsY lo hi, 0x1B, .absY lo hi),
       (.sloAbsX lo hi, 0x1F, .absX lo hi)] ∧
    ModifyForms s (fun v => (doubled s.p v (carryOf s.p)).1)
      (fun v => andTo s.toRegs (doubled s.p v (carryOf s.p)).2 (doubled s.p v (carryOf s.p)).1)
      [(.rlaIndX b, 0x23, .indX b), (.rlaZp b, 0x27, .zp b), (.rlaAbs lo hi, 0x2F, .abs lo hi),
       (.rlaIndY b, 0x33, .indY b), (.rlaZpX b, 0x37, .zpX b), (.rlaAbsY lo hi, 0x3B, .absY lo hi),
       (.rlaAbsX lo hi, 0x3F, .absX lo hi)] ∧
    ModifyForms s (fun v => (halved s.p v 0).1)
      (fun v => xorTo s.toRegs (halved s.p v 0).2 (halved s.p v 0).1)
      [(.sreIndX b, 0x43, .indX b), (.sreZp b, 0x47, .zp b), (.sreAbs lo hi, 0x4F, .abs lo hi),
       (.sreIndY b, 0x53, .indY b), (.sreZpX b, 0x57, .zpX b), (.sreAbsY lo hi, 0x5B, .absY lo hi),
       (.sreAbsX lo hi, 0x5F, .absX lo hi)] ∧
    ModifyForms s (fun v => (halved s.p v (carryOf s.p)).1)
      (fun v => sumTo { s.toRegs with p := (halved s.p v (carryOf s.p)).2 } (halved s.p v (carryOf s.p)).1)
      [(.rraIndX b, 0x63, .indX b), (.rraZp b, 0x67, .zp b), (.rraAbs lo hi, 0x6F, .abs lo hi),
       (.rraIndY b, 0x73, .indY b), (.rraZpX b, 0x77, .zpX b), (.rraAbsY lo hi, 0x7B, .absY lo hi),
       (.rraAbsX lo hi, 0x7F, .absX lo hi)] ∧
    ModifyForms s (fun v => v - 1)
      (fun v => { s.toRegs with p := compared s.p s.a (v - 1) })
      [(.dcpIndX b, 0xC3, .indX b), (.dcpZp b, 0xC7, .zp b), (.dcpAbs lo hi, 0xCF, .abs lo hi),
       (.dcpIndY b, 0xD3, .indY b), (.dcpZpX b, 0xD7, .zpX b), (.dcpAbsY lo hi, 0xDB, .absY lo hi),
       (.dcpAbsX lo hi, 0xDF, .absX lo hi)] ∧
    ModifyForms s (fun v => v + 1)
      (fun v => differenceTo s.toRegs (v + 1))
      [(.iscIndX b, 0xE3, .indX b), (.iscZp b, 0xE7, .zp b), (.iscAbs lo hi, 0xEF, .abs lo hi),
       (.iscIndY b, 0xF3, .indY b), (.iscZpX b, 0xF7, .zpX b), (.iscAbsY lo hi, 0xFB, .absY lo hi),
       (.iscAbsX lo hi, 0xFF, .absX lo hi)]

/-- SAX, LAX, LAX immediate and LAS (R254 to R256, R269), for every value of P_LXA_MAGIC. -/
def Obligations.CombinedLoadsAndStores : Prop :=
  ∀ (s : State) (b lo hi : Byte), s.quiet →
    StoreForms s (s.a &&& s.x)
      [(.saxIndX b, 0x83, .indX b), (.saxZp b, 0x87, .zp b), (.saxAbs lo hi, 0x8F, .abs lo hi),
       (.saxZpY b, 0x97, .zpY b)] ∧
    ReadForms s (fun v => { s.toRegs with a := v, x := v, p := nz s.p v })
      [(.laxIndX b, 0xA3, .indX b), (.laxZp b, 0xA7, .zp b), (.laxAbs lo hi, 0xAF, .abs lo hi),
       (.laxIndY b, 0xB3, .indY b), (.laxZpY b, 0xB7, .zpY b), (.laxAbsY lo hi, 0xBF, .absY lo hi)] ∧
    (let v := (s.a ||| s.params.lxaMagic) &&& b
     ReadsImmediate s (.laxImm b) 0xAB b { s.toRegs with a := v, x := v, p := nz s.p v }) ∧
    ReadForms s
      (fun m => { s.toRegs with a := m &&& s.sp, x := m &&& s.sp, sp := m &&& s.sp, p := nz s.p (m &&& s.sp) })
      [(.lasAbsY lo hi, 0xBB, .absY lo hi)]

/-- ANC, ALR, ARR, XAA and AXS (R259 to R263), for every value of P_XAA_MAGIC. -/
def Obligations.ImmediateCombinations : Prop :=
  ∀ (s : State) (b : Byte), s.quiet →
    (let v := s.a &&& b
     let r : Regs := { s.toRegs with a := v, p := { nz s.p v with c := decide (128 ≤ v.toNat) } }
     ReadsImmediate s (.ancImm0B b) 0x0B b r ∧ ReadsImmediate s (.ancImm2B b) 0x2B b r) ∧
    (let q := halved s.p (s.a &&& b) 0
     ReadsImmediate s (.alrImm b) 0x4B b { s.toRegs with a := q.1, p := q.2 }) ∧
    (let v := BitVec.ofNat 8 ((s.a &&& b).toNat / 2 + 128 * carryOf s.p)
     ReadsImmediate s (.arrImm b) 0x6B b { s.toRegs with
        a := v
        p := { nz s.p v with c := v.toNat.testBit 6, v := v.toNat.testBit 6 != v.toNat.testBit 5 } }) ∧
    (let v := (s.a ||| s.params.xaaMagic) &&& s.x &&& b
     ReadsImmediate s (.xaaImm b) 0x8B b { s.toRegs with a := v, p := nz s.p v }) ∧
    (let t := s.a &&& s.x
     ReadsImmediate s (.axsImm b) 0xCB b { s.toRegs with
        x := t - b
        p := { nz s.p (t - b) with c := decide (b.toNat ≤ t.toNat) } })

/-- The SH family (R264 to R268), for both values of P_SH_MODEL. -/
def Obligations.HighByteStores : Prop :=
  ∀ (s : State) (b lo hi : Byte), s.quiet →
    StoresHigh s (.ahxAbsY lo hi) 0x9F (.absY lo hi) (s.a &&& s.x) s.toRegs ∧
    StoresHigh s (.ahxIndY b) 0x93 (.indY b) (s.a &&& s.x) s.toRegs ∧
    StoresHigh s (.shyAbsX lo hi) 0x9C (.absX lo hi) s.y s.toRegs ∧
    StoresHigh s (.shxAbsY lo hi) 0x9E (.absY lo hi) s.x s.toRegs ∧
    StoresHigh s (.tasAbsY lo hi) 0x9B (.absY lo hi) (s.a &&& s.x) { s.toRegs with sp := s.a &&& s.x }

/-- KIL (R272): it is not a trap, and completing is entering the halted state. -/
def Obligations.KilHaltsTheCPU : Prop :=
  ∀ s : State, s.quiet →
    ∀ f ∈ [((.kil02 : Instr), (0x02 : Byte)), ((.kil12 : Instr), (0x12 : Byte)),
        (.kil22, 0x22), (.kil32, 0x32), (.kil42, 0x42), (.kil52, 0x52), (.kil62, 0x62),
        (.kil72, 0x72), (.kil92, 0x92), (.kilB2, 0xB2), (.kilD2, 0xD2), (.kilF2, 0xF2)],
      encode f.1 = [f.2] ∧
      ∃ t, exec f.1 s = .next t ∧ t.halted = true ∧ t.toRegs = { s.toRegs with pc := s.pc + 1 } ∧
        t.takeInt = s.takeInt ∧ t.rstPending = s.rstPending ∧ SameBytes s t ∧
        Performs s t [opcodeAccess s f.2, dummyAt s 1 (s.pc + 1)]

/-- The cycle counts of R367, for all 256 opcodes. -/
def Obligations.CyclesFollowTheGrid : Prop :=
  ∀ (s : State) (i : Instr), s.quiet → s.unstalled →
    ∃ t, exec i s = .next t ∧ t.cycles = s.cycles + BitVec.ofNat 64 (cyclesByGrid s i)

/-- The cycle counter (R34). The invariant only rules out a `t` that names no cycle. -/
def Obligations.AdvancingCyclesCountsThem : Prop :=
  ∀ (s : State) (n : Nat), s.Inv → (State.cycle^[n] s).cycles = s.cycles + BitVec.ofNat 64 n

/-- One access per cycle, complete in its cycle, and the open-bus latch (R53, R57, R60). -/
def Obligations.EachCycleMakesOneAccess : Prop :=
  ∀ s : State, s.Inv → s.stays = false → s.cycle.stalled = false →
    ∃ a : Access, s.cycle.busLog = (s.cycles, a) :: s.busLog ∧ s.cycle.busLatch = a.data ∧
      (a.dir = .read → a.data = (s.peek a.addr).getD s.input.reply ∧ s.cycle.mem = s.mem) ∧
      (a.dir = .write → ∀ b, s.cycle.peek b = if s.overwrites a.addr b then some a.data else s.peek b)

/-- The NMI edge detector (R301) and the choice of the vector (R310, R311). -/
def Obligations.NmiIsEdgeDetectedAndTakenOnce : Prop :=
  ∀ s : State, s.Inv →
    let det := s.nmiDetected || (s.input.nmiLine && !s.nmiPrev)
    s.cycle.nmiPrev = s.input.nmiLine ∧
    (s.samplesVector = false → s.cycle.nmiDetected = det) ∧
    (s.samplesVector = true → s.cycle.nmiDetected = false ∧ s.cycle.ea = if det then 0xFFFA else 0xFFFE)

/-- The interrupt poll (R303), its history (R304) and the branch delay (R306). -/
def Obligations.PollAndItsHistory : Prop :=
  ∀ s : State, s.Inv →
    let det := s.nmiDetected || (s.input.nmiLine && !s.nmiPrev)
    (s.stays = false → s.cycle.stalled = false →
      s.cycle.pollPrev = s.pollCur ∧
      s.cycle.pollCur =
        (if s.delaysIrq && !s.pollCur then false else det || (s.input.irqLine && !s.cycle.p.i))) ∧
    (s.stays = true ∨ s.cycle.stalled = true → s.cycle.pollPrev = s.pollPrev ∧ s.cycle.pollCur = s.pollCur)

/-- The interrupt decision (R305). -/
def Obligations.DecisionIsThePollBeforeTheLastCycle : Prop :=
  ∀ s : State, s.Inv → s.rstPending = none →
    (s.seq = .instr → mnemonicAt s.ir ≠ .brk → mnemonicAt s.ir ≠ .kil → 2 ≤ s.t → s.cycle.t = 1 →
      s.cycle.takeInt = s.pollCur ∧ s.cycle.seq = .instr) ∧
    (s.takeInt = true → s.cycle.takeInt = false ∧ ∃ k, s.cycle.seq = .intSeq k)

/-- No interrupt decision is taken at the end of these (R307). -/
def Obligations.NoDecisionAfterSequences : Prop :=
  ∀ s : State, s.Inv → s.rstPending = none → 2 ≤ s.t → s.cycle.t = 1 →
    (s.seq ≠ .instr ∨ mnemonicAt s.ir = .brk → s.cycle.takeInt = false ∧ s.cycle.seq = .instr) ∧
    (s.seq = .instr → mnemonicAt s.ir = .kil → s.cycle.takeInt = false ∧ s.cycle.halted = true)

/-- The NMI/IRQ sequence (R309, R313), with the vector that R310 chooses. -/
def Obligations.InterruptEntryIsPrecise : Prop :=
  ∀ s : State, s.quiet → s.rstPending = none → s.seq = .instr → s.t = 1 → s.takeInt = true →
    ∃ t, step s = .next t ∧
      EndsWith s t { s.toRegs with
        sp := s.sp - 3
        p := { s.p with i := true }
        pc := cat ((t.peek (s.entryVector + 1)).getD (s.replyAfter [.read, .read, .write, .write, .write, .read]))
          ((t.peek s.entryVector).getD (s.replyAfter [.read, .read, .write, .write, .write])) } ∧
      ThreePushed s t s.pc (statusByte s.p false) ∧ t.takeInt = false ∧
      Performs s t ([dummyAt s 0 s.pc, dummyAt s 1 s.pc] ++ entryAccesses s s.pc (statusByte s.p false) t.pc)

/-- The reset sequence (R312). -/
def Obligations.ResetSequenceWritesNothing : Prop :=
  ∀ s : State, s.rstPending ≠ none →
    (s.cycle.rstPending = none ∧ s.cycle.seq = .resetSeq) ∧
    (s.quiet →
      ∃ t, step s = .next t ∧
        t.toRegs = { s.toRegs with
          sp := s.sp - 3
          p := { s.p with i := true }
          pc := cat (s.answer (reads 6) 0xFFFD) (s.answer (reads 5) 0xFFFC) } ∧
        t.seq = .instr ∧ t.t = 1 ∧ t.rstPending = none ∧ t.takeInt = false ∧ SameBytes s t ∧
        Performs s t
          [dummyAt s 0 s.pc, dummyAt s 1 s.pc, dummyAt s 2 (stackAddr s.sp), dummyAt s 3 (stackAddr (s.sp - 1)),
            dummyAt s 4 (stackAddr (s.sp - 2)), ⟨0xFFFC, .read, s.answer (reads 5) 0xFFFC, .vector⟩,
            ⟨0xFFFD, .read, s.answer (reads 6) 0xFFFD, .vector⟩])

/-- The host's reset call (R350 to R355), before its sequence. -/
def Obligations.HostResetSetsTheLatches : Prop :=
  ∀ (s : State) (k : ResetKind),
    (let u := s.hostReset k
     u.nmiDetected = false ∧ u.pollPrev = false ∧ u.pollCur = false ∧ u.takeInt = false ∧ u.halted = false ∧
     u.stalled = false ∧ u.rstPending = some k ∧ u.mem = s.mem ∧ u.cycle.seq = .resetSeq) ∧
    (s.hostReset .hard).nmiPrev = false ∧ (s.hostReset .soft).nmiPrev = s.nmiPrev ∧
    (s.hostReset .hard).busLatch = s.params.openBusInit ∧ (s.hostReset .soft).busLatch = s.busLatch ∧
    (s.hostReset .hard).cycles = 0 ∧ (s.hostReset .soft).cycles = s.cycles ∧
    (s.hostReset .hard).toRegs =
      { a := s.params.powerOn.a, x := s.params.powerOn.x, y := s.params.powerOn.y, sp := s.params.powerOn.sp,
        pc := s.params.powerOn.pc, p := s.params.powerOn.p } ∧
    (s.hostReset .soft).toRegs = s.toRegs

/-- The state after a reset and its sequence (R351, R352, R354, R356). -/
def Obligations.AfterTheResetSequence : Prop :=
  ∀ (s : State) (k : ResetKind), s.quiet → s.unstalled →
    ∃ t, step (s.hostReset k) = .next t ∧
      t.pc = cat (s.answer (reads 6) 0xFFFD) (s.answer (reads 5) 0xFFFC) ∧
      t.busLatch = s.answer (reads 6) 0xFFFD ∧ t.p.i = true ∧
      match k with
      | .hard =>
        t.a = s.params.powerOn.a ∧ t.x = s.params.powerOn.x ∧ t.y = s.params.powerOn.y ∧
        t.sp = s.params.powerOn.sp - 3 ∧ t.p = { s.params.powerOn.p with i := true } ∧ t.cycles = 7
      | .soft =>
        t.a = s.a ∧ t.x = s.x ∧ t.y = s.y ∧ t.sp = s.sp - 3 ∧ t.p = { s.p with i := true } ∧
        t.cycles = s.cycles + 7

/-- What reset leaves. The register values and the latch rest on the defaults of R351 and R355, which the spec marks
as its own decisions (D12, D4): DESIGN CHOICE, log 7; the byte of unwritten memory and the bus map are the model's:
DESIGN CHOICE, log 2 and 3. -/
def Obligations.ResetState : Prop :=
  State.reset.rstPending = some .hard ∧ State.reset.cycles = 0 ∧ State.reset.halted = false ∧
  State.reset.nmiPrev = false ∧ State.reset.nmiDetected = false ∧ State.reset.pollPrev = false ∧
  State.reset.pollCur = false ∧ State.reset.takeInt = false ∧ State.reset.stalled = false ∧
  State.reset.a = 0 ∧ State.reset.x = 0 ∧ State.reset.y = 0 ∧ State.reset.sp = 0 ∧ State.reset.pc = 0 ∧
  State.reset.p = ⟨false, false, false, true, false, false⟩ ∧ State.reset.busLatch = 0 ∧ State.reset.mem = [] ∧
  State.reset.peek 0x8000 = some 0x00 ∧
  (State.reset.hostReset .hard).toRegs = State.reset.toRegs

/-- The stall interface (R320). That the byte of a DMA access that drives the bus is an input of the cycle is the
model's (log 16). -/
def Obligations.StallsHoldReadsOnly : Prop :=
  ∀ (s : State) (i : CycleIn) (is : List CycleIn), s.Inv → s.stays = false → s.inputs = i :: is → i.stallReq = true →
    let go := State.cycle { s with inputs := { i with stallReq := false } :: is }
    ∃ a : Access, go.busLog = (s.cycles, a) :: s.busLog ∧
      (a.dir = .write → s.cycle = go) ∧
      (a.dir = .read →
        s.cycle.stalled = true ∧ s.cycle.toRegs = s.toRegs ∧ s.cycle.toMicro = s.startStep.toMicro ∧
        s.cycle.mem = s.mem ∧ s.cycle.pollPrev = s.pollPrev ∧ s.cycle.pollCur = s.pollCur ∧
        s.cycle.nmiDetected = (s.nmiDetected || (i.nmiLine && !s.nmiPrev)) ∧ s.cycle.nmiPrev = i.nmiLine ∧
        s.cycle.cycles = s.cycles + 1 ∧ s.cycle.inputs = is ∧
        if i.dmaDrives then s.cycle.busLatch = i.dmaData ∧ s.cycle.busLog = s.busLog
        else if s.params.stallReread then
          s.cycle.busLatch = a.data ∧ s.cycle.busLog = (s.cycles, ⟨a.addr, .read, a.data, .dummy⟩) :: s.busLog
        else s.cycle.busLatch = s.busLatch ∧ s.cycle.busLog = s.busLog)

/-- The halted state (R288, R319). -/
def Obligations.HaltedCyclesOnlyCount : Prop :=
  ∀ s : State, s.halted = true → s.rstPending = none →
    s.cycle.toCpu = s.toCpu ∧ s.cycle.mem = s.mem ∧ s.cycle.busLog = s.busLog ∧
    s.cycle.cycles = s.cycles + 1 ∧ s.cycle.halted = true ∧
    s.cycle.nmiDetected = (s.nmiDetected || (s.input.nmiLine && !s.nmiPrev)) ∧
    s.cycle.nmiPrev = s.input.nmiLine ∧
    s.cycle.pollPrev = s.pollPrev ∧ s.cycle.pollCur = s.pollCur ∧ s.cycle.takeInt = s.takeInt ∧
    s.cycle.rstPending = none ∧ s.cycle.stalled = s.input.stallReq ∧
    (s.input.stallReq = false → s.cycle.busLatch = s.busLatch) ∧
    step s = .next s.cycle ∧
    ∀ k, (s.hostReset k).halted = false ∧ (s.hostReset k).nmiDetected = false ∧ (s.hostReset k).cycle.seq = .resetSeq

/-- Which instructions may write which register, flag and memory (R20 to R23, R28), over all instructions and all
states. -/
def Obligations.OnlyTheListedInstructionsWriteARegister : Prop :=
  ∀ (s : State) (i : Instr), ∃ t, exec i s = .next t ∧
    (mnemonicAt i.opcode ∉
      [.lda, .pla, .txa, .tya, .adc, .sbc, .and, .ora, .eor, .slo, .rla, .sre, .rra, .lax, .isc, .anc, .alr, .arr,
      .xaa, .las] →
      i.opcode ∉ [0x0A, 0x4A, 0x2A, 0x6A] → t.a = s.a) ∧
    (mnemonicAt i.opcode ∉ [.ldx, .tax, .tsx, .inx, .dex, .lax, .axs, .las] → t.x = s.x) ∧
    (mnemonicAt i.opcode ∉ [.ldy, .tay, .iny, .dey] → t.y = s.y) ∧
    (mnemonicAt i.opcode ∉ [.txs, .tas, .las, .pha, .php, .pla, .plp, .jsr, .rts, .rti, .brk] → t.sp = s.sp) ∧
    (mnemonicAt i.opcode ∉ [.adc, .sbc, .rra, .isc, .arr, .bit, .clv, .plp, .rti] → t.p.v = s.p.v) ∧
    (mnemonicAt i.opcode ∉ [.sed, .cld, .plp, .rti] → t.p.d = s.p.d) ∧
    (mnemonicAt i.opcode ∉ [.sei, .cli, .plp, .rti, .brk] → t.p.i = s.p.i) ∧
    (mnemonicAt i.opcode ∉
      [.adc, .sbc, .cmp, .cpx, .cpy, .asl, .lsr, .rol, .ror, .clc, .sec, .slo, .rla, .sre, .rra, .dcp,
      .isc, .anc, .alr, .arr, .axs, .plp, .rti] → t.p.c = s.p.c) ∧
    (mnemonicAt i.opcode ∈
      [.sta, .stx, .sty, .sax, .ahx, .shx, .shy, .tas, .pha, .php, .jsr, .jmp, .rts, .bpl, .bmi, .bvc,
      .bvs, .bcc, .bcs, .bne, .beq, .nop, .kil, .clc, .sec, .cli, .sei, .cld, .sed, .clv, .txs, .brk] →
      t.p.n = s.p.n ∧ t.p.z = s.p.z) ∧
    (mnemonicAt i.opcode ∉
      [.sta, .stx, .sty, .sax, .ahx, .shx, .shy, .tas, .inc, .dec, .asl, .lsr, .rol, .ror, .slo, .rla,
      .sre, .rra, .dcp, .isc, .pha, .php, .jsr, .brk] → t.mem = s.mem) ∧
    t.busMap = s.busMap ∧ t.params = s.params ∧ t.rstPending = s.rstPending ∧ t.breakpoints = s.breakpoints

/-- The bus map of R51 and a write's visibility (R60, R59). That the mapper's range is plain memory is the model's
choice: DESIGN CHOICE, log 2. -/
def Obligations.BusMapOfTheSystem : Prop :=
  ∀ (s : State) (a b : Addr) (v : Byte), s.busMap = nesMap →
    (a.toNat < 0x2000 → (s.store a v).peek b =
      if b.toNat < 0x2000 ∧ b.toNat % 0x800 = a.toNat % 0x800 then some v else s.peek b) ∧
    (0x2000 ≤ a.toNat → a.toNat < 0x4020 → s.peek a = none ∧ (s.store a v).peek b = s.peek b) ∧
    (0x4020 ≤ a.toNat → (s.store a v).peek b = if b = a then some v else s.peek b)

/-- The micro-state is dead at a boundary, so a snapshot need not hold it (R33, R39), and no snapshot is taken in a
stalled cycle (R36). That snapshot() answers none elsewhere, and that a halted CPU and one about to start its reset
sequence may be saved, is the model's (log 24); that restore leaves the surroundings as they are is the model's as
well (log 22). -/
def Obligations.MicroStateIsDeadAtABoundary : Prop :=
  ∀ s u : State,
    (s.betweenInstructions → u.forgetMicro = s.forgetMicro →
      ∃ t w, step s = .next t ∧ step u = .next w ∧ w.forgetMicro = t.forgetMicro) ∧
    (s.betweenInstructions →
      ∃ n, s.snapshot = some n ∧ (s.SameSurroundings u → (u.restore n).forgetMicro = s.forgetMicro)) ∧
    (¬ s.betweenInstructions → s.snapshot = none) ∧
    (s.atBoundary = true → s.betweenInstructions)

/-- A read or write match does not prevent or change the access (R330). -/
def Obligations.BreakpointsDoNotChangeTheMachine : Prop :=
  ∀ (s : State) (bs : List Breakpoint), ∃ reason stop,
    State.cycle { s with breakpoints := bs } = { s.cycle with breakpoints := bs, breakReason := reason, stop := stop }

/-- step_cycles and the stop flag (R329, R332). -/
def Obligations.StepCyclesStopsBetweenCycles : Prop :=
  ∀ (n : Nat) (s : State), ∃ m, m ≤ n ∧ State.stepCycles n s = State.cycle^[m] s ∧
    (m < n → 1 ≤ m ∧ (State.cycle^[m] s).stop = true) ∧
    ∀ k, 1 ≤ k → k < m → (State.cycle^[k] s).stop = false

/-- "Advance one instruction" runs cycles until the next boundary (R329, R324). -/
def Obligations.StepIsARunOfCycles : Prop :=
  ∀ s : State, s.Inv → ∃ n, 1 ≤ n ∧ step s = .next (State.cycle^[n] s) ∧
    ((State.cycle^[n] s).atBoundary = true ∨ (State.cycle^[n] s).halted = true ∨ (State.cycle^[n] s).stop = true) ∧
    ∀ m, 1 ≤ m → m < n → (State.cycle^[m] s).atBoundary = false ∧ (State.cycle^[m] s).halted = false ∧
      (State.cycle^[m] s).stop = false

/-- The invariant of Safety.lean at reset. -/
def Obligations.ResetMeetsTheInvariant : Prop :=
  State.reset.Inv

/-- The invariant of Safety.lean is kept from every state, reached or not. -/
def Obligations.EveryStepKeepsTheInvariant : Prop :=
  ∀ s : State, s.Inv → (∀ t, step s = .next t → t.Inv) ∧ s.cycle.Inv ∧ ∀ k, (s.hostReset k).Inv

end
end

