-- ==== Sys2Proof/Laws/Bits.lean ====
section
/-! SUPPORT. The bit helpers of 00_scope.md R10 put together, and the page arithmetic of R82 and R107. -/

namespace Sys2Proof.Machine

@[simp] theorem lo8_zext16 (b : Byte) : lo8 (zext16 b) = b := by
  simp only [lo8, zext16]; ext i hi; simp [hi]; omega

theorem toNat_lo8 (w : Addr) : (lo8 w).toNat = w.toNat % 256 := by simp [lo8]

theorem toNat_hi8 (w : Addr) : (hi8 w).toNat = w.toNat / 256 := by
  have := w.isLt
  simp only [hi8, BitVec.extractLsb'_toNat, Nat.shiftRight_eq_div_pow]
  omega

theorem toNat_cat (h l : Byte) : (cat h l).toNat = h.toNat * 256 + l.toNat := by
  have := l.isLt
  simp only [cat, BitVec.toNat_append]
  rw [Nat.shiftLeft_eq, Nat.mul_comm, ← Nat.two_pow_add_eq_or_of_lt this, Nat.mul_comm]

@[simp] theorem lo8_cat (h l : Byte) : lo8 (cat h l) = l := by
  have := l.isLt
  apply BitVec.eq_of_toNat_eq; rw [toNat_lo8, toNat_cat]; omega

@[simp] theorem hi8_cat (h l : Byte) : hi8 (cat h l) = h := by
  have := l.isLt
  apply BitVec.eq_of_toNat_eq; rw [toNat_hi8, toNat_cat]; omega

theorem toNat_zext16 (b : Byte) : (zext16 b).toNat = b.toNat := by
  have := b.isLt
  simp only [zext16, BitVec.truncate_eq_setWidth, BitVec.toNat_setWidth]
  omega

/-- A word is its high byte and its low byte. -/
@[simp] theorem cat_hi8_lo8 (w : Addr) : cat (hi8 w) (lo8 w) = w := by
  apply BitVec.eq_of_toNat_eq
  rw [toNat_cat, toNat_hi8, toNat_lo8]
  omega

/-- Where no page is crossed, the unfixed address is the effective one (R107). -/
theorem unfixed_eq {base : Addr} {idx : Byte} (h : crosses (lo8 base) idx = false) :
    unfixed base idx = indexed base idx := by
  have hb := base.isLt
  have hi := idx.isLt
  simp only [crosses, decide_eq_false_iff_not, not_lt, toNat_lo8] at h
  apply BitVec.eq_of_toNat_eq
  simp only [unfixed, indexed, toNat_cat, toNat_hi8, BitVec.toNat_add, toNat_lo8, toNat_zext16]
  omega

/-- Where a page is crossed, the unfixed address lies one page below the effective one (R107). -/
theorem unfixed_add_page {base : Addr} {idx : Byte} (h : crosses (lo8 base) idx = true) :
    unfixed base idx + 0x100 = indexed base idx := by
  have hb := base.isLt
  have hi := idx.isLt
  simp only [crosses, decide_eq_true_eq, toNat_lo8] at h
  apply BitVec.eq_of_toNat_eq
  simp only [unfixed, indexed, toNat_cat, toNat_hi8, BitVec.toNat_add, toNat_lo8, toNat_zext16]
  have h256 : (0x100 : Addr).toNat = 256 := rfl
  omega

end Sys2Proof.Machine
end

