-- ==== Sys2Proof/Laws/State.lean ====
section
/-! SUPPORT. What each update of the state does to each part of it: one lemma per update and part, true by unfolding. -/

namespace Sys2Proof.Machine

/-! ### store -/

@[simp] theorem State.store_toCpu (s : State) (a : Addr) (v : Byte) :
    (s.store a v).toCpu = s.toCpu := rfl

@[simp] theorem State.store_toLatches (s : State) (a : Addr) (v : Byte) :
    (s.store a v).toLatches = s.toLatches := rfl

@[simp] theorem State.store_rstPending (s : State) (a : Addr) (v : Byte) :
    (s.store a v).rstPending = s.rstPending := rfl

@[simp] theorem State.store_cycles (s : State) (a : Addr) (v : Byte) :
    (s.store a v).cycles = s.cycles := rfl

@[simp] theorem State.store_busLatch (s : State) (a : Addr) (v : Byte) :
    (s.store a v).busLatch = s.busLatch := rfl

@[simp] theorem State.store_stalled (s : State) (a : Addr) (v : Byte) :
    (s.store a v).stalled = s.stalled := rfl

@[simp] theorem State.store_mem (s : State) (a : Addr) (v : Byte) :
    (s.store a v).mem = storeIn s.busMap s.mem a v := rfl

@[simp] theorem State.store_busMap (s : State) (a : Addr) (v : Byte) :
    (s.store a v).busMap = s.busMap := rfl

@[simp] theorem State.store_params (s : State) (a : Addr) (v : Byte) :
    (s.store a v).params = s.params := rfl

@[simp] theorem State.store_inputs (s : State) (a : Addr) (v : Byte) :
    (s.store a v).inputs = s.inputs := rfl

@[simp] theorem State.store_draws (s : State) (a : Addr) (v : Byte) :
    (s.store a v).draws = s.draws := rfl

@[simp] theorem State.store_busLog (s : State) (a : Addr) (v : Byte) :
    (s.store a v).busLog = s.busLog := rfl

@[simp] theorem State.store_breakpoints (s : State) (a : Addr) (v : Byte) :
    (s.store a v).breakpoints = s.breakpoints := rfl

@[simp] theorem State.store_breakReason (s : State) (a : Addr) (v : Byte) :
    (s.store a v).breakReason = s.breakReason := rfl

@[simp] theorem State.store_stop (s : State) (a : Addr) (v : Byte) :
    (s.store a v).stop = s.stop := rfl

/-! ### noteAccess -/

@[simp] theorem State.noteAccess_toCpu (s : State) (acc : Access) :
    (s.noteAccess acc).toCpu = s.toCpu := rfl

@[simp] theorem State.noteAccess_toLatches (s : State) (acc : Access) :
    (s.noteAccess acc).toLatches = s.toLatches := rfl

@[simp] theorem State.noteAccess_rstPending (s : State) (acc : Access) :
    (s.noteAccess acc).rstPending = s.rstPending := rfl

@[simp] theorem State.noteAccess_cycles (s : State) (acc : Access) :
    (s.noteAccess acc).cycles = s.cycles := rfl

@[simp] theorem State.noteAccess_busLatch (s : State) (acc : Access) :
    (s.noteAccess acc).busLatch = acc.data := rfl

@[simp] theorem State.noteAccess_stalled (s : State) (acc : Access) :
    (s.noteAccess acc).stalled = s.stalled := rfl

@[simp] theorem State.noteAccess_mem (s : State) (acc : Access) :
    (s.noteAccess acc).mem = s.mem := rfl

@[simp] theorem State.noteAccess_busMap (s : State) (acc : Access) :
    (s.noteAccess acc).busMap = s.busMap := rfl

@[simp] theorem State.noteAccess_params (s : State) (acc : Access) :
    (s.noteAccess acc).params = s.params := rfl

@[simp] theorem State.noteAccess_inputs (s : State) (acc : Access) :
    (s.noteAccess acc).inputs = s.inputs := rfl

@[simp] theorem State.noteAccess_draws (s : State) (acc : Access) :
    (s.noteAccess acc).draws = s.draws := rfl

@[simp] theorem State.noteAccess_busLog (s : State) (acc : Access) :
    (s.noteAccess acc).busLog = (s.cycles, acc) :: s.busLog := rfl

@[simp] theorem State.noteAccess_breakpoints (s : State) (acc : Access) :
    (s.noteAccess acc).breakpoints = s.breakpoints := rfl

@[simp] theorem State.noteAccess_breakReason (s : State) (acc : Access) :
    (s.noteAccess acc).breakReason = if s.breaksOn acc then some { addr := acc.addr, on := acc.breakOn } else s.breakReason := rfl

@[simp] theorem State.noteAccess_stop (s : State) (acc : Access) :
    (s.noteAccess acc).stop = (s.stop || s.breaksOn acc) := rfl

/-! ### edge -/

@[simp] theorem State.edge_toCpu (s : State) :
    (s.edge).toCpu = s.toCpu := rfl

@[simp] theorem State.edge_toLatches (s : State) :
    (s.edge).toLatches = { s.toLatches with nmiDetected := s.nmiDetected || (s.input.nmiLine && !s.nmiPrev), nmiPrev := s.input.nmiLine } := rfl

@[simp] theorem State.edge_rstPending (s : State) :
    (s.edge).rstPending = s.rstPending := rfl

@[simp] theorem State.edge_cycles (s : State) :
    (s.edge).cycles = s.cycles := rfl

@[simp] theorem State.edge_busLatch (s : State) :
    (s.edge).busLatch = s.busLatch := rfl

@[simp] theorem State.edge_stalled (s : State) :
    (s.edge).stalled = s.stalled := rfl

@[simp] theorem State.edge_mem (s : State) :
    (s.edge).mem = s.mem := rfl

@[simp] theorem State.edge_busMap (s : State) :
    (s.edge).busMap = s.busMap := rfl

@[simp] theorem State.edge_params (s : State) :
    (s.edge).params = s.params := rfl

@[simp] theorem State.edge_inputs (s : State) :
    (s.edge).inputs = s.inputs := rfl

@[simp] theorem State.edge_draws (s : State) :
    (s.edge).draws = s.draws := rfl

@[simp] theorem State.edge_busLog (s : State) :
    (s.edge).busLog = s.busLog := rfl

@[simp] theorem State.edge_breakpoints (s : State) :
    (s.edge).breakpoints = s.breakpoints := rfl

@[simp] theorem State.edge_breakReason (s : State) :
    (s.edge).breakReason = s.breakReason := rfl

@[simp] theorem State.edge_stop (s : State) :
    (s.edge).stop = s.stop := rfl

/-! ### pollShift -/

@[simp] theorem State.pollShift_toCpu (s : State) :
    (s.pollShift).toCpu = s.toCpu := rfl

@[simp] theorem State.pollShift_toLatches (s : State) :
    (s.pollShift).toLatches = { s.toLatches with pollPrev := s.pollCur, pollCur := s.nmiDetected || (s.input.irqLine && !s.p.i) } := rfl

@[simp] theorem State.pollShift_rstPending (s : State) :
    (s.pollShift).rstPending = s.rstPending := rfl

@[simp] theorem State.pollShift_cycles (s : State) :
    (s.pollShift).cycles = s.cycles := rfl

@[simp] theorem State.pollShift_busLatch (s : State) :
    (s.pollShift).busLatch = s.busLatch := rfl

@[simp] theorem State.pollShift_stalled (s : State) :
    (s.pollShift).stalled = s.stalled := rfl

@[simp] theorem State.pollShift_mem (s : State) :
    (s.pollShift).mem = s.mem := rfl

@[simp] theorem State.pollShift_busMap (s : State) :
    (s.pollShift).busMap = s.busMap := rfl

@[simp] theorem State.pollShift_params (s : State) :
    (s.pollShift).params = s.params := rfl

@[simp] theorem State.pollShift_inputs (s : State) :
    (s.pollShift).inputs = s.inputs := rfl

@[simp] theorem State.pollShift_draws (s : State) :
    (s.pollShift).draws = s.draws := rfl

@[simp] theorem State.pollShift_busLog (s : State) :
    (s.pollShift).busLog = s.busLog := rfl

@[simp] theorem State.pollShift_breakpoints (s : State) :
    (s.pollShift).breakpoints = s.breakpoints := rfl

@[simp] theorem State.pollShift_breakReason (s : State) :
    (s.pollShift).breakReason = s.breakReason := rfl

@[simp] theorem State.pollShift_stop (s : State) :
    (s.pollShift).stop = s.stop := rfl

/-! ### tick -/

@[simp] theorem State.tick_toCpu (s : State) :
    (s.tick).toCpu = s.toCpu := rfl

@[simp] theorem State.tick_toLatches (s : State) :
    (s.tick).toLatches = s.toLatches := rfl

@[simp] theorem State.tick_rstPending (s : State) :
    (s.tick).rstPending = s.rstPending := rfl

@[simp] theorem State.tick_cycles (s : State) :
    (s.tick).cycles = s.cycles + 1 := rfl

@[simp] theorem State.tick_busLatch (s : State) :
    (s.tick).busLatch = s.busLatch := rfl

@[simp] theorem State.tick_stalled (s : State) :
    (s.tick).stalled = s.stalled := rfl

@[simp] theorem State.tick_mem (s : State) :
    (s.tick).mem = s.mem := rfl

@[simp] theorem State.tick_busMap (s : State) :
    (s.tick).busMap = s.busMap := rfl

@[simp] theorem State.tick_params (s : State) :
    (s.tick).params = s.params := rfl

@[simp] theorem State.tick_inputs (s : State) :
    (s.tick).inputs = s.inputs.tail := rfl

@[simp] theorem State.tick_draws (s : State) :
    (s.tick).draws = s.draws + 1 := rfl

@[simp] theorem State.tick_busLog (s : State) :
    (s.tick).busLog = s.busLog := rfl

@[simp] theorem State.tick_breakpoints (s : State) :
    (s.tick).breakpoints = s.breakpoints := rfl

@[simp] theorem State.tick_breakReason (s : State) :
    (s.tick).breakReason = s.breakReason := rfl

@[simp] theorem State.tick_stop (s : State) :
    (s.tick).stop = (s.stop || s.input.stop) := rfl

/-! ### branchHook -/

@[simp] theorem State.branchHook_toCpu (s : State) :
    (s.branchHook).toCpu = s.toCpu := rfl

@[simp] theorem State.branchHook_toLatches (s : State) :
    (s.branchHook).toLatches = { s.toLatches with pollCur := s.pollCur && !(!s.pollPrev && s.takenInPage && s.params.branchIrqDelay) } := rfl

@[simp] theorem State.branchHook_rstPending (s : State) :
    (s.branchHook).rstPending = s.rstPending := rfl

@[simp] theorem State.branchHook_cycles (s : State) :
    (s.branchHook).cycles = s.cycles := rfl

@[simp] theorem State.branchHook_busLatch (s : State) :
    (s.branchHook).busLatch = s.busLatch := rfl

@[simp] theorem State.branchHook_stalled (s : State) :
    (s.branchHook).stalled = s.stalled := rfl

@[simp] theorem State.branchHook_mem (s : State) :
    (s.branchHook).mem = s.mem := rfl

@[simp] theorem State.branchHook_busMap (s : State) :
    (s.branchHook).busMap = s.busMap := rfl

@[simp] theorem State.branchHook_params (s : State) :
    (s.branchHook).params = s.params := rfl

@[simp] theorem State.branchHook_inputs (s : State) :
    (s.branchHook).inputs = s.inputs := rfl

@[simp] theorem State.branchHook_draws (s : State) :
    (s.branchHook).draws = s.draws := rfl

@[simp] theorem State.branchHook_busLog (s : State) :
    (s.branchHook).busLog = s.busLog := rfl

@[simp] theorem State.branchHook_breakpoints (s : State) :
    (s.branchHook).breakpoints = s.breakpoints := rfl

@[simp] theorem State.branchHook_breakReason (s : State) :
    (s.branchHook).breakReason = s.breakReason := rfl

@[simp] theorem State.branchHook_stop (s : State) :
    (s.branchHook).stop = s.stop := rfl

/-! ### nextT -/

@[simp] theorem State.nextT_toCpu (s : State) :
    (s.nextT).toCpu = { s.toCpu with t := s.t + 1 } := rfl

@[simp] theorem State.nextT_toLatches (s : State) :
    (s.nextT).toLatches = s.toLatches := rfl

@[simp] theorem State.nextT_rstPending (s : State) :
    (s.nextT).rstPending = s.rstPending := rfl

@[simp] theorem State.nextT_cycles (s : State) :
    (s.nextT).cycles = s.cycles := rfl

@[simp] theorem State.nextT_busLatch (s : State) :
    (s.nextT).busLatch = s.busLatch := rfl

@[simp] theorem State.nextT_stalled (s : State) :
    (s.nextT).stalled = s.stalled := rfl

@[simp] theorem State.nextT_mem (s : State) :
    (s.nextT).mem = s.mem := rfl

@[simp] theorem State.nextT_busMap (s : State) :
    (s.nextT).busMap = s.busMap := rfl

@[simp] theorem State.nextT_params (s : State) :
    (s.nextT).params = s.params := rfl

@[simp] theorem State.nextT_inputs (s : State) :
    (s.nextT).inputs = s.inputs := rfl

@[simp] theorem State.nextT_draws (s : State) :
    (s.nextT).draws = s.draws := rfl

@[simp] theorem State.nextT_busLog (s : State) :
    (s.nextT).busLog = s.busLog := rfl

@[simp] theorem State.nextT_breakpoints (s : State) :
    (s.nextT).breakpoints = s.breakpoints := rfl

@[simp] theorem State.nextT_breakReason (s : State) :
    (s.nextT).breakReason = s.breakReason := rfl

@[simp] theorem State.nextT_stop (s : State) :
    (s.nextT).stop = s.stop := rfl

/-! ### arrive -/

@[simp] theorem State.arrive_toCpu (s : State) :
    (s.arrive).toCpu = { s.toCpu with seq := .instr, t := 1 } := rfl

@[simp] theorem State.arrive_toLatches (s : State) :
    (s.arrive).toLatches = s.toLatches := rfl

@[simp] theorem State.arrive_rstPending (s : State) :
    (s.arrive).rstPending = s.rstPending := rfl

@[simp] theorem State.arrive_cycles (s : State) :
    (s.arrive).cycles = s.cycles := rfl

@[simp] theorem State.arrive_busLatch (s : State) :
    (s.arrive).busLatch = s.busLatch := rfl

@[simp] theorem State.arrive_stalled (s : State) :
    (s.arrive).stalled = s.stalled := rfl

@[simp] theorem State.arrive_mem (s : State) :
    (s.arrive).mem = s.mem := rfl

@[simp] theorem State.arrive_busMap (s : State) :
    (s.arrive).busMap = s.busMap := rfl

@[simp] theorem State.arrive_params (s : State) :
    (s.arrive).params = s.params := rfl

@[simp] theorem State.arrive_inputs (s : State) :
    (s.arrive).inputs = s.inputs := rfl

@[simp] theorem State.arrive_draws (s : State) :
    (s.arrive).draws = s.draws := rfl

@[simp] theorem State.arrive_busLog (s : State) :
    (s.arrive).busLog = s.busLog := rfl

@[simp] theorem State.arrive_breakpoints (s : State) :
    (s.arrive).breakpoints = s.breakpoints := rfl

@[simp] theorem State.arrive_breakReason (s : State) :
    (s.arrive).breakReason = if s.breaksAtFetch then some { addr := s.pc, on := .exec } else s.breakReason := rfl

@[simp] theorem State.arrive_stop (s : State) :
    (s.arrive).stop = (s.stop || s.breaksAtFetch) := rfl

/-! ### begin -/

@[simp] theorem State.begin_toCpu (s : State) :
    (s.begin).toCpu = { s.toCpu with seq := .instr, t := 1 } := rfl

@[simp] theorem State.begin_toLatches (s : State) :
    (s.begin).toLatches = s.toLatches := rfl

@[simp] theorem State.begin_rstPending (s : State) :
    (s.begin).rstPending = s.rstPending := rfl

@[simp] theorem State.begin_cycles (s : State) :
    (s.begin).cycles = s.cycles := rfl

@[simp] theorem State.begin_busLatch (s : State) :
    (s.begin).busLatch = s.busLatch := rfl

@[simp] theorem State.begin_stalled (s : State) :
    (s.begin).stalled = s.stalled := rfl

@[simp] theorem State.begin_mem (s : State) :
    (s.begin).mem = s.mem := rfl

@[simp] theorem State.begin_busMap (s : State) :
    (s.begin).busMap = s.busMap := rfl

@[simp] theorem State.begin_params (s : State) :
    (s.begin).params = s.params := rfl

@[simp] theorem State.begin_inputs (s : State) :
    (s.begin).inputs = s.inputs := rfl

@[simp] theorem State.begin_draws (s : State) :
    (s.begin).draws = s.draws := rfl

@[simp] theorem State.begin_busLog (s : State) :
    (s.begin).busLog = s.busLog := rfl

@[simp] theorem State.begin_breakpoints (s : State) :
    (s.begin).breakpoints = s.breakpoints := rfl

@[simp] theorem State.begin_breakReason (s : State) :
    (s.begin).breakReason = s.breakReason := rfl

@[simp] theorem State.begin_stop (s : State) :
    (s.begin).stop = false := rfl

/-! ### requestReset -/

@[simp] theorem State.requestReset_toCpu (s : State) (k : ResetKind) :
    (s.requestReset k).toCpu = { s.toCpu with seq := .instr, t := 1 } := rfl

@[simp] theorem State.requestReset_toLatches (s : State) (k : ResetKind) :
    (s.requestReset k).toLatches = { s.toLatches with nmiDetected := false, pollPrev := false, pollCur := false, takeInt := false } := rfl

@[simp] theorem State.requestReset_rstPending (s : State) (k : ResetKind) :
    (s.requestReset k).rstPending = some k := rfl

@[simp] theorem State.requestReset_cycles (s : State) (k : ResetKind) :
    (s.requestReset k).cycles = s.cycles := rfl

@[simp] theorem State.requestReset_busLatch (s : State) (k : ResetKind) :
    (s.requestReset k).busLatch = s.busLatch := rfl

@[simp] theorem State.requestReset_stalled (s : State) (k : ResetKind) :
    (s.requestReset k).stalled = false := rfl

@[simp] theorem State.requestReset_mem (s : State) (k : ResetKind) :
    (s.requestReset k).mem = s.mem := rfl

@[simp] theorem State.requestReset_busMap (s : State) (k : ResetKind) :
    (s.requestReset k).busMap = s.busMap := rfl

@[simp] theorem State.requestReset_params (s : State) (k : ResetKind) :
    (s.requestReset k).params = s.params := rfl

@[simp] theorem State.requestReset_inputs (s : State) (k : ResetKind) :
    (s.requestReset k).inputs = s.inputs := rfl

@[simp] theorem State.requestReset_draws (s : State) (k : ResetKind) :
    (s.requestReset k).draws = s.draws := rfl

@[simp] theorem State.requestReset_busLog (s : State) (k : ResetKind) :
    (s.requestReset k).busLog = s.busLog := rfl

@[simp] theorem State.requestReset_breakpoints (s : State) (k : ResetKind) :
    (s.requestReset k).breakpoints = s.breakpoints := rfl

@[simp] theorem State.requestReset_breakReason (s : State) (k : ResetKind) :
    (s.requestReset k).breakReason = s.breakReason := rfl

@[simp] theorem State.requestReset_stop (s : State) (k : ResetKind) :
    (s.requestReset k).stop = s.stop := rfl

/-! ### readyToFetch -/

@[simp] theorem State.readyToFetch_toCpu (s : State) :
    (s.readyToFetch).toCpu = { s.toCpu with seq := .instr, t := 1 } := rfl

@[simp] theorem State.readyToFetch_toLatches (s : State) :
    (s.readyToFetch).toLatches = { s.toLatches with takeInt := false } := rfl

@[simp] theorem State.readyToFetch_rstPending (s : State) :
    (s.readyToFetch).rstPending = none := rfl

@[simp] theorem State.readyToFetch_cycles (s : State) :
    (s.readyToFetch).cycles = s.cycles := rfl

@[simp] theorem State.readyToFetch_busLatch (s : State) :
    (s.readyToFetch).busLatch = s.busLatch := rfl

@[simp] theorem State.readyToFetch_stalled (s : State) :
    (s.readyToFetch).stalled = s.stalled := rfl

@[simp] theorem State.readyToFetch_mem (s : State) :
    (s.readyToFetch).mem = s.mem := rfl

@[simp] theorem State.readyToFetch_busMap (s : State) :
    (s.readyToFetch).busMap = s.busMap := rfl

@[simp] theorem State.readyToFetch_params (s : State) :
    (s.readyToFetch).params = s.params := rfl

@[simp] theorem State.readyToFetch_inputs (s : State) :
    (s.readyToFetch).inputs = s.inputs := rfl

@[simp] theorem State.readyToFetch_draws (s : State) :
    (s.readyToFetch).draws = s.draws := rfl

@[simp] theorem State.readyToFetch_busLog (s : State) :
    (s.readyToFetch).busLog = s.busLog := rfl

@[simp] theorem State.readyToFetch_breakpoints (s : State) :
    (s.readyToFetch).breakpoints = s.breakpoints := rfl

@[simp] theorem State.readyToFetch_breakReason (s : State) :
    (s.readyToFetch).breakReason = s.breakReason := rfl

@[simp] theorem State.readyToFetch_stop (s : State) :
    (s.readyToFetch).stop = s.stop := rfl

/-! ### vectorHook -/

@[simp] theorem State.vectorHook_toRegs (s : State) (k : HijackCycle) :
    (s.vectorHook k).toRegs = s.toRegs := rfl

@[simp] theorem State.vectorHook_toLatches (s : State) (k : HijackCycle) :
    (s.vectorHook k).toLatches =
      { s.toLatches with nmiDetected := s.nmiDetected && !(s.params.hijackCycle == k) } := rfl

@[simp] theorem State.vectorHook_rstPending (s : State) (k : HijackCycle) :
    (s.vectorHook k).rstPending = s.rstPending := rfl

@[simp] theorem State.vectorHook_cycles (s : State) (k : HijackCycle) :
    (s.vectorHook k).cycles = s.cycles := rfl

@[simp] theorem State.vectorHook_busLatch (s : State) (k : HijackCycle) :
    (s.vectorHook k).busLatch = s.busLatch := rfl

@[simp] theorem State.vectorHook_stalled (s : State) (k : HijackCycle) :
    (s.vectorHook k).stalled = s.stalled := rfl

@[simp] theorem State.vectorHook_mem (s : State) (k : HijackCycle) :
    (s.vectorHook k).mem = s.mem := rfl

@[simp] theorem State.vectorHook_busMap (s : State) (k : HijackCycle) :
    (s.vectorHook k).busMap = s.busMap := rfl

@[simp] theorem State.vectorHook_params (s : State) (k : HijackCycle) :
    (s.vectorHook k).params = s.params := rfl

@[simp] theorem State.vectorHook_inputs (s : State) (k : HijackCycle) :
    (s.vectorHook k).inputs = s.inputs := rfl

@[simp] theorem State.vectorHook_draws (s : State) (k : HijackCycle) :
    (s.vectorHook k).draws = s.draws := rfl

@[simp] theorem State.vectorHook_busLog (s : State) (k : HijackCycle) :
    (s.vectorHook k).busLog = s.busLog := rfl

@[simp] theorem State.vectorHook_breakpoints (s : State) (k : HijackCycle) :
    (s.vectorHook k).breakpoints = s.breakpoints := rfl

@[simp] theorem State.vectorHook_breakReason (s : State) (k : HijackCycle) :
    (s.vectorHook k).breakReason = s.breakReason := rfl

@[simp] theorem State.vectorHook_stop (s : State) (k : HijackCycle) :
    (s.vectorHook k).stop = s.stop := rfl

/-- An update that keeps the inputs and the count of draws keeps the inputs of every cycle to come. -/
theorem State.inputAt_congr {s t : State} (hi : t.inputs = s.inputs) (hd : t.draws = s.draws) (n : Nat) :
    t.inputAt n = s.inputAt n := by
  simp [State.inputAt, hi, hd]

/-- An update that keeps the memory and the map keeps what a look at memory finds. -/
theorem State.peek_congr {s t : State} (hm : t.mem = s.mem) (hb : t.busMap = s.busMap) (a : Addr) :
    t.peek a = s.peek a := by
  simp [State.peek, hm, hb]

/-! ### The host's calls -/

/-- A snapshot is the saved state wherever it may be taken. -/
theorem State.snapshot_eq_some {s : State} {n : Snapshot} : s.snapshot = some n ↔ s.mayStore = true ∧ s.saved = n := by
  simp [State.snapshot]

/-- No snapshot is answered where none may be taken. -/
theorem State.snapshot_eq_none {s : State} : s.snapshot = none ↔ s.mayStore = false := by
  simp [State.snapshot]

@[simp] theorem State.requestReset_toRegs (s : State) (k : ResetKind) : (s.requestReset k).toRegs = s.toRegs := rfl

@[simp] theorem State.restore_mem (s : State) (n : Snapshot) : (s.restore n).mem = s.mem := rfl

@[simp] theorem State.restore_busMap (s : State) (n : Snapshot) : (s.restore n).busMap = s.busMap := rfl

@[simp] theorem State.restore_params (s : State) (n : Snapshot) : (s.restore n).params = s.params := rfl

@[simp] theorem State.restore_inputs (s : State) (n : Snapshot) : (s.restore n).inputs = s.inputs := rfl

@[simp] theorem State.restore_stalled (s : State) (n : Snapshot) : (s.restore n).stalled = false := rfl

@[simp] theorem State.restore_t (s : State) (n : Snapshot) : (s.restore n).t = 1 := rfl

end Sys2Proof.Machine
end

