-- ==== Sys2Proof/Laws/Memory.lean ====
section
/-! SUPPORT. Plain memory: a read after a write, and the canonical form, which every operation on memory keeps. -/

namespace Sys2Proof.Machine

theorem Memory.read_erase (m : List Host.Cell) (a b : Nat) :
    Memory.read (Memory.erase m a) b = if b = a then Config.unlistedByte else Memory.read m b := by
  induction m with
  | nil => simp [Memory.erase, Memory.read]
  | cons c m ih =>
    obtain ⟨k, v⟩ := c
    by_cases hk : k = a
    · subst hk
      simp only [Memory.erase, List.filter_cons, bne_self_eq_false, Bool.false_eq_true, if_false] at ih ⊢
      rw [ih]
      by_cases hb : b = k
      · simp [hb]
      · simp [Memory.read, hb, Ne.symm hb]
    · have hk' : (k != a) = true := by simpa using hk
      simp only [Memory.erase, List.filter_cons, hk', if_true, Memory.read] at ih ⊢
      rw [ih]
      by_cases hb : k = b
      · subst hb; simp [hk]
      · simp [hb]

theorem Memory.read_insert (m : List Host.Cell) (a : Nat) (v : Byte) (h : ∀ c ∈ m, c.1 ≠ a) (b : Nat) :
    Memory.read (Memory.insert m a v) b = if b = a then v else Memory.read m b := by
  induction m with
  | nil => simp only [Memory.insert, Memory.read, eq_comm]
  | cons c m ih =>
    obtain ⟨k, w⟩ := c
    have hk : k ≠ a := h (k, w) (by simp)
    have ih := ih (fun c hc => h c (by simp [hc]))
    simp only [Memory.insert]
    split
    · simp only [Memory.read, eq_comm]
    · simp only [Memory.read, ih]
      by_cases hb : k = b
      · subst hb; simp [hk]
      · simp [hb]

theorem Memory.ne_of_mem_erase {m : List Host.Cell} {a : Nat} {c : Host.Cell} (h : c ∈ Memory.erase m a) : c.1 ≠ a := by
  simpa using (List.mem_filter.1 h).2

/-- A read after a write gives the byte written, at the address written, and what was there before at any other. -/
theorem Memory.read_write (m : List Host.Cell) (a : Nat) (v : Byte) (b : Nat) :
    Memory.read (Memory.write m a v) b = if b = a then v else Memory.read m b := by
  unfold Memory.write
  split
  · next h => rw [Memory.read_erase, h]
  · rw [Memory.read_insert _ _ _ (fun c hc => Memory.ne_of_mem_erase hc), Memory.read_erase]
    split <;> rfl

theorem Memory.mem_insert {m : List Host.Cell} {a : Nat} {v : Byte} {c : Host.Cell} :
    c ∈ Memory.insert m a v ↔ c = (a, v) ∨ c ∈ m := by
  induction m with
  | nil => simp [Memory.insert]
  | cons d m ih =>
    obtain ⟨k, w⟩ := d
    simp only [Memory.insert]
    split
    · simp
    · simp only [List.mem_cons, ih]
      tauto

theorem Memory.pairwise_insert {m : List Host.Cell} {a : Nat} {v : Byte} (h : m.Pairwise (fun c d => c.1 < d.1))
    (ha : ∀ c ∈ m, c.1 ≠ a) : (Memory.insert m a v).Pairwise (fun c d => c.1 < d.1) := by
  induction m with
  | nil => simp [Memory.insert]
  | cons d m ih =>
    obtain ⟨k, w⟩ := d
    obtain ⟨hd, hm⟩ := List.pairwise_cons.1 h
    have hk : k ≠ a := ha (k, w) (by simp)
    simp only [Memory.insert]
    split
    · next hlt =>
      refine List.pairwise_cons.2 ⟨?_, h⟩
      intro c hc
      rcases List.mem_cons.1 hc with rfl | hc
      · exact hlt
      · exact lt_trans hlt (hd c hc)
    · next hlt =>
      refine List.pairwise_cons.2 ⟨?_, ih hm (fun c hc => ha c (by simp [hc]))⟩
      intro c hc
      rcases Memory.mem_insert.1 hc with rfl | hc
      · simp only; omega
      · exact hd c hc

/-- Writing a byte at an address of the 64 KiB space keeps the canonical form. -/
theorem Memory.wf_write {m : List Host.Cell} (h : Memory.wf m) {a : Nat} (ha : a < 65536) (v : Byte) :
    Memory.wf (Memory.write m a v) := by
  obtain ⟨hp, hv⟩ := h
  have hp' : (Memory.erase m a).Pairwise (fun c d => c.1 < d.1) := hp.sublist List.filter_sublist
  have hv' : ∀ c ∈ Memory.erase m a, c.1 < 65536 ∧ c.2 ≠ Config.unlistedByte :=
    fun c hc => hv c (List.mem_filter.1 hc).1
  unfold Memory.write
  split
  · exact ⟨hp', hv'⟩
  · next hne =>
    refine ⟨Memory.pairwise_insert hp' (fun c hc => Memory.ne_of_mem_erase hc), fun c hc => ?_⟩
    rcases Memory.mem_insert.1 hc with rfl | hc
    · exact ⟨ha, hne⟩
    · exact hv' c hc

theorem Memory.wf_nil : Memory.wf [] := by simp [Memory.wf]

/-- The cell an address selects lies in the 64 KiB space. -/
theorem cellOf_lt {map : List Region} {a : Addr} {k : Nat} (h : cellOf map a = some k) : k < 65536 := by
  simp only [cellOf, Option.bind_eq_some_iff] at h
  obtain ⟨r, hr, hk⟩ := h
  have hr := List.find?_some hr
  simp only [Region.holds, Bool.and_eq_true, decide_eq_true_eq] at hr
  unfold Region.cell? at hk
  split at hk
  · next span w _ =>
    simp only [Option.some.injEq] at hk
    have := Nat.mod_le (a.toNat - r.base) span
    have := a.isLt
    omega
  · simp at hk

/-- A write on the bus keeps the canonical form. -/
theorem wf_storeIn {map : List Region} {m : List Host.Cell} (h : Memory.wf m) (a : Addr) (v : Byte) :
    Memory.wf (storeIn map m a v) := by
  unfold storeIn
  split
  · next k hk =>
    split
    · exact Memory.wf_write h (cellOf_lt hk) v
    · exact h
  · exact h

/-- Putting bytes into memory from outside keeps the canonical form. -/
theorem State.wf_poke {s : State} (h : Memory.wf s.mem) (a : Addr) (bs : List Byte) : Memory.wf (s.poke a bs).mem := by
  induction bs generalizing s a with
  | nil => exact h
  | cons b bs ih =>
    unfold State.poke
    split
    · next k hk => exact ih (Memory.wf_write h (cellOf_lt hk) b) _
    · exact ih h _

@[simp] theorem State.cell?_store (s : State) (a : Addr) (v : Byte) (b : Addr) : (s.store a v).cell? b = s.cell? b := rfl

@[simp] theorem State.writable_store (s : State) (a : Addr) (v : Byte) (b : Addr) :
    (s.store a v).writable b = s.writable b := rfl

/-- What a look at memory finds after a write: the byte written, wherever the same cell of memory that takes writes
answers, and what was there before everywhere else (R59, R60). -/
theorem peekIn_storeIn (map : List Region) (m : List Host.Cell) (a : Addr) (v : Byte) (b : Addr) :
    peekIn map (storeIn map m a v) b =
      if (cellOf map b).isSome && cellOf map b == cellOf map a && writableAt map a then some v else peekIn map m b := by
  unfold peekIn storeIn
  cases hb : cellOf map b with
  | none => simp
  | some k =>
    simp only [Option.map_some, Option.isSome_some, Bool.true_and]
    cases ha : cellOf map a with
    | none => simp
    | some j =>
      by_cases hw : writableAt map a = true
      · by_cases hj : k = j
        · subst hj; simp [hw, Memory.read_write]
        · simp [hw, Memory.read_write, hj]
      · simp [hw]

/-- The same in a state. -/
theorem State.peek_store (s : State) (a : Addr) (v : Byte) (b : Addr) :
    (s.store a v).peek b = if s.overwrites a b then some v else s.peek b :=
  peekIn_storeIn s.busMap s.mem a v b

end Sys2Proof.Machine
end

