-- ==== Sys2Proof/Laws/Run.lean ====
section
/-! SUPPORT. What a run of a skeleton does, said once. A `View` is the part of the state that decides what an instruction
computes, without the record of the bus, the debugger and the open-bus latch; `View.run` runs a skeleton on it with the stall
cycles before an access taken at once. `runSeq_view` says that a run in a quiet state does exactly that. -/

namespace Sys2Proof.Machine

/-! ### The input lines -/

/-- What an access sees of the inputs: the timeline, and the NMI edge detector that runs along it (R301, R320). -/
structure Line where
  inputs : List CycleIn
  draws : Nat
  cycles : BitVec 64
  prev : Bool
  det : Bool

/-- The input of the cycle at hand. -/
def Line.head (l : Line) : CycleIn := l.inputs.getD 0 (idleInput l.draws)

/-- A cycle has passed. -/
def Line.next (l : Line) : Line where
  inputs := l.inputs.tail
  draws := l.draws + 1
  cycles := l.cycles + 1
  prev := l.head.nmiLine
  det := l.det || (l.head.nmiLine && !l.prev)

/-- The stall cycles have passed. -/
def Line.skipRun : List CycleIn → Line → Line
  | [], l => l
  | i :: is, l => if i.stallReq then Line.skipRun is l.next else l

/-- The stall cycles before a read have passed (R320). -/
def Line.skip (l : Line) : Line := Line.skipRun l.inputs l

/-- The cycle in which an access takes place is the one at hand. -/
def Line.wait (l : Line) : Dir → Line
  | .read => l.skip
  | .write => l

/-- An access has taken place. -/
def Line.pass (l : Line) (d : Dir) : Line := (l.wait d).next

/-- Accesses in the given directions have taken place. -/
def Line.passAll (l : Line) : List Dir → Line
  | [] => l
  | d :: ds => (l.pass d).passAll ds

/-- The input lines of a state. -/
def State.line (s : State) : Line where
  inputs := s.inputs
  draws := s.draws
  cycles := s.cycles
  prev := s.nmiPrev
  det := s.nmiDetected

theorem Line.skipRun_cons_stall {l : Line} {i : CycleIn} {is : List CycleIn} (hs : i.stallReq = true) :
    Line.skipRun (i :: is) l = Line.skipRun is l.next := by simp [Line.skipRun, hs]

theorem Line.skip_of_stall {l : Line} {i : CycleIn} {is : List CycleIn} (h : l.inputs = i :: is)
    (hs : i.stallReq = true) : l.skip = l.next.skip := by
  simp [Line.skip, h, Line.skipRun, hs, Line.next]

theorem Line.skip_of_not {l : Line} {i : CycleIn} {is : List CycleIn} (h : l.inputs = i :: is)
    (hs : i.stallReq = false) : l.skip = l := by
  simp [Line.skip, h, Line.skipRun, hs]

theorem Line.skip_nil {l : Line} (h : l.inputs = []) : l.skip = l := by simp [Line.skip, h, Line.skipRun]

/-- How long accesses in the given directions take, at the start of the inputs. -/
theorem elapsed_nil (is : List CycleIn) : elapsed [] is = 0 := by cases is <;> rfl

theorem count_succ (c : BitVec 64) (k : Nat) : c + 1#64 + BitVec.ofNat 64 k = c + BitVec.ofNat 64 (k + 1) := by
  rw [BitVec.ofNat_add, BitVec.add_assoc, BitVec.add_comm (1#64)]

/-- What accesses in the given directions leave of the inputs is told by `elapsed`. -/
theorem Line.passAll_eq (ds : List Dir) (l : Line) :
    (l.passAll ds).inputs = l.inputs.drop (elapsed ds l.inputs) ∧
    (l.passAll ds).draws = l.draws + elapsed ds l.inputs ∧
    (l.passAll ds).cycles = l.cycles + BitVec.ofNat 64 (elapsed ds l.inputs) ∧
    (l.passAll ds).det = (l.det || nmiEdge l.prev (l.inputs.take (elapsed ds l.inputs))) := by
  induction ds generalizing l with
  | nil => simp [Line.passAll, elapsed_nil, nmiEdge]
  | cons d ds ih =>
    obtain ⟨is, n, cyc, prev, det⟩ := l
    induction is generalizing n cyc prev det with
    | nil =>
      have h : elapsed (d :: ds) [] = 1 + ds.length := by cases d <;> simp [elapsed, Nat.add_comm]
      have hn : ∀ ds : List Dir, elapsed ds [] = ds.length := fun ds => by
        cases ds with
        | nil => rfl
        | cons d ds => cases d <;> rfl
      have := ih ((Line.mk [] n cyc prev det).pass d)
      cases d <;>
        simp [Line.passAll, Line.pass, Line.wait, Line.next, Line.skip, Line.skipRun, Line.head, h, hn, nmiEdge,
          idleInput] at this ⊢ <;>
        refine ⟨this.1, by omega, ?_, this.2.2.2⟩ <;> rw [this.2.2.1] <;> simp [BitVec.ofNat_add, BitVec.add_assoc]
    | cons i is ihs =>
      cases d with
      | write =>
        have := ih ((Line.mk (i :: is) n cyc prev det).pass .write)
        simp [Line.passAll, Line.pass, Line.wait, Line.next, Line.head, elapsed, Nat.add_comm 1, nmiEdge] at this ⊢
        refine ⟨this.1, by omega, ?_, by rw [this.2.2.2, Bool.or_assoc]⟩
        rw [this.2.2.1, count_succ]
      | read =>
        by_cases hs : i.stallReq = true
        · have := ihs (n + 1) (cyc + 1) i.nmiLine (det || (i.nmiLine && !prev))
          simp [Line.passAll, Line.pass, Line.wait, Line.next, Line.head, Line.skip, Line.skipRun, hs, elapsed,
            Nat.add_comm 1, nmiEdge] at this ⊢
          refine ⟨this.1, by omega, ?_, by rw [this.2.2.2, Bool.or_assoc]⟩
          rw [this.2.2.1, count_succ]
        · have := ih ((Line.mk (i :: is) n cyc prev det).pass .read)
          simp [Line.passAll, Line.pass, Line.wait, Line.next, Line.head, Line.skip, Line.skipRun, hs, elapsed,
            Nat.add_comm 1, nmiEdge] at this ⊢
          refine ⟨this.1, by omega, ?_, by rw [this.2.2.2, Bool.or_assoc]⟩
          rw [this.2.2.1, count_succ]

/-- The input of the cycle of a read that follows accesses in the given directions. -/
theorem Line.head_passAll_skip (ds : List Dir) (l : Line) :
    (l.passAll ds).skip.head = l.inputs.getD (delay ds l.inputs) (idleInput (l.draws + delay ds l.inputs)) := by
  induction ds generalizing l with
  | nil =>
    obtain ⟨is, n, cyc, prev, det⟩ := l
    induction is generalizing n cyc prev det with
    | nil => simp [Line.passAll, Line.skip, Line.skipRun, Line.head, delay]
    | cons i is ihs =>
      by_cases hs : i.stallReq = true
      · have := ihs (n + 1) (cyc + 1) i.nmiLine (det || (i.nmiLine && !prev))
        simp only [Line.passAll, Line.skip, Line.skipRun, Line.head, delay, hs, if_true, Line.next, List.tail_cons,
          List.getD_cons_zero] at this ⊢
        rw [this]
        simp [Nat.add_comm 1, Nat.add_assoc]
      · simp [Line.passAll, Line.skip, Line.skipRun, Line.head, delay, hs]
  | cons d ds ih =>
    obtain ⟨is, n, cyc, prev, det⟩ := l
    induction is generalizing n cyc prev det with
    | nil =>
      have := ih ((Line.mk [] n cyc prev det).pass d)
      have hn : ∀ ds : List Dir, delay ds [] = ds.length := fun ds => by
        cases ds with
        | nil => rfl
        | cons d ds => cases d <;> rfl
      cases d <;>
        simp [Line.passAll, Line.pass, Line.wait, Line.next, Line.skip, Line.skipRun, hn] at this ⊢ <;>
        rw [this] <;> congr 1 <;> omega
    | cons i is ihs =>
      cases d with
      | write =>
        have := ih ((Line.mk (i :: is) n cyc prev det).pass .write)
        simp [Line.passAll, Line.pass, Line.wait, Line.next, delay, Nat.add_comm 1] at this ⊢
        rw [this, Nat.add_assoc, Nat.add_comm 1]
      | read =>
        by_cases hs : i.stallReq = true
        · have := ihs (n + 1) (cyc + 1) i.nmiLine (det || (i.nmiLine && !prev))
          simp [Line.passAll, Line.pass, Line.wait, Line.next, Line.head, Line.skip, Line.skipRun, hs, delay,
            Nat.add_comm 1] at this ⊢
          rw [this, Nat.add_assoc, Nat.add_comm 1]
        · have := ih ((Line.mk (i :: is) n cyc prev det).pass .read)
          simp [Line.passAll, Line.pass, Line.wait, Line.next, Line.skip, Line.skipRun, hs, delay,
            Nat.add_comm 1] at this ⊢
          rw [this, Nat.add_assoc, Nat.add_comm 1]

/-- What a device answers to a read that follows accesses in the given directions. -/
theorem State.reply_line (s : State) (ds : List Dir) : (s.line.passAll ds).skip.head.reply = s.replyAfter ds := by
  rw [Line.head_passAll_skip]; rfl

/-- The NMI latch at the end of accesses in the given directions. -/
theorem State.det_line (s : State) (ds : List Dir) : (s.line.passAll ds).det = s.nmiBy ds :=
  (Line.passAll_eq ds s.line).2.2.2

/-! ### Views -/

/-- The record of the bus, and the byte last on it (R35, R57). -/
structure Trace where
  log : List (BitVec 64 × Access)
  latch : Byte

/-- What an access leaves on the bus. -/
def Trace.note (tr : Trace) (cyc : BitVec 64) (acc : Access) : Trace := ⟨(cyc, acc) :: tr.log, acc.data⟩

/-- The part of the state that decides what an instruction does. -/
structure View where
  cpu : Cpu
  mem : List Host.Cell
  map : List Region
  params : Params
  line : Line
  pollPrev : Bool
  pollCur : Bool
  takeInt : Bool
  rst : Option ResetKind
  trace : Trace

/-- The view of a state. -/
def State.view (s : State) : View where
  cpu := s.toCpu
  mem := s.mem
  map := s.busMap
  params := s.params
  line := s.line
  pollPrev := s.pollPrev
  pollCur := s.pollCur
  takeInt := s.takeInt
  rst := s.rstPending
  trace := ⟨s.busLog, s.busLatch⟩

/-- The access of a cycle. -/
def View.req (v : View) (c : Cycle) : Req := c.req v.params v.cpu

/-- What a stall cycle leaves on the bus (R320, R57). -/
def View.stallTrace (v : View) (a : Addr) (l : Line) (tr : Trace) : Trace :=
  if l.head.dmaDrives then { tr with latch := l.head.dmaData }
  else if v.params.stallReread then tr.note l.cycles ⟨a, .read, (peekIn v.map v.mem a).getD l.head.reply, .dummy⟩
  else tr

/-- What the stall cycles before a read leave on the bus. -/
def View.stallTraces (v : View) (a : Addr) : List CycleIn → Line → Trace → Trace
  | [], _, tr => tr
  | i :: is, l, tr => if i.stallReq then v.stallTraces a is l.next (v.stallTrace a l tr) else tr

/-- What the stall cycles before an access leave on the bus. -/
def View.waitTrace (v : View) : Req → Trace
  | .read a _ => v.stallTraces a v.line.inputs v.line v.trace
  | .write _ _ _ => v.trace

/-- The stall cycles before a cycle have passed. -/
def View.wait (v : View) (c : Cycle) : View :=
  { v with line := v.line.wait (v.req c).dir, trace := v.waitTrace (v.req c) }

/-- The byte on the bus in a cycle. -/
def View.byte (v : View) (c : Cycle) : Byte :=
  match v.req c with
  | .read a _ => c.given.getD ((peekIn v.map v.mem a).getD v.line.head.reply)
  | .write _ x _ => x

/-- Memory after a cycle. -/
def View.memAfter (v : View) (c : Cycle) : List Host.Cell :=
  match v.req c with
  | .read _ _ => v.mem
  | .write a x _ => storeIn v.map v.mem a x

/-- What a hook does to a view. -/
def View.hook (v : View) : Hook → View
  | .none => v
  | .branch => { v with pollCur := v.pollCur && !(!v.pollPrev && v.cpu.takenInPage && v.params.branchIrqDelay) }
  | .vector k =>
    { v with
      cpu.ea := if v.line.det && v.params.hijackCycle == k then 0xFFFA else v.cpu.ea
      cpu.seq := if v.line.det && v.params.hijackCycle == k then v.cpu.seq.hijack else
        if !v.line.det && v.params.hijackCycle == k then v.cpu.seq.plain else v.cpu.seq
      line.det := v.line.det && !(v.params.hijackCycle == k) }

/-- A cycle, but for what its being the last one or not does. -/
def View.access (v : View) (c : Cycle) : View :=
  View.hook
    { v with
      cpu := c.act v.params (v.byte c) v.cpu
      mem := v.memAfter c
      line := v.line.next
      trace := v.trace.note v.line.cycles ⟨(v.req c).addr, (v.req c).dir, v.byte c, (v.req c).kind⟩
      pollPrev := v.pollCur
      pollCur := v.line.next.det || (v.line.head.irqLine && !(c.act v.params (v.byte c) v.cpu).p.i) } c.hook

/-- The end of an instruction or a sequence. -/
def View.finish (v : View) : Ending → View
  | .poll => { v with takeInt := v.pollPrev, cpu.seq := .instr, cpu.t := 1 }
  | .noPoll => { v with takeInt := false, cpu.seq := .instr, cpu.t := 1 }
  | .halt => { v with cpu.seq := .halted, cpu.t := 1 }

/-- The next cycle of the same skeleton. -/
def View.nextT (v : View) : View := { v with cpu.t := v.cpu.t + 1 }

/-- The run of a skeleton on a view. -/
def View.run : List Cycle → View → View
  | [], v => { v with cpu.seq := .instr, cpu.t := 1 }
  | c :: cs, v =>
    if cs.isEmpty || c.fin ((v.wait c).access c).cpu then ((v.wait c).access c).finish c.ending
    else ((v.wait c).access c).nextT.run cs

/-! ### A run in a quiet state -/

/-- What keeps a run going: no breakpoint, and no stop request now or later. -/
abbrev State.going (s : State) : Prop := s.quiet ∧ s.stop = false

theorem State.going.noBreaks {s : State} (h : s.going) : s.breakpoints = [] := h.1.1

theorem State.going.input {s : State} (h : s.going) : s.input.stop = false := by
  unfold State.input State.inputAt
  cases hi : s.inputs with
  | nil => rfl
  | cons i is => exact h.1.2 i (by simp [hi])

theorem State.going.tail {s : State} (h : s.going) : ∀ i ∈ s.inputs.tail, i.stop = false :=
  fun i hi => h.1.2 i (List.mem_of_mem_tail hi)

theorem State.breaksOn_nil {s : State} (h : s.breakpoints = []) (a : Access) : s.breaksOn a = false := by
  simp [State.breaksOn, h]

theorem State.line_head (s : State) : s.line.head = s.input := rfl

theorem stallBus_view {s : State} (a : Addr) :
    (s.stallBus a).view = { s.view with trace := s.view.stallTrace a s.line s.view.trace } := by
  unfold State.stallBus View.stallTrace
  rw [s.line_head]
  split
  · rfl
  · have : s.view.params = s.params := rfl
    rw [this]
    split <;> rfl

theorem stallBus_host {s : State} (h : s.breakpoints = []) (a : Addr) :
    (s.stallBus a).breakpoints = [] ∧ (s.stallBus a).stop = s.stop ∧ (s.stallBus a).inputs = s.inputs ∧
      (s.stallBus a).draws = s.draws := by
  unfold State.stallBus; split
  · exact ⟨h, rfl, rfl, rfl⟩
  · split
    · exact ⟨h, by simp [State.breaksOn_nil h], rfl, rfl⟩
    · exact ⟨h, rfl, rfl, rfl⟩

/-- A cycle without poll or action moves the inputs on. -/
theorem edge_tick_view (s : State) : s.edge.tick.view = { s.view with line := s.line.next } := rfl

/-- A stall cycle moves the inputs on, leaves its traces on the bus, and changes nothing an instruction computes
with (R320). -/
theorem stallCycle_view {s : State} (h : s.going) (c : Cycle) :
    (s.stallCycle c).view =
        { s.view with line := s.line.next, trace := s.view.stallTrace (s.reqOf c).addr s.line s.view.trace } ∧
      (s.stallCycle c).going := by
  obtain ⟨hb, hst, hi, hd⟩ := stallBus_host h.noBreaks (s.reqOf c).addr
  have hv := stallBus_view (s := s) (s.reqOf c).addr
  have hin : (s.stallBus (s.reqOf c).addr).input = s.input := State.inputAt_congr hi hd 0
  have hl : (s.stallBus (s.reqOf c).addr).line = s.line := congrArg View.line hv
  refine ⟨?_, ⟨hb, ?_⟩, ?_⟩
  · have := edge_tick_view { s.stallBus (s.reqOf c).addr with stalled := true }
    refine this.trans ?_
    change ({ (s.stallBus (s.reqOf c).addr).view with line := (s.stallBus (s.reqOf c).addr).line.next } : View) = _
    rw [hv, hl]
  · intro i hm
    have hm : i ∈ (s.stallBus (s.reqOf c).addr).inputs.tail := hm
    rw [hi] at hm
    exact h.tail i hm
  · have : (s.stallCycle c).stop = ((s.stallBus (s.reqOf c).addr).stop || (s.stallBus (s.reqOf c).addr).input.stop) := rfl
    rw [this, hst, hin, h.2, h.input]; rfl

theorem stallTrace_congr {v w : View} (hp : w.params = v.params) (hm : w.mem = v.mem) (hb : w.map = v.map) :
    w.stallTrace = v.stallTrace := by
  funext a l tr; simp [View.stallTrace, hp, hm, hb]

theorem stallTraces_congr {v w : View} (hp : w.params = v.params) (hm : w.mem = v.mem) (hb : w.map = v.map) (a : Addr)
    (is : List CycleIn) (l : Line) (tr : Trace) : w.stallTraces a is l tr = v.stallTraces a is l tr := by
  induction is generalizing l tr with
  | nil => rfl
  | cons i is ih => simp [View.stallTraces, ih, stallTrace_congr hp hm hb]

theorem stallRun_view (c : Cycle) (is : List CycleIn) {s : State} (h : s.going) :
    (stallRun c is s).view =
        { s.view with
          line := Line.skipRun is s.line
          trace := s.view.stallTraces (s.reqOf c).addr is s.line s.view.trace } ∧
      (stallRun c is s).going := by
  induction is generalizing s with
  | nil => exact ⟨rfl, h⟩
  | cons i is ih =>
    unfold stallRun
    by_cases hs : i.stallReq = true
    · obtain ⟨hv, hg⟩ := stallCycle_view h c
      obtain ⟨hv', hg'⟩ := ih hg
      have hl : (s.stallCycle c).line = s.line.next := congrArg View.line hv
      have hr : (s.stallCycle c).reqOf c = s.reqOf c := by
        have hc : (s.stallCycle c).toCpu = s.toCpu := congrArg View.cpu hv
        have hp : (s.stallCycle c).params = s.params := congrArg View.params hv
        simp [State.reqOf, hc, hp]
      simp only [h.2, hs, Bool.not_true, Bool.or_false, Bool.false_eq_true, if_false]
      refine ⟨?_, hg'⟩
      rw [hv', hv, hl, hr, Line.skipRun_cons_stall hs]
      simp only [View.stallTraces, hs, if_true, View.mk.injEq, true_and]
      exact @stallTraces_congr s.view _ (by rfl) (by rfl) (by rfl) _ _ _ _
    · simp only [Bool.not_eq_true] at hs
      simp only [hs, Bool.not_false, Bool.or_true, if_true, Line.skipRun, View.stallTraces, Bool.false_eq_true, if_false]
      exact ⟨rfl, h⟩

/-- Waiting for the bus moves the inputs on, and changes nothing an instruction computes with (R320). -/
theorem waitBus_view {s : State} (h : s.going) (c : Cycle) :
    (s.waitBus c).view = s.view.wait c ∧ (s.waitBus c).going := by
  unfold State.waitBus
  have hr : s.view.req c = s.reqOf c := rfl
  cases hq : s.reqOf c with
  | read a k =>
    obtain ⟨hv, hg⟩ := stallRun_view c s.inputs h
    simp only [Req.isRead, if_true]
    exact ⟨by rw [hv, View.wait, hr, hq]; rfl, hg⟩
  | write a x k =>
    simp only [Req.isRead, Bool.false_eq_true, if_false]
    exact ⟨by rw [View.wait, hr, hq]; rfl, h⟩

/-- A hook touches neither memory nor what is outside the CPU. -/
theorem State.hook_rest (s : State) (k : Hook) :
    (s.hook k).mem = s.mem ∧ (s.hook k).busMap = s.busMap ∧ (s.hook k).params = s.params ∧
    (s.hook k).inputs = s.inputs ∧ (s.hook k).draws = s.draws ∧ (s.hook k).cycles = s.cycles ∧
    (s.hook k).breakpoints = s.breakpoints ∧ (s.hook k).stop = s.stop ∧ (s.hook k).rstPending = s.rstPending ∧
    (s.hook k).busLog = s.busLog ∧ (s.hook k).breakReason = s.breakReason := by
  cases k <;> exact ⟨rfl, rfl, rfl, rfl, rfl, rfl, rfl, rfl, rfl, rfl, rfl⟩

theorem State.perform_rest {s : State} (h : s.breakpoints = []) (g : Option Byte) (r : Req) :
    (s.perform g r).toLatches = s.toLatches ∧ (s.perform g r).busMap = s.busMap ∧
    (s.perform g r).params = s.params ∧ (s.perform g r).inputs = s.inputs ∧ (s.perform g r).draws = s.draws ∧
    (s.perform g r).cycles = s.cycles ∧ (s.perform g r).breakpoints = [] ∧ (s.perform g r).stop = s.stop ∧
    (s.perform g r).rstPending = s.rstPending ∧
    (s.perform g r).busLog = (s.cycles, ⟨r.addr, r.dir, s.byteOf g r, r.kind⟩) :: s.busLog := by
  cases r with
  | read a k => exact ⟨rfl, rfl, rfl, rfl, rfl, rfl, h, by simp [State.perform, State.breaksOn, h], rfl, rfl⟩
  | write a x k => exact ⟨rfl, rfl, rfl, rfl, rfl, rfl, h, by simp [State.perform, State.breaksOn, h], rfl, rfl⟩

theorem byteOf_view (s : State) (c : Cycle) : s.byteOf c.given (s.reqOf c) = s.view.byte c := by
  have : s.view.req c = s.reqOf c := rfl
  unfold State.byteOf View.byte
  rw [this]
  cases s.reqOf c <;> rfl

/-- What an access leaves on the bus (R52, R57). -/
def View.traceAfter (v : View) (c : Cycle) : Trace :=
  v.trace.note v.line.cycles ⟨(v.req c).addr, (v.req c).dir, v.byte c, (v.req c).kind⟩

/-- An access leaves the view as it was, but for memory and its traces (R52). -/
theorem perform_view (s : State) (c : Cycle) :
    (s.perform c.given (s.reqOf c)).view =
      { s.view with mem := s.view.memAfter c, trace := s.view.traceAfter c } := by
  have : s.view.req c = s.reqOf c := rfl
  unfold State.perform View.memAfter View.traceAfter View.byte
  rw [this]
  cases s.reqOf c <;> rfl

/-- The view after the end-of-cycle part of a cycle that leaves the given registers (R120, R301, R303, R304). -/
def View.ended (v : View) (cpu : Cpu) (k : Hook) : View :=
  View.hook
    { v with
      cpu := cpu
      line := v.line.next
      pollPrev := v.pollCur
      pollCur := v.line.next.det || (v.line.head.irqLine && !cpu.p.i) } k

theorem ended_view (p : State) (cpu : Cpu) (k : Hook) :
    (({ p with toCpu := cpu }.edge.pollShift).hook k).tick.view = p.view.ended cpu k ∧
      (({ p with toCpu := cpu }.edge.pollShift).hook k).toCpu = (p.view.ended cpu k).cpu := by
  cases k <;> exact ⟨rfl, rfl⟩

theorem access_ended (v : View) (c : Cycle) :
    v.access c = View.ended { v with mem := v.memAfter c, trace := v.traceAfter c } (c.act v.params (v.byte c) v.cpu) c.hook := rfl

theorem accessPhase_eq (s : State) (c : Cycle) :
    s.accessPhase c = ({ s.perform c.given (s.reqOf c) with
      toCpu := c.act s.params (s.view.byte c) s.toCpu }.edge.pollShift).hook c.hook := by
  rw [← byteOf_view]; rfl

/-- The registers and the micro-state at the end of a cycle (R120). -/
theorem accessPhase_cpu (s : State) (c : Cycle) : (s.accessPhase c).toCpu = (s.view.access c).cpu := by
  rw [accessPhase_eq, (ended_view _ _ _).2, access_ended, perform_view]; rfl

/-- What a cycle leaves of the view, before it is known whether it is the last one (R120, R301, R303, R304). -/
theorem accessPhase_view {s : State} (h : s.going) (c : Cycle) :
    (s.accessPhase c).tick.view = s.view.access c ∧ (s.accessPhase c).tick.going ∧
      (s.accessPhase c).breakpoints = [] := by
  obtain ⟨-, -, -, hi, hd, -, hbr, hst, -, -⟩ := State.perform_rest h.noBreaks c.given (s.reqOf c)
  have hin : State.input (s.perform c.given (s.reqOf c)) = s.input := State.inputAt_congr hi hd 0
  refine ⟨by rw [accessPhase_eq, (ended_view _ _ _).1, access_ended, perform_view]; rfl, ?_⟩
  rw [accessPhase_eq]
  generalize s.perform c.given (s.reqOf c) = p at *
  refine ⟨⟨⟨?_, ?_⟩, ?_⟩, ?_⟩
  · cases c.hook <;> exact hbr
  · intro i hmem
    refine h.tail i ?_
    rw [← hi]
    revert hmem
    cases c.hook <;> exact id
  · have : (p.stop || p.input.stop) = false := by rw [hst, hin, h.2, h.input]; rfl
    cases c.hook <;> exact this
  · cases c.hook <;> exact hbr

theorem nextT_tick (s : State) : s.nextT.tick.view = s.tick.view.nextT := rfl

theorem breaksAtFetch_nil {s : State} (h : s.breakpoints = []) : s.breaksAtFetch = false := by
  simp [State.breaksAtFetch, h]

theorem finish_tick {s : State} (hb : s.breakpoints = []) (hg : s.tick.going) (e : Ending) :
    (s.finish e).tick.view = s.tick.view.finish e ∧ (s.finish e).tick.going := by
  have hn : ∀ b : Bool, State.breaksAtFetch { s with takeInt := b } = false := fun b => breaksAtFetch_nil hb
  cases e with
  | halt => exact ⟨rfl, hg⟩
  | poll =>
    refine ⟨rfl, hg.1, ?_⟩
    have : ((s.finish .poll).tick).stop =
      ((s.stop || State.breaksAtFetch { s with takeInt := s.pollPrev }) || s.input.stop) := rfl
    rw [this, hn, Bool.or_false]; exact hg.2
  | noPoll =>
    refine ⟨rfl, hg.1, ?_⟩
    have : ((s.finish .noPoll).tick).stop =
      ((s.stop || State.breaksAtFetch { s with takeInt := false }) || s.input.stop) := rfl
    rw [this, hn, Bool.or_false]; exact hg.2

/-- A run in a quiet state does to the view what `View.run` says, and the machine stays as quiet as it was. -/
theorem runSeq_view (cs : List Cycle) {s : State} (h : s.going) :
    (runSeq cs s).view = s.view.run cs ∧ (runSeq cs s).going := by
  induction cs generalizing s with
  | nil => exact ⟨rfl, h⟩
  | cons c cs ih =>
    obtain ⟨hw, hg⟩ := waitBus_view h c
    obtain ⟨ha, hag, hbr⟩ := accessPhase_view hg c
    have hc := accessPhase_cpu (s.waitBus c) c
    rw [hw] at ha hc
    simp only [runSeq, hg.2, Bool.false_eq_true, if_false, View.run]
    rw [hc]
    split
    · obtain ⟨hf, hfg⟩ := finish_tick hbr hag c.ending
      exact ⟨by rw [hf, ha], hfg⟩
    · have hng : ((s.waitBus c).accessPhase c).nextT.tick.going := hag
      obtain ⟨hv, hrg⟩ := ih hng
      simp only [hng.2, Bool.false_eq_true, if_false]
      exact ⟨by rw [hv, nextT_tick, ha], hrg⟩

theorem begin_going {s : State} (h : s.quiet) : s.begin.going := ⟨h, rfl⟩

/-- An instruction in a quiet state: a next state, whose view is that of the run of its skeleton. -/
theorem runInstr_view (bytes : List Byte) (cs : List Cycle) {s : State} (h : s.quiet) :
    ∃ t, runInstr bytes cs s = .next t ∧ t.view = s.begin.view.run (supply bytes cs) ∧ t.going :=
  ⟨_, rfl, runSeq_view _ (begin_going h)⟩

end Sys2Proof.Machine
end

