-- ==== Sys2Proof/Laws/Skeletons.lean ====
section
/-! SUPPORT. What each skeleton of 40_addressing.md does in a quiet state: one lemma per skeleton, over any operation. The
statements about instructions cite these. -/

namespace Sys2Proof.Machine

/-! ### Rows that are not the last -/

/-- Rows none of which is the last one. -/
def View.through : List Cycle → View → View
  | [], v => v
  | c :: cs, v => ((v.wait c).access c).nextT.through cs

theorem View.run_append {cs ds : List Cycle} (hc : ∀ c ∈ cs, c.fin = fun _ => false) (hd : ds ≠ []) (v : View) :
    v.run (cs ++ ds) = (v.through cs).run ds := by
  induction cs generalizing v with
  | nil => rfl
  | cons c cs ih =>
    have h1 : c.fin = fun _ => false := hc c (by simp)
    have h2 : (cs ++ ds).isEmpty = false := by cases cs <;> simp [hd]
    simp only [List.cons_append, View.run, h1, h2, Bool.or_self, Bool.false_eq_true, if_false, View.through]
    exact ih (fun c hm => hc c (by simp [hm])) _

theorem supply_nil (cs : List Cycle) : supply [] cs = cs := by cases cs <;> rfl

theorem passAll_append (l : Line) (ds es : List Dir) : l.passAll (ds ++ es) = (l.passAll ds).passAll es := by
  induction ds generalizing l with
  | nil => rfl
  | cons d ds ih => exact ih _

theorem passAll_snoc (l : Line) (ds : List Dir) (d : Dir) : (l.passAll ds).pass d = l.passAll (ds ++ [d]) := by
  rw [passAll_append]; rfl

theorem passAll_reads_succ (l : Line) (n : Nat) : (l.passAll (reads n)).pass .read = l.passAll (reads (n + 1)) := by
  rw [passAll_snoc, reads, reads, ← List.replicate_succ']

/-- A read of a view that has made only reads since a state. -/
theorem answer_view (s : State) (n : Nat) (a : Addr) :
    (peekIn s.busMap s.mem a).getD (s.line.passAll (reads n)).skip.head.reply = s.answer (reads n) a := by
  rw [s.reply_line]; rfl

/-- What a view still has of the state it comes from, after a number of reads that changed registers only. -/
structure Reached (s : State) (n : Nat) (r : Regs) (v : View) : Prop where
  regs : v.cpu.toRegs = r
  mem : v.mem = s.mem
  map : v.map = s.busMap
  params : v.params = s.params
  rst : v.rst = s.rstPending
  line : v.line = s.line.passAll (reads n)

theorem pc_add_two (pc : Addr) : pc + 1 + 1 = pc + 2 := by rw [BitVec.add_assoc]; rfl

theorem pc_add_three (pc : Addr) : pc + 1 + 1 + 1 = pc + 3 := by rw [BitVec.add_assoc, BitVec.add_assoc]; rfl

/-! ### The rows of a mode -/

/-- The rows up to the effective address. -/
def Mode.addressRows (m : Mode) : List Cycle :=
  match m with
  | .zp _ => zpAddress
  | .zpX _ => zpIndexedAddress Regs.x
  | .zpY _ => zpIndexedAddress Regs.y
  | .abs _ _ => absAddress
  | .absX _ _ => absIndexedAddress Regs.x
  | .absY _ _ => absIndexedAddress Regs.y
  | .indX _ => indXAddress
  | .indY _ => indYAddress

/-- The index that is added to a 16-bit base. -/
def Mode.index (m : Mode) : Index :=
  match m with
  | .absX _ _ => Regs.x
  | _ => Regs.y

/-- The read-class skeleton of a mode. -/
def Mode.readRows (m : Mode) (f : ReadOp) : List Cycle :=
  m.addressRows ++ if m.hasUnfixed then [readUnfixed m.index f, readCycle f] else [readCycle f]

/-- A storing skeleton of a mode: its own rows come after the dummy read at the unfixed address. -/
def Mode.storeRows (m : Mode) (ds : List Cycle) : List Cycle :=
  m.addressRows ++ if m.hasUnfixed then dummyUnfixed m.index :: ds else ds

/-- What the rows up to the effective address do. -/
theorem address_through (m : Mode) (op : Byte) (s : State) :
    Reached s m.reads { s.toRegs with pc := m.next s } (s.begin.view.through (supply (m.bytes op) m.addressRows)) ∧
    (s.begin.view.through (supply (m.bytes op) m.addressRows)).cpu.ea = m.ea s ∧
    (m.hasUnfixed = true →
      (s.begin.view.through (supply (m.bytes op) m.addressRows)).cpu.base = m.base s ∧
      (s.begin.view.through (supply (m.bytes op) m.addressRows)).cpu.crossed = m.crosses s) := by
  cases m <;>
  simp only [Mode.bytes, Mode.addressRows, zpAddress, zpIndexedAddress, absAddress, absIndexedAddress, indXAddress,
    indYAddress, opcodeFetch, fetchZp, zpIndexCycle, fetchLo, fetchHi, fetchHiIndexed, ptrIndexCycle, ptrLo, ptrHi,
    ptrHiIndexed, operandFetch, supply, if_true, Bool.false_eq_true, if_false,
    View.through, View.wait, View.access, View.req, View.byte, View.memAfter, View.hook,
    View.nextT, Req.dir, Option.getD_some, Option.getD_none, Line.wait, Cpu.indexBase]
  all_goals refine ⟨⟨?_, rfl, rfl, rfl, rfl, rfl⟩, ?_, ?_⟩
  all_goals first
    | exact congrArg (fun pc => ({ s.toRegs with pc := pc } : Regs)) (pc_add_two s.pc)
    | exact congrArg (fun pc => ({ s.toRegs with pc := pc } : Regs)) (pc_add_three s.pc)
    | rfl
    | exact fun h => absurd h Bool.false_ne_true
    | exact congrArg (cat _) (lo8_zext16 _)
    | (simp only [Mode.ea, Mode.base, ← answer_view, lo8_zext16]; rfl)
    | (intro _; simp only [Mode.base, Mode.crosses, ← answer_view, lo8_zext16, lo8_cat]
       first | exact ⟨rfl, rfl⟩ | exact ⟨trivial, rfl⟩)

theorem supply_addressRows (m : Mode) (op : Byte) (ds : List Cycle) :
    supply (m.bytes op) (m.addressRows ++ ds) = supply (m.bytes op) m.addressRows ++ ds := by
  cases m <;> simp only [Mode.bytes, Mode.addressRows, zpAddress, zpIndexedAddress, absAddress, absIndexedAddress,
    indXAddress, indYAddress, opcodeFetch, fetchZp, zpIndexCycle, fetchLo, fetchHi, fetchHiIndexed, ptrIndexCycle,
    ptrLo, ptrHi, ptrHiIndexed, operandFetch, supply, supply_nil, if_true, List.cons_append, List.nil_append]

theorem fin_addressRows (m : Mode) (op : Byte) : ∀ c ∈ supply (m.bytes op) m.addressRows, c.fin = fun _ => false := by
  cases m <;> simp [Mode.bytes, Mode.addressRows, zpAddress, zpIndexedAddress, absAddress, absIndexedAddress,
    indXAddress, indYAddress, opcodeFetch, fetchZp, zpIndexCycle, fetchLo, fetchHi, fetchHiIndexed, ptrIndexCycle,
    ptrLo, ptrHi, ptrHiIndexed, operandFetch, supply]

/-- A run in a mode: the rows up to the effective address, then the rest. -/
theorem run_mode (m : Mode) (op : Byte) {ds : List Cycle} (hd : ds ≠ []) {s : State} (h : s.quiet) :
    ∃ t, runInstr (m.bytes op) (m.addressRows ++ ds) s = .next t ∧
      t.view = (s.begin.view.through (supply (m.bytes op) m.addressRows)).run ds ∧ t.going := by
  obtain ⟨t, ht, hv, hg⟩ := runInstr_view (m.bytes op) (m.addressRows ++ ds) h
  refine ⟨t, ht, ?_, hg⟩
  rw [hv, supply_addressRows, View.run_append (fin_addressRows m op) hd]

/-! ### The read class -/

/-- The operand byte of a read-class instruction, as a view finds it. -/
theorem Reached.byte {s : State} {n : Nat} {r : Regs} {v : View} (hv : Reached s n r v) (a : Addr) :
    (peekIn v.map v.mem a).getD v.line.skip.head.reply = s.answer (reads n) a := by
  rw [hv.map, hv.mem, hv.line, answer_view]

/-- What is left at the boundary after an instruction whose accesses went in the directions `ds`, the last one `acc`. -/
structure Ended (s : State) (ds : List Dir) (r : Regs) (mem : List Host.Cell) (acc : Access) (v : View) : Prop where
  regs : v.cpu.toRegs = r
  seq : v.cpu.seq = .instr
  t : v.cpu.t = 1
  mem : v.mem = mem
  map : v.map = s.busMap
  params : v.params = s.params
  rst : v.rst = s.rstPending
  line : v.line = s.line.passAll ds
  last : ∃ rest, v.trace.log = (v.line.cycles - 1, acc) :: rest

@[simp] theorem Line.cycles_next (l : Line) : l.next.cycles - 1 = l.cycles := by simp [Line.next]

theorem Ended.endsWith {s t : State} {ds : List Dir} {r : Regs} {mem : List Host.Cell} {acc : Access}
    (h : Ended s ds r mem acc t.view) : EndsWith s t r :=
  ⟨h.regs, h.seq, h.t, h.rst, h.map, h.params⟩

theorem Ended.lastAccess {s t : State} {ds : List Dir} {r : Regs} {mem : List Host.Cell} {acc : Access}
    (h : Ended s ds r mem acc t.view) : LastAccess t acc := h.last

theorem Ended.peek {s t : State} {ds : List Dir} {r : Regs} {mem : List Host.Cell} {acc : Access}
    (h : Ended s ds r mem acc t.view) (a : Addr) : t.peek a = peekIn s.busMap mem a := by
  have hm : t.mem = mem := h.mem
  have hb : t.busMap = s.busMap := h.map
  rw [State.peek, hm, hb]

theorem Ended.sameBytes {s t : State} {ds : List Dir} {r : Regs} {acc : Access}
    (h : Ended s ds r s.mem acc t.view) : SameBytes s t := h.peek

theorem Ended.oneByteStored {s t : State} {ds : List Dir} {r : Regs} {acc : Access} {a : Addr} {v : Byte}
    (h : Ended s ds r (storeIn s.busMap s.mem a v) acc t.view) : OneByteStored s t a v :=
  fun b => (h.peek b).trans (s.peek_store a v b)

theorem Ended.cycles {s t : State} {ds : List Dir} {r : Regs} {mem : List Host.Cell} {acc : Access}
    (h : Ended s ds r mem acc t.view) : t.cycles = s.cycles + BitVec.ofNat 64 (elapsed ds s.inputs) :=
  (congrArg Line.cycles h.line).trans (Line.passAll_eq ds s.line).2.2.1

/-- The last row of the read class. -/
theorem run_readCycle {s : State} {n : Nat} {r : Regs} {v : View} (hv : Reached s n r v) (f : ReadOp) :
    Ended s (reads (n + 1)) (f (s.answer (reads n) v.cpu.ea) r) s.mem
      ⟨v.cpu.ea, .read, s.answer (reads n) v.cpu.ea, .data⟩ (v.run [readCycle f]) := by
  simp only [View.run, readCycle, View.wait, View.access, View.req, View.byte, View.memAfter, View.hook, View.finish,
    Req.dir, Option.getD_none, Line.wait, List.isEmpty_nil, Bool.true_or, if_true, hv.byte, Trace.note, Req.addr,
    Req.kind, View.waitTrace]
  refine ⟨?_, rfl, rfl, hv.mem, hv.map, hv.params, hv.rst, ?_, ?_⟩
  · rw [← hv.regs]; rfl
  · rw [hv.line, ← passAll_reads_succ]; rfl
  · simp only [Line.cycles_next]; exact ⟨_, rfl⟩

/-- The last rows of the read class with an unfixed address. -/
theorem run_readUnfixed {s : State} {n : Nat} {r : Regs} {v : View} (hv : Reached s n r v) (idx : Index) (f : ReadOp)
    (hea : v.cpu.ea = indexed v.cpu.base (idx r)) (hcr : v.cpu.crossed = crosses (lo8 v.cpu.base) (idx r)) :
    Ended s (reads (n + (if v.cpu.crossed then 1 else 0) + 1))
      (f (s.answer (reads (n + if v.cpu.crossed then 1 else 0)) v.cpu.ea) r) s.mem
      ⟨v.cpu.ea, .read, s.answer (reads (n + if v.cpu.crossed then 1 else 0)) v.cpu.ea, .data⟩
      (v.run [readUnfixed idx f, readCycle f]) := by
  cases hc : v.cpu.crossed with
  | true =>
    have hw : Reached s (n + 1) r ((v.wait (readUnfixed idx f)).access (readUnfixed idx f)).nextT := by
      simp only [readUnfixed, View.wait, View.access, View.req, View.byte, View.memAfter, View.hook, View.nextT, Req.dir,
        Line.wait, hc, if_true]
      refine ⟨hv.regs, hv.mem, hv.map, hv.params, hv.rst, ?_⟩
      rw [hv.line, ← passAll_reads_succ]; rfl
    have he : ((v.wait (readUnfixed idx f)).access (readUnfixed idx f)).nextT.cpu.ea = v.cpu.ea ∧
        (readUnfixed idx f).fin ((v.wait (readUnfixed idx f)).access (readUnfixed idx f)).cpu = false := by
      simp only [readUnfixed, View.wait, View.access, View.req, View.byte, View.memAfter, View.hook, View.nextT, Req.dir,
        Line.wait, hc, if_true]
      exact ⟨trivial, rfl⟩
    have := run_readCycle hw f
    rw [he.1] at this
    unfold View.run
    simpa only [he.2, List.isEmpty_cons, Bool.or_self, Bool.false_eq_true, if_false, if_true] using this
  | false =>
    have hu : unfixed v.cpu.base (idx r) = v.cpu.ea := by rw [hea]; exact unfixed_eq (hcr ▸ hc)
    have hfin : (readUnfixed idx f).fin ((v.wait (readUnfixed idx f)).access (readUnfixed idx f)).cpu = true := by
      simp only [readUnfixed, View.wait, View.access, View.req, View.byte, View.memAfter, View.hook, Req.dir,
        Line.wait, hc, Bool.false_eq_true, if_false, Cpu.onRegs, Bool.not_false]
    unfold View.run
    simp only [hfin, Bool.or_true, if_true, Bool.false_eq_true, if_false, Nat.add_zero]
    simp only [readUnfixed, View.wait, View.access, View.req, View.byte, View.memAfter, View.hook, View.finish,
      Req.dir, Option.getD_none, Line.wait, hc, Bool.false_eq_true, if_false, hv.regs, hu, hv.byte, Trace.note, Req.addr,
      Req.kind, View.waitTrace]
    refine ⟨?_, rfl, rfl, hv.mem, hv.map, hv.params, hv.rst, ?_, ?_⟩
    · rw [← hv.regs]; rfl
    · rw [hv.line, ← passAll_reads_succ]; rfl
    · simp only [Line.cycles_next]; exact ⟨_, rfl⟩

theorem ea_indexed {m : Mode} (h : m.hasUnfixed = true) (s : State) (pc : Addr) :
    m.ea s = indexed (m.base s) (m.index { s.toRegs with pc := pc }) ∧
      m.crosses s = crosses (lo8 (m.base s)) (m.index { s.toRegs with pc := pc }) := by
  cases m <;> first
    | exact absurd h Bool.false_ne_true
    | (simp only [Mode.ea, Mode.index, Mode.crosses, Mode.base, lo8_cat]; exact ⟨trivial, trivial⟩)

/-- The read class, in every mode (R104 to R107, R109, R110): the operation gets the byte at the effective address, and
nothing else of the machine changes. -/
theorem read_spec (m : Mode) (op : Byte) (f : ReadOp) {s : State} (h : s.quiet) :
    ∃ t, runInstr (m.bytes op) (m.readRows f) s = .next t ∧
      Ended s (reads (m.readsBefore s + 1)) (f (m.operand s) { s.toRegs with pc := m.next s }) s.mem
        ⟨m.ea s, .read, m.operand s, .data⟩ t.view ∧ t.going := by
  have hd : (if m.hasUnfixed then [readUnfixed m.index f, readCycle f] else [readCycle f]) ≠ [] := by
    split <;> simp
  obtain ⟨t, ht, hv, hg⟩ := run_mode m op hd h
  refine ⟨t, ht, ?_, hg⟩
  obtain ⟨hr, hea, hun⟩ := address_through m op s
  rw [hv, ← hea]
  cases hu : m.hasUnfixed with
  | false =>
    have hc : m.readsBefore s = m.reads := by cases m <;> first | exact absurd hu Bool.true_eq_false.mp | rfl
    simpa only [hc, hea, Mode.operand, Bool.false_eq_true, if_false] using run_readCycle hr f
  | true =>
    obtain ⟨hb, hcr⟩ := hun hu
    obtain ⟨h1, h2⟩ := ea_indexed hu s (m.next s)
    have := run_readUnfixed hr m.index f (by rw [hea, hb, h1]) (by rw [hcr, hb, h2])
    simpa only [hcr, hea, Mode.operand, Mode.readsBefore, if_true] using this

/-! ### The write and read-modify-write classes -/

/-- The rows of a storing skeleton up to the rows of its own. -/
theorem run_store (m : Mode) (op : Byte) {ds : List Cycle} (hd : ds ≠ []) {s : State} (h : s.quiet) :
    ∃ t v, runInstr (m.bytes op) (m.storeRows ds) s = .next t ∧ t.view = v.run ds ∧ t.going ∧
      Reached s m.readsBeforeStore { s.toRegs with pc := m.next s } v ∧ v.cpu.ea = m.ea s ∧
      (m.hasUnfixed = true → v.cpu.base = m.base s) := by
  have hd' : (if m.hasUnfixed then dummyUnfixed m.index :: ds else ds) ≠ [] := by split <;> simp [hd]
  obtain ⟨t, ht, hv, hg⟩ := run_mode m op hd' h
  obtain ⟨hr, hea, hun⟩ := address_through m op s
  cases hu : m.hasUnfixed with
  | false =>
    have hn : m.readsBeforeStore = m.reads := by simp [Mode.readsBeforeStore, hu]
    rw [hu] at hv
    exact ⟨t, _, ht, hv, hg, hn ▸ hr, hea, fun h => absurd h Bool.false_ne_true⟩
  | true =>
    have hn : m.readsBeforeStore = m.reads + 1 := by simp [Mode.readsBeforeStore, hu]
    rw [hu, if_pos rfl, ← List.singleton_append, View.run_append (by simp [dummyUnfixed]) hd] at hv
    refine ⟨t, _, ht, hv, hg, ?_, ?_, fun _ => ?_⟩
    · rw [hn]
      simp only [View.through, dummyUnfixed, View.wait, View.access, View.req, View.byte, View.memAfter, View.hook,
        View.nextT, Req.dir, Line.wait]
      exact ⟨hr.regs, hr.mem, hr.map, hr.params, hr.rst, by rw [hr.line, ← passAll_reads_succ]; rfl⟩
    · exact hea
    · exact (hun hu).1

/-- The DATA write at an address a view computes, as the last row. -/
theorem run_write {s : State} {n : Nat} {r : Regs} {v : View} (hv : Reached s n r v) (c : Cycle) {a : Addr} {x : Byte}
    {f : Regs → Regs} (hq : v.req c = .write a x .data) (ha : c.act v.params x v.cpu = v.cpu.onRegs f)
    (hh : c.hook = .none) (he : c.ending = .poll) :
    Ended s (reads n ++ [.write]) (f r) (storeIn s.busMap s.mem a x) ⟨a, .write, x, .data⟩ (v.run [c]) := by
  have hq : c.req v.params v.cpu = .write a x .data := hq
  have hb : v.byte c = x := by simp only [View.byte, View.req, hq]
  simp only [View.run, View.wait, View.access, View.req, View.byte, View.memAfter, View.finish, hq, ha, hh, he,
    View.hook, Req.dir, Line.wait, List.isEmpty_nil, Bool.true_or, if_true, Trace.note, Req.addr, Req.kind,
    View.waitTrace]
  refine ⟨by rw [← hv.regs]; rfl, rfl, rfl, by rw [hv.map, hv.mem], hv.map, hv.params, hv.rst, ?_, ?_⟩
  · rw [hv.line, ← passAll_snoc]; rfl
  · simp only [Line.cycles_next]; exact ⟨_, rfl⟩

/-- The write class, in every mode (R104 to R106, R108, R109, R111): one byte is stored, and registers and flags stay. -/
theorem write_spec (m : Mode) (op : Byte) (w : Regs → Byte) {s : State} (h : s.quiet) :
    ∃ t, runInstr (m.bytes op) (m.storeRows [writeCycle w]) s = .next t ∧
      Ended s (reads m.readsBeforeStore ++ [.write]) { s.toRegs with pc := m.next s }
        (storeIn s.busMap s.mem (m.ea s) (w { s.toRegs with pc := m.next s }))
        ⟨m.ea s, .write, w { s.toRegs with pc := m.next s }, .data⟩ t.view ∧ t.going := by
  obtain ⟨t, v, ht, hv, hg, hr, hea, -⟩ := run_store m op (ds := [writeCycle w]) (by simp) h
  refine ⟨t, ht, ?_, hg⟩
  rw [hv]
  exact run_write hr _ (f := id) (by rw [← hea, ← hr.regs]; rfl) rfl rfl rfl

/-- A storing skeleton of the SH family (R264): its value and its address come from the base. -/
theorem sh_spec (m : Mode) (op : Byte) (reg : Regs → Byte) (act : Regs → Regs) (hu : m.hasUnfixed = true) {s : State}
    (h : s.quiet) :
    ∃ t, runInstr (m.bytes op) (m.storeRows [shCycle m.index reg act]) s = .next t ∧
      Ended s (reads m.readsBeforeStore ++ [.write]) (act { s.toRegs with pc := m.next s })
        (storeIn s.busMap s.mem
          (shAddress s.params.shModel (m.base s) (m.index s.toRegs)
            (shValue (m.base s) (reg { s.toRegs with pc := m.next s })))
          (shValue (m.base s) (reg { s.toRegs with pc := m.next s })))
        ⟨shAddress s.params.shModel (m.base s) (m.index s.toRegs)
            (shValue (m.base s) (reg { s.toRegs with pc := m.next s })), .write,
          shValue (m.base s) (reg { s.toRegs with pc := m.next s }), .data⟩ t.view ∧ t.going := by
  obtain ⟨t, v, ht, hv, hg, hr, -, hb⟩ := run_store m op (ds := [shCycle m.index reg act]) (by simp) h
  refine ⟨t, ht, ?_, hg⟩
  rw [hv]
  have hi : m.index { s.toRegs with pc := m.next s } = m.index s.toRegs := by cases m <;> rfl
  refine run_write hr _ (f := act) ?_ rfl rfl rfl
  rw [← hi, ← hb hu, ← hr.regs, ← hr.params]
  rfl

/-- A byte stored twice at one address leaves the later value. -/
theorem peekIn_storeIn_twice (map : List Region) (m : List Host.Cell) (a : Addr) (x y : Byte) (b : Addr) :
    peekIn map (storeIn map (storeIn map m a x) a y) b = peekIn map (storeIn map m a y) b := by
  simp only [peekIn_storeIn]
  split <;> rfl

/-- The read-modify-write class, in every mode (R104 to R106, R108, R109, R111, R122): the byte read is written back, then
the new one is, at the same address. -/
theorem rmw_spec (m : Mode) (op : Byte) (f : RmwOp) {s : State} (h : s.quiet) :
    ∃ t, runInstr (m.bytes op) (m.storeRows (rmwTail f)) s = .next t ∧
      Ended s (reads (m.readsBeforeStore + 1) ++ [.write, .write])
        (f (m.target s) { s.toRegs with pc := m.next s }).2
        (storeIn s.busMap (storeIn s.busMap s.mem (m.ea s) (m.target s)) (m.ea s)
          (f (m.target s) { s.toRegs with pc := m.next s }).1)
        ⟨m.ea s, .write, (f (m.target s) { s.toRegs with pc := m.next s }).1, .data⟩ t.view ∧
      LastThree t ⟨m.ea s, .read, m.target s, .data⟩ ⟨m.ea s, .write, m.target s, .dummy⟩
        ⟨m.ea s, .write, (f (m.target s) { s.toRegs with pc := m.next s }).1, .data⟩ ∧ t.going := by
  obtain ⟨t, v, ht, hv, hg, hr, hea, -⟩ := run_store m op (ds := rmwTail f) (by simp [rmwTail]) h
  refine ⟨t, ht, ?_⟩
  have hx : s.answer (reads m.readsBeforeStore) v.cpu.ea = m.target s := by rw [hea]; rfl
  simp only [rmwTail, View.run, View.wait, View.access, View.req, View.byte, View.memAfter, View.finish, View.hook,
    View.nextT, Req.dir, Line.wait, List.isEmpty_nil, List.isEmpty_cons, Bool.true_or, Bool.or_self, Bool.false_eq_true,
    if_false, if_true, Trace.note, Req.addr, Req.kind, View.waitTrace, Option.getD_none, hr.byte, hx, hr.regs] at hv
  have hcyc : ∀ l : Line, l.next.next.next.cycles - 2 = l.next.cycles ∧ l.next.next.next.cycles - 3 = l.cycles := by
    intro l; simp only [Line.next]; constructor <;> bv_omega
  refine ⟨?_, ?_, hg⟩
  · rw [hv]
    refine ⟨by rw [← hr.regs]; rfl, rfl, rfl, by rw [hr.map, hr.mem, hea], hr.map, hr.params, hr.rst, ?_, ?_⟩
    · rw [hr.line, passAll_append, ← passAll_reads_succ]; rfl
    · simp only [Line.cycles_next, hea]; exact ⟨_, rfl⟩
  · have hlog : t.busLog = t.view.trace.log := rfl
    have hcy : t.cycles = t.view.line.cycles := rfl
    rw [LastThree, hlog, hcy, hv]
    simp only [Line.cycles_next, hcyc, hea]
    exact ⟨_, rfl⟩

end Sys2Proof.Machine
end

