-- ==== Sys2Proof/Laws/Sequences.lean ====
section
/-! SUPPORT. What the skeletons without a memory operand do in a quiet state, and the sequences that take an exception, a
reset, or return: one lemma each, over any operation. -/

namespace Sys2Proof.Machine

/-- Implied and accumulator mode (R102). -/
theorem implied_spec (op : Byte) (f : Regs → Regs) {s : State} (h : s.quiet) :
    ∃ t, runInstr [op] (impliedOp f) s = .next t ∧
      Ended s (reads 2) (f { s.toRegs with pc := s.pc + 1 }) s.mem
        ⟨s.pc + 1, .read, s.answer (reads 1) (s.pc + 1), .dummy⟩ t.view ∧ t.going := by
  obtain ⟨t, ht, hv, hg⟩ := runInstr_view [op] (impliedOp f) h
  refine ⟨t, ht, ?_, hg⟩
  rw [hv]
  simp only [impliedOp, supply, opcodeFetch, dummyPc, View.run, View.wait, View.access, View.req, View.byte,
    View.memAfter, View.hook, View.nextT, View.finish, Req.dir, if_true, Bool.false_eq_true, if_false, List.isEmpty_cons,
    List.isEmpty_nil, Bool.or_false, Option.getD_some, Option.getD_none, Line.wait, Trace.note, Req.addr,
    Req.kind, View.waitTrace]
  refine ⟨rfl, rfl, rfl, rfl, rfl, rfl, rfl, rfl, ?_⟩
  simp only [Line.cycles_next, ← answer_view]; exact ⟨_, rfl⟩

/-- Immediate mode (R103). -/
theorem immediate_spec (op b : Byte) (f : Params → ReadOp) {s : State} (h : s.quiet) :
    ∃ t, runInstr [op, b] (immediateWith f) s = .next t ∧
      Ended s (reads 2) (f s.params b { s.toRegs with pc := s.pc + 2 }) s.mem
        ⟨s.pc + 1, .read, b, .operand⟩ t.view ∧ t.going := by
  obtain ⟨t, ht, hv, hg⟩ := runInstr_view [op, b] (immediateWith f) h
  refine ⟨t, ht, ?_, hg⟩
  rw [hv, ← pc_add_two]
  simp only [immediateWith, operandFetch, supply, opcodeFetch, View.run, View.wait, View.access, View.req, View.byte,
    View.memAfter, View.hook, View.nextT, View.finish, Req.dir, if_true, Bool.false_eq_true, if_false, List.isEmpty_cons,
    List.isEmpty_nil, Bool.or_false, Option.getD_some, Line.wait, Trace.note, Req.addr,
    Req.kind, View.waitTrace]
  refine ⟨rfl, rfl, rfl, rfl, rfl, rfl, rfl, rfl, ?_⟩
  simp only [Line.cycles_next]; exact ⟨_, rfl⟩

/-- A push (R114). -/
theorem push_spec (op : Byte) (w : Regs → Byte) {s : State} (h : s.quiet) :
    ∃ t, runInstr [op] (pushSkeleton w) s = .next t ∧
      Ended s [.read, .read, .write] { s.toRegs with pc := s.pc + 1, sp := s.sp - 1 }
        (storeIn s.busMap s.mem (stackAddr s.sp) (w { s.toRegs with pc := s.pc + 1 }))
        ⟨stackAddr s.sp, .write, w { s.toRegs with pc := s.pc + 1 }, .stack⟩ t.view ∧ t.going := by
  obtain ⟨t, ht, hv, hg⟩ := runInstr_view [op] (pushSkeleton w) h
  refine ⟨t, ht, ?_, hg⟩
  rw [hv]
  simp only [pushSkeleton, pushCycle, supply, opcodeFetch, dummyPc, View.run, View.wait, View.access, View.req, View.byte,
    View.memAfter, View.hook, View.nextT, View.finish, Req.dir, if_true, Bool.false_eq_true, if_false, List.isEmpty_cons,
    List.isEmpty_nil, Bool.or_false, Option.getD_some, Line.wait, Trace.note, Req.addr,
    Req.kind, View.waitTrace]
  refine ⟨rfl, rfl, rfl, rfl, rfl, rfl, rfl, rfl, ?_⟩
  simp only [Line.cycles_next]; exact ⟨_, rfl⟩

/-- A pull (R114). -/
theorem pull_spec (op : Byte) (f : ReadOp) {s : State} (h : s.quiet) :
    ∃ t, runInstr [op] (pullSkeleton f) s = .next t ∧
      Ended s (reads 4)
        (f (s.answer (reads 3) (stackAddr (s.sp + 1))) { s.toRegs with pc := s.pc + 1, sp := s.sp + 1 }) s.mem
        ⟨stackAddr (s.sp + 1), .read, s.answer (reads 3) (stackAddr (s.sp + 1)), .stack⟩ t.view ∧ t.going := by
  obtain ⟨t, ht, hv, hg⟩ := runInstr_view [op] (pullSkeleton f) h
  refine ⟨t, ht, ?_, hg⟩
  rw [hv]
  simp only [pullSkeleton, pullStart, pullCycle, supply, opcodeFetch, dummyPc, View.run, View.wait, View.access, View.req,
    View.byte, View.memAfter, View.hook, View.nextT, View.finish, Req.dir, if_true, Bool.false_eq_true, if_false,
    List.isEmpty_cons, List.isEmpty_nil, Bool.or_false, Option.getD_some, Option.getD_none, Line.wait,
    Trace.note, Req.addr, Req.kind, View.waitTrace, ← answer_view]
  refine ⟨rfl, rfl, rfl, rfl, rfl, rfl, rfl, rfl, ?_⟩
  simp only [Line.cycles_next]; exact ⟨_, rfl⟩

/-- JMP absolute (R115). -/
theorem jump_spec (op lo hi : Byte) {s : State} (h : s.quiet) :
    ∃ t, runInstr [op, lo, hi] jumpSkeleton s = .next t ∧
      Ended s (reads 3) { s.toRegs with pc := cat hi lo } s.mem ⟨s.pc + 2, .read, hi, .operand⟩ t.view ∧ t.going := by
  obtain ⟨t, ht, hv, hg⟩ := runInstr_view [op, lo, hi] jumpSkeleton h
  refine ⟨t, ht, ?_, hg⟩
  rw [hv, ← pc_add_two]
  simp only [jumpSkeleton, fetchLo, operandFetch, supply, opcodeFetch, View.run, View.wait, View.access, View.req,
    View.byte, View.memAfter, View.hook, View.nextT, View.finish, Req.dir, if_true, Bool.false_eq_true, if_false,
    List.isEmpty_cons, List.isEmpty_nil, Bool.or_false, Option.getD_some, Line.wait,
    Trace.note, Req.addr, Req.kind, View.waitTrace, lo8_zext16]
  refine ⟨rfl, rfl, rfl, rfl, rfl, rfl, rfl, rfl, ?_⟩
  simp only [Line.cycles_next]; exact ⟨_, rfl⟩

/-- JMP indirect (R113). -/
theorem jumpIndirect_spec (op lo hi : Byte) {s : State} (h : s.quiet) :
    ∃ t, runInstr [op, lo, hi] jumpIndirectSkeleton s = .next t ∧
      Ended s (reads 5)
        { s.toRegs with
          pc := cat (s.answer (reads 4) (samePageNext (cat hi lo))) (s.answer (reads 3) (cat hi lo)) } s.mem
        ⟨samePageNext (cat hi lo), .read, s.answer (reads 4) (samePageNext (cat hi lo)), .pointer⟩ t.view ∧ t.going := by
  obtain ⟨t, ht, hv, hg⟩ := runInstr_view [op, lo, hi] jumpIndirectSkeleton h
  refine ⟨t, ht, ?_, hg⟩
  rw [hv]
  simp only [jumpIndirectSkeleton, fetchLo, fetchHi, operandFetch, supply, opcodeFetch, View.run, View.wait, View.access,
    View.req, View.byte, View.memAfter, View.hook, View.nextT, View.finish, Req.dir, if_true, Bool.false_eq_true,
    if_false, List.isEmpty_cons, List.isEmpty_nil, Bool.or_false, Option.getD_some, Option.getD_none,
    Line.wait, Trace.note, Req.addr, Req.kind, View.waitTrace, lo8_zext16, ← answer_view]
  refine ⟨rfl, rfl, rfl, rfl, rfl, rfl, rfl, rfl, ?_⟩
  simp only [Line.cycles_next]; exact ⟨_, rfl⟩

/-- RTS (R117). -/
theorem return_spec (op : Byte) {s : State} (h : s.quiet) :
    ∃ t, runInstr [op] returnSkeleton s = .next t ∧
      Ended s (reads 6)
        { s.toRegs with
          pc := cat (s.answer (reads 4) (stackAddr (s.sp + 2))) (s.answer (reads 3) (stackAddr (s.sp + 1))) + 1
          sp := s.sp + 2 } s.mem
        ⟨cat (s.answer (reads 4) (stackAddr (s.sp + 2))) (s.answer (reads 3) (stackAddr (s.sp + 1))), .read,
          s.answer (reads 5)
            (cat (s.answer (reads 4) (stackAddr (s.sp + 2))) (s.answer (reads 3) (stackAddr (s.sp + 1)))), .dummy⟩
        t.view ∧ t.going := by
  obtain ⟨t, ht, hv, hg⟩ := runInstr_view [op] returnSkeleton h
  refine ⟨t, ht, ?_, hg⟩
  have h2 : s.sp + 2 = s.sp + 1 + 1 := by rw [BitVec.add_assoc]; rfl
  rw [hv, h2]
  simp only [returnSkeleton, pullStart, pullCycle, supply, opcodeFetch, dummyPc, View.run, View.wait, View.access,
    View.req, View.byte, View.memAfter, View.hook, View.nextT, View.finish, Req.dir, if_true, Bool.false_eq_true,
    if_false, List.isEmpty_cons, List.isEmpty_nil, Bool.or_false, Option.getD_some, Option.getD_none,
    Line.wait, Trace.note, Req.addr, Req.kind, View.waitTrace, ← answer_view]
  refine ⟨rfl, rfl, rfl, rfl, rfl, rfl, rfl, rfl, ?_⟩
  simp only [Line.cycles_next]; exact ⟨_, rfl⟩

/-- RTI (R118). -/
theorem interruptReturn_spec (op : Byte) {s : State} (h : s.quiet) :
    ∃ t, runInstr [op] interruptReturnSkeleton s = .next t ∧
      Ended s (reads 6)
        { s.toRegs with
          p := unpackFlags (s.answer (reads 3) (stackAddr (s.sp + 1)))
          pc := cat (s.answer (reads 5) (stackAddr (s.sp + 3))) (s.answer (reads 4) (stackAddr (s.sp + 2)))
          sp := s.sp + 3 } s.mem
        ⟨stackAddr (s.sp + 3), .read, s.answer (reads 5) (stackAddr (s.sp + 3)), .stack⟩ t.view ∧ t.going := by
  obtain ⟨t, ht, hv, hg⟩ := runInstr_view [op] interruptReturnSkeleton h
  refine ⟨t, ht, ?_, hg⟩
  have h2 : s.sp + 2 = s.sp + 1 + 1 := by rw [BitVec.add_assoc]; rfl
  have h3 : s.sp + 3 = s.sp + 1 + 1 + 1 := by rw [BitVec.add_assoc, BitVec.add_assoc]; rfl
  rw [hv, h2, h3]
  simp only [interruptReturnSkeleton, exceptionReturn, pullStart, pullCycle, supply, opcodeFetch, dummyPc, View.run,
    View.wait, View.access, View.req, View.byte, View.memAfter, View.hook, View.nextT, View.finish, Req.dir, if_true,
    Bool.false_eq_true, if_false, List.isEmpty_cons, List.isEmpty_nil, Bool.or_false, Option.getD_some,
    Option.getD_none, Line.wait, Trace.note, Req.addr, Req.kind, View.waitTrace, ← answer_view]
  refine ⟨rfl, rfl, rfl, rfl, rfl, rfl, rfl, rfl, ?_⟩
  simp only [Line.cycles_next]; exact ⟨_, rfl⟩

/-- JSR (R116), with the high byte of its target as it is fetched after the pushes. -/
theorem call_spec (op lo hi : Byte) {s : State} (h : s.quiet) :
    ∃ t, runInstr [op, lo, hi] callSkeleton s = .next t ∧
      Ended s [.read, .read, .read, .write, .write, .read] { s.toRegs with pc := cat hi lo, sp := s.sp - 2 }
        (storeIn s.busMap (storeIn s.busMap s.mem (stackAddr s.sp) (hi8 (s.pc + 2))) (stackAddr (s.sp - 1))
          (lo8 (s.pc + 2)))
        ⟨s.pc + 2, .read, hi, .operand⟩ t.view ∧ t.going := by
  obtain ⟨t, ht, hv, hg⟩ := runInstr_view [op, lo, hi] callSkeleton h
  refine ⟨t, ht, ?_, hg⟩
  have h2 : s.sp - 2 = s.sp - 1 - 1 := by rw [BitVec.sub_sub]; rfl
  rw [hv, h2, ← pc_add_two]
  simp only [callSkeleton, fetchLo, operandFetch, dummyStack, pushCycle, supply, opcodeFetch, View.run,
    View.wait, View.access, View.req, View.byte, View.memAfter, View.hook, View.nextT, View.finish, Req.dir, if_true,
    Bool.false_eq_true, if_false, List.isEmpty_cons, List.isEmpty_nil, Bool.or_false, Option.getD_some,
    Line.wait, Trace.note, Req.addr, Req.kind, View.waitTrace, lo8_zext16]
  refine ⟨rfl, rfl, rfl, rfl, rfl, rfl, rfl, rfl, ?_⟩
  simp only [Line.cycles_next]; exact ⟨_, rfl⟩

/-- KIL (R272, R288): the opcode is fetched, one dummy read follows, and the CPU is halted. -/
theorem halt_spec (op : Byte) {s : State} (h : s.quiet) :
    ∃ t, runInstr [op] haltSkeleton s = .next t ∧ t.toRegs = { s.toRegs with pc := s.pc + 1 } ∧ t.seq = .halted ∧
      t.t = 1 ∧ t.mem = s.mem ∧ t.busMap = s.busMap ∧ t.params = s.params ∧ t.rstPending = s.rstPending ∧
      t.line = s.line.passAll (reads 2) ∧ t.takeInt = s.takeInt ∧
      LastAccess t ⟨s.pc + 1, .read, s.answer (reads 1) (s.pc + 1), .dummy⟩ ∧ t.going := by
  obtain ⟨t, ht, hv, hg⟩ := runInstr_view [op] haltSkeleton h
  refine ⟨t, ht, ?_⟩
  simp only [haltSkeleton, supply, opcodeFetch, dummyPc, View.run, View.wait, View.access, View.req, View.byte,
    View.memAfter, View.hook, View.nextT, View.finish, Req.dir, if_true, Bool.false_eq_true, if_false, List.isEmpty_cons,
    List.isEmpty_nil, Bool.or_false, Option.getD_some, Option.getD_none, Line.wait, Trace.note, Req.addr,
    Req.kind, View.waitTrace] at hv
  have hlog : t.busLog = t.view.trace.log := rfl
  have hcy : t.cycles = t.view.line.cycles := rfl
  refine ⟨congrArg (·.cpu.toRegs) hv, congrArg (·.cpu.seq) hv, congrArg (·.cpu.t) hv, congrArg (·.mem) hv,
    congrArg (·.map) hv, congrArg (·.params) hv, congrArg (·.rst) hv, congrArg (·.line) hv, congrArg (·.takeInt) hv,
    ?_, hg⟩
  rw [LastAccess, hlog, hcy, hv, ← answer_view]
  simp only [Line.cycles_next]; exact ⟨_, rfl⟩

/-- The last access of a branch (R112). -/
def branchLast (s : State) (rel : Byte) (taken : Bool) : Access :=
  if taken then
    if hi8 (branchTarget (s.pc + 2) rel) != hi8 (s.pc + 2) then
      ⟨cat (hi8 (s.pc + 2)) (lo8 (branchTarget (s.pc + 2) rel)), .read,
        s.answer (reads 3) (cat (hi8 (s.pc + 2)) (lo8 (branchTarget (s.pc + 2) rel))), .dummy⟩
    else ⟨s.pc + 2, .read, s.answer (reads 2) (s.pc + 2), .dummy⟩
  else ⟨s.pc + 1, .read, rel, .operand⟩

/-- A conditional branch (R112, R226): two cycles, three if taken, four if taken to another page. -/
theorem branch_spec (op rel : Byte) (cond : Flags → Bool) {s : State} (h : s.quiet) :
    ∃ t, runInstr [op, rel] (branchSkeleton cond) s = .next t ∧
      Ended s
        (reads (if cond s.p then if hi8 (branchTarget (s.pc + 2) rel) != hi8 (s.pc + 2) then 4 else 3 else 2))
        { s.toRegs with pc := if cond s.p then branchTarget (s.pc + 2) rel else s.pc + 2 } s.mem
        (branchLast s rel (cond s.p)) t.view ∧ t.going := by
  obtain ⟨t, ht, hv, hg⟩ := runInstr_view [op, rel] (branchSkeleton cond) h
  refine ⟨t, ht, ?_, hg⟩
  have hp : s.begin.view.cpu.p = s.p := rfl
  have hpc : s.begin.view.cpu.pc = s.pc := rfl
  simp only [branchSkeleton, operandFetch, supply, opcodeFetch, View.run, View.wait, View.access, View.req, View.byte,
    View.memAfter, View.hook, View.nextT, View.finish, Req.dir, if_true, Bool.false_eq_true, if_false, List.isEmpty_cons,
    List.isEmpty_nil, Bool.or_false, Bool.false_or, Option.getD_some, Option.getD_none, Line.wait,
    Trace.note, Req.addr, Req.kind, View.waitTrace, hp, hpc, pc_add_two] at hv
  unfold branchLast
  cases hc : cond s.p with
  | false =>
    simp only [hc, Bool.not_false, if_true] at hv
    rw [hv]
    refine ⟨rfl, rfl, rfl, rfl, rfl, rfl, rfl, rfl, ?_⟩
    simp only [Line.cycles_next]; exact ⟨_, rfl⟩
  | true =>
    cases hf : (hi8 (branchTarget (s.pc + 2) rel) != hi8 (s.pc + 2)) with
    | false =>
      simp only [hc, hf, Bool.not_true, Bool.not_false, Bool.false_eq_true, if_false, if_true] at hv
      rw [hv]
      refine ⟨rfl, rfl, rfl, rfl, rfl, rfl, rfl, rfl, ?_⟩
      simp only [Line.cycles_next, ← answer_view]; exact ⟨_, rfl⟩
    | true =>
      simp only [hc, hf, Bool.not_true, Bool.false_eq_true, if_false, if_true] at hv
      rw [hv]
      refine ⟨rfl, rfl, rfl, rfl, rfl, rfl, rfl, rfl, ?_⟩
      simp only [Line.cycles_next, ← answer_view]; exact ⟨_, rfl⟩

/-! ### Taking an exception -/

/-- Two lines that differ at most in the NMI latch. -/
def Line.Same (l l' : Line) : Prop :=
  l.inputs = l'.inputs ∧ l.draws = l'.draws ∧ l.cycles = l'.cycles ∧ l.prev = l'.prev

theorem Line.Same.head {l l' : Line} (h : l.Same l') : l.head = l'.head := by
  simp only [Line.head, h.1, h.2.1]

theorem Line.Same.next {l l' : Line} (h : l.Same l') : l.next.Same l'.next := by
  refine ⟨?_, ?_, ?_, ?_⟩ <;> simp only [Line.next, h.head, h.1, h.2.1, h.2.2.1]

theorem Line.Same.skip {l l' : Line} (h : l.Same l') : l.skip.Same l'.skip := by
  unfold Line.skip
  rw [h.1]
  generalize l'.inputs = is
  induction is generalizing l l' with
  | nil => exact h
  | cons i is ih =>
    unfold Line.skipRun
    split
    · exact ih h.next
    · exact h

theorem Line.Same.det {l l' : Line} (h : l.Same l') (b : Bool) : Line.Same { l with det := b } l' := h

theorem Line.Same.pass {l l' : Line} (h : l.Same l') (d : Dir) : (l.pass d).Same (l'.pass d) := by
  cases d
  · exact h.skip.next
  · exact h.next

theorem Line.Same.reply {l l' : Line} (h : l.Same l') : l.skip.head.reply = l'.skip.head.reply := by
  rw [h.skip.head]

/-- Memory after the three pushes of an exception entry. -/
def entryMem (s : State) (r : Regs) (b : Bool) : List Host.Cell :=
  storeIn s.busMap (storeIn s.busMap (storeIn s.busMap s.mem (stackAddr r.sp) (hi8 r.pc)) (stackAddr (r.sp - 1))
    (lo8 r.pc)) (stackAddr (r.sp - 2)) (packFlags r.p b)

/-- The registers after an exception entry: PC comes from the vector chosen, S is lower by 3, and I is set. -/
def entryRegs (s : State) (r : Regs) (b : Bool) : Regs :=
  { r with
    sp := r.sp - 3
    p := { r.p with i := true }
    pc := cat
      ((peekIn s.busMap (entryMem s r b) (s.entryVector + 1)).getD (s.replyAfter [.read, .read, .write, .write, .write, .read]))
      ((peekIn s.busMap (entryMem s r b) s.entryVector).getD (s.replyAfter [.read, .read, .write, .write, .write])) }

/-- Taking an exception, from its third cycle on (R309, R310, R313; BRK: R119). -/
theorem run_entry {s : State} {r : Regs} {v : View} (b : Bool) (hv : Reached s 2 r v) :
    (v.run (exceptionEntry b)).cpu.toRegs = entryRegs s r b ∧ (v.run (exceptionEntry b)).cpu.seq = .instr ∧
    (v.run (exceptionEntry b)).cpu.t = 1 ∧ (v.run (exceptionEntry b)).mem = entryMem s r b ∧
    (v.run (exceptionEntry b)).map = s.busMap ∧ (v.run (exceptionEntry b)).params = s.params ∧
    (v.run (exceptionEntry b)).rst = s.rstPending ∧ (v.run (exceptionEntry b)).takeInt = false ∧
    (v.run (exceptionEntry b)).line.Same (s.line.passAll [.read, .read, .write, .write, .write, .read, .read]) := by
  simp only [exceptionEntry, vectorFetch, pushCycle, List.cons_append, List.nil_append, View.run, View.wait, View.access,
    View.req, View.byte, View.memAfter, View.hook, View.nextT, View.finish, Req.dir, if_true, Bool.false_eq_true, if_false,
    List.isEmpty_cons, List.isEmpty_nil, Bool.or_false, Option.getD_none, Line.wait, View.waitTrace]
  have hr := hv.regs
  subst hr
  have h44 : (HijackCycle.four == HijackCycle.four) = true := rfl
  have h45 : (HijackCycle.four == HijackCycle.five) = false := rfl
  have h54 : (HijackCycle.five == HijackCycle.four) = false := rfl
  have h55 : (HijackCycle.five == HijackCycle.five) = true := rfl
  have hd4 : v.line.next.next.det = s.nmiBy [.read, .read, .write, .write] := by rw [hv.line, ← s.det_line]; rfl
  have hd5 : v.line.next.next.next.det = s.nmiBy [.read, .read, .write, .write, .write] := by
    rw [hv.line, ← s.det_line]; rfl
  have h2 : v.cpu.sp - 2 = v.cpu.sp - 1 - 1 := by rw [BitVec.sub_sub]; rfl
  have hp := hv.params
  have hm : storeIn v.map (storeIn v.map (storeIn v.map v.mem (stackAddr v.cpu.sp) (hi8 v.cpu.pc))
      (stackAddr (v.cpu.sp - 1)) (lo8 v.cpu.pc)) (stackAddr (v.cpu.sp - 1 - 1)) (packFlags v.cpu.p b) =
      entryMem s v.cpu.toRegs b := by
    rw [entryMem, h2, hv.map, hv.mem]
  have hl : (v.line.next.next.next).Same (s.line.passAll [.read, .read, .write, .write, .write]) := by
    rw [hv.line]; exact ⟨rfl, rfl, rfl, rfl⟩
  have h6 := s.reply_line [.read, .read, .write, .write, .write, .read]
  have h5 := s.reply_line [.read, .read, .write, .write, .write]
  have hs : v.cpu.sp - 1 - 1 - 1 = v.cpu.sp - 3 := by rw [BitVec.sub_sub, BitVec.sub_sub]; rfl
  cases hk : s.params.hijackCycle with
  | four =>
    have hvec : s.entryVector = if s.nmiBy [.read, .read, .write, .write] = true then 0xFFFA else 0xFFFE := by
      simp only [State.entryVector, hk, sampleAccesses]
    simp only [hp, hk, h44, h45, Bool.and_true, Bool.and_false, Bool.not_true, Bool.not_false, Bool.false_eq_true,
      if_false, hd4, hm, ← hvec]
    refine ⟨?_, trivial, trivial, trivial, hv.map, trivial, hv.rst, trivial, ?_⟩
    · simp only [entryRegs, ← h6, ← h5, ← hv.map, hs, Regs.mk.injEq, true_and, and_true]
      exact congrArg₂ cat (congrArg₂ Option.getD rfl (Line.Same.reply ((hl.det _).pass .read)))
        (congrArg₂ Option.getD rfl (Line.Same.reply (hl.det _)))
    · exact ((hl.det _).pass .read).pass .read
  | five =>
    have hvec : s.entryVector = if s.nmiBy [.read, .read, .write, .write, .write] = true then 0xFFFA else 0xFFFE := by
      simp only [State.entryVector, hk, sampleAccesses]
    simp only [hp, hk, h54, h55, Bool.and_true, Bool.and_false, Bool.not_true, Bool.not_false, Bool.false_eq_true,
      if_false, hd5, hm, ← hvec]
    refine ⟨?_, trivial, trivial, trivial, hv.map, trivial, hv.rst, trivial, ?_⟩
    · simp only [entryRegs, ← h6, ← h5, ← hv.map, hs, Regs.mk.injEq, true_and, and_true]
      exact congrArg₂ cat (congrArg₂ Option.getD rfl (Line.Same.reply ((hl.det _).pass .read)))
        (congrArg₂ Option.getD rfl (Line.Same.reply (hl.det _)))
    · exact ((hl.det _).pass .read).pass .read

/-- What is left at the boundary after an exception entry. -/
structure EntryDone (s : State) (r : Regs) (b : Bool) (u : State) : Prop where
  regs : u.toRegs = entryRegs s r b
  seq : u.seq = .instr
  t : u.t = 1
  mem : u.mem = entryMem s r b
  map : u.busMap = s.busMap
  params : u.params = s.params
  takeInt : u.takeInt = false
  line : u.line.Same (s.line.passAll [.read, .read, .write, .write, .write, .read, .read])

/-- BRK (R119, R225). -/
theorem break_spec (op : Byte) {s : State} (h : s.quiet) :
    ∃ t, runInstr [op] breakSkeleton s = .next t ∧ EntryDone s { s.toRegs with pc := s.pc + 2 } true t ∧
      t.rstPending = s.rstPending ∧ t.going := by
  obtain ⟨t, ht, hv, hg⟩ := runInstr_view [op] breakSkeleton h
  refine ⟨t, ht, ?_⟩
  have hr : Reached s 2 { s.toRegs with pc := s.pc + 2 } (s.begin.view.through (supply [op]
      [opcodeFetch, { dummyPc with act := fun _ _ c => { c with pc := c.pc + 1 } }])) := by
    rw [← pc_add_two]
    exact ⟨rfl, rfl, rfl, rfl, rfl, rfl⟩
  have hsup : supply [op] breakSkeleton = supply [op] [opcodeFetch, { dummyPc with
      act := fun _ _ c => { c with pc := c.pc + 1 } }] ++ exceptionEntry true := rfl
  rw [hsup, View.run_append (by simp [supply, opcodeFetch, dummyPc]) (by simp [exceptionEntry])] at hv
  obtain ⟨h1, h2, h3, h4, h5, h6, h7, h8, h9⟩ := run_entry true hr
  rw [← hv] at h1 h2 h3 h4 h5 h6 h7 h8 h9
  exact ⟨⟨h1, h2, h3, h4, h5, h6, h8, h9⟩, h7, hg⟩

/-- A step at a boundary with an interrupt decided on runs the interrupt sequence (R305, R308, R309). -/
theorem interrupt_spec {s : State} (h : s.quiet) (hr : s.rstPending = none) (hs : s.seq = .instr) (ht : s.t = 1)
    (hi : s.takeInt = true) :
    ∃ t, step s = .next t ∧ EntryDone s s.toRegs false t ∧ t.rstPending = none ∧ t.going := by
  have hst : s.startStep = { s with
      stop := false, takeInt := false, seq := .intSeq (if s.nmiDetected then .nmi else .irq) } := by
    simp [State.startStep, State.startCycle, hr, hs, ht, hi]
  have hstep : step s = .next (runSeq interruptSequence s.startStep) := by
    have hf : s.startStep.atFetch = false := by rw [hst]; rfl
    have hq : s.startStep.resume = runSeq (s.startStep.rowsLeft interruptSequence) s.startStep := by rw [hst]; rfl
    have hrow : s.startStep.rowsLeft interruptSequence = interruptSequence := by
      rw [hst]; simp [State.rowsLeft, ht]
    simp only [step, hf, Bool.false_eq_true, if_false, hq, hrow]
  have hgo : s.startStep.going := by rw [hst]; exact ⟨h, rfl⟩
  obtain ⟨hv, hg⟩ := runSeq_view interruptSequence hgo
  refine ⟨_, hstep, ?_⟩
  have hre : Reached s 2 s.toRegs (s.startStep.view.through [dummyPc, dummyPc]) := by
    rw [hst]; exact ⟨rfl, rfl, rfl, rfl, rfl, rfl⟩
  have hsup : interruptSequence = [dummyPc, dummyPc] ++ exceptionEntry false := rfl
  rw [hsup, View.run_append (by simp [dummyPc]) (by simp [exceptionEntry]), ← hsup] at hv
  obtain ⟨h1, h2, h3, h4, h5, h6, h7, h8, h9⟩ := run_entry false hre
  rw [← hv] at h1 h2 h3 h4 h5 h6 h7 h8 h9
  exact ⟨⟨h1, h2, h3, h4, h5, h6, h8, h9⟩, h7.trans hr, hg⟩

/-- A step with a reset pending runs the reset sequence (R312). -/
theorem reset_spec {s : State} (h : s.quiet) (hr : s.rstPending ≠ none) :
    ∃ t, step s = .next t ∧
      t.toRegs = { s.toRegs with
        sp := s.sp - 3
        p := { s.p with i := true }
        pc := cat (s.answer (reads 6) 0xFFFD) (s.answer (reads 5) 0xFFFC) } ∧
      t.seq = .instr ∧ t.t = 1 ∧ t.mem = s.mem ∧ t.busMap = s.busMap ∧ t.params = s.params ∧ t.rstPending = none ∧
      t.takeInt = false ∧ t.line = s.line.passAll (reads 7) ∧ t.going := by
  have hst : s.startStep = { s with stop := false, rstPending := none, seq := .resetSeq, t := 1 } := by
    have : s.rstPending.isSome = true := Option.isSome_iff_ne_none.2 hr
    simp [State.startStep, State.startCycle, this]
  have hstep : step s = .next (runSeq resetSequence s.startStep) := by
    have hf : s.startStep.atFetch = false := by rw [hst]; rfl
    have hq : s.startStep.resume = runSeq resetSequence s.startStep := by rw [hst]; rfl
    simp only [step, hf, Bool.false_eq_true, if_false, hq]
  have hgo : s.startStep.going := by rw [hst]; exact ⟨h, rfl⟩
  obtain ⟨hv, hg⟩ := runSeq_view resetSequence hgo
  refine ⟨_, hstep, ?_⟩
  generalize runSeq resetSequence s.startStep = t at hv hg
  have h3 : s.sp - 3 = s.sp - 1 - 1 - 1 := by rw [BitVec.sub_sub, BitVec.sub_sub]; rfl
  have h7 : (0xFFFC : Addr) + 1 = 0xFFFD := rfl
  rw [hst] at hv
  simp only [resetSequence, vectorFetch, suppressedPush, dummyPc, List.cons_append, List.nil_append, View.run, View.wait,
    View.access, View.req, View.byte, View.memAfter, View.hook, View.nextT, View.finish, Req.dir, if_true,
    Bool.false_eq_true, if_false, List.isEmpty_cons, List.isEmpty_nil, Bool.or_false, Option.getD_none, Line.wait,
    View.waitTrace, h7] at hv
  rw [h3, ← answer_view, ← answer_view]
  exact ⟨congrArg (·.cpu.toRegs) hv, congrArg (·.cpu.seq) hv, congrArg (·.cpu.t) hv, congrArg (·.mem) hv,
    congrArg (·.map) hv, congrArg (·.params) hv, congrArg (·.rst) hv, congrArg (·.takeInt) hv,
    congrArg (·.line) hv, hg⟩

end Sys2Proof.Machine
end

