-- ==== Sys2Proof/Laws/Traces.lean ====
section
/-! SUPPORT. The accesses of each skeleton, where the DMA controller does not hold the CPU: the tables of 40_addressing.md as
lists. -/

namespace Sys2Proof.Machine

/-- The access of a cycle of a view. -/
def View.accessOf (v : View) (c : Cycle) : Access := ⟨(v.req c).addr, (v.req c).dir, v.byte c, (v.req c).kind⟩

/-- The accesses of a run, without the stall re-reads. -/
def View.accesses : List Cycle → View → List Access
  | [], _ => []
  | c :: cs, v =>
    (v.wait c).accessOf c ::
      if cs.isEmpty || c.fin ((v.wait c).access c).cpu then [] else ((v.wait c).access c).nextT.accesses cs

theorem skip_unstalled {l : Line} (h : ∀ i ∈ l.inputs, i.stallReq = false) : l.skip = l := by
  cases hi : l.inputs with
  | nil => exact Line.skip_nil hi
  | cons i is => exact Line.skip_of_not hi (h i (by simp [hi]))

theorem stallTraces_unstalled {v : View} {a : Addr} {is : List CycleIn} (h : ∀ i ∈ is, i.stallReq = false) (l : Line)
    (tr : Trace) : v.stallTraces a is l tr = tr := by
  cases is with
  | nil => rfl
  | cons i is => simp [View.stallTraces, h i (by simp)]

theorem wait_unstalled {v : View} (h : ∀ i ∈ v.line.inputs, i.stallReq = false) (c : Cycle) : v.wait c = v := by
  unfold View.wait View.waitTrace
  cases v.req c with
  | read a k =>
    have h1 : v.line.wait .read = v.line := skip_unstalled h
    simp only [Req.dir, h1, stallTraces_unstalled h]
  | write a x k => rfl

theorem hook_trace (v : View) (k : Hook) :
    (v.hook k).trace = v.trace ∧ (v.hook k).line.inputs = v.line.inputs ∧ (v.hook k).line.cycles = v.line.cycles := by
  cases k <;> exact ⟨rfl, rfl, rfl⟩

theorem access_trace (v : View) (c : Cycle) :
    (v.access c).trace = v.trace.note v.line.cycles (v.accessOf c) ∧
    (v.access c).line.inputs = v.line.inputs.tail ∧ (v.access c).line.cycles = v.line.cycles + 1 := by
  unfold View.access
  obtain ⟨h1, h2, h3⟩ := hook_trace _ c.hook
  exact ⟨h1, h2, h3⟩

theorem finish_trace (v : View) (e : Ending) : (v.finish e).trace = v.trace ∧ (v.finish e).line = v.line := by
  cases e <;> exact ⟨rfl, rfl⟩

/-- Where nothing stalls, a run records exactly its accesses, one per cycle (R53). -/
theorem run_log (cs : List Cycle) (v : View) (h : ∀ i ∈ v.line.inputs, i.stallReq = false) :
    (v.run cs).trace.log = stamped v.line.cycles v.trace.log (v.accesses cs) ∧
    (v.run cs).line.cycles = v.line.cycles + BitVec.ofNat 64 (v.accesses cs).length := by
  induction cs generalizing v with
  | nil => exact ⟨rfl, by simp [View.run, View.accesses]⟩
  | cons c cs ih =>
    obtain ⟨h1, h2, h3⟩ := access_trace v c
    simp only [View.run, View.accesses, wait_unstalled h]
    split
    · obtain ⟨f1, f2⟩ := finish_trace (v.access c) c.ending
      rw [f1, f2, h1, h3]
      exact ⟨rfl, rfl⟩
    · have hn : ∀ i ∈ (v.access c).nextT.line.inputs, i.stallReq = false := by
        intro i hi
        have hi : i ∈ (v.access c).line.inputs := hi
        rw [h2] at hi
        exact h i (List.mem_of_mem_tail hi)
      obtain ⟨i1, i2⟩ := ih _ hn
      have e1 : (v.access c).nextT.line.cycles = v.line.cycles + 1 := h3
      have e2 : (v.access c).nextT.trace = v.trace.note v.line.cycles (v.accessOf c) := h1
      rw [i1, i2, e1, e2]
      refine ⟨rfl, ?_⟩
      rw [List.length_cons]
      exact count_succ _ _

/-- The accesses of an instruction in a quiet state. -/
theorem runInstr_performs {bytes : List Byte} {cs : List Cycle} {s t : State} (h : s.quiet)
    (ht : runInstr bytes cs s = .next t) : Performs s t (s.begin.view.accesses (supply bytes cs)) := by
  intro hu
  obtain ⟨t', ht', hv, -⟩ := runInstr_view bytes cs h
  obtain rfl : t' = t := by rw [ht] at ht'; exact (Host.Outcome.next.inj ht').symm
  have := run_log (supply bytes cs) s.begin.view hu
  rw [← hv] at this
  exact this

/-- The accesses of rows none of which is the last one. -/
def View.throughAccesses : List Cycle → View → List Access
  | [], _ => []
  | c :: cs, v => (v.wait c).accessOf c :: ((v.wait c).access c).nextT.throughAccesses cs

theorem accesses_append {cs ds : List Cycle} (hc : ∀ c ∈ cs, c.fin = fun _ => false) (hd : ds ≠ []) (v : View) :
    v.accesses (cs ++ ds) = v.throughAccesses cs ++ (v.through cs).accesses ds := by
  induction cs generalizing v with
  | nil => rfl
  | cons c cs ih =>
    have h1 : c.fin = fun _ => false := hc c (by simp)
    have h2 : (cs ++ ds).isEmpty = false := by cases cs <;> simp [hd]
    simp only [List.cons_append, View.accesses, h1, h2, Bool.or_self, Bool.false_eq_true, if_false, View.through,
      View.throughAccesses]
    rw [ih (fun c hm => hc c (by simp [hm]))]

/-- The accesses of the rows up to the effective address. -/
theorem address_accesses (m : Mode) (op : Byte) (s : State) :
    s.begin.view.throughAccesses (supply (m.bytes op) m.addressRows) = m.fetches op s := by
  cases m <;>
  simp only [Mode.bytes, Mode.addressRows, zpAddress, zpIndexedAddress, absAddress, absIndexedAddress, indXAddress,
    indYAddress, opcodeFetch, fetchZp, zpIndexCycle, fetchLo, fetchHi, fetchHiIndexed, ptrIndexCycle, ptrLo, ptrHi,
    ptrHiIndexed, operandFetch, supply, if_true, Bool.false_eq_true, if_false,
    View.throughAccesses, View.accessOf, View.wait, View.access, View.req, View.byte, View.memAfter, View.hook,
    View.nextT, Req.dir, Req.addr, Req.kind, Option.getD_some, Option.getD_none, Line.wait, Cpu.indexBase, Mode.fetches,
    opcodeAccess, dummyAt, pointerAt, ← answer_view, ← pc_add_two]
  all_goals rfl

theorem mode_performs (m : Mode) (op : Byte) {ds : List Cycle} (hd : ds ≠ []) {s t : State} (h : s.quiet)
    (ht : runInstr (m.bytes op) (m.addressRows ++ ds) s = .next t) :
    Performs s t (m.fetches op s ++
      (s.begin.view.through (supply (m.bytes op) m.addressRows)).accesses ds) := by
  have := runInstr_performs h ht
  rwa [supply_addressRows, accesses_append (fin_addressRows m op) hd, address_accesses] at this

theorem indexValue_eq {m : Mode} (s : State) (pc : Addr) :
    m.index { s.toRegs with pc := pc } = m.indexValue s := by
  cases m <;> rfl

/-- The read class performs the accesses of its tables (R104 to R107, R109, R110). -/
theorem read_performs (m : Mode) (op : Byte) (f : ReadOp) {s t : State} (h : s.quiet)
    (ht : runInstr (m.bytes op) (m.readRows f) s = .next t) : Performs s t (m.readAccesses op s) := by
  have hd : (if m.hasUnfixed then [readUnfixed m.index f, readCycle f] else [readCycle f]) ≠ [] := by
    split <;> simp
  have hp := mode_performs m op hd h ht
  obtain ⟨hr, hea, hun⟩ := address_through m op s
  generalize s.begin.view.through (supply (m.bytes op) m.addressRows) = v at *
  have hlast : ∀ {n : Nat} {w : View}, Reached s n { s.toRegs with pc := m.next s } w → w.cpu.ea = m.ea s →
      w.accesses [readCycle f] = [⟨m.ea s, .read, s.answer (reads n) (m.ea s), .data⟩] := by
    intro n w hw he
    simp only [View.accesses, View.accessOf, readCycle, View.wait, View.req, View.byte, Req.dir, Line.wait, Req.addr,
      Req.kind, List.isEmpty_nil, Bool.true_or, if_true, Option.getD_none, hw.byte, he]
  cases hu : m.hasUnfixed with
  | false =>
    have hc : m.crosses s = false := by cases m <;> first | exact absurd hu Bool.true_eq_false.mp | rfl
    have hn : m.readsBefore s = m.reads := by simp [Mode.readsBefore, hc]
    rw [hu] at hp
    simp only [Bool.false_eq_true, if_false, hlast hr hea] at hp
    simpa only [Mode.readAccesses, hc, Bool.false_eq_true, if_false, List.append_nil, Mode.operand, hn] using hp
  | true =>
    obtain ⟨hb, hcr⟩ := hun hu
    rw [hu] at hp
    simp only [if_true] at hp
    obtain ⟨h1, h2⟩ := ea_indexed hu s (m.next s)
    have hx : v.cpu.toRegs = { s.toRegs with pc := m.next s } := hr.regs
    cases hc : m.crosses s with
    | false =>
      have hue : unfixed (m.base s) (m.indexValue s) = m.ea s := by
        rw [h1, ← indexValue_eq s (m.next s)]; exact unfixed_eq (h2 ▸ hc)
      have ha : v.accesses [readUnfixed m.index f, readCycle f] =
          [⟨m.ea s, .read, s.answer (reads m.reads) (m.ea s), .data⟩] := by
        rw [hc] at hcr
        simp only [View.accesses, View.accessOf, readUnfixed, View.wait, View.access, View.hook, View.req, View.byte,
          View.memAfter, Req.dir, Line.wait, Req.addr, Req.kind, Option.getD_none, hcr, Bool.false_eq_true, if_false,
          Bool.not_false, Bool.or_true, if_true, hr.byte, hb, hx, indexValue_eq, hue, Cpu.onRegs]
      have hn : m.readsBefore s = m.reads := by simp [Mode.readsBefore, hc]
      rw [ha] at hp
      simpa only [Mode.readAccesses, hc, Bool.false_eq_true, if_false, List.append_nil, Mode.operand, hn] using hp
    | true =>
      rw [hc] at hcr
      have ha : v.accesses [readUnfixed m.index f, readCycle f] =
          [m.unfixedRead s, ⟨m.ea s, .read, s.answer (reads (m.reads + 1)) (m.ea s), .data⟩] := by
        have hw : Reached s (m.reads + 1) { s.toRegs with pc := m.next s }
            ((v.wait (readUnfixed m.index f)).access (readUnfixed m.index f)).nextT := by
          simp only [readUnfixed, View.wait, View.access, View.req, View.byte, View.memAfter, View.hook, View.nextT,
            Req.dir, Line.wait, hcr, if_true]
          exact ⟨hr.regs, hr.mem, hr.map, hr.params, hr.rst, by rw [hr.line, ← passAll_reads_succ]; rfl⟩
        have he : ((v.wait (readUnfixed m.index f)).access (readUnfixed m.index f)).nextT.cpu.ea = m.ea s ∧
            (readUnfixed m.index f).fin ((v.wait (readUnfixed m.index f)).access (readUnfixed m.index f)).cpu = false := by
          simp only [readUnfixed, View.wait, View.access, View.req, View.byte, View.memAfter, View.hook, View.nextT,
            Req.dir, Line.wait, hcr, if_true]
          exact ⟨hea, rfl⟩
        unfold View.accesses
        simp only [List.isEmpty_cons, he.2, Bool.or_self, Bool.false_eq_true, if_false, hlast hw he.1, List.cons.injEq,
          and_true]
        simp only [View.accessOf, readUnfixed, View.wait, View.req, View.byte, Req.dir, Line.wait, Req.addr, Req.kind,
          Option.getD_none, hcr, if_true, hr.byte, hb, hx, indexValue_eq, Mode.unfixedRead, dummyAt]
      have hn : m.readsBefore s = m.reads + 1 := by simp [Mode.readsBefore, hc]
      rw [ha] at hp
      simpa only [Mode.readAccesses, hc, if_true, List.append_assoc, List.cons_append, List.nil_append, Mode.operand, hn]
        using hp

/-- A storing skeleton performs its mode's accesses, and then those of its own rows. -/
theorem store_performs (m : Mode) (op : Byte) {ds : List Cycle} (hd : ds ≠ []) {s t : State} (h : s.quiet)
    (ht : runInstr (m.bytes op) (m.storeRows ds) s = .next t) {last : List Access}
    (hl : ∀ v : View, Reached s m.readsBeforeStore { s.toRegs with pc := m.next s } v → v.cpu.ea = m.ea s →
      (m.hasUnfixed = true → v.cpu.base = m.base s) → v.accesses ds = last) :
    Performs s t (m.storeAccesses op s last) := by
  have hd' : (if m.hasUnfixed then dummyUnfixed m.index :: ds else ds) ≠ [] := by split <;> simp [hd]
  have hp := mode_performs m op hd' h ht
  obtain ⟨hr, hea, hun⟩ := address_through m op s
  generalize s.begin.view.through (supply (m.bytes op) m.addressRows) = v at *
  cases hu : m.hasUnfixed with
  | false =>
    have hn : m.readsBeforeStore = m.reads := by simp [Mode.readsBeforeStore, hu]
    rw [hu] at hp
    simp only [Bool.false_eq_true, if_false, hl v (hn ▸ hr) hea (fun e => absurd (hu ▸ e) Bool.false_ne_true)] at hp
    simpa only [Mode.storeAccesses, hu, Bool.false_eq_true, if_false, List.append_nil] using hp
  | true =>
    have hn : m.readsBeforeStore = m.reads + 1 := by simp [Mode.readsBeforeStore, hu]
    obtain ⟨hb, -⟩ := hun hu
    have hx : v.cpu.toRegs = { s.toRegs with pc := m.next s } := hr.regs
    rw [hu] at hp
    simp only [if_true] at hp
    rw [← List.singleton_append, accesses_append (by simp [dummyUnfixed]) hd] at hp
    have hw : Reached s m.readsBeforeStore { s.toRegs with pc := m.next s } (v.through [dummyUnfixed m.index]) := by
      rw [hn]
      simp only [View.through, dummyUnfixed, View.wait, View.access, View.req, View.byte, View.memAfter, View.hook,
        View.nextT, Req.dir, Line.wait]
      exact ⟨hr.regs, hr.mem, hr.map, hr.params, hr.rst, by rw [hr.line, ← passAll_reads_succ]; rfl⟩
    have hone : v.throughAccesses [dummyUnfixed m.index] = [m.unfixedRead s] := by
      simp only [View.throughAccesses, View.accessOf, dummyUnfixed, View.wait, View.req, View.byte, Req.dir, Line.wait,
        Req.addr, Req.kind, Option.getD_none, hr.byte, hb, hx, indexValue_eq, Mode.unfixedRead, dummyAt]
    rw [hone, hl _ hw hea (fun _ => hb)] at hp
    simpa only [Mode.storeAccesses, hu, if_true, List.append_assoc] using hp

/-- The write class performs the accesses of its tables. -/
theorem write_performs (m : Mode) (op : Byte) (w : Regs → Byte) {s t : State} (h : s.quiet)
    (ht : runInstr (m.bytes op) (m.storeRows [writeCycle w]) s = .next t) :
    Performs s t (m.storeAccesses op s [⟨m.ea s, .write, w { s.toRegs with pc := m.next s }, .data⟩]) := by
  refine store_performs m op (by simp) h ht fun v hv hea _ => ?_
  simp only [View.accesses, View.accessOf, writeCycle, View.wait, View.req, View.byte, Req.dir, Line.wait, Req.addr,
    Req.kind, List.isEmpty_nil, Bool.true_or, if_true, hea, ← hv.regs]

/-- The SH family performs the accesses of the write class, with its own last one (R264). -/
theorem sh_performs (m : Mode) (op : Byte) (reg : Regs → Byte) (act : Regs → Regs) (hu : m.hasUnfixed = true)
    {s t : State} (h : s.quiet)
    (ht : runInstr (m.bytes op) (m.storeRows [shCycle m.index reg act]) s = .next t) :
    Performs s t (m.storeAccesses op s
      [⟨shAddress s.params.shModel (m.base s) (m.index s.toRegs)
          (shValue (m.base s) (reg { s.toRegs with pc := m.next s })), .write,
        shValue (m.base s) (reg { s.toRegs with pc := m.next s }), .data⟩]) := by
  refine store_performs m op (by simp) h ht fun v hv hea hb => ?_
  have hi : m.index { s.toRegs with pc := m.next s } = m.index s.toRegs := by cases m <;> rfl
  rw [← hi]
  simp only [View.accesses, View.accessOf, shCycle, View.wait, View.req, View.byte, Req.dir, Line.wait, Req.addr,
    Req.kind, List.isEmpty_nil, Bool.true_or, if_true, hb hu, ← hv.regs, hv.params]

/-- The read-modify-write class performs the accesses of its tables (R122). -/
theorem rmw_performs (m : Mode) (op : Byte) (f : RmwOp) {s t : State} (h : s.quiet)
    (ht : runInstr (m.bytes op) (m.storeRows (rmwTail f)) s = .next t) :
    Performs s t (m.storeAccesses op s
      [⟨m.ea s, .read, m.target s, .data⟩, ⟨m.ea s, .write, m.target s, .dummy⟩,
        ⟨m.ea s, .write, (f (m.target s) { s.toRegs with pc := m.next s }).1, .data⟩]) := by
  refine store_performs m op (by simp [rmwTail]) h ht fun v hv hea _ => ?_
  have hx : s.answer (reads m.readsBeforeStore) (m.ea s) = m.target s := rfl
  simp only [rmwTail, View.accesses, View.accessOf, View.wait, View.access, View.hook, View.memAfter, View.nextT,
    View.req, View.byte, Req.dir, Line.wait, Req.addr, Req.kind, List.isEmpty_nil, List.isEmpty_cons, Bool.true_or,
    Bool.or_self, Bool.false_eq_true, if_false, if_true, Option.getD_none, hv.byte, hx, hea, hv.regs]

/-- Implied and accumulator mode (R102). -/
theorem implied_performs (op : Byte) (f : Regs → Regs) {s t : State} (h : s.quiet)
    (ht : runInstr [op] (impliedOp f) s = .next t) :
    Performs s t
      [opcodeAccess s op, dummyAt s 1 (s.pc + 1)] := by
  have hp := runInstr_performs h ht
  simp only [impliedOp, opcodeFetch, dummyPc, supply, View.accesses, View.accessOf, View.wait, View.access, View.hook, View.memAfter, View.nextT,
    View.req, View.byte, Req.dir, Line.wait, Req.addr, Req.kind, List.isEmpty_nil, List.isEmpty_cons,
    Bool.or_self, Bool.or_false, Bool.false_eq_true, if_false, if_true, Option.getD_none, Option.getD_some] at hp
  simp only [opcodeAccess, dummyAt, ← answer_view]
  exact hp

/-- Immediate mode (R103). -/
theorem immediate_performs (op b : Byte) (f : Params → ReadOp) {s t : State} (h : s.quiet)
    (ht : runInstr [op, b] (immediateWith f) s = .next t) :
    Performs s t
      [opcodeAccess s op, ⟨s.pc + 1, .read, b, .operand⟩] := by
  have hp := runInstr_performs h ht
  simp only [immediateWith, opcodeFetch, operandFetch, supply, View.accesses, View.accessOf, View.wait, View.access, View.hook, View.memAfter, View.nextT,
    View.req, View.byte, Req.dir, Line.wait, Req.addr, Req.kind, List.isEmpty_nil, List.isEmpty_cons,
    Bool.or_self, Bool.or_false, Bool.false_eq_true, if_false, if_true, Option.getD_some] at hp
  simp only [opcodeAccess]
  exact hp

/-- A push (R114). -/
theorem push_performs (op : Byte) (w : Regs → Byte) {s t : State} (h : s.quiet)
    (ht : runInstr [op] (pushSkeleton w) s = .next t) :
    Performs s t
      [opcodeAccess s op, dummyAt s 1 (s.pc + 1),
        ⟨stackAddr s.sp, .write, w { s.toRegs with pc := s.pc + 1 }, .stack⟩] := by
  have hp := runInstr_performs h ht
  simp only [pushSkeleton, pushCycle, opcodeFetch, dummyPc, supply, View.accesses, View.accessOf, View.wait, View.access, View.hook, View.memAfter, View.nextT,
    View.req, View.byte, Req.dir, Line.wait, Req.addr, Req.kind, List.isEmpty_nil, List.isEmpty_cons,
    Bool.or_self, Bool.or_false, Bool.false_eq_true, if_false, if_true, Option.getD_none, Option.getD_some] at hp
  simp only [opcodeAccess, dummyAt, ← answer_view]
  exact hp

/-- A pull (R114). -/
theorem pull_performs (op : Byte) (f : ReadOp) {s t : State} (h : s.quiet)
    (ht : runInstr [op] (pullSkeleton f) s = .next t) :
    Performs s t
      [opcodeAccess s op, dummyAt s 1 (s.pc + 1), dummyAt s 2 (stackAddr s.sp),
        ⟨stackAddr (s.sp + 1), .read, s.answer (reads 3) (stackAddr (s.sp + 1)), .stack⟩] := by
  have hp := runInstr_performs h ht
  simp only [pullSkeleton, pullStart, pullCycle, opcodeFetch, dummyPc, supply, View.accesses, View.accessOf, View.wait, View.access, View.hook, View.memAfter, View.nextT,
    View.req, View.byte, Req.dir, Line.wait, Req.addr, Req.kind, List.isEmpty_nil, List.isEmpty_cons,
    Bool.or_self, Bool.or_false, Bool.false_eq_true, if_false, if_true, Option.getD_none, Option.getD_some] at hp
  simp only [opcodeAccess, dummyAt, ← answer_view]
  exact hp

/-- JMP absolute (R115). -/
theorem jump_performs (op lo hi : Byte) {s t : State} (h : s.quiet)
    (ht : runInstr [op, lo, hi] jumpSkeleton s = .next t) :
    Performs s t
      [opcodeAccess s op, ⟨s.pc + 1, .read, lo, .operand⟩, ⟨s.pc + 2, .read, hi, .operand⟩] := by
  have hp := runInstr_performs h ht
  simp only [jumpSkeleton, fetchLo, operandFetch, opcodeFetch, supply, View.accesses, View.accessOf, View.wait, View.access, View.hook, View.memAfter, View.nextT,
    View.req, View.byte, Req.dir, Line.wait, Req.addr, Req.kind, List.isEmpty_nil, List.isEmpty_cons,
    Bool.or_self, Bool.or_false, Bool.false_eq_true, if_false, if_true, Option.getD_some] at hp
  rw [← pc_add_two]
  simp only [opcodeAccess]
  exact hp

/-- JMP indirect (R113). -/
theorem jumpIndirect_performs (op lo hi : Byte) {s t : State} (h : s.quiet)
    (ht : runInstr [op, lo, hi] jumpIndirectSkeleton s = .next t) :
    Performs s t
      [opcodeAccess s op, ⟨s.pc + 1, .read, lo, .operand⟩, ⟨s.pc + 2, .read, hi, .operand⟩,
        pointerAt s 3 (cat hi lo), pointerAt s 4 (samePageNext (cat hi lo))] := by
  have hp := runInstr_performs h ht
  simp only [jumpIndirectSkeleton, fetchLo, fetchHi, operandFetch, opcodeFetch, supply, View.accesses, View.accessOf, View.wait, View.access, View.hook, View.memAfter, View.nextT,
    View.req, View.byte, Req.dir, Line.wait, Req.addr, Req.kind, List.isEmpty_nil, List.isEmpty_cons,
    Bool.or_self, Bool.or_false, Bool.false_eq_true, if_false, if_true, Option.getD_none, Option.getD_some, lo8_zext16] at hp
  rw [← pc_add_two]
  simp only [opcodeAccess, pointerAt, ← answer_view]
  exact hp

/-- RTS (R117). -/
theorem return_performs (op : Byte) {s t : State} (h : s.quiet)
    (ht : runInstr [op] returnSkeleton s = .next t) :
    Performs s t
      [opcodeAccess s op, dummyAt s 1 (s.pc + 1), dummyAt s 2 (stackAddr s.sp),
        ⟨stackAddr (s.sp + 1), .read, s.answer (reads 3) (stackAddr (s.sp + 1)), .stack⟩,
        ⟨stackAddr (s.sp + 2), .read, s.answer (reads 4) (stackAddr (s.sp + 2)), .stack⟩,
        dummyAt s 5 (cat (s.answer (reads 4) (stackAddr (s.sp + 2))) (s.answer (reads 3) (stackAddr (s.sp + 1))))] := by
  have hp := runInstr_performs h ht
  simp only [returnSkeleton, pullStart, pullCycle, opcodeFetch, dummyPc, supply, View.accesses, View.accessOf, View.wait, View.access, View.hook, View.memAfter, View.nextT,
    View.req, View.byte, Req.dir, Line.wait, Req.addr, Req.kind, List.isEmpty_nil, List.isEmpty_cons,
    Bool.or_self, Bool.or_false, Bool.false_eq_true, if_false, if_true, Option.getD_none, Option.getD_some] at hp
  rw [show s.sp + 2 = s.sp + 1 + 1 by rw [BitVec.add_assoc]; rfl]
  simp only [opcodeAccess, dummyAt, ← answer_view]
  exact hp

/-- RTI (R118). -/
theorem interruptReturn_performs (op : Byte) {s t : State} (h : s.quiet)
    (ht : runInstr [op] interruptReturnSkeleton s = .next t) :
    Performs s t
      [opcodeAccess s op, dummyAt s 1 (s.pc + 1), dummyAt s 2 (stackAddr s.sp),
        ⟨stackAddr (s.sp + 1), .read, s.answer (reads 3) (stackAddr (s.sp + 1)), .stack⟩,
        ⟨stackAddr (s.sp + 2), .read, s.answer (reads 4) (stackAddr (s.sp + 2)), .stack⟩,
        ⟨stackAddr (s.sp + 3), .read, s.answer (reads 5) (stackAddr (s.sp + 3)), .stack⟩] := by
  have hp := runInstr_performs h ht
  simp only [interruptReturnSkeleton, exceptionReturn, pullStart, pullCycle, opcodeFetch, dummyPc, supply, View.accesses, View.accessOf, View.wait, View.access, View.hook, View.memAfter, View.nextT,
    View.req, View.byte, Req.dir, Line.wait, Req.addr, Req.kind, List.isEmpty_nil, List.isEmpty_cons,
    Bool.or_self, Bool.or_false, Bool.false_eq_true, if_false, if_true, Option.getD_none, Option.getD_some] at hp
  rw [show s.sp + 3 = s.sp + 1 + 1 + 1 by rw [BitVec.add_assoc, BitVec.add_assoc]; rfl,
    show s.sp + 2 = s.sp + 1 + 1 by rw [BitVec.add_assoc]; rfl]
  simp only [opcodeAccess, dummyAt, ← answer_view]
  exact hp

/-- JSR (R116). -/
theorem call_performs (op lo hi : Byte) {s t : State} (h : s.quiet)
    (ht : runInstr [op, lo, hi] callSkeleton s = .next t) :
    Performs s t
      [opcodeAccess s op, ⟨s.pc + 1, .read, lo, .operand⟩, dummyAt s 2 (stackAddr s.sp),
        ⟨stackAddr s.sp, .write, hi8 (s.pc + 2), .stack⟩, ⟨stackAddr (s.sp - 1), .write, lo8 (s.pc + 2), .stack⟩,
        ⟨s.pc + 2, .read, hi, .operand⟩] := by
  have hp := runInstr_performs h ht
  simp only [callSkeleton, fetchLo, operandFetch, dummyStack, pushCycle, opcodeFetch, supply, View.accesses, View.accessOf, View.wait, View.access, View.hook, View.memAfter, View.nextT,
    View.req, View.byte, Req.dir, Line.wait, Req.addr, Req.kind, List.isEmpty_nil, List.isEmpty_cons,
    Bool.or_self, Bool.or_false, Bool.false_eq_true, if_false, if_true, Option.getD_none, Option.getD_some] at hp
  rw [← pc_add_two]
  simp only [opcodeAccess, dummyAt, ← answer_view]
  exact hp

/-- KIL (R272). -/
theorem halt_performs (op : Byte) {s t : State} (h : s.quiet)
    (ht : runInstr [op] haltSkeleton s = .next t) :
    Performs s t
      [opcodeAccess s op, dummyAt s 1 (s.pc + 1)] := by
  have hp := runInstr_performs h ht
  simp only [haltSkeleton, opcodeFetch, dummyPc, supply, View.accesses, View.accessOf, View.wait, View.access, View.hook, View.memAfter, View.nextT,
    View.req, View.byte, Req.dir, Line.wait, Req.addr, Req.kind, List.isEmpty_nil, List.isEmpty_cons,
    Bool.or_self, Bool.or_false, Bool.false_eq_true, if_false, if_true, Option.getD_none, Option.getD_some] at hp
  simp only [opcodeAccess, dummyAt, ← answer_view]
  exact hp

/-- A conditional branch (R112). -/
theorem branch_performs (op rel : Byte) (cond : Flags → Bool) {s t : State} (h : s.quiet)
    (ht : runInstr [op, rel] (branchSkeleton cond) s = .next t) :
    Performs s t (branchAccesses s op rel (cond s.p)) := by
  have hp := runInstr_performs h ht
  have hpf : s.begin.view.cpu.p = s.p := rfl
  have hpc : s.begin.view.cpu.pc = s.pc := rfl
  simp only [branchSkeleton, opcodeFetch, operandFetch, supply, View.accesses, View.accessOf, View.wait, View.access,
    View.hook, View.memAfter, View.nextT, View.req, View.byte, Req.dir, Line.wait, Req.addr, Req.kind, List.isEmpty_nil,
    List.isEmpty_cons, Bool.or_false, Bool.false_or, Bool.false_eq_true, if_false, if_true,
    Option.getD_none, Option.getD_some, hpf, hpc, pc_add_two] at hp
  simp only [branchAccesses, opcodeAccess, dummyAt, ← answer_view]
  cases hc : cond s.p with
  | false => simpa only [hc, Bool.not_false, if_true, Bool.false_eq_true, if_false, List.append_nil] using hp
  | true =>
    cases hf : (hi8 (branchTarget (s.pc + 2) rel) != hi8 (s.pc + 2)) with
    | false =>
      have he : hi8 (branchTarget (s.pc + 2) rel) = hi8 (s.pc + 2) := by simpa using hf
      simp only [hc, hf, Bool.not_true, Bool.not_false, Bool.false_eq_true, if_false, if_true] at hp
      simp only [he, if_true]
      exact hp
    | true =>
      have he : hi8 (branchTarget (s.pc + 2) rel) ≠ hi8 (s.pc + 2) := by simpa using hf
      simp only [hc, hf, Bool.not_true, Bool.false_eq_true, if_false, if_true] at hp
      simp only [he, if_true, if_false]
      exact hp

/-- The accesses of an exception entry, from its third cycle on (R309, R310). -/
theorem entry_accesses {s : State} {r : Regs} {v : View} (b : Bool) (hv : Reached s 2 r v) (hsp : r.sp = s.sp) :
    v.accesses (exceptionEntry b) = entryAccesses s r.pc (packFlags r.p b) (entryRegs s r b).pc := by
  have hrun := (run_entry b hv).1
  have hr := hv.regs
  subst hr
  have h44 : (HijackCycle.four == HijackCycle.four) = true := rfl
  have h45 : (HijackCycle.four == HijackCycle.five) = false := rfl
  have h54 : (HijackCycle.five == HijackCycle.four) = false := rfl
  have h55 : (HijackCycle.five == HijackCycle.five) = true := rfl
  have hd4 : v.line.next.next.det = s.nmiBy [.read, .read, .write, .write] := by rw [hv.line, ← s.det_line]; rfl
  have hd5 : v.line.next.next.next.det = s.nmiBy [.read, .read, .write, .write, .write] := by
    rw [hv.line, ← s.det_line]; rfl
  have h2 : v.cpu.sp - 2 = v.cpu.sp - 1 - 1 := by rw [BitVec.sub_sub]; rfl
  have hp := hv.params
  rw [← hrun, entryAccesses, ← hsp, h2]
  simp only [exceptionEntry, vectorFetch, pushCycle, List.cons_append, List.nil_append, View.run, View.accesses,
    View.accessOf, View.wait, View.access, View.req, View.byte, View.memAfter, View.hook, View.nextT, View.finish, Req.dir,
    Req.addr, Req.kind, if_true, Bool.false_eq_true, if_false, List.isEmpty_cons, List.isEmpty_nil, Bool.or_false,
    Option.getD_none, Line.wait, lo8_cat, hi8_cat]
  cases hk : s.params.hijackCycle with
  | four =>
    have hvec : s.entryVector = if s.nmiBy [.read, .read, .write, .write] = true then 0xFFFA else 0xFFFE := by
      simp only [State.entryVector, hk, sampleAccesses]
    simp only [hp, hk, h44, h45, Bool.and_true, Bool.and_false, Bool.not_true, Bool.not_false, Bool.false_eq_true,
      if_false, hd4, ← hvec]
  | five =>
    have hvec : s.entryVector = if s.nmiBy [.read, .read, .write, .write, .write] = true then 0xFFFA else 0xFFFE := by
      simp only [State.entryVector, hk, sampleAccesses]
    simp only [hp, hk, h54, h55, Bool.and_true, Bool.and_false, Bool.not_true, Bool.not_false, Bool.false_eq_true,
      if_false, hd5, ← hvec]

/-- BRK (R119). -/
theorem break_performs (op : Byte) {s t : State} (h : s.quiet) (ht : runInstr [op] breakSkeleton s = .next t) :
    Performs s t ([opcodeAccess s op, dummyAt s 1 (s.pc + 1)] ++
      entryAccesses s (s.pc + 2) (packFlags s.p true) t.pc) := by
  have hp := runInstr_performs h ht
  have hsup : supply [op] breakSkeleton = supply [op] [opcodeFetch, { dummyPc with
      act := fun _ _ c => { c with pc := c.pc + 1 } }] ++ exceptionEntry true := rfl
  have hr : Reached s 2 { s.toRegs with pc := s.pc + 2 } (s.begin.view.through (supply [op]
      [opcodeFetch, { dummyPc with act := fun _ _ c => { c with pc := c.pc + 1 } }])) := by
    rw [← pc_add_two]
    exact ⟨rfl, rfl, rfl, rfl, rfl, rfl⟩
  obtain ⟨t', ht', hd, -⟩ := break_spec op h
  obtain rfl : t' = t := by rw [ht] at ht'; exact (Host.Outcome.next.inj ht').symm
  have hpc : t'.pc = (entryRegs s { s.toRegs with pc := s.pc + 2 } true).pc := congrArg Regs.pc hd.regs
  rw [hsup, accesses_append (by simp [supply, opcodeFetch, dummyPc]) (by simp [exceptionEntry]),
    entry_accesses true hr rfl, ← hpc] at hp
  have h2 : s.begin.view.throughAccesses (supply [op] [opcodeFetch, { dummyPc with
      act := fun _ _ c => { c with pc := c.pc + 1 } }]) = [opcodeAccess s op, dummyAt s 1 (s.pc + 1)] := by
    simp only [opcodeAccess, dummyAt, ← answer_view]; rfl
  rwa [h2] at hp

/-- A step that runs a sequence other than an instruction performs the accesses of its rows. -/
theorem resume_performs {s t : State} {cs : List Cycle} (hg : s.startStep.going)
    (hstep : step s = .next (runSeq cs s.startStep)) (hi : s.startStep.inputs = s.inputs)
    (hc : s.startStep.cycles = s.cycles) (hb : s.startStep.busLog = s.busLog) (ht : step s = .next t) :
    Performs s t (s.startStep.view.accesses cs) := by
  intro hu
  obtain rfl : runSeq cs s.startStep = t := Host.Outcome.next.inj (hstep.symm.trans ht)
  have hun : ∀ i ∈ s.startStep.view.line.inputs, i.stallReq = false := by
    intro i hm
    have hm : i ∈ s.startStep.inputs := hm
    rw [hi] at hm
    exact hu i hm
  have := run_log cs s.startStep.view hun
  rw [← (runSeq_view cs hg).1] at this
  rw [← hc, ← hb]
  exact this

/-- The interrupt sequence (R309). -/
theorem interrupt_performs {s t : State} (h : s.quiet) (hr : s.rstPending = none) (hs : s.seq = .instr) (ht : s.t = 1)
    (hi : s.takeInt = true) (hst : step s = .next t) :
    Performs s t ([dummyAt s 0 s.pc, dummyAt s 1 s.pc] ++ entryAccesses s s.pc (packFlags s.p false) t.pc) := by
  have he : s.startStep = { s with
      stop := false, takeInt := false, seq := .intSeq (if s.nmiDetected then .nmi else .irq) } := by
    simp [State.startStep, State.startCycle, hr, hs, ht, hi]
  have hstep : step s = .next (runSeq interruptSequence s.startStep) := by
    have hf : s.startStep.atFetch = false := by rw [he]; rfl
    have hq : s.startStep.resume = runSeq (s.startStep.rowsLeft interruptSequence) s.startStep := by rw [he]; rfl
    have hrow : s.startStep.rowsLeft interruptSequence = interruptSequence := by
      rw [he]; simp [State.rowsLeft, ht]
    simp only [step, hf, Bool.false_eq_true, if_false, hq, hrow]
  have hp := resume_performs (by rw [he]; exact ⟨h, rfl⟩) hstep (by rw [he]) (by rw [he]) (by rw [he]) hst
  have hre : Reached s 2 s.toRegs (s.startStep.view.through [dummyPc, dummyPc]) := by
    rw [he]; exact ⟨rfl, rfl, rfl, rfl, rfl, rfl⟩
  have hsup : interruptSequence = [dummyPc, dummyPc] ++ exceptionEntry false := rfl
  obtain ⟨t', ht', hd, -⟩ := interrupt_spec h hr hs ht hi
  obtain rfl : t' = t := by rw [hst] at ht'; exact (Host.Outcome.next.inj ht').symm
  have hpc : t'.pc = (entryRegs s s.toRegs false).pc := congrArg Regs.pc hd.regs
  rw [hsup, accesses_append (by simp [dummyPc]) (by simp [exceptionEntry]), entry_accesses false hre rfl, ← hpc] at hp
  have h2 : s.startStep.view.throughAccesses [dummyPc, dummyPc] = [dummyAt s 0 s.pc, dummyAt s 1 s.pc] := by
    rw [he]
    simp only [dummyAt, ← answer_view]; rfl
  rwa [h2] at hp

/-- The reset sequence (R312, R356). -/
theorem reset_performs {s t : State} (h : s.quiet) (hr : s.rstPending ≠ none) (hst : step s = .next t) :
    Performs s t
      [dummyAt s 0 s.pc, dummyAt s 1 s.pc, dummyAt s 2 (stackAddr s.sp), dummyAt s 3 (stackAddr (s.sp - 1)),
        dummyAt s 4 (stackAddr (s.sp - 2)), ⟨0xFFFC, .read, s.answer (reads 5) 0xFFFC, .vector⟩,
        ⟨0xFFFD, .read, s.answer (reads 6) 0xFFFD, .vector⟩] := by
  have he : s.startStep = { s with stop := false, rstPending := none, seq := .resetSeq, t := 1 } := by
    have : s.rstPending.isSome = true := Option.isSome_iff_ne_none.2 hr
    simp [State.startStep, State.startCycle, this]
  have hstep : step s = .next (runSeq resetSequence s.startStep) := by
    have hf : s.startStep.atFetch = false := by rw [he]; rfl
    have hq : s.startStep.resume = runSeq resetSequence s.startStep := by rw [he]; rfl
    simp only [step, hf, Bool.false_eq_true, if_false, hq]
  have hp := resume_performs (by rw [he]; exact ⟨h, rfl⟩) hstep (by rw [he]) (by rw [he]) (by rw [he]) hst
  rw [show s.sp - 2 = s.sp - 1 - 1 by rw [BitVec.sub_sub]; rfl]
  rw [he] at hp
  simp only [dummyAt, ← answer_view]
  exact hp

end Sys2Proof.Machine
end

