-- ==== Sys2Proof/Laws/Forms.lean ====
section
/-! SUPPORT. From the specification of a skeleton to the terms of Safety.lean: one lemma per class, over any operation, whose
hypotheses are that the meaning runs that skeleton and what its operation does to the registers. And the flag helpers as exact
numbers. -/

namespace Sys2Proof.Machine

/-! ### Flags and results as numbers -/

theorem flagsNZ_eq (p : Flags) (v : Byte) : flagsNZ p v = nz p v := by
  have hn : v.getLsbD 7 = decide (128 ≤ v.toNat) := by
    rw [← BitVec.msb_eq_getLsbD_last v, BitVec.msb_eq_decide]
  have hz : (v == 0) = decide (v.toNat = 0) := by
    rw [Bool.eq_iff_iff, beq_iff_eq, decide_eq_true_iff]
    exact ⟨fun h => by rw [h]; rfl, fun h => BitVec.eq_of_toNat_eq h⟩
  rw [flagsNZ, nz, hn, hz]

theorem setNZ_eq (r : Regs) (v : Byte) : r.setNZ v = { r with p := nz r.p v } := by rw [Regs.setNZ, flagsNZ_eq]

/-! ### The classes -/

variable {s : State} {i : Instr} {op b : Byte}

theorem DoesImplied.of_op (h : s.quiet) (f : Regs → Regs) {r : Regs} (he : encode i = [op])
    (hx : exec i s = runInstr [op] (impliedOp f) s) (hr : f { s.toRegs with pc := s.pc + 1 } = { r with pc := s.pc + 1 }) :
    DoesImplied s i op r := by
  obtain ⟨t, ht, hd, -⟩ := implied_spec op f h
  exact ⟨he, t, hx.trans ht, hr ▸ hd.endsWith, hd.sameBytes, implied_performs op f h ht⟩

theorem ReadsImmediate.of_op (h : s.quiet) (f : Params → ReadOp) {r : Regs} (he : encode i = [op, b])
    (hx : exec i s = runInstr [op, b] (immediateWith f) s)
    (hr : f s.params b { s.toRegs with pc := s.pc + 2 } = { r with pc := s.pc + 2 }) : ReadsImmediate s i op b r := by
  obtain ⟨t, ht, hd, -⟩ := immediate_spec op b f h
  exact ⟨he, t, hx.trans ht, hr ▸ hd.endsWith, hd.sameBytes, immediate_performs op b f h ht⟩

theorem ReadsInMode.of_op (h : s.quiet) (m : Mode) (f : ReadOp) {r : Byte → Regs} (he : encode i = m.bytes op)
    (hx : exec i s = runInstr (m.bytes op) (m.readRows f) s)
    (hr : ∀ v pc, f v { s.toRegs with pc := pc } = { r v with pc := pc }) : ReadsInMode s i op m r := by
  obtain ⟨t, ht, hd, -⟩ := read_spec m op f h
  exact ⟨he, t, hx.trans ht, hr _ _ ▸ hd.endsWith, hd.sameBytes, hd.lastAccess, read_performs m op f h ht⟩

theorem StoresInMode.of_op (h : s.quiet) (m : Mode) (w : Regs → Byte) {v : Byte} (he : encode i = m.bytes op)
    (hx : exec i s = runInstr (m.bytes op) (m.storeRows [writeCycle w]) s)
    (hv : ∀ pc, w { s.toRegs with pc := pc } = v) : StoresInMode s i op m v := by
  obtain ⟨t, ht, hd, -⟩ := write_spec m op w h
  have hp := write_performs m op w h ht
  rw [hv] at hd hp
  exact ⟨he, t, hx.trans ht, hd.endsWith, hd.oneByteStored, hd.lastAccess, hp⟩

theorem ModifiesInMode.of_op (h : s.quiet) (m : Mode) (g : RmwOp) {f : Byte → Byte} {r : Byte → Regs}
    (he : encode i = m.bytes op) (hx : exec i s = runInstr (m.bytes op) (m.storeRows (rmwTail g)) s)
    (hg : ∀ v pc, g v { s.toRegs with pc := pc } = (f v, { r v with pc := pc })) : ModifiesInMode s i op m f r := by
  obtain ⟨t, ht, hd, hl, -⟩ := rmw_spec m op g h
  have hp := rmw_performs m op g h ht
  rw [hg] at hd hl hp
  refine ⟨he, t, hx.trans ht, hd.endsWith, fun a => ?_, hl, hp⟩
  rw [hd.peek a, peekIn_storeIn_twice]
  exact s.peek_store (m.ea s) _ a

theorem StoresHigh.of_op (h : s.quiet) (m : Mode) (reg : Regs → Byte) (act : Regs → Regs) (hu : m.hasUnfixed = true)
    {v : Byte} {r : Regs} (he : encode i = m.bytes op)
    (hx : exec i s = runInstr (m.bytes op) (m.storeRows [shCycle m.index reg act]) s)
    (hv : ∀ pc, reg { s.toRegs with pc := pc } = v) (hr : ∀ pc, act { s.toRegs with pc := pc } = { r with pc := pc }) :
    StoresHigh s i op m v r := by
  obtain ⟨t, ht, hd, -⟩ := sh_spec m op reg act hu h
  have hp := sh_performs m op reg act hu h ht
  have hi : m.index s.toRegs = m.indexValue s := by cases m <;> first | exact absurd hu Bool.false_ne_true | rfl
  have hc : m.crosses s = crosses (lo8 (m.base s)) (m.indexValue s) := by
    cases m <;> first
      | exact absurd hu Bool.false_ne_true
      | (simp only [Mode.crosses, Mode.base, Mode.indexValue, lo8_cat])
  have ha : shAddress s.params.shModel (m.base s) (m.index s.toRegs) (shValue (m.base s) v) =
      match s.params.shModel, m.crosses s with
      | .h1Glitch, true => cat (v &&& (hi8 (m.base s) + 1)) (lo8 (m.base s) + m.indexValue s)
      | .h1Glitch, false => cat (hi8 (m.base s)) (lo8 (m.base s) + m.indexValue s)
      | .h1Plain, _ => m.base s + zext16 (m.indexValue s) := by
    rw [hi, hc]
    cases s.params.shModel with
    | h1Plain => rfl
    | h1Glitch =>
      cases hx : crosses (lo8 (m.base s)) (m.indexValue s) <;> simp [shAddress, hx, shValue]
  rw [hv, hr] at hd
  rw [hv] at hp
  rw [ha] at hd hp
  exact ⟨he, t, hx.trans ht, hd.endsWith, hd.oneByteStored, hd.lastAccess, hp⟩

theorem Pushes.of_op (h : s.quiet) (w : Regs → Byte) {v : Byte} (he : encode i = [op])
    (hx : exec i s = runInstr [op] (pushSkeleton w) s) (hv : w { s.toRegs with pc := s.pc + 1 } = v) :
    Pushes s i op v := by
  obtain ⟨t, ht, hd, -⟩ := push_spec op w h
  have hp := push_performs op w h ht
  rw [hv] at hd hp
  exact ⟨he, t, hx.trans ht, hd.endsWith, hd.oneByteStored, hp⟩

theorem Pulls.of_op (h : s.quiet) (f : ReadOp) {r : Regs} {more : State → Prop} (he : encode i = [op])
    (hx : exec i s = runInstr [op] (pullSkeleton f) s)
    (hr : f s.pulled { s.toRegs with pc := s.pc + 1, sp := s.sp + 1 } = { r with pc := s.pc + 1, sp := s.sp + 1 })
    (hm : ∀ t, exec i s = .next t → more t) : Pulls s i op r more := by
  obtain ⟨t, ht, hd, -⟩ := pull_spec op f h
  exact ⟨he, t, hx.trans ht, hr ▸ hd.endsWith, hd.sameBytes, pull_performs op f h ht, hm t (hx.trans ht)⟩

theorem Branches.of_op (h : s.quiet) {rel : Byte} (cond : Flags → Bool) (he : encode i = [op, rel])
    (hx : exec i s = runInstr [op, rel] (branchSkeleton cond) s) : Branches s i op rel (cond s.p) := by
  obtain ⟨t, ht, hd, -⟩ := branch_spec op rel cond h
  exact ⟨he, t, hx.trans ht, hd.endsWith, hd.sameBytes, branch_performs op rel cond h ht⟩

end Sys2Proof.Machine
end

