-- ==== Sys2Proof/Laws/Microcode.lean ====
section
/-! SUPPORT. The meanings and the table of skeletons agree: `exec` runs the skeleton that the table holds for the opcode. -/

namespace Sys2Proof.Machine

/-- The bytes the fetch cycles of an instruction receive: those of its encoding, but for the high byte of JSR (R116). -/
def fetchedBytes (s : State) : Instr → List Byte
  | .jsrAbs lo hi => [0x20, lo, jsrHigh s hi]
  | i => encode i

/-- Every meaning is a run of its opcode's skeleton (R100). -/
theorem exec_eq_microcode (i : Instr) (s : State) :
    exec i s = runInstr (fetchedBytes s i) (microcode i.opcode) s := by
  cases i <;> rfl

end Sys2Proof.Machine
end

