-- ==== Sys2Proof/Laws/PerInstr.lean ====
section
/-! SUPPORT. What holds of every instruction as syntax, one lemma per constructor: it is well formed, and it is as long as its
mode makes it (spec/30_encoding.md R80 to R82, R87, R90). -/

namespace Sys2Proof

/-- The instruction is well formed, and its encoding has the length its mode fixes. -/
def Laws.Shape.Statement (i : Instr) : Prop := i.WellFormed = true ∧ (encode i).length = i.length

theorem Laws.Shape.brk : Laws.Shape.Statement .brk := ⟨rfl, rfl⟩
theorem Laws.Shape.oraIndX (zp : Byte) : Laws.Shape.Statement (.oraIndX zp) := ⟨rfl, rfl⟩
theorem Laws.Shape.kil02 : Laws.Shape.Statement .kil02 := ⟨rfl, rfl⟩
theorem Laws.Shape.sloIndX (zp : Byte) : Laws.Shape.Statement (.sloIndX zp) := ⟨rfl, rfl⟩
theorem Laws.Shape.nopZp04 (zp : Byte) : Laws.Shape.Statement (.nopZp04 zp) := ⟨rfl, rfl⟩
theorem Laws.Shape.oraZp (zp : Byte) : Laws.Shape.Statement (.oraZp zp) := ⟨rfl, rfl⟩
theorem Laws.Shape.aslZp (zp : Byte) : Laws.Shape.Statement (.aslZp zp) := ⟨rfl, rfl⟩
theorem Laws.Shape.sloZp (zp : Byte) : Laws.Shape.Statement (.sloZp zp) := ⟨rfl, rfl⟩
theorem Laws.Shape.php : Laws.Shape.Statement .php := ⟨rfl, rfl⟩
theorem Laws.Shape.oraImm (imm : Byte) : Laws.Shape.Statement (.oraImm imm) := ⟨rfl, rfl⟩
theorem Laws.Shape.aslA : Laws.Shape.Statement .aslA := ⟨rfl, rfl⟩
theorem Laws.Shape.ancImm0B (imm : Byte) : Laws.Shape.Statement (.ancImm0B imm) := ⟨rfl, rfl⟩
theorem Laws.Shape.nopAbs0C (lo hi : Byte) : Laws.Shape.Statement (.nopAbs0C lo hi) := ⟨rfl, rfl⟩
theorem Laws.Shape.oraAbs (lo hi : Byte) : Laws.Shape.Statement (.oraAbs lo hi) := ⟨rfl, rfl⟩
theorem Laws.Shape.aslAbs (lo hi : Byte) : Laws.Shape.Statement (.aslAbs lo hi) := ⟨rfl, rfl⟩
theorem Laws.Shape.sloAbs (lo hi : Byte) : Laws.Shape.Statement (.sloAbs lo hi) := ⟨rfl, rfl⟩
theorem Laws.Shape.bpl (rel : Byte) : Laws.Shape.Statement (.bpl rel) := ⟨rfl, rfl⟩
theorem Laws.Shape.oraIndY (zp : Byte) : Laws.Shape.Statement (.oraIndY zp) := ⟨rfl, rfl⟩
theorem Laws.Shape.kil12 : Laws.Shape.Statement .kil12 := ⟨rfl, rfl⟩
theorem Laws.Shape.sloIndY (zp : Byte) : Laws.Shape.Statement (.sloIndY zp) := ⟨rfl, rfl⟩
theorem Laws.Shape.nopZpX14 (zp : Byte) : Laws.Shape.Statement (.nopZpX14 zp) := ⟨rfl, rfl⟩
theorem Laws.Shape.oraZpX (zp : Byte) : Laws.Shape.Statement (.oraZpX zp) := ⟨rfl, rfl⟩
theorem Laws.Shape.aslZpX (zp : Byte) : Laws.Shape.Statement (.aslZpX zp) := ⟨rfl, rfl⟩
theorem Laws.Shape.sloZpX (zp : Byte) : Laws.Shape.Statement (.sloZpX zp) := ⟨rfl, rfl⟩
theorem Laws.Shape.clc : Laws.Shape.Statement .clc := ⟨rfl, rfl⟩
theorem Laws.Shape.oraAbsY (lo hi : Byte) : Laws.Shape.Statement (.oraAbsY lo hi) := ⟨rfl, rfl⟩
theorem Laws.Shape.nop1A : Laws.Shape.Statement .nop1A := ⟨rfl, rfl⟩
theorem Laws.Shape.sloAbsY (lo hi : Byte) : Laws.Shape.Statement (.sloAbsY lo hi) := ⟨rfl, rfl⟩
theorem Laws.Shape.nopAbsX1C (lo hi : Byte) : Laws.Shape.Statement (.nopAbsX1C lo hi) := ⟨rfl, rfl⟩
theorem Laws.Shape.oraAbsX (lo hi : Byte) : Laws.Shape.Statement (.oraAbsX lo hi) := ⟨rfl, rfl⟩
theorem Laws.Shape.aslAbsX (lo hi : Byte) : Laws.Shape.Statement (.aslAbsX lo hi) := ⟨rfl, rfl⟩
theorem Laws.Shape.sloAbsX (lo hi : Byte) : Laws.Shape.Statement (.sloAbsX lo hi) := ⟨rfl, rfl⟩
theorem Laws.Shape.jsrAbs (lo hi : Byte) : Laws.Shape.Statement (.jsrAbs lo hi) := ⟨rfl, rfl⟩
theorem Laws.Shape.andIndX (zp : Byte) : Laws.Shape.Statement (.andIndX zp) := ⟨rfl, rfl⟩
theorem Laws.Shape.kil22 : Laws.Shape.Statement .kil22 := ⟨rfl, rfl⟩
theorem Laws.Shape.rlaIndX (zp : Byte) : Laws.Shape.Statement (.rlaIndX zp) := ⟨rfl, rfl⟩
theorem Laws.Shape.bitZp (zp : Byte) : Laws.Shape.Statement (.bitZp zp) := ⟨rfl, rfl⟩
theorem Laws.Shape.andZp (zp : Byte) : Laws.Shape.Statement (.andZp zp) := ⟨rfl, rfl⟩
theorem Laws.Shape.rolZp (zp : Byte) : Laws.Shape.Statement (.rolZp zp) := ⟨rfl, rfl⟩
theorem Laws.Shape.rlaZp (zp : Byte) : Laws.Shape.Statement (.rlaZp zp) := ⟨rfl, rfl⟩
theorem Laws.Shape.plp : Laws.Shape.Statement .plp := ⟨rfl, rfl⟩
theorem Laws.Shape.andImm (imm : Byte) : Laws.Shape.Statement (.andImm imm) := ⟨rfl, rfl⟩
theorem Laws.Shape.rolA : Laws.Shape.Statement .rolA := ⟨rfl, rfl⟩
theorem Laws.Shape.ancImm2B (imm : Byte) : Laws.Shape.Statement (.ancImm2B imm) := ⟨rfl, rfl⟩
theorem Laws.Shape.bitAbs (lo hi : Byte) : Laws.Shape.Statement (.bitAbs lo hi) := ⟨rfl, rfl⟩
theorem Laws.Shape.andAbs (lo hi : Byte) : Laws.Shape.Statement (.andAbs lo hi) := ⟨rfl, rfl⟩
theorem Laws.Shape.rolAbs (lo hi : Byte) : Laws.Shape.Statement (.rolAbs lo hi) := ⟨rfl, rfl⟩
theorem Laws.Shape.rlaAbs (lo hi : Byte) : Laws.Shape.Statement (.rlaAbs lo hi) := ⟨rfl, rfl⟩
theorem Laws.Shape.bmi (rel : Byte) : Laws.Shape.Statement (.bmi rel) := ⟨rfl, rfl⟩
theorem Laws.Shape.andIndY (zp : Byte) : Laws.Shape.Statement (.andIndY zp) := ⟨rfl, rfl⟩
theorem Laws.Shape.kil32 : Laws.Shape.Statement .kil32 := ⟨rfl, rfl⟩
theorem Laws.Shape.rlaIndY (zp : Byte) : Laws.Shape.Statement (.rlaIndY zp) := ⟨rfl, rfl⟩
theorem Laws.Shape.nopZpX34 (zp : Byte) : Laws.Shape.Statement (.nopZpX34 zp) := ⟨rfl, rfl⟩
theorem Laws.Shape.andZpX (zp : Byte) : Laws.Shape.Statement (.andZpX zp) := ⟨rfl, rfl⟩
theorem Laws.Shape.rolZpX (zp : Byte) : Laws.Shape.Statement (.rolZpX zp) := ⟨rfl, rfl⟩
theorem Laws.Shape.rlaZpX (zp : Byte) : Laws.Shape.Statement (.rlaZpX zp) := ⟨rfl, rfl⟩
theorem Laws.Shape.sec : Laws.Shape.Statement .sec := ⟨rfl, rfl⟩
theorem Laws.Shape.andAbsY (lo hi : Byte) : Laws.Shape.Statement (.andAbsY lo hi) := ⟨rfl, rfl⟩
theorem Laws.Shape.nop3A : Laws.Shape.Statement .nop3A := ⟨rfl, rfl⟩
theorem Laws.Shape.rlaAbsY (lo hi : Byte) : Laws.Shape.Statement (.rlaAbsY lo hi) := ⟨rfl, rfl⟩
theorem Laws.Shape.nopAbsX3C (lo hi : Byte) : Laws.Shape.Statement (.nopAbsX3C lo hi) := ⟨rfl, rfl⟩
theorem Laws.Shape.andAbsX (lo hi : Byte) : Laws.Shape.Statement (.andAbsX lo hi) := ⟨rfl, rfl⟩
theorem Laws.Shape.rolAbsX (lo hi : Byte) : Laws.Shape.Statement (.rolAbsX lo hi) := ⟨rfl, rfl⟩
theorem Laws.Shape.rlaAbsX (lo hi : Byte) : Laws.Shape.Statement (.rlaAbsX lo hi) := ⟨rfl, rfl⟩
theorem Laws.Shape.rti : Laws.Shape.Statement .rti := ⟨rfl, rfl⟩
theorem Laws.Shape.eorIndX (zp : Byte) : Laws.Shape.Statement (.eorIndX zp) := ⟨rfl, rfl⟩
theorem Laws.Shape.kil42 : Laws.Shape.Statement .kil42 := ⟨rfl, rfl⟩
theorem Laws.Shape.sreIndX (zp : Byte) : Laws.Shape.Statement (.sreIndX zp) := ⟨rfl, rfl⟩
theorem Laws.Shape.nopZp44 (zp : Byte) : Laws.Shape.Statement (.nopZp44 zp) := ⟨rfl, rfl⟩
theorem Laws.Shape.eorZp (zp : Byte) : Laws.Shape.Statement (.eorZp zp) := ⟨rfl, rfl⟩
theorem Laws.Shape.lsrZp (zp : Byte) : Laws.Shape.Statement (.lsrZp zp) := ⟨rfl, rfl⟩
theorem Laws.Shape.sreZp (zp : Byte) : Laws.Shape.Statement (.sreZp zp) := ⟨rfl, rfl⟩
theorem Laws.Shape.pha : Laws.Shape.Statement .pha := ⟨rfl, rfl⟩
theorem Laws.Shape.eorImm (imm : Byte) : Laws.Shape.Statement (.eorImm imm) := ⟨rfl, rfl⟩
theorem Laws.Shape.lsrA : Laws.Shape.Statement .lsrA := ⟨rfl, rfl⟩
theorem Laws.Shape.alrImm (imm : Byte) : Laws.Shape.Statement (.alrImm imm) := ⟨rfl, rfl⟩
theorem Laws.Shape.jmpAbs (lo hi : Byte) : Laws.Shape.Statement (.jmpAbs lo hi) := ⟨rfl, rfl⟩
theorem Laws.Shape.eorAbs (lo hi : Byte) : Laws.Shape.Statement (.eorAbs lo hi) := ⟨rfl, rfl⟩
theorem Laws.Shape.lsrAbs (lo hi : Byte) : Laws.Shape.Statement (.lsrAbs lo hi) := ⟨rfl, rfl⟩
theorem Laws.Shape.sreAbs (lo hi : Byte) : Laws.Shape.Statement (.sreAbs lo hi) := ⟨rfl, rfl⟩
theorem Laws.Shape.bvc (rel : Byte) : Laws.Shape.Statement (.bvc rel) := ⟨rfl, rfl⟩
theorem Laws.Shape.eorIndY (zp : Byte) : Laws.Shape.Statement (.eorIndY zp) := ⟨rfl, rfl⟩
theorem Laws.Shape.kil52 : Laws.Shape.Statement .kil52 := ⟨rfl, rfl⟩
theorem Laws.Shape.sreIndY (zp : Byte) : Laws.Shape.Statement (.sreIndY zp) := ⟨rfl, rfl⟩
theorem Laws.Shape.nopZpX54 (zp : Byte) : Laws.Shape.Statement (.nopZpX54 zp) := ⟨rfl, rfl⟩
theorem Laws.Shape.eorZpX (zp : Byte) : Laws.Shape.Statement (.eorZpX zp) := ⟨rfl, rfl⟩
theorem Laws.Shape.lsrZpX (zp : Byte) : Laws.Shape.Statement (.lsrZpX zp) := ⟨rfl, rfl⟩
theorem Laws.Shape.sreZpX (zp : Byte) : Laws.Shape.Statement (.sreZpX zp) := ⟨rfl, rfl⟩
theorem Laws.Shape.cli : Laws.Shape.Statement .cli := ⟨rfl, rfl⟩
theorem Laws.Shape.eorAbsY (lo hi : Byte) : Laws.Shape.Statement (.eorAbsY lo hi) := ⟨rfl, rfl⟩
theorem Laws.Shape.nop5A : Laws.Shape.Statement .nop5A := ⟨rfl, rfl⟩
theorem Laws.Shape.sreAbsY (lo hi : Byte) : Laws.Shape.Statement (.sreAbsY lo hi) := ⟨rfl, rfl⟩
theorem Laws.Shape.nopAbsX5C (lo hi : Byte) : Laws.Shape.Statement (.nopAbsX5C lo hi) := ⟨rfl, rfl⟩
theorem Laws.Shape.eorAbsX (lo hi : Byte) : Laws.Shape.Statement (.eorAbsX lo hi) := ⟨rfl, rfl⟩
theorem Laws.Shape.lsrAbsX (lo hi : Byte) : Laws.Shape.Statement (.lsrAbsX lo hi) := ⟨rfl, rfl⟩
theorem Laws.Shape.sreAbsX (lo hi : Byte) : Laws.Shape.Statement (.sreAbsX lo hi) := ⟨rfl, rfl⟩
theorem Laws.Shape.rts : Laws.Shape.Statement .rts := ⟨rfl, rfl⟩
theorem Laws.Shape.adcIndX (zp : Byte) : Laws.Shape.Statement (.adcIndX zp) := ⟨rfl, rfl⟩
theorem Laws.Shape.kil62 : Laws.Shape.Statement .kil62 := ⟨rfl, rfl⟩
theorem Laws.Shape.rraIndX (zp : Byte) : Laws.Shape.Statement (.rraIndX zp) := ⟨rfl, rfl⟩
theorem Laws.Shape.nopZp64 (zp : Byte) : Laws.Shape.Statement (.nopZp64 zp) := ⟨rfl, rfl⟩
theorem Laws.Shape.adcZp (zp : Byte) : Laws.Shape.Statement (.adcZp zp) := ⟨rfl, rfl⟩
theorem Laws.Shape.rorZp (zp : Byte) : Laws.Shape.Statement (.rorZp zp) := ⟨rfl, rfl⟩
theorem Laws.Shape.rraZp (zp : Byte) : Laws.Shape.Statement (.rraZp zp) := ⟨rfl, rfl⟩
theorem Laws.Shape.pla : Laws.Shape.Statement .pla := ⟨rfl, rfl⟩
theorem Laws.Shape.adcImm (imm : Byte) : Laws.Shape.Statement (.adcImm imm) := ⟨rfl, rfl⟩
theorem Laws.Shape.rorA : Laws.Shape.Statement .rorA := ⟨rfl, rfl⟩
theorem Laws.Shape.arrImm (imm : Byte) : Laws.Shape.Statement (.arrImm imm) := ⟨rfl, rfl⟩
theorem Laws.Shape.jmpInd (lo hi : Byte) : Laws.Shape.Statement (.jmpInd lo hi) := ⟨rfl, rfl⟩
theorem Laws.Shape.adcAbs (lo hi : Byte) : Laws.Shape.Statement (.adcAbs lo hi) := ⟨rfl, rfl⟩
theorem Laws.Shape.rorAbs (lo hi : Byte) : Laws.Shape.Statement (.rorAbs lo hi) := ⟨rfl, rfl⟩
theorem Laws.Shape.rraAbs (lo hi : Byte) : Laws.Shape.Statement (.rraAbs lo hi) := ⟨rfl, rfl⟩
theorem Laws.Shape.bvs (rel : Byte) : Laws.Shape.Statement (.bvs rel) := ⟨rfl, rfl⟩
theorem Laws.Shape.adcIndY (zp : Byte) : Laws.Shape.Statement (.adcIndY zp) := ⟨rfl, rfl⟩
theorem Laws.Shape.kil72 : Laws.Shape.Statement .kil72 := ⟨rfl, rfl⟩
theorem Laws.Shape.rraIndY (zp : Byte) : Laws.Shape.Statement (.rraIndY zp) := ⟨rfl, rfl⟩
theorem Laws.Shape.nopZpX74 (zp : Byte) : Laws.Shape.Statement (.nopZpX74 zp) := ⟨rfl, rfl⟩
theorem Laws.Shape.adcZpX (zp : Byte) : Laws.Shape.Statement (.adcZpX zp) := ⟨rfl, rfl⟩
theorem Laws.Shape.rorZpX (zp : Byte) : Laws.Shape.Statement (.rorZpX zp) := ⟨rfl, rfl⟩
theorem Laws.Shape.rraZpX (zp : Byte) : Laws.Shape.Statement (.rraZpX zp) := ⟨rfl, rfl⟩
theorem Laws.Shape.sei : Laws.Shape.Statement .sei := ⟨rfl, rfl⟩
theorem Laws.Shape.adcAbsY (lo hi : Byte) : Laws.Shape.Statement (.adcAbsY lo hi) := ⟨rfl, rfl⟩
theorem Laws.Shape.nop7A : Laws.Shape.Statement .nop7A := ⟨rfl, rfl⟩
theorem Laws.Shape.rraAbsY (lo hi : Byte) : Laws.Shape.Statement (.rraAbsY lo hi) := ⟨rfl, rfl⟩
theorem Laws.Shape.nopAbsX7C (lo hi : Byte) : Laws.Shape.Statement (.nopAbsX7C lo hi) := ⟨rfl, rfl⟩
theorem Laws.Shape.adcAbsX (lo hi : Byte) : Laws.Shape.Statement (.adcAbsX lo hi) := ⟨rfl, rfl⟩
theorem Laws.Shape.rorAbsX (lo hi : Byte) : Laws.Shape.Statement (.rorAbsX lo hi) := ⟨rfl, rfl⟩
theorem Laws.Shape.rraAbsX (lo hi : Byte) : Laws.Shape.Statement (.rraAbsX lo hi) := ⟨rfl, rfl⟩
theorem Laws.Shape.nopImm80 (imm : Byte) : Laws.Shape.Statement (.nopImm80 imm) := ⟨rfl, rfl⟩
theorem Laws.Shape.staIndX (zp : Byte) : Laws.Shape.Statement (.staIndX zp) := ⟨rfl, rfl⟩
theorem Laws.Shape.nopImm82 (imm : Byte) : Laws.Shape.Statement (.nopImm82 imm) := ⟨rfl, rfl⟩
theorem Laws.Shape.saxIndX (zp : Byte) : Laws.Shape.Statement (.saxIndX zp) := ⟨rfl, rfl⟩
theorem Laws.Shape.styZp (zp : Byte) : Laws.Shape.Statement (.styZp zp) := ⟨rfl, rfl⟩
theorem Laws.Shape.staZp (zp : Byte) : Laws.Shape.Statement (.staZp zp) := ⟨rfl, rfl⟩
theorem Laws.Shape.stxZp (zp : Byte) : Laws.Shape.Statement (.stxZp zp) := ⟨rfl, rfl⟩
theorem Laws.Shape.saxZp (zp : Byte) : Laws.Shape.Statement (.saxZp zp) := ⟨rfl, rfl⟩
theorem Laws.Shape.dey : Laws.Shape.Statement .dey := ⟨rfl, rfl⟩
theorem Laws.Shape.nopImm89 (imm : Byte) : Laws.Shape.Statement (.nopImm89 imm) := ⟨rfl, rfl⟩
theorem Laws.Shape.txa : Laws.Shape.Statement .txa := ⟨rfl, rfl⟩
theorem Laws.Shape.xaaImm (imm : Byte) : Laws.Shape.Statement (.xaaImm imm) := ⟨rfl, rfl⟩
theorem Laws.Shape.styAbs (lo hi : Byte) : Laws.Shape.Statement (.styAbs lo hi) := ⟨rfl, rfl⟩
theorem Laws.Shape.staAbs (lo hi : Byte) : Laws.Shape.Statement (.staAbs lo hi) := ⟨rfl, rfl⟩
theorem Laws.Shape.stxAbs (lo hi : Byte) : Laws.Shape.Statement (.stxAbs lo hi) := ⟨rfl, rfl⟩
theorem Laws.Shape.saxAbs (lo hi : Byte) : Laws.Shape.Statement (.saxAbs lo hi) := ⟨rfl, rfl⟩
theorem Laws.Shape.bcc (rel : Byte) : Laws.Shape.Statement (.bcc rel) := ⟨rfl, rfl⟩
theorem Laws.Shape.staIndY (zp : Byte) : Laws.Shape.Statement (.staIndY zp) := ⟨rfl, rfl⟩
theorem Laws.Shape.kil92 : Laws.Shape.Statement .kil92 := ⟨rfl, rfl⟩
theorem Laws.Shape.ahxIndY (zp : Byte) : Laws.Shape.Statement (.ahxIndY zp) := ⟨rfl, rfl⟩
theorem Laws.Shape.styZpX (zp : Byte) : Laws.Shape.Statement (.styZpX zp) := ⟨rfl, rfl⟩
theorem Laws.Shape.staZpX (zp : Byte) : Laws.Shape.Statement (.staZpX zp) := ⟨rfl, rfl⟩
theorem Laws.Shape.stxZpY (zp : Byte) : Laws.Shape.Statement (.stxZpY zp) := ⟨rfl, rfl⟩
theorem Laws.Shape.saxZpY (zp : Byte) : Laws.Shape.Statement (.saxZpY zp) := ⟨rfl, rfl⟩
theorem Laws.Shape.tya : Laws.Shape.Statement .tya := ⟨rfl, rfl⟩
theorem Laws.Shape.staAbsY (lo hi : Byte) : Laws.Shape.Statement (.staAbsY lo hi) := ⟨rfl, rfl⟩
theorem Laws.Shape.txs : Laws.Shape.Statement .txs := ⟨rfl, rfl⟩
theorem Laws.Shape.tasAbsY (lo hi : Byte) : Laws.Shape.Statement (.tasAbsY lo hi) := ⟨rfl, rfl⟩
theorem Laws.Shape.shyAbsX (lo hi : Byte) : Laws.Shape.Statement (.shyAbsX lo hi) := ⟨rfl, rfl⟩
theorem Laws.Shape.staAbsX (lo hi : Byte) : Laws.Shape.Statement (.staAbsX lo hi) := ⟨rfl, rfl⟩
theorem Laws.Shape.shxAbsY (lo hi : Byte) : Laws.Shape.Statement (.shxAbsY lo hi) := ⟨rfl, rfl⟩
theorem Laws.Shape.ahxAbsY (lo hi : Byte) : Laws.Shape.Statement (.ahxAbsY lo hi) := ⟨rfl, rfl⟩
theorem Laws.Shape.ldyImm (imm : Byte) : Laws.Shape.Statement (.ldyImm imm) := ⟨rfl, rfl⟩
theorem Laws.Shape.ldaIndX (zp : Byte) : Laws.Shape.Statement (.ldaIndX zp) := ⟨rfl, rfl⟩
theorem Laws.Shape.ldxImm (imm : Byte) : Laws.Shape.Statement (.ldxImm imm) := ⟨rfl, rfl⟩
theorem Laws.Shape.laxIndX (zp : Byte) : Laws.Shape.Statement (.laxIndX zp) := ⟨rfl, rfl⟩
theorem Laws.Shape.ldyZp (zp : Byte) : Laws.Shape.Statement (.ldyZp zp) := ⟨rfl, rfl⟩
theorem Laws.Shape.ldaZp (zp : Byte) : Laws.Shape.Statement (.ldaZp zp) := ⟨rfl, rfl⟩
theorem Laws.Shape.ldxZp (zp : Byte) : Laws.Shape.Statement (.ldxZp zp) := ⟨rfl, rfl⟩
theorem Laws.Shape.laxZp (zp : Byte) : Laws.Shape.Statement (.laxZp zp) := ⟨rfl, rfl⟩
theorem Laws.Shape.tay : Laws.Shape.Statement .tay := ⟨rfl, rfl⟩
theorem Laws.Shape.ldaImm (imm : Byte) : Laws.Shape.Statement (.ldaImm imm) := ⟨rfl, rfl⟩
theorem Laws.Shape.tax : Laws.Shape.Statement .tax := ⟨rfl, rfl⟩
theorem Laws.Shape.laxImm (imm : Byte) : Laws.Shape.Statement (.laxImm imm) := ⟨rfl, rfl⟩
theorem Laws.Shape.ldyAbs (lo hi : Byte) : Laws.Shape.Statement (.ldyAbs lo hi) := ⟨rfl, rfl⟩
theorem Laws.Shape.ldaAbs (lo hi : Byte) : Laws.Shape.Statement (.ldaAbs lo hi) := ⟨rfl, rfl⟩
theorem Laws.Shape.ldxAbs (lo hi : Byte) : Laws.Shape.Statement (.ldxAbs lo hi) := ⟨rfl, rfl⟩
theorem Laws.Shape.laxAbs (lo hi : Byte) : Laws.Shape.Statement (.laxAbs lo hi) := ⟨rfl, rfl⟩
theorem Laws.Shape.bcs (rel : Byte) : Laws.Shape.Statement (.bcs rel) := ⟨rfl, rfl⟩
theorem Laws.Shape.ldaIndY (zp : Byte) : Laws.Shape.Statement (.ldaIndY zp) := ⟨rfl, rfl⟩
theorem Laws.Shape.kilB2 : Laws.Shape.Statement .kilB2 := ⟨rfl, rfl⟩
theorem Laws.Shape.laxIndY (zp : Byte) : Laws.Shape.Statement (.laxIndY zp) := ⟨rfl, rfl⟩
theorem Laws.Shape.ldyZpX (zp : Byte) : Laws.Shape.Statement (.ldyZpX zp) := ⟨rfl, rfl⟩
theorem Laws.Shape.ldaZpX (zp : Byte) : Laws.Shape.Statement (.ldaZpX zp) := ⟨rfl, rfl⟩
theorem Laws.Shape.ldxZpY (zp : Byte) : Laws.Shape.Statement (.ldxZpY zp) := ⟨rfl, rfl⟩
theorem Laws.Shape.laxZpY (zp : Byte) : Laws.Shape.Statement (.laxZpY zp) := ⟨rfl, rfl⟩
theorem Laws.Shape.clv : Laws.Shape.Statement .clv := ⟨rfl, rfl⟩
theorem Laws.Shape.ldaAbsY (lo hi : Byte) : Laws.Shape.Statement (.ldaAbsY lo hi) := ⟨rfl, rfl⟩
theorem Laws.Shape.tsx : Laws.Shape.Statement .tsx := ⟨rfl, rfl⟩
theorem Laws.Shape.lasAbsY (lo hi : Byte) : Laws.Shape.Statement (.lasAbsY lo hi) := ⟨rfl, rfl⟩
theorem Laws.Shape.ldyAbsX (lo hi : Byte) : Laws.Shape.Statement (.ldyAbsX lo hi) := ⟨rfl, rfl⟩
theorem Laws.Shape.ldaAbsX (lo hi : Byte) : Laws.Shape.Statement (.ldaAbsX lo hi) := ⟨rfl, rfl⟩
theorem Laws.Shape.ldxAbsY (lo hi : Byte) : Laws.Shape.Statement (.ldxAbsY lo hi) := ⟨rfl, rfl⟩
theorem Laws.Shape.laxAbsY (lo hi : Byte) : Laws.Shape.Statement (.laxAbsY lo hi) := ⟨rfl, rfl⟩
theorem Laws.Shape.cpyImm (imm : Byte) : Laws.Shape.Statement (.cpyImm imm) := ⟨rfl, rfl⟩
theorem Laws.Shape.cmpIndX (zp : Byte) : Laws.Shape.Statement (.cmpIndX zp) := ⟨rfl, rfl⟩
theorem Laws.Shape.nopImmC2 (imm : Byte) : Laws.Shape.Statement (.nopImmC2 imm) := ⟨rfl, rfl⟩
theorem Laws.Shape.dcpIndX (zp : Byte) : Laws.Shape.Statement (.dcpIndX zp) := ⟨rfl, rfl⟩
theorem Laws.Shape.cpyZp (zp : Byte) : Laws.Shape.Statement (.cpyZp zp) := ⟨rfl, rfl⟩
theorem Laws.Shape.cmpZp (zp : Byte) : Laws.Shape.Statement (.cmpZp zp) := ⟨rfl, rfl⟩
theorem Laws.Shape.decZp (zp : Byte) : Laws.Shape.Statement (.decZp zp) := ⟨rfl, rfl⟩
theorem Laws.Shape.dcpZp (zp : Byte) : Laws.Shape.Statement (.dcpZp zp) := ⟨rfl, rfl⟩
theorem Laws.Shape.iny : Laws.Shape.Statement .iny := ⟨rfl, rfl⟩
theorem Laws.Shape.cmpImm (imm : Byte) : Laws.Shape.Statement (.cmpImm imm) := ⟨rfl, rfl⟩
theorem Laws.Shape.dex : Laws.Shape.Statement .dex := ⟨rfl, rfl⟩
theorem Laws.Shape.axsImm (imm : Byte) : Laws.Shape.Statement (.axsImm imm) := ⟨rfl, rfl⟩
theorem Laws.Shape.cpyAbs (lo hi : Byte) : Laws.Shape.Statement (.cpyAbs lo hi) := ⟨rfl, rfl⟩
theorem Laws.Shape.cmpAbs (lo hi : Byte) : Laws.Shape.Statement (.cmpAbs lo hi) := ⟨rfl, rfl⟩
theorem Laws.Shape.decAbs (lo hi : Byte) : Laws.Shape.Statement (.decAbs lo hi) := ⟨rfl, rfl⟩
theorem Laws.Shape.dcpAbs (lo hi : Byte) : Laws.Shape.Statement (.dcpAbs lo hi) := ⟨rfl, rfl⟩
theorem Laws.Shape.bne (rel : Byte) : Laws.Shape.Statement (.bne rel) := ⟨rfl, rfl⟩
theorem Laws.Shape.cmpIndY (zp : Byte) : Laws.Shape.Statement (.cmpIndY zp) := ⟨rfl, rfl⟩
theorem Laws.Shape.kilD2 : Laws.Shape.Statement .kilD2 := ⟨rfl, rfl⟩
theorem Laws.Shape.dcpIndY (zp : Byte) : Laws.Shape.Statement (.dcpIndY zp) := ⟨rfl, rfl⟩
theorem Laws.Shape.nopZpXD4 (zp : Byte) : Laws.Shape.Statement (.nopZpXD4 zp) := ⟨rfl, rfl⟩
theorem Laws.Shape.cmpZpX (zp : Byte) : Laws.Shape.Statement (.cmpZpX zp) := ⟨rfl, rfl⟩
theorem Laws.Shape.decZpX (zp : Byte) : Laws.Shape.Statement (.decZpX zp) := ⟨rfl, rfl⟩
theorem Laws.Shape.dcpZpX (zp : Byte) : Laws.Shape.Statement (.dcpZpX zp) := ⟨rfl, rfl⟩
theorem Laws.Shape.cld : Laws.Shape.Statement .cld := ⟨rfl, rfl⟩
theorem Laws.Shape.cmpAbsY (lo hi : Byte) : Laws.Shape.Statement (.cmpAbsY lo hi) := ⟨rfl, rfl⟩
theorem Laws.Shape.nopDA : Laws.Shape.Statement .nopDA := ⟨rfl, rfl⟩
theorem Laws.Shape.dcpAbsY (lo hi : Byte) : Laws.Shape.Statement (.dcpAbsY lo hi) := ⟨rfl, rfl⟩
theorem Laws.Shape.nopAbsXDC (lo hi : Byte) : Laws.Shape.Statement (.nopAbsXDC lo hi) := ⟨rfl, rfl⟩
theorem Laws.Shape.cmpAbsX (lo hi : Byte) : Laws.Shape.Statement (.cmpAbsX lo hi) := ⟨rfl, rfl⟩
theorem Laws.Shape.decAbsX (lo hi : Byte) : Laws.Shape.Statement (.decAbsX lo hi) := ⟨rfl, rfl⟩
theorem Laws.Shape.dcpAbsX (lo hi : Byte) : Laws.Shape.Statement (.dcpAbsX lo hi) := ⟨rfl, rfl⟩
theorem Laws.Shape.cpxImm (imm : Byte) : Laws.Shape.Statement (.cpxImm imm) := ⟨rfl, rfl⟩
theorem Laws.Shape.sbcIndX (zp : Byte) : Laws.Shape.Statement (.sbcIndX zp) := ⟨rfl, rfl⟩
theorem Laws.Shape.nopImmE2 (imm : Byte) : Laws.Shape.Statement (.nopImmE2 imm) := ⟨rfl, rfl⟩
theorem Laws.Shape.iscIndX (zp : Byte) : Laws.Shape.Statement (.iscIndX zp) := ⟨rfl, rfl⟩
theorem Laws.Shape.cpxZp (zp : Byte) : Laws.Shape.Statement (.cpxZp zp) := ⟨rfl, rfl⟩
theorem Laws.Shape.sbcZp (zp : Byte) : Laws.Shape.Statement (.sbcZp zp) := ⟨rfl, rfl⟩
theorem Laws.Shape.incZp (zp : Byte) : Laws.Shape.Statement (.incZp zp) := ⟨rfl, rfl⟩
theorem Laws.Shape.iscZp (zp : Byte) : Laws.Shape.Statement (.iscZp zp) := ⟨rfl, rfl⟩
theorem Laws.Shape.inx : Laws.Shape.Statement .inx := ⟨rfl, rfl⟩
theorem Laws.Shape.sbcImm (imm : Byte) : Laws.Shape.Statement (.sbcImm imm) := ⟨rfl, rfl⟩
theorem Laws.Shape.nop : Laws.Shape.Statement .nop := ⟨rfl, rfl⟩
theorem Laws.Shape.sbcImmEB (imm : Byte) : Laws.Shape.Statement (.sbcImmEB imm) := ⟨rfl, rfl⟩
theorem Laws.Shape.cpxAbs (lo hi : Byte) : Laws.Shape.Statement (.cpxAbs lo hi) := ⟨rfl, rfl⟩
theorem Laws.Shape.sbcAbs (lo hi : Byte) : Laws.Shape.Statement (.sbcAbs lo hi) := ⟨rfl, rfl⟩
theorem Laws.Shape.incAbs (lo hi : Byte) : Laws.Shape.Statement (.incAbs lo hi) := ⟨rfl, rfl⟩
theorem Laws.Shape.iscAbs (lo hi : Byte) : Laws.Shape.Statement (.iscAbs lo hi) := ⟨rfl, rfl⟩
theorem Laws.Shape.beq (rel : Byte) : Laws.Shape.Statement (.beq rel) := ⟨rfl, rfl⟩
theorem Laws.Shape.sbcIndY (zp : Byte) : Laws.Shape.Statement (.sbcIndY zp) := ⟨rfl, rfl⟩
theorem Laws.Shape.kilF2 : Laws.Shape.Statement .kilF2 := ⟨rfl, rfl⟩
theorem Laws.Shape.iscIndY (zp : Byte) : Laws.Shape.Statement (.iscIndY zp) := ⟨rfl, rfl⟩
theorem Laws.Shape.nopZpXF4 (zp : Byte) : Laws.Shape.Statement (.nopZpXF4 zp) := ⟨rfl, rfl⟩
theorem Laws.Shape.sbcZpX (zp : Byte) : Laws.Shape.Statement (.sbcZpX zp) := ⟨rfl, rfl⟩
theorem Laws.Shape.incZpX (zp : Byte) : Laws.Shape.Statement (.incZpX zp) := ⟨rfl, rfl⟩
theorem Laws.Shape.iscZpX (zp : Byte) : Laws.Shape.Statement (.iscZpX zp) := ⟨rfl, rfl⟩
theorem Laws.Shape.sed : Laws.Shape.Statement .sed := ⟨rfl, rfl⟩
theorem Laws.Shape.sbcAbsY (lo hi : Byte) : Laws.Shape.Statement (.sbcAbsY lo hi) := ⟨rfl, rfl⟩
theorem Laws.Shape.nopFA : Laws.Shape.Statement .nopFA := ⟨rfl, rfl⟩
theorem Laws.Shape.iscAbsY (lo hi : Byte) : Laws.Shape.Statement (.iscAbsY lo hi) := ⟨rfl, rfl⟩
theorem Laws.Shape.nopAbsXFC (lo hi : Byte) : Laws.Shape.Statement (.nopAbsXFC lo hi) := ⟨rfl, rfl⟩
theorem Laws.Shape.sbcAbsX (lo hi : Byte) : Laws.Shape.Statement (.sbcAbsX lo hi) := ⟨rfl, rfl⟩
theorem Laws.Shape.incAbsX (lo hi : Byte) : Laws.Shape.Statement (.incAbsX lo hi) := ⟨rfl, rfl⟩
theorem Laws.Shape.iscAbsX (lo hi : Byte) : Laws.Shape.Statement (.iscAbsX lo hi) := ⟨rfl, rfl⟩

end Sys2Proof
end

