-- ==== Sys2Proof/Tests/Slice0.lean ====
section
/-! SUPPORT. The model's own tests: well-formedness, decoding, the vectors of spec/95_test_vectors.md one step at a time, and a
witness for the hypotheses of every statement of Obligations.lean. -/

namespace Sys2Proof.Tests

open Sys2Proof.Machine

/-! ### The states the tests start from -/

/-- The start state of section 2 of 95_test_vectors.md: flat memory (92 D21), the default parameters, S = $FD, all flags 0. -/
def lab (pc : Addr) (bytes : List Byte) (cells : List (Addr × Byte) := []) : State :=
  cells.foldl (fun s c => s.poke c.1 [c.2])
    (State.poke
      { State.reset with
        busMap := flatMap, params := Params.vectorDefaults, rstPending := none, pc := pc, sp := 0xFD
        p := ⟨false, false, false, false, false, false⟩ } pc bytes)

/-- The state after one step. -/
def after (s : State) : State :=
  match step s with
  | .next t => t
  | _ => s

/-! ### Well-formedness: the one check, on the length of a string of bytes, in every way it can fail -/

/-- R80: an instruction has an opcode byte. -/
theorem test_ill_formed_empty : wellFormedBytes [] = false := by decide

/-- R82: LDA immediate needs one operand byte. -/
theorem test_ill_formed_missing_operand : wellFormedBytes [0xA9] = false := by decide

/-- R82: JMP absolute needs two operand bytes. -/
theorem test_ill_formed_missing_high_byte : wellFormedBytes [0x4C, 0x00] = false := by decide

/-- R82: NOP has no operand byte. -/
theorem test_ill_formed_extra_byte : wellFormedBytes [0xEA, 0x00] = false := by decide

/-- R82: LDA immediate has one operand byte and JMP absolute two, no more. -/
theorem test_ill_formed_extra_operand :
    wellFormedBytes [0xA9, 0x00, 0x00] = false ∧ wellFormedBytes [0x4C, 0x00, 0x00, 0x00] = false := by decide

/-- The three lengths of R80. -/
theorem test_well_formed_lengths :
    wellFormedBytes [0xEA] = true ∧ wellFormedBytes [0xA9, 0x00] = true ∧ wellFormedBytes [0x4C, 0x00, 0xC0] = true := by
  decide

/-- A list of bytes that ends before its instruction does is refused by name; no opcode is (R90). -/
theorem test_decode_refuses_truncated :
    decode [] = .error .empty ∧ decode [0xA9] = .error (.truncated 0xA9) ∧ decode [0x4C, 0x00] = .error (.truncated 0x4C) := by
  decide

/-! ### Decoding: every opcode of the map of 30_encoding.md R84, as bytes written from it -/

/-- Whether bytes decode to an instruction, all of them. -/
def isInstr (c : List Byte × Instr) : Bool := decode c.1 == .ok (c.2, [])

/-- Row 0x of the map. -/
theorem test_decode_row_0 :
    ([([0x00], .brk), ([0x01, 0x5A], .oraIndX 0x5A), ([0x02], .kil02), ([0x03, 0x5A], .sloIndX 0x5A),
      ([0x04, 0x5A], .nopZp04 0x5A), ([0x05, 0x5A], .oraZp 0x5A), ([0x06, 0x5A], .aslZp 0x5A),
        ([0x07, 0x5A], .sloZp 0x5A),
      ([0x08], .php), ([0x09, 0x5A], .oraImm 0x5A), ([0x0A], .aslA), ([0x0B, 0x5A], .ancImm0B 0x5A),
      ([0x0C, 0x34, 0x12], .nopAbs0C 0x34 0x12), ([0x0D, 0x34, 0x12], .oraAbs 0x34 0x12),
        ([0x0E, 0x34, 0x12], .aslAbs 0x34 0x12),
        ([0x0F, 0x34, 0x12], .sloAbs 0x34 0x12)] : List (List Byte × Instr)).all isInstr = true := by decide

/-- Row 1x of the map. -/
theorem test_decode_row_1 :
    ([([0x10, 0x5A], .bpl 0x5A), ([0x11, 0x5A], .oraIndY 0x5A), ([0x12], .kil12), ([0x13, 0x5A], .sloIndY 0x5A),
      ([0x14, 0x5A], .nopZpX14 0x5A), ([0x15, 0x5A], .oraZpX 0x5A), ([0x16, 0x5A], .aslZpX 0x5A),
        ([0x17, 0x5A], .sloZpX 0x5A),
      ([0x18], .clc), ([0x19, 0x34, 0x12], .oraAbsY 0x34 0x12), ([0x1A], .nop1A),
        ([0x1B, 0x34, 0x12], .sloAbsY 0x34 0x12),
      ([0x1C, 0x34, 0x12], .nopAbsX1C 0x34 0x12), ([0x1D, 0x34, 0x12], .oraAbsX 0x34 0x12),
        ([0x1E, 0x34, 0x12], .aslAbsX 0x34 0x12),
        ([0x1F, 0x34, 0x12], .sloAbsX 0x34 0x12)] : List (List Byte × Instr)).all isInstr = true := by decide

/-- Row 2x of the map. -/
theorem test_decode_row_2 :
    ([([0x20, 0x34, 0x12], .jsrAbs 0x34 0x12), ([0x21, 0x5A], .andIndX 0x5A), ([0x22], .kil22),
        ([0x23, 0x5A], .rlaIndX 0x5A),
      ([0x24, 0x5A], .bitZp 0x5A), ([0x25, 0x5A], .andZp 0x5A), ([0x26, 0x5A], .rolZp 0x5A),
        ([0x27, 0x5A], .rlaZp 0x5A),
      ([0x28], .plp), ([0x29, 0x5A], .andImm 0x5A), ([0x2A], .rolA), ([0x2B, 0x5A], .ancImm2B 0x5A),
      ([0x2C, 0x34, 0x12], .bitAbs 0x34 0x12), ([0x2D, 0x34, 0x12], .andAbs 0x34 0x12),
        ([0x2E, 0x34, 0x12], .rolAbs 0x34 0x12),
        ([0x2F, 0x34, 0x12], .rlaAbs 0x34 0x12)] : List (List Byte × Instr)).all isInstr = true := by decide

/-- Row 3x of the map. -/
theorem test_decode_row_3 :
    ([([0x30, 0x5A], .bmi 0x5A), ([0x31, 0x5A], .andIndY 0x5A), ([0x32], .kil32), ([0x33, 0x5A], .rlaIndY 0x5A),
      ([0x34, 0x5A], .nopZpX34 0x5A), ([0x35, 0x5A], .andZpX 0x5A), ([0x36, 0x5A], .rolZpX 0x5A),
        ([0x37, 0x5A], .rlaZpX 0x5A),
      ([0x38], .sec), ([0x39, 0x34, 0x12], .andAbsY 0x34 0x12), ([0x3A], .nop3A),
        ([0x3B, 0x34, 0x12], .rlaAbsY 0x34 0x12),
      ([0x3C, 0x34, 0x12], .nopAbsX3C 0x34 0x12), ([0x3D, 0x34, 0x12], .andAbsX 0x34 0x12),
        ([0x3E, 0x34, 0x12], .rolAbsX 0x34 0x12),
        ([0x3F, 0x34, 0x12], .rlaAbsX 0x34 0x12)] : List (List Byte × Instr)).all isInstr = true := by decide

/-- Row 4x of the map. -/
theorem test_decode_row_4 :
    ([([0x40], .rti), ([0x41, 0x5A], .eorIndX 0x5A), ([0x42], .kil42), ([0x43, 0x5A], .sreIndX 0x5A),
      ([0x44, 0x5A], .nopZp44 0x5A), ([0x45, 0x5A], .eorZp 0x5A), ([0x46, 0x5A], .lsrZp 0x5A),
        ([0x47, 0x5A], .sreZp 0x5A),
      ([0x48], .pha), ([0x49, 0x5A], .eorImm 0x5A), ([0x4A], .lsrA), ([0x4B, 0x5A], .alrImm 0x5A),
      ([0x4C, 0x34, 0x12], .jmpAbs 0x34 0x12), ([0x4D, 0x34, 0x12], .eorAbs 0x34 0x12),
        ([0x4E, 0x34, 0x12], .lsrAbs 0x34 0x12),
        ([0x4F, 0x34, 0x12], .sreAbs 0x34 0x12)] : List (List Byte × Instr)).all isInstr = true := by decide

/-- Row 5x of the map. -/
theorem test_decode_row_5 :
    ([([0x50, 0x5A], .bvc 0x5A), ([0x51, 0x5A], .eorIndY 0x5A), ([0x52], .kil52), ([0x53, 0x5A], .sreIndY 0x5A),
      ([0x54, 0x5A], .nopZpX54 0x5A), ([0x55, 0x5A], .eorZpX 0x5A), ([0x56, 0x5A], .lsrZpX 0x5A),
        ([0x57, 0x5A], .sreZpX 0x5A),
      ([0x58], .cli), ([0x59, 0x34, 0x12], .eorAbsY 0x34 0x12), ([0x5A], .nop5A),
        ([0x5B, 0x34, 0x12], .sreAbsY 0x34 0x12),
      ([0x5C, 0x34, 0x12], .nopAbsX5C 0x34 0x12), ([0x5D, 0x34, 0x12], .eorAbsX 0x34 0x12),
        ([0x5E, 0x34, 0x12], .lsrAbsX 0x34 0x12),
        ([0x5F, 0x34, 0x12], .sreAbsX 0x34 0x12)] : List (List Byte × Instr)).all isInstr = true := by decide

/-- Row 6x of the map. -/
theorem test_decode_row_6 :
    ([([0x60], .rts), ([0x61, 0x5A], .adcIndX 0x5A), ([0x62], .kil62), ([0x63, 0x5A], .rraIndX 0x5A),
      ([0x64, 0x5A], .nopZp64 0x5A), ([0x65, 0x5A], .adcZp 0x5A), ([0x66, 0x5A], .rorZp 0x5A),
        ([0x67, 0x5A], .rraZp 0x5A),
      ([0x68], .pla), ([0x69, 0x5A], .adcImm 0x5A), ([0x6A], .rorA), ([0x6B, 0x5A], .arrImm 0x5A),
      ([0x6C, 0x34, 0x12], .jmpInd 0x34 0x12), ([0x6D, 0x34, 0x12], .adcAbs 0x34 0x12),
        ([0x6E, 0x34, 0x12], .rorAbs 0x34 0x12),
        ([0x6F, 0x34, 0x12], .rraAbs 0x34 0x12)] : List (List Byte × Instr)).all isInstr = true := by decide

/-- Row 7x of the map. -/
theorem test_decode_row_7 :
    ([([0x70, 0x5A], .bvs 0x5A), ([0x71, 0x5A], .adcIndY 0x5A), ([0x72], .kil72), ([0x73, 0x5A], .rraIndY 0x5A),
      ([0x74, 0x5A], .nopZpX74 0x5A), ([0x75, 0x5A], .adcZpX 0x5A), ([0x76, 0x5A], .rorZpX 0x5A),
        ([0x77, 0x5A], .rraZpX 0x5A),
      ([0x78], .sei), ([0x79, 0x34, 0x12], .adcAbsY 0x34 0x12), ([0x7A], .nop7A),
        ([0x7B, 0x34, 0x12], .rraAbsY 0x34 0x12),
      ([0x7C, 0x34, 0x12], .nopAbsX7C 0x34 0x12), ([0x7D, 0x34, 0x12], .adcAbsX 0x34 0x12),
        ([0x7E, 0x34, 0x12], .rorAbsX 0x34 0x12),
        ([0x7F, 0x34, 0x12], .rraAbsX 0x34 0x12)] : List (List Byte × Instr)).all isInstr = true := by decide

/-- Row 8x of the map. -/
theorem test_decode_row_8 :
    ([([0x80, 0x5A], .nopImm80 0x5A), ([0x81, 0x5A], .staIndX 0x5A), ([0x82, 0x5A], .nopImm82 0x5A),
        ([0x83, 0x5A], .saxIndX 0x5A),
      ([0x84, 0x5A], .styZp 0x5A), ([0x85, 0x5A], .staZp 0x5A), ([0x86, 0x5A], .stxZp 0x5A),
        ([0x87, 0x5A], .saxZp 0x5A),
      ([0x88], .dey), ([0x89, 0x5A], .nopImm89 0x5A), ([0x8A], .txa), ([0x8B, 0x5A], .xaaImm 0x5A),
      ([0x8C, 0x34, 0x12], .styAbs 0x34 0x12), ([0x8D, 0x34, 0x12], .staAbs 0x34 0x12),
        ([0x8E, 0x34, 0x12], .stxAbs 0x34 0x12),
        ([0x8F, 0x34, 0x12], .saxAbs 0x34 0x12)] : List (List Byte × Instr)).all isInstr = true := by decide

/-- Row 9x of the map. -/
theorem test_decode_row_9 :
    ([([0x90, 0x5A], .bcc 0x5A), ([0x91, 0x5A], .staIndY 0x5A), ([0x92], .kil92), ([0x93, 0x5A], .ahxIndY 0x5A),
      ([0x94, 0x5A], .styZpX 0x5A), ([0x95, 0x5A], .staZpX 0x5A), ([0x96, 0x5A], .stxZpY 0x5A),
        ([0x97, 0x5A], .saxZpY 0x5A),
      ([0x98], .tya), ([0x99, 0x34, 0x12], .staAbsY 0x34 0x12), ([0x9A], .txs),
        ([0x9B, 0x34, 0x12], .tasAbsY 0x34 0x12),
      ([0x9C, 0x34, 0x12], .shyAbsX 0x34 0x12), ([0x9D, 0x34, 0x12], .staAbsX 0x34 0x12),
        ([0x9E, 0x34, 0x12], .shxAbsY 0x34 0x12),
        ([0x9F, 0x34, 0x12], .ahxAbsY 0x34 0x12)] : List (List Byte × Instr)).all isInstr = true := by decide

/-- Row Ax of the map. -/
theorem test_decode_row_A :
    ([([0xA0, 0x5A], .ldyImm 0x5A), ([0xA1, 0x5A], .ldaIndX 0x5A), ([0xA2, 0x5A], .ldxImm 0x5A),
        ([0xA3, 0x5A], .laxIndX 0x5A),
      ([0xA4, 0x5A], .ldyZp 0x5A), ([0xA5, 0x5A], .ldaZp 0x5A), ([0xA6, 0x5A], .ldxZp 0x5A),
        ([0xA7, 0x5A], .laxZp 0x5A),
      ([0xA8], .tay), ([0xA9, 0x5A], .ldaImm 0x5A), ([0xAA], .tax), ([0xAB, 0x5A], .laxImm 0x5A),
      ([0xAC, 0x34, 0x12], .ldyAbs 0x34 0x12), ([0xAD, 0x34, 0x12], .ldaAbs 0x34 0x12),
        ([0xAE, 0x34, 0x12], .ldxAbs 0x34 0x12),
        ([0xAF, 0x34, 0x12], .laxAbs 0x34 0x12)] : List (List Byte × Instr)).all isInstr = true := by decide

/-- Row Bx of the map. -/
theorem test_decode_row_B :
    ([([0xB0, 0x5A], .bcs 0x5A), ([0xB1, 0x5A], .ldaIndY 0x5A), ([0xB2], .kilB2), ([0xB3, 0x5A], .laxIndY 0x5A),
      ([0xB4, 0x5A], .ldyZpX 0x5A), ([0xB5, 0x5A], .ldaZpX 0x5A), ([0xB6, 0x5A], .ldxZpY 0x5A),
        ([0xB7, 0x5A], .laxZpY 0x5A),
      ([0xB8], .clv), ([0xB9, 0x34, 0x12], .ldaAbsY 0x34 0x12), ([0xBA], .tsx),
        ([0xBB, 0x34, 0x12], .lasAbsY 0x34 0x12),
      ([0xBC, 0x34, 0x12], .ldyAbsX 0x34 0x12), ([0xBD, 0x34, 0x12], .ldaAbsX 0x34 0x12),
        ([0xBE, 0x34, 0x12], .ldxAbsY 0x34 0x12),
        ([0xBF, 0x34, 0x12], .laxAbsY 0x34 0x12)] : List (List Byte × Instr)).all isInstr = true := by decide

/-- Row Cx of the map. -/
theorem test_decode_row_C :
    ([([0xC0, 0x5A], .cpyImm 0x5A), ([0xC1, 0x5A], .cmpIndX 0x5A), ([0xC2, 0x5A], .nopImmC2 0x5A),
        ([0xC3, 0x5A], .dcpIndX 0x5A),
      ([0xC4, 0x5A], .cpyZp 0x5A), ([0xC5, 0x5A], .cmpZp 0x5A), ([0xC6, 0x5A], .decZp 0x5A),
        ([0xC7, 0x5A], .dcpZp 0x5A),
      ([0xC8], .iny), ([0xC9, 0x5A], .cmpImm 0x5A), ([0xCA], .dex), ([0xCB, 0x5A], .axsImm 0x5A),
      ([0xCC, 0x34, 0x12], .cpyAbs 0x34 0x12), ([0xCD, 0x34, 0x12], .cmpAbs 0x34 0x12),
        ([0xCE, 0x34, 0x12], .decAbs 0x34 0x12),
        ([0xCF, 0x34, 0x12], .dcpAbs 0x34 0x12)] : List (List Byte × Instr)).all isInstr = true := by decide

/-- Row Dx of the map. -/
theorem test_decode_row_D :
    ([([0xD0, 0x5A], .bne 0x5A), ([0xD1, 0x5A], .cmpIndY 0x5A), ([0xD2], .kilD2), ([0xD3, 0x5A], .dcpIndY 0x5A),
      ([0xD4, 0x5A], .nopZpXD4 0x5A), ([0xD5, 0x5A], .cmpZpX 0x5A), ([0xD6, 0x5A], .decZpX 0x5A),
        ([0xD7, 0x5A], .dcpZpX 0x5A),
      ([0xD8], .cld), ([0xD9, 0x34, 0x12], .cmpAbsY 0x34 0x12), ([0xDA], .nopDA),
        ([0xDB, 0x34, 0x12], .dcpAbsY 0x34 0x12),
      ([0xDC, 0x34, 0x12], .nopAbsXDC 0x34 0x12), ([0xDD, 0x34, 0x12], .cmpAbsX 0x34 0x12),
        ([0xDE, 0x34, 0x12], .decAbsX 0x34 0x12),
        ([0xDF, 0x34, 0x12], .dcpAbsX 0x34 0x12)] : List (List Byte × Instr)).all isInstr = true := by decide

/-- Row Ex of the map. -/
theorem test_decode_row_E :
    ([([0xE0, 0x5A], .cpxImm 0x5A), ([0xE1, 0x5A], .sbcIndX 0x5A), ([0xE2, 0x5A], .nopImmE2 0x5A),
        ([0xE3, 0x5A], .iscIndX 0x5A),
      ([0xE4, 0x5A], .cpxZp 0x5A), ([0xE5, 0x5A], .sbcZp 0x5A), ([0xE6, 0x5A], .incZp 0x5A),
        ([0xE7, 0x5A], .iscZp 0x5A),
      ([0xE8], .inx), ([0xE9, 0x5A], .sbcImm 0x5A), ([0xEA], .nop), ([0xEB, 0x5A], .sbcImmEB 0x5A),
      ([0xEC, 0x34, 0x12], .cpxAbs 0x34 0x12), ([0xED, 0x34, 0x12], .sbcAbs 0x34 0x12),
        ([0xEE, 0x34, 0x12], .incAbs 0x34 0x12),
        ([0xEF, 0x34, 0x12], .iscAbs 0x34 0x12)] : List (List Byte × Instr)).all isInstr = true := by decide

/-- Row Fx of the map. -/
theorem test_decode_row_F :
    ([([0xF0, 0x5A], .beq 0x5A), ([0xF1, 0x5A], .sbcIndY 0x5A), ([0xF2], .kilF2), ([0xF3, 0x5A], .iscIndY 0x5A),
      ([0xF4, 0x5A], .nopZpXF4 0x5A), ([0xF5, 0x5A], .sbcZpX 0x5A), ([0xF6, 0x5A], .incZpX 0x5A),
        ([0xF7, 0x5A], .iscZpX 0x5A),
      ([0xF8], .sed), ([0xF9, 0x34, 0x12], .sbcAbsY 0x34 0x12), ([0xFA], .nopFA),
        ([0xFB, 0x34, 0x12], .iscAbsY 0x34 0x12),
      ([0xFC, 0x34, 0x12], .nopAbsXFC 0x34 0x12), ([0xFD, 0x34, 0x12], .sbcAbsX 0x34 0x12),
        ([0xFE, 0x34, 0x12], .incAbsX 0x34 0x12),
        ([0xFF, 0x34, 0x12], .iscAbsX 0x34 0x12)] : List (List Byte × Instr)).all isInstr = true := by decide

/-! ### The vectors of section 2 of 95_test_vectors.md -/

/-- 95_test_vectors.md F1: `A9 00` (R140). -/
theorem test_lda_f1 :
    let t := after (lab 0x0600 [0xA9, 0x00])
    t.a = 0x00 ∧ t.p.z = true ∧ t.p.n = false ∧ t.cycles = 2 := by decide

/-- 95_test_vectors.md F2: `B5 F0` (R140). -/
theorem test_lda_f2 :
    let t := after { lab 0x0600 [0xB5, 0xF0] [(0x0010, 0x99)] with
      x := 0x20 }
    t.a = 0x99 ∧ t.p.n = true ∧ t.cycles = 4 := by decide

/-- 95_test_vectors.md F3: `B1 40` (R140). -/
theorem test_lda_f3 :
    let t := after { lab 0x0600 [0xB1, 0x40] [(0x0040, 0xFF), (0x0041, 0x02), (0x0300, 0x7E)] with
      y := 0x01 }
    t.a = 0x7E ∧ t.p.n = false ∧ t.p.z = false ∧ t.cycles = 6 := by decide

/-- 95_test_vectors.md F4: `A1 FF` (R140). -/
theorem test_lda_f4 :
    let t := after { lab 0x0600 [0xA1, 0xFF] [(0x00FF, 0x34), (0x0000, 0x12), (0x1234, 0x5B)] with
      x := 0x00 }
    t.a = 0x5B ∧ t.cycles = 6 := by decide

/-- 95_test_vectors.md F5: `B6 FF` (R141). -/
theorem test_ldx_f5 :
    let t := after { lab 0x0600 [0xB6, 0xFF] [(0x0001, 0x80)] with
      y := 0x02 }
    t.x = 0x80 ∧ t.p.n = true ∧ t.cycles = 4 := by decide

/-- 95_test_vectors.md F6: `BC 00 03` (R142). -/
theorem test_ldy_f6 :
    let t := after { lab 0x0600 [0xBC, 0x00, 0x03] [(0x03FF, 0x01)] with
      x := 0xFF }
    t.y = 0x01 ∧ t.cycles = 4 := by decide

/-- 95_test_vectors.md F7: `91 40` (R143). -/
theorem test_sta_f7 :
    let t := after { lab 0x0600 [0x91, 0x40] [(0x0040, 0xFF), (0x0041, 0x02)] with
      a := 0x5A, y := 0x01 }
    t.peek 0x0300 = some 0x5A ∧ t.cycles = 6 := by decide

/-- 95_test_vectors.md F8: `99 00 02` (R143). -/
theorem test_sta_f8 :
    let t := after { lab 0x0600 [0x99, 0x00, 0x02] with
      a := 0x77, y := 0x05 }
    t.peek 0x0205 = some 0x77 ∧ t.cycles = 5 := by decide

/-- 95_test_vectors.md F9: `96 FF` (R144). -/
theorem test_stx_f9 :
    let t := after { lab 0x0600 [0x96, 0xFF] with
      x := 0x12, y := 0x02 }
    t.peek 0x0001 = some 0x12 ∧ t.cycles = 4 := by decide

/-- 95_test_vectors.md F10: `BA` (R150). -/
theorem test_tsx_f10 :
    let t := after { lab 0x0600 [0xBA] with
      sp := 0x00 }
    t.x = 0x00 ∧ t.p.z = true ∧ t.p.n = false ∧ t.cycles = 2 := by decide

/-- 95_test_vectors.md F11: `9A` (R151). -/
theorem test_txs_f11 :
    let t := after { lab 0x0600 [0x9A] with
      x := 0x80 }
    t.sp = 0x80 ∧ t.p.n = false ∧ t.p.z = false ∧ t.cycles = 2 := by decide

/-- 95_test_vectors.md F14: `69 FF` (R163). -/
theorem test_adc_f14 :
    let t := after { lab 0x0600 [0x69, 0xFF] with
      a := 0x80 }
    t.a = 0x7F ∧ t.p.n = false ∧ t.p.v = true ∧ t.p.z = false ∧ t.p.c = true ∧ t.cycles = 2 := by decide

/-- 95_test_vectors.md F18: `69 01` (R163). -/
theorem test_adc_f18 :
    let t := after { lab 0x0600 [0x69, 0x01] with
      a := 0x09, p := ⟨false, false, true, false, false, false⟩ }
    t.a = 0x0A ∧ t.p.c = false ∧ t.cycles = 2 := by decide

/-- 95_test_vectors.md F20: `E9 01` (R164). -/
theorem test_sbc_f20 :
    let t := after { lab 0x0600 [0xE9, 0x01] with
      a := 0x80, p := ⟨false, false, false, false, false, true⟩ }
    t.a = 0x7F ∧ t.p.n = false ∧ t.p.v = true ∧ t.p.z = false ∧ t.p.c = true ∧ t.cycles = 2 := by decide

/-- 95_test_vectors.md F22: `E9 50` (R164). -/
theorem test_sbc_f22 :
    let t := after { lab 0x0600 [0xE9, 0x50] with
      a := 0x50 }
    t.a = 0xFF ∧ t.p.n = true ∧ t.p.v = false ∧ t.p.z = false ∧ t.p.c = false ∧ t.cycles = 2 := by decide

/-- 95_test_vectors.md F24: `2C 00 02` (R168). -/
theorem test_bit_f24 :
    let t := after { lab 0x0600 [0x2C, 0x00, 0x02] [(0x0200, 0x3F)] with
      a := 0xFF }
    t.p.z = false ∧ t.p.n = false ∧ t.p.v = false ∧ t.a = 0xFF ∧ t.cycles = 4 := by decide

/-- 95_test_vectors.md F25: `24 10` (R168). -/
theorem test_bit_f25 :
    let t := after { lab 0x0600 [0x24, 0x10] [(0x0010, 0x40)] with
      a := 0x01 }
    t.p.z = true ∧ t.p.n = false ∧ t.p.v = true ∧ t.cycles = 3 := by decide

/-- 95_test_vectors.md F26: `C9 41` (R169). -/
theorem test_cmp_f26 :
    let t := after { lab 0x0600 [0xC9, 0x41] with
      a := 0x40, p := ⟨false, true, false, false, false, false⟩ }
    t.p.c = false ∧ t.p.z = false ∧ t.p.n = true ∧ t.p.v = true ∧ t.cycles = 2 := by decide

/-- 95_test_vectors.md F27: `C9 00` (R169). -/
theorem test_cmp_f27 :
    let t := after { lab 0x0600 [0xC9, 0x00] with
      a := 0x80 }
    t.p.c = true ∧ t.p.z = false ∧ t.p.n = true ∧ t.cycles = 2 := by decide

/-- 95_test_vectors.md F28: `E0 FF` (R170). -/
theorem test_cpx_f28 :
    let t := after { lab 0x0600 [0xE0, 0xFF] with
      x := 0xFF }
    t.p.c = true ∧ t.p.z = true ∧ t.p.n = false ∧ t.cycles = 2 := by decide

/-- 95_test_vectors.md F29: `FE FF 02` (R172). -/
theorem test_inc_f29 :
    let t := after { lab 0x0600 [0xFE, 0xFF, 0x02] [(0x0300, 0xFF)] with
      x := 0x01 }
    t.p.z = true ∧ t.p.n = false ∧ t.peek 0x0300 = some 0x00 ∧ t.cycles = 7 := by decide

/-- 95_test_vectors.md F30: `D6 FF` (R173). -/
theorem test_dec_f30 :
    let t := after { lab 0x0600 [0xD6, 0xFF] [(0x0000, 0x00)] with
      x := 0x01 }
    t.p.n = true ∧ t.peek 0x0000 = some 0xFF ∧ t.cycles = 6 := by decide

/-- 95_test_vectors.md F31: `06 10` (R178). -/
theorem test_asl_f31 :
    let t := after (lab 0x0600 [0x06, 0x10] [(0x0010, 0x80)])
    t.p.c = true ∧ t.p.z = true ∧ t.p.n = false ∧ t.peek 0x0010 = some 0x00 ∧ t.cycles = 5 := by decide

/-- 95_test_vectors.md F32: `4A` (R179). -/
theorem test_lsr_f32 :
    let t := after { lab 0x0600 [0x4A] with
      a := 0x01 }
    t.a = 0x00 ∧ t.p.c = true ∧ t.p.z = true ∧ t.p.n = false ∧ t.cycles = 2 := by decide

/-- 95_test_vectors.md F33: `2E 00 02` (R180). -/
theorem test_rol_f33 :
    let t := after { lab 0x0600 [0x2E, 0x00, 0x02] [(0x0200, 0x80)] with
      p := ⟨false, false, false, false, false, true⟩ }
    t.p.c = true ∧ t.p.n = false ∧ t.p.z = false ∧ t.peek 0x0200 = some 0x01 ∧ t.cycles = 6 := by decide

/-- 95_test_vectors.md F34: `6A` (R181). -/
theorem test_ror_f34 :
    let t := after { lab 0x0600 [0x6A] with
      a := 0x01, p := ⟨false, false, false, false, false, true⟩ }
    t.a = 0x80 ∧ t.p.c = true ∧ t.p.n = true ∧ t.cycles = 2 := by decide

/-- 95_test_vectors.md F35: `76 10` (R181). -/
theorem test_ror_f35 :
    let t := after { lab 0x0600 [0x76, 0x10] [(0x0011, 0x01)] with
      x := 0x01 }
    t.p.c = true ∧ t.p.z = true ∧ t.peek 0x0011 = some 0x00 ∧ t.cycles = 6 := by decide

/-- 95_test_vectors.md F36: `48` (R200). -/
theorem test_pha_f36 :
    let t := after { lab 0x0600 [0x48] with
      a := 0x99, sp := 0x00 }
    t.sp = 0xFF ∧ t.peek 0x0100 = some 0x99 ∧ t.cycles = 3 := by decide

/-- 95_test_vectors.md F37: `08` (R201). -/
theorem test_php_f37 :
    let t := after { lab 0x0600 [0x08] with
      sp := 0xFD }
    t.sp = 0xFC ∧ t.peek 0x01FD = some 0x30 ∧ t.cycles = 3 := by decide

/-- 95_test_vectors.md F38: `08` (R201). -/
theorem test_php_f38 :
    let t := after { lab 0x0600 [0x08] with
      sp := 0xFD, p := ⟨true, true, true, true, true, true⟩ }
    t.peek 0x01FD = some 0xFF ∧ t.cycles = 3 := by decide

/-- 95_test_vectors.md F39: `68` (R202). -/
theorem test_pla_f39 :
    let t := after { lab 0x0600 [0x68] [(0x0100, 0x80)] with
      sp := 0xFF }
    t.a = 0x80 ∧ t.p.n = true ∧ t.sp = 0x00 ∧ t.cycles = 4 := by decide

/-- 95_test_vectors.md F40: `28` (R203). -/
theorem test_plp_f40 :
    let t := after { lab 0x0600 [0x28] [(0x01FF, 0x30)] with
      sp := 0xFE, p := ⟨true, false, false, false, false, true⟩ }
    t.p.n = false ∧ t.p.v = false ∧ t.p.d = false ∧ t.p.i = false ∧ t.p.z = false ∧ t.p.c = false ∧ t.sp = 0xFF ∧
      t.cycles = 4 := by decide

/-- 95_test_vectors.md F41: `28` (R203). -/
theorem test_plp_f41 :
    let t := after { lab 0x0600 [0x28] [(0x01FF, 0xCF)] with
      sp := 0xFE }
    t.p.n = true ∧ t.p.v = true ∧ t.p.d = true ∧ t.p.i = true ∧ t.p.z = true ∧ t.p.c = true ∧ t.cycles = 4 := by decide

/-- 95_test_vectors.md F42: `58` (R206). -/
theorem test_cli_f42 :
    let t := after { lab 0x0600 [0x58] with
      p := ⟨false, false, false, true, false, false⟩ }
    t.p.i = false ∧ t.cycles = 2 := by decide

/-- 95_test_vectors.md F43: `6C 00 03` (R221). -/
theorem test_jmp_f43 :
    let t := after (lab 0x0600 [0x6C, 0x00, 0x03] [(0x0300, 0x00), (0x0301, 0x07)])
    t.pc = 0x0700 ∧ t.cycles = 5 := by decide

/-- 95_test_vectors.md F44: `6C FF 03` (R221). -/
theorem test_jmp_f44 :
    let t := after (lab 0x0600 [0x6C, 0xFF, 0x03] [(0x03FF, 0x80), (0x0300, 0x50), (0x0400, 0x60)])
    t.pc = 0x5080 ∧ t.cycles = 5 := by decide

/-- 95_test_vectors.md F45: `20 34 12` (R222). -/
theorem test_jsr_f45 :
    let t := after { lab 0x0600 [0x20, 0x34, 0x12] with
      sp := 0x00 }
    t.sp = 0xFE ∧ t.pc = 0x1234 ∧ t.peek 0x0100 = some 0x06 ∧ t.peek 0x01FF = some 0x02 ∧ t.cycles = 6 := by decide

/-- 95_test_vectors.md F46: `60` (R223). -/
theorem test_rts_f46 :
    let t := after { lab 0x0600 [0x60] [(0x01FF, 0xFF), (0x0100, 0x12)] with
      sp := 0xFE }
    t.pc = 0x1300 ∧ t.sp = 0x00 ∧ t.cycles = 6 := by decide

/-- 95_test_vectors.md F47: `40` (R224). -/
theorem test_rti_f47 :
    let t := after { lab 0x0600 [0x40] [(0x01FD, 0xFF), (0x01FE, 0x34), (0x01FF, 0x12)] with
      sp := 0xFC }
    t.pc = 0x1234 ∧ t.p.n = true ∧ t.p.v = true ∧ t.p.d = true ∧ t.p.i = true ∧ t.p.z = true ∧ t.p.c = true ∧ t.sp =
      0xFF ∧ t.cycles = 6 := by decide

/-- 95_test_vectors.md F48: `00 AA` (R225). -/
theorem test_brk_f48 :
    let t := after { lab 0x0600 [0x00, 0xAA] [(0xFFFE, 0x34), (0xFFFF, 0x12)] with
      sp := 0xFD, p := ⟨true, false, true, false, false, false⟩ }
    t.sp = 0xFA ∧ t.p.i = true ∧ t.p.d = true ∧ t.pc = 0x1234 ∧ t.peek 0x01FD = some 0x06 ∧ t.peek 0x01FC = some 0x02
      ∧ t.peek 0x01FB = some 0xB8 ∧ t.cycles = 7 := by decide

/-- 95_test_vectors.md F49: `D0 02` (R233). -/
theorem test_bne_f49 :
    let t := after (lab 0x0600 [0xD0, 0x02])
    t.pc = 0x0604 ∧ t.cycles = 3 := by decide

/-- 95_test_vectors.md F50: `D0 02` (R233). -/
theorem test_bne_f50 :
    let t := after { lab 0x0600 [0xD0, 0x02] with
      p := ⟨false, false, false, false, true, false⟩ }
    t.pc = 0x0602 ∧ t.cycles = 2 := by decide

/-- 95_test_vectors.md F51: `10 7F` (R227). -/
theorem test_bpl_f51 :
    let t := after (lab 0x0680 [0x10, 0x7F])
    t.pc = 0x0701 ∧ t.cycles = 4 := by decide

/-- 95_test_vectors.md F52: `30 80` (R228). -/
theorem test_bmi_f52 :
    let t := after { lab 0x0000 [0x30, 0x80] with
      p := ⟨true, false, false, false, false, false⟩ }
    t.pc = 0xFF82 ∧ t.cycles = 4 := by decide

/-- 95_test_vectors.md F53: `0F 00 02` (R250). -/
theorem test_slo_f53 :
    let t := after { lab 0x0600 [0x0F, 0x00, 0x02] [(0x0200, 0x80)] with
      a := 0x00 }
    t.a = 0x00 ∧ t.p.c = true ∧ t.p.z = true ∧ t.peek 0x0200 = some 0x00 ∧ t.cycles = 6 := by decide

/-- 95_test_vectors.md F54: `2F 00 02` (R251). -/
theorem test_rla_f54 :
    let t := after { lab 0x0600 [0x2F, 0x00, 0x02] [(0x0200, 0x07)] with
      a := 0x0F, p := ⟨false, false, false, false, false, true⟩ }
    t.a = 0x0F ∧ t.p.c = false ∧ t.peek 0x0200 = some 0x0F ∧ t.cycles = 6 := by decide

/-- 95_test_vectors.md F55: `5F 00 02` (R252). -/
theorem test_sre_f55 :
    let t := after { lab 0x0600 [0x5F, 0x00, 0x02] [(0x0200, 0xFF)] with
      a := 0xFF, x := 0x00 }
    t.a = 0x80 ∧ t.p.c = true ∧ t.p.n = true ∧ t.peek 0x0200 = some 0x7F ∧ t.cycles = 7 := by decide

/-- 95_test_vectors.md F56: `7B 00 02` (R253). -/
theorem test_rra_f56 :
    let t := after { lab 0x0600 [0x7B, 0x00, 0x02] [(0x0200, 0x03)] with
      a := 0x7F, y := 0x00 }
    t.a = 0x81 ∧ t.p.v = true ∧ t.p.n = true ∧ t.p.c = false ∧ t.peek 0x0200 = some 0x01 ∧ t.cycles = 7 := by decide

/-- 95_test_vectors.md F57: `C3 10` (R257). -/
theorem test_dcp_f57 :
    let t := after { lab 0x0600 [0xC3, 0x10] [(0x0010, 0x00), (0x0011, 0x02), (0x0200, 0x00)] with
      a := 0x00, x := 0x00 }
    t.p.c = false ∧ t.p.z = false ∧ t.p.n = false ∧ t.peek 0x0200 = some 0xFF ∧ t.cycles = 8 := by decide

/-- 95_test_vectors.md F58: `F3 10` (R258). -/
theorem test_isc_f58 :
    let t := after { lab 0x0600 [0xF3, 0x10] [(0x0010, 0xFF), (0x0011, 0x02), (0x0300, 0xFF)] with
      a := 0x00, y := 0x01, p := ⟨false, false, false, false, false, true⟩ }
    t.a = 0x00 ∧ t.p.z = true ∧ t.p.c = true ∧ t.peek 0x0300 = some 0x00 ∧ t.cycles = 8 := by decide

/-- 95_test_vectors.md F59: `97 FF` (R254). -/
theorem test_sax_f59 :
    let t := after { lab 0x0600 [0x97, 0xFF] with
      a := 0xFF, x := 0x0F, y := 0x02 }
    t.peek 0x0001 = some 0x0F ∧ t.cycles = 4 := by decide

/-- 95_test_vectors.md F60: `BF FF 02` (R255). -/
theorem test_lax_f60 :
    let t := after { lab 0x0600 [0xBF, 0xFF, 0x02] [(0x0300, 0x00)] with
      y := 0x01 }
    t.a = 0x00 ∧ t.x = 0x00 ∧ t.p.z = true ∧ t.cycles = 5 := by decide

/-- 95_test_vectors.md F61: `AB FF` (R256). -/
theorem test_lax_f61 :
    let t := after { lab 0x0600 [0xAB, 0xFF] with
      a := 0x00 }
    t.a = 0xEE ∧ t.x = 0xEE ∧ t.p.n = true ∧ t.cycles = 2 := by decide

/-- 95_test_vectors.md F62: `AB 0F` (R256). -/
theorem test_lax_f62 :
    let t := after { lab 0x0600 [0xAB, 0x0F] with
      a := 0xFF }
    t.a = 0x0F ∧ t.x = 0x0F ∧ t.cycles = 2 := by decide

/-- 95_test_vectors.md F63: `BB FF 02` (R269). -/
theorem test_las_f63 :
    let t := after { lab 0x0600 [0xBB, 0xFF, 0x02] [(0x0300, 0x81)] with
      y := 0x01, sp := 0xFF }
    t.a = 0x81 ∧ t.x = 0x81 ∧ t.sp = 0x81 ∧ t.p.n = true ∧ t.cycles = 5 := by decide

/-- 95_test_vectors.md F64: `2B 7F` (R259). -/
theorem test_anc_f64 :
    let t := after { lab 0x0600 [0x2B, 0x7F] with
      a := 0xFF }
    t.a = 0x7F ∧ t.p.c = false ∧ t.p.n = false ∧ t.cycles = 2 := by decide

/-- 95_test_vectors.md F65: `4B FE` (R260). -/
theorem test_alr_f65 :
    let t := after { lab 0x0600 [0x4B, 0xFE] with
      a := 0xFF }
    t.a = 0x7F ∧ t.p.c = false ∧ t.p.n = false ∧ t.cycles = 2 := by decide

/-- 95_test_vectors.md F66: `6B FF` (R261). -/
theorem test_arr_f66 :
    let t := after { lab 0x0600 [0x6B, 0xFF] with
      a := 0x7F, p := ⟨false, false, false, false, false, true⟩ }
    t.a = 0xBF ∧ t.p.c = false ∧ t.p.v = true ∧ t.p.n = true ∧ t.cycles = 2 := by decide

/-- 95_test_vectors.md F67: `6B 01` (R261). -/
theorem test_arr_f67 :
    let t := after { lab 0x0600 [0x6B, 0x01] with
      a := 0x01 }
    t.a = 0x00 ∧ t.p.c = false ∧ t.p.v = false ∧ t.p.z = true ∧ t.cycles = 2 := by decide

/-- 95_test_vectors.md F68: `8B FF` (R262). -/
theorem test_xaa_f68 :
    let t := after { lab 0x0600 [0x8B, 0xFF] with
      a := 0x00, x := 0xFF }
    t.a = 0xEE ∧ t.p.n = true ∧ t.cycles = 2 := by decide

/-- 95_test_vectors.md F69: `CB 0C` (R263). -/
theorem test_axs_f69 :
    let t := after { lab 0x0600 [0xCB, 0x0C] with
      a := 0x0F, x := 0xFC }
    t.x = 0x00 ∧ t.p.c = true ∧ t.p.z = true ∧ t.cycles = 2 := by decide

/-- 95_test_vectors.md F70: `93 10` (R265). -/
theorem test_ahx_f70 :
    let t := after { lab 0x0600 [0x93, 0x10] [(0x0010, 0xF8), (0x0011, 0x03)] with
      a := 0xFF, x := 0xFF, y := 0x10 }
    t.peek 0x0408 = some 0x04 ∧ t.cycles = 6 := by decide

/-- 95_test_vectors.md F71: `9E FF 02` (R267). -/
theorem test_shx_f71 :
    let t := after { lab 0x0600 [0x9E, 0xFF, 0x02] with
      x := 0xFF, y := 0x01, params := { Params.vectorDefaults with shModel := .h1Plain } }
    t.peek 0x0300 = some 0x03 ∧ t.cycles = 5 := by decide

/-- 95_test_vectors.md F72: `1C F0 02` (R270). -/
theorem test_nop_f72 :
    let t := after { lab 0x0600 [0x1C, 0xF0, 0x02] with
      x := 0x10 }
    t.pc = 0x0603 ∧ t.cycles = 5 := by decide

/-- 95_test_vectors.md F73: `80 FF` (R270). -/
theorem test_nop_f73 :
    let t := after (lab 0x0600 [0x80, 0xFF])
    t.pc = 0x0602 ∧ t.cycles = 2 := by decide

/-- 95_test_vectors.md F74: `12` (R272). -/
theorem test_kil_f74 :
    let t := after (lab 0x0600 [0x12])
    t.pc = 0x0601 ∧ t.halted = true ∧ t.cycles = 2 := by decide

/-! ### The worked examples of 41 to 45, for the mnemonics and forms that the vectors leave out -/

/-- The example of 41_load_store_transfer.md R145: `84 20`. -/
theorem test_example_sty_zp :
    let t := after { lab 0x0600 [0x84, 0x20] with y := 0xFF }
    t.peek 0x0020 = some 0xFF ∧ t.cycles = 3 := by decide

/-- The example of 41_load_store_transfer.md R146: `AA`. -/
theorem test_example_tax :
    let t := after { lab 0x0600 [0xAA] with a := 0x00, x := 0x55 }
    t.x = 0x00 ∧ t.p.z = true ∧ t.a = 0x00 := by decide

/-- The example of 41_load_store_transfer.md R147: `A8`. -/
theorem test_example_tay :
    let t := after { lab 0x0600 [0xA8] with a := 0x90 }
    t.y = 0x90 ∧ t.p.n = true := by decide

/-- The example of 41_load_store_transfer.md R148: `8A`. -/
theorem test_example_txa :
    let t := after { lab 0x0600 [0x8A] with x := 0x01, a := 0x80 }
    t.a = 0x01 ∧ t.p.n = false ∧ t.p.z = false := by decide

/-- The example of 41_load_store_transfer.md R149: `98`. -/
theorem test_example_tya :
    let t := after { lab 0x0600 [0x98] with y := 0x80 }
    t.a = 0x80 ∧ t.p.n = true := by decide

/-- The example of 42_arith_logic.md R165: `29 3C`. -/
theorem test_example_and :
    let t := after { lab 0x0600 [0x29, 0x3C] with a := 0xF0 }
    t.a = 0x30 ∧ t.p.n = false ∧ t.p.z = false := by decide

/-- The example of 42_arith_logic.md R166: `09 80`. -/
theorem test_example_ora :
    let t := after { lab 0x0600 [0x09, 0x80] with a := 0x0F }
    t.a = 0x8F ∧ t.p.n = true := by decide

/-- The example of 42_arith_logic.md R167: `49 FF`. -/
theorem test_example_eor :
    let t := after { lab 0x0600 [0x49, 0xFF] with a := 0x5A }
    t.a = 0xA5 ∧ t.p.n = true := by decide

/-- The example of 42_arith_logic.md R171: `C0 00`. -/
theorem test_example_cpy :
    let t := after { lab 0x0600 [0xC0, 0x00] with y := 0x80 }
    t.p.c = true ∧ t.p.z = false ∧ t.p.n = true := by decide

/-- The example of 42_arith_logic.md R174: `E8`. -/
theorem test_example_inx :
    let t := after { lab 0x0600 [0xE8] with x := 0xFF }
    t.x = 0x00 ∧ t.p.z = true ∧ t.p.n = false := by decide

/-- The example of 42_arith_logic.md R175: `C8`. -/
theorem test_example_iny :
    let t := after { lab 0x0600 [0xC8] with y := 0x7F }
    t.y = 0x80 ∧ t.p.n = true := by decide

/-- The example of 42_arith_logic.md R176: `CA`. -/
theorem test_example_dex :
    let t := after { lab 0x0600 [0xCA] with x := 0x01 }
    t.x = 0x00 ∧ t.p.z = true := by decide

/-- The example of 42_arith_logic.md R177: `88`. -/
theorem test_example_dey :
    let t := after { lab 0x0600 [0x88] with y := 0x00 }
    t.y = 0xFF ∧ t.p.n = true ∧ t.p.z = false := by decide

/-- The example of 42_arith_logic.md R178: `0A`. -/
theorem test_example_asl_a :
    let t := after { lab 0x0600 [0x0A] with a := 0x81 }
    t.a = 0x02 ∧ t.p.c = true ∧ t.p.n = false ∧ t.p.z = false := by decide

/-- The example of 42_arith_logic.md R180: `2A`. -/
theorem test_example_rol_a :
    let t := after { lab 0x0600 [0x2A] with a := 0x40, p := ⟨false, false, false, false, false, true⟩ }
    t.a = 0x81 ∧ t.p.c = false ∧ t.p.n = true := by decide

/-- The example of 43_stack_flags.md R204: `18`. -/
theorem test_example_clc :
    let t := after { lab 0x0600 [0x18] with p := ⟨false, false, false, false, false, true⟩ }
    t.p = ⟨false, false, false, false, false, false⟩ := by decide

/-- The example of 43_stack_flags.md R205: `38`. -/
theorem test_example_sec :
    let t := after (lab 0x0600 [0x38])
    t.p = ⟨false, false, false, false, false, true⟩ := by decide

/-- The example of 43_stack_flags.md R207: `78`. -/
theorem test_example_sei :
    let t := after (lab 0x0600 [0x78])
    t.p = ⟨false, false, false, true, false, false⟩ := by decide

/-- The example of 43_stack_flags.md R208: `D8`. -/
theorem test_example_cld :
    let t := after { lab 0x0600 [0xD8] with p := ⟨false, false, true, false, false, false⟩ }
    t.p = ⟨false, false, false, false, false, false⟩ := by decide

/-- The example of 43_stack_flags.md R209: `F8`. -/
theorem test_example_sed :
    let t := after (lab 0x0600 [0xF8])
    t.p = ⟨false, false, true, false, false, false⟩ := by decide

/-- The example of 43_stack_flags.md R210: `B8`. -/
theorem test_example_clv :
    let t := after { lab 0x0600 [0xB8] with p := ⟨false, true, false, false, false, false⟩ }
    t.p = ⟨false, false, false, false, false, false⟩ := by decide

/-- The example of 44_control.md R220: `4C 00 C0`. -/
theorem test_example_jmp_abs :
    let t := after (lab 0x0600 [0x4C, 0x00, 0xC0])
    t.pc = 0xC000 ∧ t.cycles = 3 := by decide

/-- The example of 44_control.md R229: `50 FE`. -/
theorem test_example_bvc :
    let t := after (lab 0x0600 [0x50, 0xFE])
    t.pc = 0x0600 ∧ t.cycles = 3 := by decide

/-- The example of 44_control.md R230: `70 05`. -/
theorem test_example_bvs :
    let t := after { lab 0x02FD [0x70, 0x05] with p := ⟨false, true, false, false, false, false⟩ }
    t.pc = 0x0304 ∧ t.cycles = 4 := by decide

/-- The example of 44_control.md R231: `90 10`. -/
theorem test_example_bcc :
    let t := after { lab 0x0600 [0x90, 0x10] with p := ⟨false, false, false, false, false, true⟩ }
    t.pc = 0x0602 ∧ t.cycles = 2 := by decide

/-- The example of 44_control.md R232: `B0 7F`. -/
theorem test_example_bcs :
    let t := after { lab 0x0600 [0xB0, 0x7F] with p := ⟨false, false, false, false, false, true⟩ }
    t.pc = 0x0681 ∧ t.cycles = 3 := by decide

/-- The example of 44_control.md R234: `F0 80`. -/
theorem test_example_beq :
    let t := after { lab 0x0600 [0xF0, 0x80] with p := ⟨false, false, false, false, true, false⟩ }
    t.pc = 0x0582 ∧ t.cycles = 4 := by decide

/-- The example of 44_control.md R235: `EA`. -/
theorem test_example_nop :
    let t := after (lab 0x0600 [0xEA])
    t.pc = 0x0601 ∧ t.cycles = 2 ∧ t.a = 0x00 := by decide

/-- The example of 45_undocumented.md R271: `EB 01`. -/
theorem test_example_sbc_eb :
    let t := after { lab 0x0600 [0xEB, 0x01] with a := 0x80, p := ⟨false, false, false, false, false, true⟩ }
    t.a = 0x7F ∧ t.p.v = true ∧ t.p.c = true := by decide

/-- The example of 45_undocumented.md R266: `9C 00 02`. -/
theorem test_example_shy :
    let t := after { lab 0x0600 [0x9C, 0x00, 0x02] with y := 0xFF, x := 0x10 }
    t.peek 0x0210 = some 0x03 ∧ t.cycles = 5 := by decide

/-- The example of 45_undocumented.md R268: `9B 00 04`. -/
theorem test_example_tas :
    let t := after { lab 0x0600 [0x9B, 0x00, 0x04] with a := 0xF3, x := 0x3F, y := 0x00 }
    t.sp = 0x33 ∧ t.peek 0x0400 = some 0x01 ∧ t.cycles = 5 := by decide

/-! ### One step of the cycle-level vectors of sections 3 and 4 of 95_test_vectors.md -/

/-- The inputs of a cycle, beside the byte a device would answer. -/
def inp (nmi irq stall : Bool) (reply : Byte := 0xAA) : CycleIn where
  nmiLine := nmi
  irqLine := irq
  stallReq := stall
  dmaDrives := false
  dmaData := 0x00
  stop := false
  reply := reply

/-- The accesses of the latest cycles, without their kinds: the count of cycles, the address and the byte. -/
def trace (s : State) : List (BitVec 64 × Addr × Byte) := s.busLog.map fun c => (c.1, c.2.addr, c.2.data)

/-- T1: the hard reset's seven cycles, all reads (R312, R351). -/
theorem test_t1_hard_reset :
    let t := after ((lab 0x0600 [] [(0xFFFC, 0x00), (0xFFFD, 0x06)]).hostReset .hard)
    t.sp = 0xFD ∧ t.pc = 0x0600 ∧ t.p = ⟨false, false, false, true, false, false⟩ ∧ t.cycles = 7 ∧
    trace t = [(6, 0xFFFD, 0x06), (5, 0xFFFC, 0x00), (4, 0x01FE, 0x00), (3, 0x01FF, 0x00), (2, 0x0100, 0x00),
      (1, 0x0000, 0x00), (0, 0x0000, 0x00)] ∧
    t.busLog.all (fun c => c.2.dir == .read) = true := by decide

/-- T2: a soft reset of the halted CPU keeps A, X and the count of cycles (R352). -/
theorem test_t2_soft_reset :
    let t := after ({ lab 0x0605 [] [(0xFFFD, 0x06)] with
      a := 0x55, x := 0x66, seq := .halted, cycles := 13 }.hostReset .soft)
    t.a = 0x55 ∧ t.x = 0x66 ∧ t.sp = 0xFA ∧ t.pc = 0x0600 ∧ t.cycles = 20 ∧ t.halted = false := by decide

/-- T3: the poll of a NOP's first cycle decides; one in its last cycle comes too late (R303 to R305). -/
theorem test_t3_poll_point :
    (after { lab 0x0601 [0xEA] with inputs := [inp false true false, inp false true false] }).takeInt = true ∧
    (after { lab 0x0601 [0xEA] with inputs := [inp false false false, inp false true false] }).takeInt = false := by
  decide

/-- T4: an IRQ that comes up in cycle 2 of a taken branch in its page is seen at its end or not, as `P_BRANCH_IRQ_DELAY`
says (R306). -/
theorem test_t4_branch_delay :
    let s := { lab 0x0602 [0xD0, 0x00] with inputs := [inp false false false, inp false true false, inp false true false] }
    (after s).takeInt = true ∧
    (after { s with params := { s.params with branchIrqDelay := true } }).takeInt = false := by decide

/-- T5: RTI's new I flag counts at once (R307): I goes from 1 to 0, and the IRQ is taken right after it. -/
theorem test_t5_rti_latency :
    let t := after { lab 0x0603 [0x40] [(0x01FD, 0x09)] with
      sp := 0xFA, p := ⟨false, false, false, true, false, false⟩, inputs := List.replicate 6 (inp false true false) }
    t.pc = 0x0900 ∧ t.takeInt = true := by decide

/-- T6: `nmi_line` held active is one edge only (R301). -/
theorem test_t6_nmi_level :
    (after { lab 0x0601 [0xEA] with inputs := List.replicate 2 (inp true false false) }).nmiDetected = true ∧
    (after { lab 0x0601 [0xEA] with
      nmiPrev := true, inputs := List.replicate 2 (inp true false false) }).nmiDetected = false := by decide

/-- T7: LDA $10 with `stall_req` before its data read: the stalled cycles read the address again, as dummy reads (R320). -/
theorem test_t7_read_stall :
    let s := { lab 0x0600 [0xA5, 0x10] [(0x0010, 0x42)] with
      cycles := 7, inputs := [inp false false false, inp false false false, inp false false true, inp false false true] }
    let t := after s
    t.a = 0x42 ∧ t.cycles = 12 ∧
    t.busLog.take 3 = [(11, ⟨0x0010, .read, 0x42, .data⟩), (10, ⟨0x0010, .read, 0x42, .dummy⟩),
      (9, ⟨0x0010, .read, 0x42, .dummy⟩)] ∧
    (after { s with params := { s.params with stallReread := false } }).busLog.length = 3 := by decide

/-- T7: STA $10 is not held at its write (R320). -/
theorem test_t7_write_is_not_stalled :
    let t := after { lab 0x0600 [0x85, 0x10] with
      cycles := 7, inputs := [inp false false false, inp false false false, inp false false true, inp false false true] }
    t.cycles = 10 ∧ t.busLog.head? = some (9, ⟨0x0010, .write, 0x00, .data⟩) := by decide

/-- T8: LDA $02F0,X with X = $10 reads the unfixed address first (R107). -/
theorem test_t8_page_crossing :
    let t := after { lab 0x0600 [0xBD, 0xF0, 0x02] with x := 0x10 }
    t.busLog.take 2 = [(4, ⟨0x0300, .read, 0x00, .data⟩), (3, ⟨0x0200, .read, 0x00, .dummy⟩)] := by decide

/-- T8: JSR reads its high byte last (R116). -/
theorem test_t8_jsr :
    let t := after (lab 0x0600 [0x20, 0x00, 0x07])
    t.busLog.take 4 = [(5, ⟨0x0602, .read, 0x07, .operand⟩), (4, ⟨0x01FC, .write, 0x02, .stack⟩),
      (3, ⟨0x01FD, .write, 0x06, .stack⟩), (2, ⟨0x01FD, .read, 0x00, .dummy⟩)] := by decide

/-- T9: a step in the halted state is one cycle without an access; the NMI edge is seen, not taken (R288, R319). -/
theorem test_t9_halted :
    let t := after { lab 0x0601 [] with seq := .halted, cycles := 9, inputs := [inp true false false] }
    t.cycles = 10 ∧ t.pc = 0x0601 ∧ t.busLog = [] ∧ t.nmiDetected = true ∧ t.halted = true := by decide

/-- P3: INC $02FF,X writes the unchanged value first (R122). -/
theorem test_p3_double_write :
    let t := after { lab 0x0602 [0xFE, 0xFF, 0x02] [(0x0300, 0x7F), (0x0200, 0x11)] with x := 0x01, cycles := 9 }
    t.busLog.take 4 = [(15, ⟨0x0300, .write, 0x80, .data⟩), (14, ⟨0x0300, .write, 0x7F, .dummy⟩),
      (13, ⟨0x0300, .read, 0x7F, .data⟩), (12, ⟨0x0200, .read, 0x11, .dummy⟩)] := by decide

/-- P4: the IRQ sequence pushes PC and P with B = 0, sets I and reads $FFFE (R309). -/
theorem test_p4_irq_sequence :
    let t := after { lab 0x0602 [0xEA] [(0xFFFF, 0x07)] with
      takeInt := true, inputs := List.replicate 7 (inp false true false) }
    t.pc = 0x0700 ∧ t.sp = 0xFA ∧ t.p.i = true ∧ t.peek 0x01FD = some 0x06 ∧ t.peek 0x01FC = some 0x02 ∧
    t.peek 0x01FB = some 0x20 ∧ t.cycles = 7 := by decide

/-- P5: SEI does not mask the IRQ its own poll has seen (R207). -/
theorem test_p5_sei_latency :
    let t := after { lab 0x0602 [0x78] with inputs := List.replicate 2 (inp false true false) }
    t.p.i = true ∧ t.takeInt = true := by decide

/-- P6: an NMI detected by the end of BRK's cycle 4 takes the vector; one in cycle 5 does not, but with `P_HIJACK_CYCLE` = 5
it does (R310). -/
theorem test_p6_brk_hijack :
    let s := lab 0x0600 [0x00, 0xEA] [(0xFFFF, 0x07), (0xFFFB, 0x08)]
    let late := List.replicate 4 (inp false false false) ++ List.replicate 3 (inp true false false)
    (after { s with inputs := List.replicate 3 (inp false false false) ++ List.replicate 4 (inp true false false) }).pc =
      0x0800 ∧
    (after { s with inputs := late }).pc = 0x0700 ∧ (after { s with inputs := late }).nmiDetected = true ∧
    (after { s with inputs := late, params := { s.params with hijackCycle := .five } }).pc = 0x0800 := by decide

/-! ### The host's side -/

/-- R330: an exec breakpoint at the address reached sets the reason and the stop flag; the step that follows goes on. -/
theorem test_exec_breakpoint :
    let t := after ((lab 0x0600 [0xEA, 0xEA]).setBreakpoint ⟨0x0601, .exec, false⟩)
    t.stop = true ∧ t.pollBreakReason.1 = some ⟨0x0601, .exec⟩ ∧ (after t).pc = 0x0602 := by decide

/-- R332: the stop flag ends a step between cycles; the next step does the rest. -/
theorem test_stop_flag :
    let t := after { lab 0x0600 [0xA5, 0x10] [(0x0010, 0x42)] with inputs := [{ inp false false false with stop := true }] }
    t.cycles = 1 ∧ t.atBoundary = false ∧ (after t).a = 0x42 ∧ (after t).cycles = 3 := by decide

/-- R59: a write of a device changes no memory, and a read takes what the device answers. -/
theorem test_device :
    let s := { lab 0x0600 [0xAD, 0x02, 0x20] with busMap := nesMap, inputs := List.replicate 4 (inp false false false 0x9C) }
    (after s).a = 0x9C ∧ (after s).busLatch = 0x9C ∧ (s.store 0x2002 0x11).mem = s.mem := by decide

/-! ### Witnesses: states and operands that meet the hypotheses of the statements of Obligations.lean -/

/-- A state in which devices answer, the lines move and the DMA controller asks for the bus: an instruction that crosses a page,
and whose reads reach devices, on the bus map of R51. -/
def busy : State :=
  { lab 0xFFFF [] with
    busMap := nesMap, a := 0x81, x := 0xFF, y := 0x02, sp := 0x00, p := ⟨true, false, true, false, false, true⟩
    inputs := [inp false true true 0x20, inp true true false 0x11, inp true false false 0x80, inp false false true 0x7F] }

/-- Hypothesis `quiet`, which stands alone in: LoadsPutTheOperandIntoTheirRegister, StoresWriteTheirRegister,
TransfersCopyARegister, AdcAddsWithCarry, SbcSubtractsWithBorrow, LogicCombinesAWithTheOperand, ComparesSetOnlyFlags,
IncAndDecChangeMemoryByOne, IndexRegistersCountByOne, ShiftsWorkOnAAndOnMemory, PushesAndPullsOfAAndP,
FlagInstructionsWriteOneFlag, MaskingIsDelayedByOneInstruction, JumpsLoadPC, JsrPushesItsLastByteAddress,
RtsReturnsPastTheAddressPulled, RtiRestoresStatusAndPC, BrkTakesTheSoftwareInterrupt, BranchesTestOneFlag, NopsOnlyAdvancePC,
CombinedModifyInstructions, CombinedLoadsAndStores, ImmediateCombinations, HighByteStores, KilHaltsTheCPU. It holds of the state
after reset and of a state with lines, stalls and devices. -/
theorem test_witness_quiet : State.reset.quiet ∧ busy.quiet := by decide

/-- The operands of those statements at the ends of their ranges: both sides of a page (R107), both models of R264 with and
without a crossing, a mirror of the byte stored (R51). -/
theorem test_witness_modes :
    (Mode.absX 0x00 0x02).crosses busy = false ∧ (Mode.absX 0x01 0x02).crosses busy = true ∧
    (Mode.absX 0x01 0x02).ea busy = 0x0300 ∧ (Mode.absY 0xFE 0xFF).ea busy = 0x0000 ∧ (Mode.zpX 0x01).ea busy = 0x0000 ∧
    busy.overwrites 0x0001 0x1801 = true ∧ busy.overwrites 0x0001 0x0002 = false ∧
    busy.overwrites 0x2000 0x2000 = false := by decide

/-- MaskingIsDelayedByOneInstruction: the poll is true and false. -/
theorem test_witness_poll : busy.pollAfter (reads 1) false = true ∧ State.reset.pollAfter (reads 1) true = false := by decide

/-- JsrPushesItsLastByteAddress: JSR at $01FB overwrites its own high byte at $01FD, and elsewhere does not. -/
theorem test_witness_jsr :
    let s := lab 0x01FB [0x20, 0x34, 0x12]
    (s.quiet ∧ s.overwrites (stackAddr s.sp) (s.pc + 2) = true) ∧
    (after s).pc = 0x0134 ∧ busy.overwrites (stackAddr busy.sp) (busy.pc + 2) = false := by decide

/-- BranchesTestOneFlag: not taken, taken in the page, taken to another page. -/
theorem test_witness_branches :
    cyclesByGrid (lab 0x0600 [0xF0, 0x10]) (.beq 0x10) = 2 ∧ cyclesByGrid (lab 0x0600 [0xD0, 0x7F]) (.bne 0x7F) = 3 ∧
    cyclesByGrid (lab 0x0600 [0xD0, 0x80]) (.bne 0x80) = 4 := by decide

/-- EncodeOfDecode. -/
theorem test_witness_decoded : decode [0xA9, 0x01, 0x02] = .ok (.ldaImm 0x01, [0x02]) := by decide

/-- StepRunsTheDecodedInstruction: an instruction whose second byte is at $0000, past the end of the space. -/
theorem test_witness_step_runs :
    let s := lab 0xFFFF [0xA9, 0x80]
    s.rstPending = none ∧ s.seq = .instr ∧ s.t = 1 ∧ s.takeInt = false ∧ (Instr.ldaImm 0x80).WellFormed = true ∧
    (∀ (k : Nat) (b : Byte), (encode (.ldaImm 0x80))[k]? = some b → s.peek (s.pc + BitVec.ofNat 16 k) = some b) := by
  refine ⟨by decide, by decide, by decide, by decide, by decide, ?_⟩
  intro k b h
  match k with
  | 0 => have h : some (0xA9 : Byte) = some b := h
         rw [← h]; decide
  | 1 => have h : some (0x80 : Byte) = some b := h
         rw [← h]; decide
  | k + 2 => exact absurd h (by simp [encode])

/-- A state with the surroundings of `busy`, inside an instruction, with another CPU. -/
def elsewhere : State :=
  { busy with
    a := 0x11, x := 0x22, y := 0x33, sp := 0x44, pc := 0x5566, p := ⟨false, true, false, true, true, false⟩
    seq := .intSeq .nmi, t := 4, nmiPrev := true, nmiDetected := true, pollPrev := true, pollCur := true, takeInt := true
    rstPending := some .soft, cycles := 99, busLatch := 0x77, stalled := true }

/-- A state at a boundary at which the interrupt sequence starts. -/
def interrupted : State := { busy with takeInt := true, nmiDetected := true }

/-- DecimalFlagIsOnlyStored: an instruction of each clause, and the boundary of its last one. -/
theorem test_witness_decimal :
    (Instr.adcImm 0x09).opcode ∉ ([0x08, 0x00, 0x28, 0x40, 0xD8, 0xF8] : List Byte) ∧ interrupted.quiet ∧
    interrupted.rstPending = none ∧ interrupted.seq = .instr ∧ interrupted.t = 1 ∧ interrupted.takeInt = true := by decide

/-- CallAndReturnComeBack and ReturnResumesWhatWasInterrupted: both bus maps, and a boundary with an interrupt. -/
theorem test_witness_both_maps :
    (busy.quiet ∧ busy.busMap = nesMap) ∧ ((lab 0x0600 [0x00]).quiet ∧ (lab 0x0600 [0x00]).busMap = flatMap) ∧
    (interrupted.quiet ∧ interrupted.busMap = nesMap ∧ interrupted.rstPending = none ∧ interrupted.seq = .instr ∧
      interrupted.t = 1 ∧ interrupted.takeInt = true) := by decide

/-- InterruptEntryIsPrecise: the vector of an NMI and of an IRQ. -/
theorem test_witness_interrupt :
    (interrupted.quiet ∧ interrupted.entryVector = 0xFFFA) ∧
    ({ lab 0x0600 [] with takeInt := true }.quiet ∧ { lab 0x0600 [] with takeInt := true }.entryVector = 0xFFFE) := by decide

/-- ResetSequenceWritesNothing: a pending reset, while an instruction is executing and while the CPU is halted. -/
theorem test_witness_pending_reset :
    (State.reset.rstPending ≠ none ∧ State.reset.quiet) ∧
    ((busy.hostReset .soft).rstPending ≠ none ∧ (busy.hostReset .soft).quiet) := by decide

/-- CyclesFollowTheGrid and AfterTheResetSequence: no stall, with lines and devices; one entry of each kind of the grid. -/
theorem test_witness_unstalled :
    let s := { busy with inputs := [inp true true false 0x20, inp false true false 0x11] }
    (s.quiet ∧ s.unstalled) ∧
    cyclesByGrid s .brk = 7 ∧ cyclesByGrid s (.ldaAbsX 0x01 0x02) = 5 ∧ cyclesByGrid s (.ldaAbsX 0x00 0x02) = 4 ∧
    cyclesByGrid s (.ldaAbsY 0xFE 0x02) = 5 ∧ cyclesByGrid s (.ldaAbsY 0xFD 0x02) = 4 ∧ cyclesByGrid s (.ldaIndY 0x10) = 5 ∧
    cyclesByGrid { s with mem := [(0x0010, 0xFE)] } (.ldaIndY 0x10) = 6 := by decide

/-- The invariant, in a state at a boundary. -/
theorem test_witness_inv : busy.Inv :=
  ⟨by decide, by decide, by decide, by decide, by decide, by decide⟩

/-- The invariant, at a boundary with an interrupt to take: the last clause of DecisionIsThePollBeforeTheLastCycle. -/
theorem test_witness_inv_interrupted : interrupted.Inv :=
  ⟨by decide, by decide, by decide, by decide, by decide, by decide⟩

/-- The state in front of a cycle of an instruction, at its operand byte or past it. -/
def inside (op : Byte) (t : Nat) : State :=
  { lab 0x0601 [0x10] with ir := op, t := t, ea := 0x0010, a := 0x77, inputs := [inp true true false] }

/-- The state in front of a cycle of BRK or of the interrupt sequence. -/
def entering (q : Seq) (t : Nat) (vec : Addr) : State := { inside 0x00 t with seq := q, ea := vec }

/-- The invariant, in the states of the witnesses that follow. -/
theorem test_witness_inv_inside : ∀ s ∈ [inside 0xA9 2, inside 0xD0 2, inside 0x85 3, inside 0xA5 3, inside 0x02 2,
    entering .instr 4 0xFFFE, entering .instr 7 0xFFFA, entering (.intSeq .irq) 4 0xFFFE, entering (.intSeq .nmi) 7 0xFFFA,
    entering .resetSeq 7 0x0000, entering .halted 1 0x0000], s.Inv := by
  simp only [List.forall_mem_cons, List.not_mem_nil, false_implies, implies_true, and_true]
  refine ⟨?_, ?_, ?_, ?_, ?_, ?_, ?_, ?_, ?_, ?_, ?_⟩ <;>
    exact ⟨by decide, by decide, by decide, by decide, by decide, by decide⟩

/-- AdvancingCyclesCountsThem, StepIsARunOfCycles and EveryStepKeepsTheInvariant hold on the states of the two theorems above;
EachCycleMakesOneAccess has a read and a write among them. -/
theorem test_witness_one_access :
    ((inside 0xA5 3).stays = false ∧ (inside 0xA5 3).cycle.stalled = false ∧
      (inside 0xA5 3).cycle.busLog.head?.map (·.2.dir) = some .read) ∧
    ((inside 0x85 3).stays = false ∧ (inside 0x85 3).cycle.stalled = false ∧
      (inside 0x85 3).cycle.busLog.head?.map (·.2.dir) = some .write) := by decide

/-- NmiIsEdgeDetectedAndTakenOnce: a cycle that chooses the vector, of BRK and of the interrupt sequence, with an NMI and
without one, and a cycle that does not choose it. -/
theorem test_witness_vector :
    (entering .instr 4 0xFFFE).samplesVector = true ∧ (entering .instr 4 0xFFFE).cycle.ea = 0xFFFA ∧
    { entering (.intSeq .irq) 4 0xFFFE with inputs := [] }.samplesVector = true ∧
    { entering (.intSeq .irq) 4 0xFFFE with inputs := [] }.cycle.ea = 0xFFFE ∧ (inside 0xA9 2).samplesVector = false := by
  decide

/-- PollAndItsHistory: a cycle that delays the IRQ, one that does not, one in the halted state, one that is stalled. -/
theorem test_witness_poll_history :
    ({ inside 0xD0 2 with params := { Params.vectorDefaults with branchIrqDelay := true } }.delaysIrq = true ∧
      (inside 0xD0 2).delaysIrq = false) ∧
    ((inside 0xD0 2).stays = false ∧ (inside 0xD0 2).cycle.stalled = false) ∧
    (entering .halted 1 0x0000).stays = true ∧ busy.cycle.stalled = true := by decide

/-- DecisionIsThePollBeforeTheLastCycle: the last cycle of an instruction, and the start of the interrupt sequence. -/
theorem test_witness_decision :
    ((inside 0xA9 2).rstPending = none ∧ (inside 0xA9 2).seq = .instr ∧ mnemonicAt (inside 0xA9 2).ir ≠ .brk ∧
      mnemonicAt (inside 0xA9 2).ir ≠ .kil ∧ 2 ≤ (inside 0xA9 2).t ∧ (inside 0xA9 2).cycle.t = 1) ∧
    (interrupted.rstPending = none ∧ interrupted.takeInt = true) := by decide

/-- NoDecisionAfterSequences: the last cycle of BRK, of the interrupt sequence, of the reset sequence and of KIL. -/
theorem test_witness_no_decision :
    (∀ s ∈ [entering .instr 7 0xFFFA, entering (.intSeq .nmi) 7 0xFFFA, entering .resetSeq 7 0x0000],
      s.rstPending = none ∧ 2 ≤ s.t ∧ s.cycle.t = 1 ∧ (s.seq ≠ .instr ∨ mnemonicAt s.ir = .brk)) ∧
    ((inside 0x02 2).rstPending = none ∧ (inside 0x02 2).cycle.t = 1 ∧ (inside 0x02 2).seq = .instr ∧
      mnemonicAt (inside 0x02 2).ir = .kil) := by decide

/-- StallsHoldReadsOnly: a stalled read with the bus driven by the DMA controller, read again, or idle, and a write. -/
theorem test_witness_stalls :
    let held := inp false true true
    ((inside 0xA5 3).stays = false ∧ held.stallReq = true) ∧
    { inside 0xA5 3 with inputs := [{ held with dmaDrives := true, dmaData := 0x5C }] }.cycle.busLatch = 0x5C ∧
    { inside 0xA5 3 with inputs := [held] }.cycle.busLog = [(0, ⟨0x0010, .read, 0x00, .dummy⟩)] ∧
    { inside 0xA5 3 with inputs := [held], params := { Params.vectorDefaults with stallReread := false } }.cycle.busLog = [] ∧
    { inside 0x85 3 with inputs := [held] }.cycle.busLog = [(0, ⟨0x0010, .write, 0x77, .data⟩)] := by decide

/-- HaltedCyclesOnlyCount: with the bus free and with the DMA controller on it. -/
theorem test_witness_halted :
    let s := entering .halted 1 0x0000
    (s.halted = true ∧ s.rstPending = none) ∧ s.cycle.stalled = false ∧
    { s with inputs := [{ inp false false true with dmaDrives := true, dmaData := 0x5C }] }.cycle.busLatch = 0x5C := by decide

/-- OnlyTheListedInstructionsWriteARegister: LDA is in the first list, STA in the list of those that keep N and Z, and NOP is in
none of the others. -/
theorem test_witness_lists :
    mnemonicAt (Instr.ldaImm 0x01).opcode = .lda ∧ mnemonicAt (Instr.staZp 0x10).opcode = .sta ∧
    mnemonicAt Instr.nop.opcode = .nop ∧ Instr.nop.opcode ∉ ([0x0A, 0x4A, 0x2A, 0x6A] : List Byte) := by decide

/-- BusMapOfTheSystem: the two sides of each border of the map. -/
theorem test_witness_bus_map :
    busy.busMap = nesMap ∧ (busy.store 0x1FFF 0x42).peek 0x07FF = some 0x42 ∧ (busy.store 0x1FFF 0x42).peek 0x2000 = none ∧
    busy.peek 0x401F = none ∧ (busy.store 0x4020 0x42).peek 0x4020 = some 0x42 ∧
    (busy.store 0xFFFF 0x42).peek 0xFFFF = some 0x42 := by decide

/-- MicroStateIsDeadAtABoundary: two states at a boundary that differ in the micro-state only, a pending reset, and the halted
state; and a state with the same surroundings in which every saved part of the CPU is another. -/
theorem test_witness_micro :
    busy.betweenInstructions ∧ busy.atBoundary = true ∧ (busy.hostReset .soft).betweenInstructions ∧
    { busy with seq := .halted }.betweenInstructions ∧
    { busy with ir := 0x6C, base := 0x1234, taken := true }.forgetMicro = busy.forgetMicro ∧
    { busy with ir := 0x6C, base := 0x1234, taken := true } ≠ busy ∧ busy.SameSurroundings elsewhere ∧
    ((busy.snapshot.map elsewhere.restore).map State.forgetMicro) = some busy.forgetMicro := by
  refine ⟨?_, by decide, ?_, ?_, by decide, by decide, ?_, by decide⟩
  · exact ⟨by decide, by decide, by decide⟩
  · exact ⟨by decide, by decide, by decide⟩
  · exact ⟨by decide, by decide, by decide⟩
  · exact ⟨rfl, rfl, rfl, rfl, rfl, rfl, rfl, rfl, rfl⟩

/-- MicroStateIsDeadAtABoundary: no snapshot inside an instruction (R332), nor while the DMA controller holds the CPU in an opcode
fetch or in the halted state (R36). -/
theorem test_no_snapshot :
    (inside 0xA9 2).snapshot = none ∧ busy.cycle.stalled = true ∧ busy.cycle.snapshot = none ∧
    { entering .halted 1 0x0000 with inputs := [inp false false true] }.cycle.snapshot = none ∧
    (entering .halted 1 0x0000).cycle.snapshot.isSome = true := by decide

/-- HostResetSetsTheLatches: a hard reset of a state with other registers than the power-on ones. -/
theorem test_hard_reset_registers :
    let s := { busy with params := { Params.vectorDefaults with powerOn :=
      { a := 0x01, x := 0x02, y := 0x03, sp := 0x04, pc := 0x0506, p := ⟨true, false, true, false, true, false⟩ } } }
    (s.hostReset .hard).toRegs = ⟨0x01, 0x02, 0x03, 0x04, 0x0506, ⟨true, false, true, false, true, false⟩⟩ ∧
    (s.hostReset .soft).toRegs = s.toRegs := by decide

end Sys2Proof.Tests
end

section
/-! PROOF SUPPORT. Every opcode's skeleton as a skeleton of its class (40_addressing.md R100), so that a fact about a class is a
fact about its opcodes. -/

namespace Sys2Proof.Machine

/-- The skeletons of the read class are those of their modes. -/
theorem readSkeletons_eq (op : ReadOp) :
    readZp op = (Mode.zp 0).readRows op ∧ readZpX op = (Mode.zpX 0).readRows op ∧ readZpY op = (Mode.zpY 0).readRows op ∧
    readAbs op = (Mode.abs 0 0).readRows op ∧ readAbsX op = (Mode.absX 0 0).readRows op ∧
    readAbsY op = (Mode.absY 0 0).readRows op ∧ readIndX op = (Mode.indX 0).readRows op ∧
    readIndY op = (Mode.indY 0).readRows op := ⟨rfl, rfl, rfl, rfl, rfl, rfl, rfl, rfl⟩

/-- The skeletons of the write class are those of their modes. -/
theorem writeSkeletons_eq (w : Regs → Byte) :
    writeZp w = (Mode.zp 0).storeRows [writeCycle w] ∧ writeZpX w = (Mode.zpX 0).storeRows [writeCycle w] ∧
    writeZpY w = (Mode.zpY 0).storeRows [writeCycle w] ∧ writeAbs w = (Mode.abs 0 0).storeRows [writeCycle w] ∧
    writeAbsX w = (Mode.absX 0 0).storeRows [writeCycle w] ∧ writeAbsY w = (Mode.absY 0 0).storeRows [writeCycle w] ∧
    writeIndX w = (Mode.indX 0).storeRows [writeCycle w] ∧ writeIndY w = (Mode.indY 0).storeRows [writeCycle w] :=
  ⟨rfl, rfl, rfl, rfl, rfl, rfl, rfl, rfl⟩

/-- The skeletons of the read-modify-write class are those of their modes. -/
theorem rmwSkeletons_eq (f : RmwOp) :
    rmwZp f = (Mode.zp 0).storeRows (rmwTail f) ∧ rmwZpX f = (Mode.zpX 0).storeRows (rmwTail f) ∧
    rmwAbs f = (Mode.abs 0 0).storeRows (rmwTail f) ∧ rmwAbsX f = (Mode.absX 0 0).storeRows (rmwTail f) ∧
    rmwAbsY f = (Mode.absY 0 0).storeRows (rmwTail f) ∧ rmwIndX f = (Mode.indX 0).storeRows (rmwTail f) ∧
    rmwIndY f = (Mode.indY 0).storeRows (rmwTail f) := ⟨rfl, rfl, rfl, rfl, rfl, rfl, rfl⟩

/-- The skeletons of the SH family are those of their modes. -/
theorem shSkeletons_eq :
    (∀ reg, shAbsX reg = (Mode.absX 0 0).storeRows [shCycle Regs.x reg id]) ∧
    (∀ reg act, shAbsY reg act = (Mode.absY 0 0).storeRows [shCycle Regs.y reg act]) ∧
    ∀ reg, shIndY reg = (Mode.indY 0).storeRows [shCycle Regs.y reg id] :=
  ⟨fun _ => rfl, fun _ _ => rfl, fun _ => rfl⟩

theorem microcodeTable_length : microcodeTable.length = 256 := by
  simp only [microcodeTable, List.length_append]
  rfl

/-- A skeleton stands in the table at the place of its opcode. -/
theorem microcode_mem_zipIdx (op : Byte) : (microcode op, op.toNat) ∈ microcodeTable.zipIdx := by
  have hlt : op.toNat < microcodeTable.length := microcodeTable_length ▸ op.isLt
  rw [List.mk_mem_zipIdx_iff_getElem?, microcode, List.getD_eq_getElem _ _ hlt]
  exact List.getElem?_eq_getElem hlt

theorem microcode_mem (op : Byte) : microcode op ∈ microcodeTable :=
  List.fst_mem_of_mem_zipIdx (microcode_mem_zipIdx op)

end Sys2Proof.Machine
end

section
/-! PROOF. The cycle counter (10_state.md R34): from a state whose `t` names a row of what is executing, every cycle counts one
and leaves such a state. -/

namespace Sys2Proof.Machine

/-! ### The rows of the skeletons keep the CPU's place -/

/-- The action of a cycle leaves alone what says where the CPU is: the sequence, its cycle and the opcode (R33). -/
structure Cycle.KeepsPlace (c : Cycle) : Prop where
  seq : ∀ q b cpu, (c.act q b cpu).seq = cpu.seq
  t : ∀ q b cpu, (c.act q b cpu).t = cpu.t
  ir : ∀ q b cpu, (c.act q b cpu).ir = cpu.ir

theorem readUnfixed_keepsPlace (idx : Index) (op : ReadOp) : (readUnfixed idx op).KeepsPlace := by
  constructor <;> intro q b cpu <;> simp only [readUnfixed] <;> split <;> rfl

theorem rmwTail_keepsPlace (f : RmwOp) : ∀ c ∈ rmwTail f, c.KeepsPlace := by
  simp only [rmwTail, List.forall_mem_cons, List.not_mem_nil, false_implies, implies_true, and_true]
  and_intros <;> exact ⟨fun _ _ _ => rfl, fun _ _ _ => rfl, fun _ _ _ => rfl⟩

/-- A skeleton has a row after the opcode fetch, and the rows after it keep the CPU's place (R101). -/
def KeepsPlaceAfterFetch (cs : List Cycle) : Prop := 2 ≤ cs.length ∧ ∀ c ∈ cs.tail, c.KeepsPlace

theorem addressRows_keepsPlace (m : Mode) : KeepsPlaceAfterFetch m.addressRows := by
  cases m <;>
  simp only [KeepsPlaceAfterFetch, Mode.addressRows, zpAddress, zpIndexedAddress, absAddress, absIndexedAddress, indXAddress,
    indYAddress, List.length_cons, List.length_nil, Nat.reduceAdd, Nat.reduceLeDiff, true_and, List.tail_cons,
    List.forall_mem_cons, List.not_mem_nil, false_implies, implies_true, and_true] <;>
  and_intros <;> exact ⟨fun _ _ _ => rfl, fun _ _ _ => rfl, fun _ _ _ => rfl⟩

theorem KeepsPlaceAfterFetch.append {cs ds : List Cycle} (hc : KeepsPlaceAfterFetch cs) (hd : ∀ c ∈ ds, c.KeepsPlace) :
    KeepsPlaceAfterFetch (cs ++ ds) := by
  obtain ⟨hl, hc⟩ := hc
  have hne : cs ≠ [] := by rintro rfl; simp at hl
  refine ⟨by rw [List.length_append]; omega, ?_⟩
  rw [List.tail_append_of_ne_nil hne]
  exact List.forall_mem_append.2 ⟨hc, hd⟩

theorem readRows_keepsPlace (m : Mode) (op : ReadOp) : KeepsPlaceAfterFetch (m.readRows op) := by
  refine (addressRows_keepsPlace m).append ?_
  have hr : (readCycle op).KeepsPlace := ⟨fun _ _ _ => rfl, fun _ _ _ => rfl, fun _ _ _ => rfl⟩
  split <;> simp [readUnfixed_keepsPlace, hr]

theorem storeRows_keepsPlace (m : Mode) {ds : List Cycle} (hd : ∀ c ∈ ds, c.KeepsPlace) :
    KeepsPlaceAfterFetch (m.storeRows ds) := by
  refine (addressRows_keepsPlace m).append ?_
  split
  · exact List.forall_mem_cons.2 ⟨⟨fun _ _ _ => rfl, fun _ _ _ => rfl, fun _ _ _ => rfl⟩, hd⟩
  · exact hd

theorem writeRows_keepsPlace (m : Mode) (w : Regs → Byte) : KeepsPlaceAfterFetch (m.storeRows [writeCycle w]) :=
  storeRows_keepsPlace m (List.forall_mem_singleton.2 ⟨fun _ _ _ => rfl, fun _ _ _ => rfl, fun _ _ _ => rfl⟩)

theorem rmwRows_keepsPlace (m : Mode) (f : RmwOp) : KeepsPlaceAfterFetch (m.storeRows (rmwTail f)) :=
  storeRows_keepsPlace m (rmwTail_keepsPlace f)

theorem shRows_keepsPlace (m : Mode) (idx : Index) (reg : Regs → Byte) (act : Regs → Regs) :
    KeepsPlaceAfterFetch (m.storeRows [shCycle idx reg act]) :=
  storeRows_keepsPlace m (List.forall_mem_singleton.2 ⟨fun _ _ _ => rfl, fun _ _ _ => rfl, fun _ _ _ => rfl⟩)

/-- The skeletons without a memory operand. -/
theorem otherSkeletons_keepPlace :
    (∀ f, KeepsPlaceAfterFetch (impliedOp f)) ∧ (∀ f, KeepsPlaceAfterFetch (immediateWith f)) ∧
    (∀ w, KeepsPlaceAfterFetch (pushSkeleton w)) ∧ (∀ f, KeepsPlaceAfterFetch (pullSkeleton f)) ∧
    (∀ f, KeepsPlaceAfterFetch (branchSkeleton f)) ∧ KeepsPlaceAfterFetch jumpSkeleton ∧
    KeepsPlaceAfterFetch jumpIndirectSkeleton ∧ KeepsPlaceAfterFetch callSkeleton ∧ KeepsPlaceAfterFetch returnSkeleton ∧
    KeepsPlaceAfterFetch interruptReturnSkeleton ∧ KeepsPlaceAfterFetch breakSkeleton ∧
    KeepsPlaceAfterFetch haltSkeleton := by
  simp only [KeepsPlaceAfterFetch, impliedOp, immediateWith, pushSkeleton, pullSkeleton, branchSkeleton, jumpSkeleton,
    jumpIndirectSkeleton, callSkeleton, returnSkeleton, interruptReturnSkeleton, exceptionReturn, breakSkeleton,
    exceptionEntry, vectorFetch, haltSkeleton, forall_and, forall_const, List.length_cons, List.length_nil, Nat.reduceAdd,
    Nat.reduceLeDiff, true_and, List.tail_cons, List.cons_append, List.nil_append, List.forall_mem_cons,
    List.not_mem_nil, false_implies, implies_true, and_true]
  and_intros <;> intros <;> exact ⟨fun _ _ _ => rfl, fun _ _ _ => rfl, fun _ _ _ => rfl⟩

/-- Every opcode's skeleton has a row after the opcode fetch, and from there on keeps the CPU's place. -/
theorem microcode_keepsPlace (op : Byte) : KeepsPlaceAfterFetch (microcode op) := by
  have h : ∀ cs ∈ microcodeTable, KeepsPlaceAfterFetch cs := by
    simp only [microcodeTable, microRow0, microRow1, microRow2, microRow3, microRow4, microRow5, microRow6, microRow7,
      microRow8, microRow9, microRowA, microRowB, microRowC, microRowD, microRowE, microRowF, immediate, readSkeletons_eq,
      writeSkeletons_eq, rmwSkeletons_eq, shSkeletons_eq, List.forall_mem_append, List.forall_mem_cons, List.not_mem_nil,
      false_implies, implies_true, and_true, readRows_keepsPlace, writeRows_keepsPlace, rmwRows_keepsPlace,
      shRows_keepsPlace, otherSkeletons_keepPlace]
  exact h _ (microcode_mem op)

theorem sequences_keepPlace :
    (∀ c ∈ interruptSequence, c.KeepsPlace) ∧ ∀ c ∈ resetSequence, c.KeepsPlace := by
  simp only [interruptSequence, resetSequence, exceptionEntry, vectorFetch, List.cons_append, List.nil_append,
    List.forall_mem_cons, List.not_mem_nil, false_implies, implies_true, and_true]
  and_intros <;> exact ⟨fun _ _ _ => rfl, fun _ _ _ => rfl, fun _ _ _ => rfl⟩

/-! ### The CPU is on a row -/

/-- `t` names a row of the sequence at hand, as the invariant has it. -/
def State.OnRow (s : State) : Prop := s.t = 1 ∨ 2 ≤ s.t ∧ s.t ≤ s.rows

theorem State.Inv.onRow {s : State} (h : s.Inv) : s.OnRow := by
  have h1 := h.one_le
  rcases h.le_rows with ht | ht
  · exact .inl ht
  · unfold State.OnRow; omega

theorem State.OnRow.one_le {s : State} (h : s.OnRow) : 1 ≤ s.t := by unfold State.OnRow at h; omega

/-- Whether `t` names a row is told by the place of the CPU. -/
theorem State.OnRow.congr {s u : State} (h : s.OnRow) (hseq : u.seq = s.seq) (ht : u.t = s.t) (hir : u.ir = s.ir) :
    u.OnRow := by
  simpa only [State.OnRow, State.rows, hseq, ht, hir] using h

theorem startStep_cycles (s : State) : s.startStep.cycles = s.cycles := by
  unfold State.startStep State.startCycle
  split
  · rfl
  · split <;> rfl

theorem startStep_onRow {s : State} (h : s.OnRow) : s.startStep.OnRow := by
  unfold State.startStep State.startCycle
  split
  · exact .inl rfl
  · split
    · next hb =>
      simp only [Bool.and_eq_true, beq_iff_eq] at hb
      exact .inl hb.1.2
    · exact h.congr rfl rfl rfl

theorem hook_t (s : State) (k : Hook) : (s.hook k).t = s.t := by cases k <;> rfl

/-- Choosing the vector leaves an interrupt sequence one, of either kind, and anything else as it is (R310). -/
theorem vectorHook_seq (s : State) (k : HijackCycle) :
    (s.vectorHook k).seq = s.seq.hijack ∨ (s.vectorHook k).seq = s.seq.plain ∨ (s.vectorHook k).seq = s.seq := by
  simp only [State.vectorHook]
  split
  · exact .inl rfl
  · split
    · exact .inr (.inl rfl)
    · exact .inr (.inr rfl)

theorem hook_rows (s : State) (k : Hook) : (s.hook k).rows = s.rows := by
  cases k with
  | none => rfl
  | branch => rfl
  | vector k =>
    have hir : (s.vectorHook k).ir = s.ir := rfl
    simp only [State.hook, State.rows, hir]
    rcases vectorHook_seq s k with h | h | h <;> rw [h] <;> cases s.seq <;> rfl

theorem accessPhase_t {c : Cycle} (h : c.KeepsPlace) (s : State) : (s.accessPhase c).t = s.t := by
  rw [State.accessPhase, hook_t]; exact h.t _ _ _

theorem accessPhase_rows {c : Cycle} (h : c.KeepsPlace) (s : State) : (s.accessPhase c).rows = s.rows := by
  rw [State.accessPhase, hook_rows]
  simp only [State.rows, State.pollShift_toCpu, State.edge_toCpu, h.seq, h.ir]

theorem finish_t (s : State) (e : Ending) : (s.finish e).t = 1 := by cases e <;> rfl

theorem perform_cycles (s : State) (g : Option Byte) (r : Req) : (s.perform g r).cycles = s.cycles := by cases r <;> rfl

theorem accessPhase_cycles (s : State) (c : Cycle) : (s.accessPhase c).cycles = s.cycles := by
  obtain ⟨-, -, -, -, -, hc, -⟩ := State.hook_rest
    { s.perform c.given (s.reqOf c) with
      toCpu := c.act s.params (s.byteOf c.given (s.reqOf c)) s.toCpu }.edge.pollShift c.hook
  exact hc.trans (perform_cycles s _ _)

theorem finish_cycles (s : State) (e : Ending) : (s.finish e).cycles = s.cycles := by cases e <;> rfl

/-- A cycle that is not stalled counts one. -/
theorem normalCycle_cycles (s : State) (c : Cycle) (last : Bool) : (s.normalCycle c last).cycles = s.cycles + 1 := by
  simp only [State.normalCycle]
  split
  · rw [State.tick_cycles, finish_cycles, accessPhase_cycles]
  · rw [State.tick_cycles, State.nextT_cycles, accessPhase_cycles]

theorem stallBus_rest (s : State) (a : Addr) : (s.stallBus a).toCpu = s.toCpu ∧ (s.stallBus a).cycles = s.cycles := by
  unfold State.stallBus
  split
  · exact ⟨rfl, rfl⟩
  · split <;> exact ⟨rfl, rfl⟩

/-- A stall cycle counts one, and the CPU stays where it is (R320). -/
theorem stallCycle_rest (s : State) (c : Cycle) :
    (s.stallCycle c).toCpu = s.toCpu ∧ (s.stallCycle c).cycles = s.cycles + 1 := by
  obtain ⟨hcpu, hcyc⟩ := stallBus_rest s (s.reqOf c).addr
  exact ⟨hcpu, congrArg (· + 1) hcyc⟩

/-- A row of the cycle at hand: it keeps `t`, and where it is not the last one, the next cycle has a row too. -/
structure RowAt (s : State) (c : Cycle) (last : Bool) : Prop where
  t : (s.accessPhase c).t = s.t
  next : last = false → s.t + 1 ≤ (s.accessPhase c).rows

/-- The row that the rows left begin with. -/
theorem rowAt_of_rowsLeft {s : State} {cs : List Cycle} (hrows : s.rows = cs.length) (h1 : 1 ≤ s.t) (hle : s.t ≤ s.rows)
    (hk : ∀ c ∈ s.rowsLeft cs, c.KeepsPlace) :
    ∃ c ds, s.rowsLeft cs = c :: ds ∧ RowAt s c ds.isEmpty := by
  have hlen : (s.rowsLeft cs).length = s.rows - (s.t - 1) := by rw [State.rowsLeft, List.length_drop, hrows]
  match hl : s.rowsLeft cs with
  | [] => rw [hl, List.length_nil] at hlen; omega
  | c :: ds =>
    have hc : c.KeepsPlace := hk c (by rw [hl]; exact List.mem_cons_self)
    refine ⟨c, ds, rfl, accessPhase_t hc s, fun hlast => ?_⟩
    rw [accessPhase_rows hc]
    match ds with
    | [] => exact absurd hlast (by simp)
    | d :: ds => rw [hl, List.length_cons, List.length_cons] at hlen; omega

/-- Where `t` names a row, the cycle at hand has one. -/
theorem State.OnRow.currentRow {s : State} (h : s.OnRow) (hh : s.halted = false) :
    ∃ c last, s.currentRow = some (c, last) ∧ RowAt s c last := by
  have h1 := h.one_le
  match hs : s.seq with
  | .halted => simp [State.halted, hs] at hh
  | .intSeq k =>
    have hr : s.rows = interruptSequence.length := by rw [State.rows, hs]
    have hle : s.t ≤ s.rows := h.elim (fun ht => by rw [ht, hr]; decide) And.right
    obtain ⟨c, ds, hl, hrow⟩ := rowAt_of_rowsLeft hr h1 hle
      fun c hc => sequences_keepPlace.1 c (List.mem_of_mem_drop hc)
    exact ⟨c, ds.isEmpty, by simp only [State.currentRow, hs, hl], hrow⟩
  | .resetSeq =>
    have hr : s.rows = resetSequence.length := by rw [State.rows, hs]
    have hle : s.t ≤ s.rows := h.elim (fun ht => by rw [ht, hr]; decide) And.right
    obtain ⟨c, ds, hl, hrow⟩ := rowAt_of_rowsLeft hr h1 hle
      fun c hc => sequences_keepPlace.2 c (List.mem_of_mem_drop hc)
    exact ⟨c, ds.isEmpty, by simp only [State.currentRow, hs, hl], hrow⟩
  | .instr =>
    rcases h with ht | ⟨h2, hle⟩
    · refine ⟨opcodeFetch, false, by simp [State.currentRow, hs, ht], rfl, fun _ => ?_⟩
      have hr : (s.accessPhase opcodeFetch).rows = (microcode (s.accessPhase opcodeFetch).ir).length := by
        have : (s.accessPhase opcodeFetch).seq = .instr := hs
        rw [State.rows, this]
      rw [hr, ht]
      exact (microcode_keepsPlace _).1
    · have hr : s.rows = (microcode s.ir).length := by rw [State.rows, hs]
      obtain ⟨c, ds, hl, hrow⟩ := rowAt_of_rowsLeft hr h1 hle fun c hc => (microcode_keepsPlace s.ir).2 c (by
        have hd : s.rowsLeft (microcode s.ir) = (microcode s.ir).tail.drop (s.t - 2) := by
          rw [State.rowsLeft, List.drop_tail]; congr 1; omega
        exact List.mem_of_mem_drop (hd ▸ hc))
      have ht : (s.t == 1) = false := by rw [beq_eq_false_iff_ne]; omega
      exact ⟨c, ds.isEmpty, by simp [State.currentRow, hs, ht, hl], hrow⟩

/-- A cycle that is not stalled leaves the CPU on a row: the next one, or the first one of what comes next. -/
theorem RowAt.normalCycle_onRow {s : State} {c : Cycle} {last : Bool} (h : RowAt s c last) (h1 : 1 ≤ s.t) :
    (s.normalCycle c last).OnRow := by
  simp only [State.normalCycle]
  split
  · exact .inl (finish_t _ _)
  · next hgo =>
    have hlast : last = false := by simp only [Bool.not_eq_true, Bool.or_eq_false_iff] at hgo; exact hgo.1
    have ht : ((s.accessPhase c).nextT.tick).t = s.t + 1 := congrArg (· + 1) h.t
    have hr : ((s.accessPhase c).nextT.tick).rows = (s.accessPhase c).rows := rfl
    refine .inr ?_
    rw [ht, hr]
    exact ⟨by omega, h.next hlast⟩

/-- A cycle in the halted state (R288). -/
theorem cycle_of_halted {s : State} (h : s.startStep.halted = true) : s.cycle = s.startStep.haltedCycle := by
  simp only [State.cycle, h, if_true]

/-- A cycle that has a row (R324): stalled if it reads and `stall_req` holds, and else an ordinary one. -/
theorem cycle_of_row {s : State} {c : Cycle} {last : Bool} (hh : s.startStep.halted = false)
    (hc : s.startStep.currentRow = some (c, last)) :
    s.cycle = if (s.startStep.reqOf c).isRead && s.startStep.input.stallReq then s.startStep.stallCycle c
      else s.startStep.normalCycle c last := by
  simp only [State.cycle, hh, hc, Bool.false_eq_true, if_false]

/-- One cycle counts one, and leaves the CPU on a row. -/
theorem cycle_counts {s : State} (h : s.OnRow) : s.cycle.cycles = s.cycles + 1 ∧ s.cycle.OnRow := by
  have hrow := startStep_onRow h
  rw [← startStep_cycles s]
  cases hh : s.startStep.halted with
  | true =>
    rw [cycle_of_halted hh]
    exact ⟨rfl, hrow.congr rfl rfl rfl⟩
  | false =>
    obtain ⟨c, last, hc, hat⟩ := hrow.currentRow hh
    rw [cycle_of_row hh hc]
    split
    · obtain ⟨hcpu, hstall⟩ := stallCycle_rest s.startStep c
      exact ⟨hstall, hrow.congr (congrArg (·.seq) hcpu) (congrArg (·.t) hcpu) (congrArg (·.ir) hcpu)⟩
    · exact ⟨normalCycle_cycles _ c last, hat.normalCycle_onRow hrow.one_le⟩

/-- Settles O40, by induction on the number of cycles: each counts one and leaves the CPU on a row. -/
theorem advancingCyclesCountsThem : Obligations.AdvancingCyclesCountsThem := by
  intro s n hinv
  have h := hinv.onRow
  clear hinv
  induction n generalizing s with
  | zero => simp
  | succ n ih =>
    obtain ⟨hc, hrow⟩ := cycle_counts h
    rw [Function.iterate_succ_apply, ih s.cycle hrow, hc]
    exact count_succ s.cycles n

end Sys2Proof.Machine
end

section
/-! PROOF. The D flag (10_state.md R29). A row that ignores D does the same for both values of it, so a run of such rows does; a
row that overwrites D makes two runs that differ in D one. -/

namespace Sys2Proof.Machine

/-! ### Another value of D -/

/-- The registers with another value of D. -/
def Regs.setD (r : Regs) (d : Bool) : Regs := { r with p := { r.p with d := d } }

/-- The registers and the micro-state with another value of D. -/
def Cpu.setD (c : Cpu) (d : Bool) : Cpu := { c with toRegs := c.toRegs.setD d }

/-- The state with another value of D. -/
def State.setD (s : State) (d : Bool) : State := { s with toCpu := s.toCpu.setD d }

@[simp] theorem State.setD_stop (s : State) (d : Bool) : (s.setD d).stop = s.stop := rfl

@[simp] theorem State.setD_tick (s : State) (d : Bool) : (s.setD d).tick = s.tick.setD d := rfl

@[simp] theorem State.setD_nextT (s : State) (d : Bool) : (s.setD d).nextT = s.nextT.setD d := rfl

/-- The access of a cycle does not depend on D. -/
def Cycle.ReqIgnoresD (c : Cycle) : Prop := ∀ q cpu d, c.req q (cpu.setD d) = c.req q cpu

/-- A cycle neither depends on D nor changes it. -/
structure Cycle.IgnoresD (c : Cycle) : Prop where
  req : c.ReqIgnoresD
  act : ∀ q b cpu d, c.act q b (cpu.setD d) = (c.act q b cpu).setD d
  fin : ∀ cpu d, c.fin (cpu.setD d) = c.fin cpu

/-- A cycle's action overwrites D, and its access does not depend on it. -/
structure Cycle.OverwritesD (c : Cycle) : Prop where
  req : c.ReqIgnoresD
  act : ∀ q b cpu d, c.act q b (cpu.setD d) = c.act q b cpu

/-! ### Runs -/

theorem stallBus_setD (s : State) (a : Addr) (d : Bool) : (s.setD d).stallBus a = (s.stallBus a).setD d := by
  change (if s.input.dmaDrives then _ else if s.params.stallReread then _ else _) = _
  unfold State.stallBus
  split
  · rfl
  · split <;> rfl

theorem stallCycle_setD {c : Cycle} (h : c.ReqIgnoresD) (s : State) (d : Bool) :
    (s.setD d).stallCycle c = (s.stallCycle c).setD d := by
  have hr : (s.setD d).reqOf c = s.reqOf c := h _ _ _
  rw [State.stallCycle, State.stallCycle, hr, stallBus_setD]
  rfl

theorem stallRun_setD {c : Cycle} (h : c.ReqIgnoresD) (is : List CycleIn) (s : State) (d : Bool) :
    stallRun c is (s.setD d) = (stallRun c is s).setD d := by
  induction is generalizing s with
  | nil => rfl
  | cons i is ih =>
    rw [stallRun, stallRun, State.setD_stop, stallCycle_setD h, ih]
    split <;> rfl

theorem waitBus_setD {c : Cycle} (h : c.ReqIgnoresD) (s : State) (d : Bool) :
    (s.setD d).waitBus c = (s.waitBus c).setD d := by
  have hr : (s.setD d).reqOf c = s.reqOf c := h _ _ _
  have hi : (s.setD d).inputs = s.inputs := rfl
  rw [State.waitBus, State.waitBus, hr, hi, stallRun_setD h]
  split <;> rfl

theorem perform_setD (s : State) (d : Bool) (g : Option Byte) (r : Req) :
    (s.setD d).perform g r = (s.perform g r).setD d := by cases r <;> rfl

theorem byteOf_setD (s : State) (d : Bool) (g : Option Byte) (r : Req) : (s.setD d).byteOf g r = s.byteOf g r := by
  cases r <;> rfl

theorem hook_setD (s : State) (d : Bool) (k : Hook) : (s.setD d).hook k = (s.hook k).setD d := by cases k <;> rfl

theorem finish_setD (s : State) (d : Bool) (e : Ending) : (s.setD d).finish e = (s.finish e).setD d := by cases e <;> rfl

/-- What a cycle leaves, told by what its action makes of the registers and the micro-state. -/
theorem accessPhase_of_setD {c : Cycle} (h : c.ReqIgnoresD) (s : State) (d : Bool) :
    (s.setD d).accessPhase c =
      ({ s.perform c.given (s.reqOf c) with
        toCpu := c.act s.params (s.byteOf c.given (s.reqOf c)) (s.toCpu.setD d) }.edge.pollShift).hook c.hook := by
  have hr : (s.setD d).reqOf c = s.reqOf c := h _ _ _
  rw [State.accessPhase, hr, perform_setD, byteOf_setD]
  rfl

theorem Cycle.IgnoresD.accessPhase {c : Cycle} (h : c.IgnoresD) (s : State) (d : Bool) :
    (s.setD d).accessPhase c = (s.accessPhase c).setD d := by
  rw [accessPhase_of_setD h.req, h.act, State.accessPhase, ← hook_setD]
  rfl

theorem Cycle.OverwritesD.accessPhase {c : Cycle} (h : c.OverwritesD) (s : State) (d : Bool) :
    (s.setD d).accessPhase c = s.accessPhase c := by
  rw [accessPhase_of_setD h.req, h.act, State.accessPhase]

/-- A run of rows that ignore D is the same for both values of it. -/
theorem runSeq_setD {cs : List Cycle} (h : ∀ c ∈ cs, c.IgnoresD) (s : State) (d : Bool) :
    runSeq cs (s.setD d) = (runSeq cs s).setD d := by
  induction cs generalizing s with
  | nil => rfl
  | cons c cs ih =>
    obtain ⟨hc, hcs⟩ := List.forall_mem_cons.1 h
    have hfin : c.fin (((s.waitBus c).accessPhase c).setD d).toCpu = c.fin ((s.waitBus c).accessPhase c).toCpu :=
      hc.fin _ _
    simp only [runSeq, waitBus_setD hc.req, hc.accessPhase, hfin, finish_setD, State.setD_stop, State.setD_nextT,
      State.setD_tick, ih hcs]
    split
    · rfl
    · split
      · rfl
      · split <;> rfl

/-- A quiet run forgets D in a row that overwrites it, after rows that ignore it and are not the last one. -/
theorem runSeq_forgetsD {cs ds : List Cycle} {c : Cycle} (hcs : ∀ e ∈ cs, e.IgnoresD ∧ e.fin = fun _ => false)
    (hc : c.OverwritesD) {s : State} (h : s.going) (d : Bool) :
    runSeq (cs ++ c :: ds) (s.setD d) = runSeq (cs ++ c :: ds) s := by
  induction cs generalizing s with
  | nil =>
    obtain ⟨-, hg⟩ := waitBus_view h c
    simp only [List.nil_append, runSeq, waitBus_setD hc.req, hc.accessPhase, State.setD_stop, hg.2, Bool.false_eq_true,
      if_false]
  | cons e cs ih =>
    obtain ⟨⟨he, hfin⟩, hcs⟩ := List.forall_mem_cons.1 hcs
    obtain ⟨-, hg⟩ := waitBus_view h e
    obtain ⟨-, hag, -⟩ := accessPhase_view hg e
    have hng : ((s.waitBus e).accessPhase e).nextT.tick.going := hag
    have hne : (cs ++ c :: ds).isEmpty = false := by cases cs <;> rfl
    simp only [List.cons_append, runSeq, waitBus_setD he.req, he.accessPhase, hfin, hne, State.setD_stop,
      State.setD_nextT, State.setD_tick, hg.2, hng.2, Bool.or_self, Bool.false_eq_true, if_false]
    exact ih hcs hng

/-! ### The rows that ignore D -/

/-- A function of the registers that does not depend on D. -/
def ValueIgnoresD {α : Type} (w : Regs → α) : Prop := ∀ r d, w (r.setD d) = w r

/-- A change of the registers that neither depends on D nor changes it. -/
def UpdateIgnoresD (f : Regs → Regs) : Prop := ∀ r d, f (r.setD d) = (f r).setD d

/-- An operation of the read-modify-write class that neither depends on D nor changes it. -/
def RmwIgnoresD (f : RmwOp) : Prop := ∀ m, ValueIgnoresD (fun r => (f m r).1) ∧ UpdateIgnoresD (fun r => (f m r).2)

/-- All rows of a list ignore D. -/
def RowsIgnoreD (cs : List Cycle) : Prop := ∀ c ∈ cs, c.IgnoresD

theorem RowsIgnoreD.append {cs ds : List Cycle} (hc : RowsIgnoreD cs) (hd : RowsIgnoreD ds) : RowsIgnoreD (cs ++ ds) :=
  List.forall_mem_append.2 ⟨hc, hd⟩

theorem RowsIgnoreD.supply {cs : List Cycle} (h : RowsIgnoreD cs) (bytes : List Byte) : RowsIgnoreD (supply bytes cs) := by
  induction cs generalizing bytes with
  | nil => cases bytes <;> exact h
  | cons c cs ih =>
    obtain ⟨hc, hcs⟩ := List.forall_mem_cons.1 h
    match bytes with
    | [] => exact h
    | b :: bs =>
      rw [Machine.supply]
      split
      · exact List.forall_mem_cons.2 ⟨⟨hc.req, hc.act, hc.fin⟩, ih hcs bs⟩
      · exact List.forall_mem_cons.2 ⟨hc, ih hcs (b :: bs)⟩

theorem addressRows_ignoreD (m : Mode) : RowsIgnoreD m.addressRows := by
  cases m <;>
  simp only [RowsIgnoreD, Mode.addressRows, zpAddress, zpIndexedAddress, absAddress, absIndexedAddress, indXAddress,
    indYAddress, List.forall_mem_cons, List.not_mem_nil, false_implies, implies_true, and_true] <;>
  and_intros <;> exact ⟨fun _ _ _ => rfl, fun _ _ _ _ => rfl, fun _ _ => rfl⟩

theorem index_ignoresD (m : Mode) : ValueIgnoresD m.index := by cases m <;> exact fun _ _ => rfl

theorem Cpu.onRegs_setD {f : Regs → Regs} (h : UpdateIgnoresD f) (c : Cpu) (d : Bool) :
    (c.setD d).onRegs f = (c.onRegs f).setD d := by
  have := h c.toRegs d
  simp only [Cpu.onRegs, Cpu.setD, this]

theorem opcodeFetch_ignoresD : opcodeFetch.IgnoresD := ⟨fun _ _ _ => rfl, fun _ _ _ _ => rfl, fun _ _ => rfl⟩

theorem dummyPc_ignoresD : dummyPc.IgnoresD := ⟨fun _ _ _ => rfl, fun _ _ _ _ => rfl, fun _ _ => rfl⟩

theorem pullStart_ignoresD : pullStart.IgnoresD := ⟨fun _ _ _ => rfl, fun _ _ _ _ => rfl, fun _ _ => rfl⟩

theorem readCycle_ignoresD {op : ReadOp} (h : ∀ m, UpdateIgnoresD (op m)) : (readCycle op).IgnoresD :=
  ⟨fun _ _ _ => rfl, fun _ b cpu d => Cpu.onRegs_setD (h b) { cpu with data := b } d, fun _ _ => rfl⟩

theorem readUnfixed_ignoresD {idx : Index} {op : ReadOp} (hi : ValueIgnoresD idx) (h : ∀ m, UpdateIgnoresD (op m)) :
    (readUnfixed idx op).IgnoresD := by
  refine ⟨fun q cpu d => ?_, fun q b cpu d => ?_, fun _ _ => rfl⟩
  · exact congrArg (fun i => Req.read (unfixed cpu.base i) (if cpu.crossed then .dummy else .data)) (hi cpu.toRegs d)
  · change (if cpu.crossed then _ else _) = Cpu.setD (if cpu.crossed then _ else _) d
    split
    · rfl
    · exact Cpu.onRegs_setD (h b) { cpu with data := b } d

theorem dummyUnfixed_ignoresD {idx : Index} (hi : ValueIgnoresD idx) : (dummyUnfixed idx).IgnoresD :=
  ⟨fun _ cpu d => congrArg (fun i => Req.read (unfixed cpu.base i) .dummy) (hi cpu.toRegs d), fun _ _ _ _ => rfl,
    fun _ _ => rfl⟩

theorem writeCycle_ignoresD {w : Regs → Byte} (h : ValueIgnoresD w) : (writeCycle w).IgnoresD :=
  ⟨fun _ cpu d => congrArg (fun v => Req.write cpu.ea v .data) (h cpu.toRegs d), fun _ _ _ _ => rfl, fun _ _ => rfl⟩

theorem rmwTail_ignoreD {f : RmwOp} (h : RmwIgnoresD f) : RowsIgnoreD (rmwTail f) := by
  simp only [RowsIgnoreD, rmwTail, List.forall_mem_cons, List.not_mem_nil, false_implies, implies_true, and_true]
  refine ⟨⟨fun _ _ _ => rfl, fun _ _ _ _ => rfl, fun _ _ => rfl⟩,
    ⟨fun _ _ _ => rfl, fun _ _ _ _ => rfl, fun _ _ => rfl⟩,
    ⟨fun _ cpu d => ?_, fun _ _ cpu d => ?_, fun _ _ => rfl⟩⟩
  · exact congrArg (fun v => Req.write cpu.ea v .data) ((h cpu.data).1 cpu.toRegs d)
  · exact Cpu.onRegs_setD (h cpu.data).2 cpu d

theorem shCycle_ignoresD {idx : Index} {reg : Regs → Byte} {act : Regs → Regs} (hi : ValueIgnoresD idx)
    (hr : ValueIgnoresD reg) (ha : UpdateIgnoresD act) : (shCycle idx reg act).IgnoresD := by
  refine ⟨fun q cpu d => ?_, fun _ _ cpu d => Cpu.onRegs_setD ha cpu d, fun _ _ => rfl⟩
  exact congrArg₂ (fun i v => Req.write (shAddress q.shModel cpu.base i (shValue cpu.base v)) (shValue cpu.base v) .data)
    (hi cpu.toRegs d) (hr cpu.toRegs d)

/-! ### The skeletons that ignore D -/

theorem readRows_ignoreD (m : Mode) {op : ReadOp} (h : ∀ m, UpdateIgnoresD (op m)) : RowsIgnoreD (m.readRows op) := by
  refine (addressRows_ignoreD m).append ?_
  have hr := readCycle_ignoresD h
  split
  · exact List.forall_mem_cons.2 ⟨readUnfixed_ignoresD (index_ignoresD m) h, List.forall_mem_singleton.2 hr⟩
  · exact List.forall_mem_singleton.2 hr

theorem storeRows_ignoreD (m : Mode) {ds : List Cycle} (hd : RowsIgnoreD ds) : RowsIgnoreD (m.storeRows ds) := by
  refine (addressRows_ignoreD m).append ?_
  split
  · exact List.forall_mem_cons.2 ⟨dummyUnfixed_ignoresD (index_ignoresD m), hd⟩
  · exact hd

theorem writeRows_ignoreD (m : Mode) {w : Regs → Byte} (h : ValueIgnoresD w) :
    RowsIgnoreD (m.storeRows [writeCycle w]) :=
  storeRows_ignoreD m (List.forall_mem_singleton.2 (writeCycle_ignoresD h))

theorem rmwRows_ignoreD (m : Mode) {f : RmwOp} (h : RmwIgnoresD f) : RowsIgnoreD (m.storeRows (rmwTail f)) :=
  storeRows_ignoreD m (rmwTail_ignoreD h)

theorem shRows_ignoreD (m : Mode) {idx : Index} {reg : Regs → Byte} {act : Regs → Regs} (hi : ValueIgnoresD idx)
    (hr : ValueIgnoresD reg) (ha : UpdateIgnoresD act) : RowsIgnoreD (m.storeRows [shCycle idx reg act]) :=
  storeRows_ignoreD m (List.forall_mem_singleton.2 (shCycle_ignoresD hi hr ha))

theorem impliedOp_ignoresD {f : Regs → Regs} (h : UpdateIgnoresD f) : RowsIgnoreD (impliedOp f) :=
  List.forall_mem_cons.2 ⟨opcodeFetch_ignoresD, List.forall_mem_singleton.2
    ⟨fun _ _ _ => rfl, fun _ _ cpu d => Cpu.onRegs_setD h cpu d, fun _ _ => rfl⟩⟩

theorem immediateWith_ignoresD {f : Params → ReadOp} (h : ∀ q m, UpdateIgnoresD (f q m)) :
    RowsIgnoreD (immediateWith f) :=
  List.forall_mem_cons.2 ⟨opcodeFetch_ignoresD, List.forall_mem_singleton.2
    ⟨fun _ _ _ => rfl, fun q b cpu d => Cpu.onRegs_setD (h q b) { cpu with pc := cpu.pc + 1, data := b } d,
      fun _ _ => rfl⟩⟩

theorem pushSkeleton_ignoresD {w : Regs → Byte} (h : ValueIgnoresD w) : RowsIgnoreD (pushSkeleton w) :=
  List.forall_mem_cons.2 ⟨opcodeFetch_ignoresD, List.forall_mem_cons.2 ⟨dummyPc_ignoresD, List.forall_mem_singleton.2
    ⟨fun _ cpu d => congrArg (fun v => Req.write (stackAddr cpu.sp) v .stack) (h cpu.toRegs d), fun _ _ _ _ => rfl,
      fun _ _ => rfl⟩⟩⟩

theorem pullSkeleton_ignoresD {op : ReadOp} (h : ∀ m, UpdateIgnoresD (op m)) : RowsIgnoreD (pullSkeleton op) :=
  List.forall_mem_cons.2 ⟨opcodeFetch_ignoresD, List.forall_mem_cons.2 ⟨dummyPc_ignoresD, List.forall_mem_cons.2
    ⟨pullStart_ignoresD, List.forall_mem_singleton.2
      ⟨fun _ _ _ => rfl, fun _ b cpu d => Cpu.onRegs_setD (h b) { cpu with data := b } d, fun _ _ => rfl⟩⟩⟩⟩

theorem branchSkeleton_ignoresD {cond : Flags → Bool} (h : ∀ p d, cond { p with d := d } = cond p) :
    RowsIgnoreD (branchSkeleton cond) := by
  simp only [RowsIgnoreD, branchSkeleton, List.forall_mem_cons, List.not_mem_nil, false_implies, implies_true, and_true]
  refine ⟨opcodeFetch_ignoresD, ⟨fun _ _ _ => rfl, fun _ b cpu d => ?_, fun _ _ => rfl⟩, ?_⟩
  · exact congrArg (fun t => ({ cpu with pc := cpu.pc + 1, data := b, taken := t } : Cpu).setD d) (h cpu.p d)
  · and_intros <;> exact ⟨fun _ _ _ => rfl, fun _ _ _ _ => rfl, fun _ _ => rfl⟩

/-- The jumps, JSR, RTS and KIL ignore D. -/
theorem jumpSkeletons_ignoreD :
    RowsIgnoreD jumpSkeleton ∧ RowsIgnoreD jumpIndirectSkeleton ∧ RowsIgnoreD callSkeleton ∧
    RowsIgnoreD returnSkeleton ∧ RowsIgnoreD haltSkeleton := by
  simp only [RowsIgnoreD, jumpSkeleton, jumpIndirectSkeleton, callSkeleton, returnSkeleton, haltSkeleton,
    List.forall_mem_cons, List.not_mem_nil, false_implies, implies_true, and_true]
  and_intros <;> exact ⟨fun _ _ _ => rfl, fun _ _ _ _ => rfl, fun _ _ => rfl⟩

/-! ### The operations that ignore D -/

theorem values_ignoreD :
    ValueIgnoresD Regs.a ∧ ValueIgnoresD Regs.x ∧ ValueIgnoresD Regs.y ∧ ValueIgnoresD saxValue := by
  and_intros <;> exact fun _ _ => rfl

theorem updates_ignoreD :
    UpdateIgnoresD (fun r => r) ∧ UpdateIgnoresD id ∧ UpdateIgnoresD inxOp ∧ UpdateIgnoresD inyOp ∧
    UpdateIgnoresD dexOp ∧ UpdateIgnoresD deyOp ∧ UpdateIgnoresD taxOp ∧ UpdateIgnoresD tayOp ∧ UpdateIgnoresD txaOp ∧
    UpdateIgnoresD tyaOp ∧ UpdateIgnoresD tsxOp ∧ UpdateIgnoresD txsOp ∧ UpdateIgnoresD clcOp ∧ UpdateIgnoresD secOp ∧
    UpdateIgnoresD cliOp ∧ UpdateIgnoresD seiOp ∧ UpdateIgnoresD clvOp ∧ UpdateIgnoresD tasOp := by
  and_intros <;> exact fun _ _ => rfl

/-- ADC, SBC and ARR are among them: D is stored only. -/
theorem readOps_ignoreD (m : Byte) :
    UpdateIgnoresD (adcOp m) ∧ UpdateIgnoresD (sbcOp m) ∧ UpdateIgnoresD (arrOp m) ∧ UpdateIgnoresD (andOp m) ∧
    UpdateIgnoresD (oraOp m) ∧ UpdateIgnoresD (eorOp m) ∧ UpdateIgnoresD (bitOp m) ∧ UpdateIgnoresD (cmpOp m) ∧
    UpdateIgnoresD (cpxOp m) ∧ UpdateIgnoresD (cpyOp m) ∧ UpdateIgnoresD (ldaOp m) ∧ UpdateIgnoresD (ldxOp m) ∧
    UpdateIgnoresD (ldyOp m) ∧ UpdateIgnoresD (plaOp m) ∧ UpdateIgnoresD (laxOp m) ∧ UpdateIgnoresD (lasOp m) ∧
    UpdateIgnoresD (ancOp m) ∧ UpdateIgnoresD (alrOp m) ∧ UpdateIgnoresD (axsOp m) ∧ UpdateIgnoresD (nopOp m) ∧
    (∀ q, UpdateIgnoresD (lxaOp q m)) ∧ ∀ q, UpdateIgnoresD (xaaOp q m) := by
  and_intros <;> intros <;> exact fun _ _ => rfl

/-- RRA and ISC are among them. -/
theorem rmwOps_ignoreD :
    RmwIgnoresD rraOp ∧ RmwIgnoresD iscOp ∧ RmwIgnoresD sloOp ∧ RmwIgnoresD rlaOp ∧ RmwIgnoresD sreOp ∧
    RmwIgnoresD dcpOp ∧ RmwIgnoresD incOp ∧ RmwIgnoresD decOp ∧ RmwIgnoresD aslOp ∧ RmwIgnoresD lsrOp ∧
    RmwIgnoresD rolOp ∧ RmwIgnoresD rorOp := by
  and_intros <;> exact fun _ => ⟨fun _ _ => rfl, fun _ _ => rfl⟩

theorem onA_ignoresD {f : RmwOp} (h : RmwIgnoresD f) : UpdateIgnoresD (onA f) := fun r d => by
  obtain ⟨hv, hu⟩ := h r.a
  exact congrArg₂ (fun v u => ({ u with a := v } : Regs)) (hv r d) (hu r d)

theorem conditions_ignoreD (p : Flags) (d : Bool) :
    bplCond { p with d := d } = bplCond p ∧ bmiCond { p with d := d } = bmiCond p ∧
    bvcCond { p with d := d } = bvcCond p ∧ bvsCond { p with d := d } = bvsCond p ∧
    bccCond { p with d := d } = bccCond p ∧ bcsCond { p with d := d } = bcsCond p ∧
    bneCond { p with d := d } = bneCond p ∧ beqCond { p with d := d } = beqCond p :=
  ⟨rfl, rfl, rfl, rfl, rfl, rfl, rfl, rfl⟩

/-- The skeleton of every opcode but those of PHP, BRK, PLP, RTI, CLD and SED ignores D. -/
theorem microcode_ignoresD {op : Byte} (h : op ∉ [0x08, 0x00, 0x28, 0x40, 0xD8, 0xF8]) : RowsIgnoreD (microcode op) := by
  have htable : ∀ p ∈ microcodeTable.zipIdx, p.2 ∉ [0x08, 0x00, 0x28, 0x40, 0xD8, 0xF8] → RowsIgnoreD p.1 := by
    simp only [microcodeTable, microRow0, microRow1, microRow2, microRow3, microRow4, microRow5, microRow6, microRow7,
      microRow8, microRow9, microRowA, microRowB, microRowC, microRowD, microRowE, microRowF, List.zipIdx_append,
      List.zipIdx_cons, List.zipIdx_nil, List.length_append, List.length_cons, List.length_nil, List.forall_mem_append,
      List.forall_mem_cons, Nat.reduceAdd, immediate, readSkeletons_eq, writeSkeletons_eq, rmwSkeletons_eq,
      shSkeletons_eq]
    simp [readRows_ignoreD, writeRows_ignoreD, rmwRows_ignoreD, shRows_ignoreD, impliedOp_ignoresD,
      immediateWith_ignoresD, pushSkeleton_ignoresD, pullSkeleton_ignoresD, branchSkeleton_ignoresD, jumpSkeletons_ignoreD,
      values_ignoreD, updates_ignoreD, readOps_ignoreD, rmwOps_ignoreD, onA_ignoresD, conditions_ignoreD]
  refine htable _ (microcode_mem_zipIdx op) fun hop => h ?_
  simpa [BitVec.toNat_eq] using hop

/-! ### The instructions -/

/-- The bytes of the fetch cycles do not depend on D. -/
theorem fetchedBytes_setD (s : State) (i : Instr) (d : Bool) : fetchedBytes (s.setD d) i = fetchedBytes s i := by
  unfold fetchedBytes
  split <;> rfl

/-- An instruction that ignores D does the same for both values of it, and keeps it (R29). -/
theorem exec_setD {i : Instr} (h : i.opcode ∉ [0x08, 0x00, 0x28, 0x40, 0xD8, 0xF8]) (s : State) (d : Bool) :
    ∃ t, exec i s = .next t ∧ exec i (s.setD d) = .next (t.setD d) ∧ t.p.d = s.p.d := by
  have hrun (d : Bool) : runSeq (supply (fetchedBytes s i) (microcode i.opcode)) (s.begin.setD d) =
      (runSeq (supply (fetchedBytes s i) (microcode i.opcode)) s.begin).setD d :=
    runSeq_setD ((microcode_ignoresD h).supply _) s.begin d
  refine ⟨_, exec_eq_microcode i s, ?_, congrArg (·.p.d) (hrun s.p.d)⟩
  rw [exec_eq_microcode, fetchedBytes_setD, ← hrun]
  rfl

/-- Two quiet runs of an instruction that overwrites D, which differ in D at the start, are one at the end. -/
theorem runInstr_forgetsD {bytes : List Byte} {skeleton cs ds : List Cycle} {c : Cycle}
    (hsplit : supply bytes skeleton = cs ++ c :: ds) (hcs : ∀ e ∈ cs, e.IgnoresD ∧ e.fin = fun _ => false)
    (hc : c.OverwritesD) {s : State} (h : s.quiet) (d : Bool) :
    runInstr bytes skeleton (s.setD d) = runInstr bytes skeleton s := by
  have hb : (s.setD d).begin = s.begin.setD d := rfl
  rw [runInstr, runInstr, hsplit, hb, runSeq_forgetsD hcs hc (begin_going h)]

/-- An opcode fetch with its byte known. -/
theorem fetched_ignoresD (op : Byte) :
    { opcodeFetch with given := some op }.IgnoresD ∧ { opcodeFetch with given := some op }.fin = fun _ => false :=
  ⟨⟨fun _ _ _ => rfl, fun _ _ _ _ => rfl, fun _ _ => rfl⟩, rfl⟩

/-- CLD and SED: what an implied operation that overwrites D does does not depend on it. -/
theorem implied_forgetsD (op : Byte) {f : Regs → Regs} (hf : ∀ r d, f (r.setD d) = f r) {s : State} (h : s.quiet)
    (d : Bool) : runInstr [op] (impliedOp f) (s.setD d) = runInstr [op] (impliedOp f) s := by
  refine runInstr_forgetsD (cs := [{ opcodeFetch with given := some op }]) (ds := []) rfl
    (List.forall_mem_singleton.2 (fetched_ignoresD op)) ⟨fun _ _ _ => rfl, fun _ _ cpu d => ?_⟩ h d
  exact congrArg (fun r => ({ cpu with toRegs := r } : Cpu)) (hf cpu.toRegs d)

/-- The rows of a pull before its read. -/
theorem pullRows_ignoreD (op : Byte) :
    ∀ e ∈ [{ opcodeFetch with given := some op }, dummyPc, pullStart], e.IgnoresD ∧ e.fin = fun _ => false := by
  simp only [List.forall_mem_cons, List.not_mem_nil, false_implies, implies_true, and_true]
  exact ⟨fetched_ignoresD op, ⟨dummyPc_ignoresD, rfl⟩, ⟨pullStart_ignoresD, rfl⟩⟩

theorem plp_forgetsD {s : State} (h : s.quiet) (d : Bool) : exec .plp (s.setD d) = exec .plp s :=
  runInstr_forgetsD (ds := []) rfl (pullRows_ignoreD 0x28) ⟨fun _ _ _ => rfl, fun _ _ _ _ => rfl⟩ h d

theorem rti_forgetsD {s : State} (h : s.quiet) (d : Bool) : exec .rti (s.setD d) = exec .rti s :=
  runInstr_forgetsD rfl (pullRows_ignoreD 0x40) ⟨fun _ _ _ => rfl, fun _ _ _ _ => rfl⟩ h d

/-! ### The pushes -/

/-- The byte pushed is the status byte of R26. -/
theorem packFlags_eq_statusByte (p : Flags) (b : Bool) : packFlags p b = statusByte p b := by
  obtain ⟨n, v, d, i, z, c⟩ := p
  revert n v d i z c b
  decide

/-- An exception entry leaves its three bytes on the stack. -/
theorem EntryDone.threePushed {s t : State} {r : Regs} {b : Bool} (h : EntryDone s r b t) (hsp : r.sp = s.sp) :
    ThreePushed s t r.pc (statusByte r.p b) := by
  refine State.peek_congr (h.mem.trans ?_) h.map
  rw [entryMem, hsp, packFlags_eq_statusByte]
  rfl

/-- Settles O23: the rows of every other instruction ignore D; those of CLD, SED, PLP and RTI overwrite it; and PHP, BRK and the
interrupt sequence are told by their specifications. -/
theorem decimalFlagIsOnlyStored : Obligations.DecimalFlagIsOnlyStored := by
  intro s i d
  refine ⟨fun hi => exec_setD hi s d, fun h => ⟨?_, ?_, ?_, ?_, ?_, ?_, fun hr hs ht hi => ?_⟩⟩
  · obtain ⟨t, ht, he, -⟩ := implied_spec 0xD8 cldOp h
    exact ⟨t, ht, (implied_forgetsD 0xD8 (fun _ _ => rfl) h d).trans ht, congrArg (·.p.d) he.regs⟩
  · obtain ⟨t, ht, he, -⟩ := implied_spec 0xF8 sedOp h
    exact ⟨t, ht, (implied_forgetsD 0xF8 (fun _ _ => rfl) h d).trans ht, congrArg (·.p.d) he.regs⟩
  · obtain ⟨t, ht, he, -⟩ := pull_spec 0x28 plpOp h
    exact ⟨t, ht, (plp_forgetsD h d).trans ht, congrArg (·.p.d) he.regs⟩
  · obtain ⟨t, ht, he, -⟩ := interruptReturn_spec 0x40 h
    exact ⟨t, ht, (rti_forgetsD h d).trans ht, congrArg (·.p.d) he.regs⟩
  · obtain ⟨t, ht, he, -⟩ := push_spec 0x08 phpValue (s := s.setD d) h
    exact ⟨t, ht, congrArg (·.p.d) he.regs, packFlags_eq_statusByte _ true ▸ he.oneByteStored⟩
  · obtain ⟨t, ht, he, -⟩ := break_spec 0x00 (s := s.setD d) h
    exact ⟨t, ht, congrArg (·.p.d) he.regs, he.threePushed rfl⟩
  · obtain ⟨t, ht, he, -⟩ := interrupt_spec (s := s.setD d) h hr hs ht hi
    exact ⟨t, ht, congrArg (·.p.d) he.regs, he.threePushed rfl⟩

end Sys2Proof.Machine
end

section
/-! PROOF SUPPORT. The forms of an instruction at once: that every form of a list runs its mode's skeleton is the fact about the
opcodes, and what the skeleton's operation does to the registers is the fact about the instruction. -/

namespace Sys2Proof.Machine

/-- The forms encode as their modes do, and run the rows their modes have for an operation (R82, R100). -/
def FormsRun (s : State) (rows : Mode → List Cycle) (fs : List Form) : Prop :=
  ∀ f ∈ fs, encode f.1 = f.2.2.bytes f.2.1 ∧ exec f.1 s = runInstr (f.2.2.bytes f.2.1) (rows f.2.2) s

@[simp] theorem formsRun_nil (s : State) (rows : Mode → List Cycle) : FormsRun s rows [] :=
  List.forall_mem_nil _

@[simp] theorem formsRun_cons (s : State) (rows : Mode → List Cycle) (f : Form) (fs : List Form) :
    FormsRun s rows (f :: fs) ↔
      (encode f.1 = f.2.2.bytes f.2.1 ∧ exec f.1 s = runInstr (f.2.2.bytes f.2.1) (rows f.2.2) s) ∧ FormsRun s rows fs :=
  List.forall_mem_cons

/-- The forms of a read-class instruction, by what its operation makes of the registers. -/
theorem ReadForms.of_op {s : State} (h : s.quiet) (f : ReadOp) {r : Byte → Regs} {fs : List Form}
    (hr : ∀ v pc, f v { s.toRegs with pc := pc } = { r v with pc := pc })
    (hfs : FormsRun s (·.readRows f) fs) : ReadForms s r fs := fun g hg =>
  have ⟨he, hx⟩ := hfs g hg
  ReadsInMode.of_op h g.2.2 f he hx hr

/-- The forms of a write-class instruction, by the byte it stores. -/
theorem StoreForms.of_op {s : State} (h : s.quiet) (w : Regs → Byte) {v : Byte} {fs : List Form}
    (hv : ∀ pc, w { s.toRegs with pc := pc } = v)
    (hfs : FormsRun s (·.storeRows [writeCycle w]) fs) : StoreForms s v fs := fun g hg =>
  have ⟨he, hx⟩ := hfs g hg
  StoresInMode.of_op h g.2.2 w he hx hv

end Sys2Proof.Machine
end

section
/-! PROOF. Loads, stores and transfers (41_load_store_transfer.md R140 to R151). -/

namespace Sys2Proof.Machine

/-! ### The operations on the registers -/

theorem ldaOp_eq (v : Byte) (r : Regs) : ldaOp v r = { r with a := v, p := nz r.p v } := setNZ_eq _ v

theorem ldxOp_eq (v : Byte) (r : Regs) : ldxOp v r = { r with x := v, p := nz r.p v } := setNZ_eq _ v

theorem ldyOp_eq (v : Byte) (r : Regs) : ldyOp v r = { r with y := v, p := nz r.p v } := setNZ_eq _ v

theorem taxOp_eq (r : Regs) : taxOp r = { r with x := r.a, p := nz r.p r.a } := setNZ_eq _ r.a

theorem tayOp_eq (r : Regs) : tayOp r = { r with y := r.a, p := nz r.p r.a } := setNZ_eq _ r.a

theorem txaOp_eq (r : Regs) : txaOp r = { r with a := r.x, p := nz r.p r.x } := setNZ_eq _ r.x

theorem tyaOp_eq (r : Regs) : tyaOp r = { r with a := r.y, p := nz r.p r.y } := setNZ_eq _ r.y

theorem tsxOp_eq (r : Regs) : tsxOp r = { r with x := r.sp, p := nz r.p r.sp } := setNZ_eq _ r.sp

/-! ### The forms of the opcode map -/

theorem lda_formsRun (s : State) (b lo hi : Byte) :
    FormsRun s (·.readRows ldaOp)
      [(.ldaIndX b, 0xA1, .indX b), (.ldaZp b, 0xA5, .zp b), (.ldaAbs lo hi, 0xAD, .abs lo hi),
       (.ldaIndY b, 0xB1, .indY b), (.ldaZpX b, 0xB5, .zpX b), (.ldaAbsY lo hi, 0xB9, .absY lo hi),
       (.ldaAbsX lo hi, 0xBD, .absX lo hi)] := by
  simp only [formsRun_cons, formsRun_nil, and_true]
  and_intros <;> rfl

theorem ldx_formsRun (s : State) (b lo hi : Byte) :
    FormsRun s (·.readRows ldxOp)
      [(.ldxZp b, 0xA6, .zp b), (.ldxAbs lo hi, 0xAE, .abs lo hi), (.ldxZpY b, 0xB6, .zpY b),
       (.ldxAbsY lo hi, 0xBE, .absY lo hi)] := by
  simp only [formsRun_cons, formsRun_nil, and_true]
  and_intros <;> rfl

theorem ldy_formsRun (s : State) (b lo hi : Byte) :
    FormsRun s (·.readRows ldyOp)
      [(.ldyZp b, 0xA4, .zp b), (.ldyAbs lo hi, 0xAC, .abs lo hi), (.ldyZpX b, 0xB4, .zpX b),
       (.ldyAbsX lo hi, 0xBC, .absX lo hi)] := by
  simp only [formsRun_cons, formsRun_nil, and_true]
  and_intros <;> rfl

theorem sta_formsRun (s : State) (b lo hi : Byte) :
    FormsRun s (·.storeRows [writeCycle Regs.a])
      [(.staIndX b, 0x81, .indX b), (.staZp b, 0x85, .zp b), (.staAbs lo hi, 0x8D, .abs lo hi),
       (.staIndY b, 0x91, .indY b), (.staZpX b, 0x95, .zpX b), (.staAbsY lo hi, 0x99, .absY lo hi),
       (.staAbsX lo hi, 0x9D, .absX lo hi)] := by
  simp only [formsRun_cons, formsRun_nil, and_true]
  and_intros <;> rfl

theorem stx_formsRun (s : State) (b lo hi : Byte) :
    FormsRun s (·.storeRows [writeCycle Regs.x])
      [(.stxZp b, 0x86, .zp b), (.stxAbs lo hi, 0x8E, .abs lo hi), (.stxZpY b, 0x96, .zpY b)] := by
  simp only [formsRun_cons, formsRun_nil, and_true]
  and_intros <;> rfl

theorem sty_formsRun (s : State) (b lo hi : Byte) :
    FormsRun s (·.storeRows [writeCycle Regs.y])
      [(.styZp b, 0x84, .zp b), (.styAbs lo hi, 0x8C, .abs lo hi), (.styZpX b, 0x94, .zpX b)] := by
  simp only [formsRun_cons, formsRun_nil, and_true]
  and_intros <;> rfl

/-! ### The statements -/

/-- Settles O7: every form runs the read class or the immediate mode of its operation. -/
theorem loadsPutTheOperandIntoTheirRegister : Obligations.LoadsPutTheOperandIntoTheirRegister := by
  intro s b lo hi h
  refine ⟨?lda_imm, ?lda, ?ldx_imm, ?ldx, ?ldy_imm, ?ldy⟩
  case lda_imm => exact ReadsImmediate.of_op h (fun _ => ldaOp) rfl rfl (ldaOp_eq b _)
  case lda => exact ReadForms.of_op h ldaOp (fun v _ => ldaOp_eq v _) (lda_formsRun s b lo hi)
  case ldx_imm => exact ReadsImmediate.of_op h (fun _ => ldxOp) rfl rfl (ldxOp_eq b _)
  case ldx => exact ReadForms.of_op h ldxOp (fun v _ => ldxOp_eq v _) (ldx_formsRun s b lo hi)
  case ldy_imm => exact ReadsImmediate.of_op h (fun _ => ldyOp) rfl rfl (ldyOp_eq b _)
  case ldy => exact ReadForms.of_op h ldyOp (fun v _ => ldyOp_eq v _) (ldy_formsRun s b lo hi)

/-- Settles O8: every form runs the write class with its register; and three bytes decode as the opcode map has them. -/
theorem storesWriteTheirRegister : Obligations.StoresWriteTheirRegister := by
  intro s b lo hi h
  refine ⟨?sta, ?stx, ?sty, ?nop89, ?shx, ?shy⟩
  case sta => exact StoreForms.of_op h Regs.a (fun _ => rfl) (sta_formsRun s b lo hi)
  case stx => exact StoreForms.of_op h Regs.x (fun _ => rfl) (stx_formsRun s b lo hi)
  case sty => exact StoreForms.of_op h Regs.y (fun _ => rfl) (sty_formsRun s b lo hi)
  case nop89 | shx | shy => rfl

/-- Settles O9: every transfer runs the implied mode with its operation; that of TXS writes no flag. -/
theorem transfersCopyARegister : Obligations.TransfersCopyARegister := by
  intro s h
  refine ⟨?tax, ?tay, ?txa, ?tya, ?tsx, ?txs⟩
  case tax => exact DoesImplied.of_op h taxOp rfl rfl (taxOp_eq _)
  case tay => exact DoesImplied.of_op h tayOp rfl rfl (tayOp_eq _)
  case txa => exact DoesImplied.of_op h txaOp rfl rfl (txaOp_eq _)
  case tya => exact DoesImplied.of_op h tyaOp rfl rfl (tyaOp_eq _)
  case tsx => exact DoesImplied.of_op h tsxOp rfl rfl (tsxOp_eq _)
  case txs => exact DoesImplied.of_op h txsOp rfl rfl rfl

end Sys2Proof.Machine
end

section
/-! PROOF. The shared arithmetic (42_arith_logic.md R160 to R162): the add, the compare and the four shifts as exact
numbers. -/

namespace Sys2Proof.Machine

/-! ### Bits of a byte as numbers -/

theorem byte_bit0 (v : Byte) : v.getLsbD 0 = decide (v.toNat % 2 = 1) := Nat.testBit_zero v.toNat

theorem byte_bit6 (v : Byte) : v.getLsbD 6 = decide (v.toNat / 64 % 2 = 1) := Nat.testBit_eq_decide_div_mod_eq

theorem byte_bit7 (v : Byte) : v.getLsbD 7 = decide (v.toNat / 128 % 2 = 1) := Nat.testBit_eq_decide_div_mod_eq

theorem byte_bit7_eq_le (v : Byte) : v.getLsbD 7 = decide (128 ≤ v.toNat) := by
  rw [← BitVec.msb_eq_getLsbD_last v, BitVec.msb_eq_decide]

theorem carryOf_le (p : Flags) : carryOf p ≤ 1 := by
  rw [carryOf]
  split <;> decide

theorem bit_toNat (p : Flags) : (bit p.c).toNat = carryOf p := by
  rw [bit, carryOf]
  split <;> rfl

/-! ### The add (R160) -/

/-- No carry leaves the nine bits of the sum. -/
theorem adcSum_toNat (a m : Byte) (p : Flags) : (adcSum a m p.c).toNat = a.toNat + m.toNat + carryOf p := by
  have hc : (if p.c then 1 else 0 : BitVec 9).toNat = carryOf p := by
    rw [carryOf]
    split <;> rfl
  have := carryOf_le p
  rw [adcSum, BitVec.toNat_add, BitVec.toNat_add, hc, BitVec.toNat_setWidth, BitVec.toNat_setWidth]
  omega

theorem adc8_fst (a m : Byte) (p : Flags) : (adc8 a m p).1 = BitVec.ofNat 8 (a.toNat + m.toNat + carryOf p) := by
  rw [← adcSum_toNat]
  rfl

/-- The flags of the add, as R160 writes them. -/
theorem adc8_snd_bits (a m : Byte) (p : Flags) :
    (adc8 a m p).2 = nz { p with
      c := (a.toNat + m.toNat + carryOf p).testBit 8
      v := (~~~(a ^^^ m) &&& (a ^^^ (adc8 a m p).1)).getLsbD 7 } (adc8 a m p).1 := by
  rw [← flagsNZ_eq, ← adcSum_toNat]
  rfl

/-- Bit 7 of V's formula says that operands of one sign gave a result of the other. -/
theorem overflowBit_eq (a m r : Byte) :
    (~~~(a ^^^ m) &&& (a ^^^ r)).getLsbD 7 = (a.msb == m.msb && r.msb != a.msb) := by
  rw [← BitVec.msb_eq_getLsbD_last, BitVec.msb_and, BitVec.msb_not, BitVec.msb_xor, BitVec.msb_xor]
  cases a.msb <;> cases m.msb <;> cases r.msb <;> rfl

/-- The flags of the add as numbers. -/
theorem adc8_snd (a m : Byte) (p : Flags) :
    (adc8 a m p).2 = nz { p with
      c := decide (256 ≤ a.toNat + m.toNat + carryOf p)
      v := a.msb == m.msb && (adc8 a m p).1.msb != a.msb } (adc8 a m p).1 := by
  have hc : (a.toNat + m.toNat + carryOf p).testBit 8 = decide (256 ≤ a.toNat + m.toNat + carryOf p) := by
    have := carryOf_le p
    rw [Nat.testBit_eq_decide_div_mod_eq, decide_eq_decide]
    omega
  rw [adc8_snd_bits, overflowBit_eq, hc]

theorem addToA_eq (m : Byte) (r : Regs) : addToA m r = sumTo r m := by
  rw [addToA, adc8_snd, adc8_fst]
  rfl

/-- The complement of `m` is `255 - m`, so the sum with it and the carry is `a - m - (1 - C)` modulo 256 (R164). -/
theorem sum_complement (a m : Byte) (p : Flags) :
    a.toNat + (~~~m).toNat + carryOf p = 256 + a.toNat - (m.toNat + (1 - carryOf p)) := by
  have := carryOf_le p
  rw [BitVec.toNat_not]
  omega

theorem carry_of_complement (a m : Byte) (p : Flags) :
    256 ≤ a.toNat + (~~~m).toNat + carryOf p ↔ m.toNat + (1 - carryOf p) ≤ a.toNat := by
  rw [sum_complement]
  omega

theorem addToA_complement_eq (m : Byte) (r : Regs) : addToA (~~~m) r = differenceTo r m := by
  have hv : (r.a.msb == (~~~m).msb) = (r.a.msb != m.msb) := by
    rw [BitVec.msb_not]
    cases r.a.msb <;> cases m.msb <;> rfl
  rw [addToA_eq, sumTo, hv, decide_eq_decide.mpr (carry_of_complement r.a m r.p), sum_complement]
  rfl

/-- V says that the signed sum does not fit 8 bits. -/
theorem overflow_iff_signed (a m : Byte) (p : Flags) :
    (adc8 a m p).2.v = true ↔ a.toInt + m.toInt + carryOf p < -128 ∨ 127 < a.toInt + m.toInt + carryOf p := by
  have := carryOf_le p
  have hv : (adc8 a m p).2.v = (a.msb == m.msb && (adc8 a m p).1.msb != a.msb) := by
    rw [adc8_snd]
    rfl
  rw [hv, adc8_fst, BitVec.toInt_eq_toNat_cond, BitVec.toInt_eq_toNat_cond, BitVec.msb_eq_decide, BitVec.msb_eq_decide,
    BitVec.msb_eq_decide, BitVec.toNat_ofNat]
  simp only [Bool.and_eq_true, beq_iff_eq, bne_iff_ne, ne_eq, decide_eq_decide]
  omega

/-- Settles O12: the subtraction is the sum with the complement. -/
theorem binaryAddIsExact : Obligations.BinaryAddIsExact := by
  intro a m p
  refine ⟨adc8_fst a m p, adc8_snd_bits a m p, overflow_iff_signed a m p, ?_, ?_⟩
  · rw [adc8_fst, sum_complement]
  · rw [adc8_snd]
    exact decide_eq_true_iff.trans (carry_of_complement a m p)

/-! ### The compare (R161) -/

theorem cmp8_eq (r m : Byte) (p : Flags) : cmp8 r m p = compared p r m := by
  have hz : (r == m) = decide (r.toNat = m.toNat) := by
    rw [Bool.eq_iff_iff, beq_iff_eq, decide_eq_true_iff, BitVec.toNat_inj]
  have hn : (r - m).getLsbD 7 = decide (128 ≤ (256 + r.toNat - m.toNat) % 256) := by
    rw [byte_bit7_eq_le, BitVec.toNat_sub, decide_eq_decide]
    omega
  rw [cmp8, hz, hn]
  rfl

/-- Settles O13: none of the three flags that the exact compare writes depends on the flags before. -/
theorem compareIsUnsigned : Obligations.CompareIsUnsigned := by
  intro r m p q
  rw [cmp8_eq, cmp8_eq]
  exact ⟨rfl, rfl, rfl, rfl, rfl⟩

/-! ### The shifts (R162) -/

/-- A shift to the left leaves bit 0 to the bit that enters. -/
theorem shl_or_bit (v : Byte) (p : Flags) : v <<< 1 ||| bit p.c = BitVec.ofNat 8 (2 * v.toNat + carryOf p) := by
  have hd : v <<< 1 &&& bit p.c = 0 := by
    ext i hi
    cases i with
    | zero => simp
    | succ i => cases p.c <;> simp [bit]
  apply BitVec.eq_of_toNat_eq
  rw [← BitVec.add_eq_or_of_and_eq_zero _ _ hd, BitVec.toNat_add, BitVec.toNat_shiftLeft, bit_toNat, BitVec.toNat_ofNat,
    Nat.shiftLeft_eq]
  omega

/-- A shift to the right leaves bit 7 to the bit that enters. -/
theorem shr_or_bit (v : Byte) (p : Flags) :
    v >>> 1 ||| bit p.c <<< 7 = BitVec.ofNat 8 (v.toNat / 2 + 128 * carryOf p) := by
  have hd : v >>> 1 &&& bit p.c <<< 7 = 0 := by
    ext i hi
    obtain h7 | h7 := lt_or_ge i 7
    · simp [h7]
    · simp [BitVec.getLsbD_of_ge v (1 + i) (by omega)]
  apply BitVec.eq_of_toNat_eq
  rw [← BitVec.add_eq_or_of_and_eq_zero _ _ hd, BitVec.toNat_add, BitVec.toNat_shiftLeft, BitVec.toNat_ushiftRight,
    bit_toNat, BitVec.toNat_ofNat, Nat.shiftLeft_eq, Nat.shiftRight_eq_div_pow]
  omega

theorem shl_one (v : Byte) : v <<< 1 = BitVec.ofNat 8 (2 * v.toNat + 0) := by
  apply BitVec.eq_of_toNat_eq
  rw [BitVec.toNat_shiftLeft, BitVec.toNat_ofNat, Nat.shiftLeft_eq, Nat.mul_comm]
  rfl

theorem shr_one (v : Byte) : v >>> 1 = BitVec.ofNat 8 (v.toNat / 2 + 128 * 0) := by
  apply BitVec.eq_of_toNat_eq
  rw [BitVec.toNat_ushiftRight, BitVec.toNat_ofNat, Nat.shiftRight_eq_div_pow]
  omega

theorem asl8_eq (v : Byte) (p : Flags) : asl8 v p = doubled p v 0 := by
  rw [asl8, shl_one, flagsNZ_eq, byte_bit7_eq_le]
  rfl

theorem lsr8_eq (v : Byte) (p : Flags) : lsr8 v p = halved p v 0 := by
  rw [lsr8, shr_one, flagsNZ_eq, byte_bit0]
  rfl

theorem rol8_eq (v : Byte) (p : Flags) : rol8 v p = doubled p v (carryOf p) := by
  rw [rol8, shl_or_bit, flagsNZ_eq, byte_bit7_eq_le]
  rfl

theorem ror8_eq (v : Byte) (p : Flags) : ror8 v p = halved p v (carryOf p) := by
  rw [ror8, shr_or_bit, flagsNZ_eq, byte_bit0]
  rfl

/-- Settles O14: the four helpers are exact, and a halved byte with 0 entering is below 128. -/
theorem shiftsMoveByOneBit : Obligations.ShiftsMoveByOneBit := by
  intro v p
  refine ⟨asl8_eq v p, lsr8_eq v p, rol8_eq v p, ror8_eq v p, ?_⟩
  have hlt : ¬ 128 ≤ (BitVec.ofNat 8 (v.toNat / 2 + 128 * 0)).toNat := by
    rw [BitVec.toNat_ofNat]
    omega
  rw [lsr8_eq]
  exact decide_eq_false hlt

end Sys2Proof.Machine
end

section
/-! PROOF. Arithmetic, logic, compare, increment and shift instructions (42_arith_logic.md R163 to R181). -/

namespace Sys2Proof.Machine

/-- The forms of a read-modify-write instruction, by what its operation makes of the byte and of the registers. -/
theorem ModifyForms.of_op {s : State} (h : s.quiet) (g : RmwOp) {f : Byte → Byte} {r : Byte → Regs} {fs : List Form}
    (hg : ∀ v pc, g v { s.toRegs with pc := pc } = (f v, { r v with pc := pc }))
    (hfs : FormsRun s (·.storeRows (rmwTail g)) fs) : ModifyForms s f r fs := fun k hk =>
  have ⟨he, hx⟩ := hfs k hk
  ModifiesInMode.of_op h k.2.2 g he hx hg

/-! ### The operations on the registers -/

theorem adcOp_eq (v : Byte) (r : Regs) : adcOp v r = sumTo r v := addToA_eq v r

theorem sbcOp_eq (v : Byte) (r : Regs) : sbcOp v r = differenceTo r v := addToA_complement_eq v r

theorem andOp_eq (v : Byte) (r : Regs) : andOp v r = andTo r r.p v := setNZ_eq _ (r.a &&& v)

theorem oraOp_eq (v : Byte) (r : Regs) : oraOp v r = orTo r r.p v := setNZ_eq _ (r.a ||| v)

theorem eorOp_eq (v : Byte) (r : Regs) : eorOp v r = xorTo r r.p v := setNZ_eq _ (r.a ^^^ v)

theorem bitOp_eq (v : Byte) (r : Regs) :
    bitOp v r = { r with
      p := { r.p with
        n := decide (v.toNat / 128 % 2 = 1)
        v := decide (v.toNat / 64 % 2 = 1)
        z := decide (r.a &&& v = 0) } } := by
  rw [bitOp, byte_bit7, byte_bit6]
  rfl

theorem cmpOp_eq (v : Byte) (r : Regs) : cmpOp v r = { r with p := compared r.p r.a v } := by rw [cmpOp, cmp8_eq]

theorem cpxOp_eq (v : Byte) (r : Regs) : cpxOp v r = { r with p := compared r.p r.x v } := by rw [cpxOp, cmp8_eq]

theorem cpyOp_eq (v : Byte) (r : Regs) : cpyOp v r = { r with p := compared r.p r.y v } := by rw [cpyOp, cmp8_eq]

theorem incOp_eq (v : Byte) (r : Regs) : incOp v r = (v + 1, { r with p := nz r.p (v + 1) }) := by rw [incOp, setNZ_eq]

theorem decOp_eq (v : Byte) (r : Regs) : decOp v r = (v - 1, { r with p := nz r.p (v - 1) }) := by rw [decOp, setNZ_eq]

theorem inxOp_eq (r : Regs) : inxOp r = { r with x := r.x + 1, p := nz r.p (r.x + 1) } := setNZ_eq _ (r.x + 1)

theorem inyOp_eq (r : Regs) : inyOp r = { r with y := r.y + 1, p := nz r.p (r.y + 1) } := setNZ_eq _ (r.y + 1)

theorem dexOp_eq (r : Regs) : dexOp r = { r with x := r.x - 1, p := nz r.p (r.x - 1) } := setNZ_eq _ (r.x - 1)

theorem deyOp_eq (r : Regs) : deyOp r = { r with y := r.y - 1, p := nz r.p (r.y - 1) } := setNZ_eq _ (r.y - 1)

theorem aslOp_eq (v : Byte) (r : Regs) : aslOp v r = ((doubled r.p v 0).1, { r with p := (doubled r.p v 0).2 }) := by
  rw [aslOp, asl8_eq]

theorem lsrOp_eq (v : Byte) (r : Regs) : lsrOp v r = ((halved r.p v 0).1, { r with p := (halved r.p v 0).2 }) := by
  rw [lsrOp, lsr8_eq]

theorem rolOp_eq (v : Byte) (r : Regs) :
    rolOp v r = ((doubled r.p v (carryOf r.p)).1, { r with p := (doubled r.p v (carryOf r.p)).2 }) := by
  rw [rolOp, rol8_eq]

theorem rorOp_eq (v : Byte) (r : Regs) :
    rorOp v r = ((halved r.p v (carryOf r.p)).1, { r with p := (halved r.p v (carryOf r.p)).2 }) := by
  rw [rorOp, ror8_eq]

/-- The accumulator form of a shift, by what the shift makes of a byte. -/
theorem DoesImplied.of_onA {s : State} {i : Instr} {op : Byte} (h : s.quiet) (g : RmwOp) {w : Byte} {p : Flags}
    (hg : ∀ pc, g s.a { s.toRegs with pc := pc } = (w, { s.toRegs with pc := pc, p := p })) (he : encode i = [op])
    (hx : exec i s = runInstr [op] (impliedOp (onA g)) s) : DoesImplied s i op { s.toRegs with a := w, p := p } := by
  refine DoesImplied.of_op h (onA g) he hx ?_
  rw [onA, hg]

/-! ### Nine rotates -/

/-- One ROL of a byte, with the flags (R162). -/
def rolStep (q : Byte × Flags) : Byte × Flags := rol8 q.1 q.2

theorem rolStep_eq : rolStep = fun q => doubled q.2 q.1 (carryOf q.2) := funext fun q => rol8_eq q.1 q.2

/-- The nine bits that ROL rotates: the carry above the byte. -/
def rolWord (q : Byte × Flags) : BitVec 9 := BitVec.cons q.2.c q.1

/-- Rotated by one, the byte stands above the carry. -/
theorem rolWord_rotateLeft_one (q : Byte × Flags) : (rolWord q).rotateLeft 1 = BitVec.concat q.1 q.2.c := by
  ext i hi
  rw [rolWord, BitVec.getElem_rotateLeft, BitVec.getElem_concat]
  cases i with
  | zero => simp [BitVec.getElem_cons]
  | succ i => simp [BitVec.getElem_cons, Nat.ne_of_lt (Nat.lt_of_succ_lt_succ hi)]

/-- One ROL rotates the nine bits by one: as a number, both are twice the byte and the carry that enters. -/
theorem rolWord_rolStep (q : Byte × Flags) : rolWord (rolStep q) = (rolWord q).rotateLeft 1 := by
  have hc : carryOf q.2 = q.2.c.toNat := by cases h : q.2.c <;> simp [carryOf, h]
  apply BitVec.eq_of_toNat_eq
  rw [rolWord_rotateLeft_one, BitVec.toNat_concat, rolStep_eq, rolWord, BitVec.toNat_cons']
  simp only [hc, doubled, nz, BitVec.toNat_ofNat, Nat.shiftLeft_eq]
  have := q.1.isLt
  have := q.2.c.toNat_lt
  have hout : (decide (128 ≤ q.1.toNat)).toNat = q.1.toNat / 128 := by
    rw [Bool.toNat, Bool.cond_decide]
    split <;> omega
  omega

theorem rotateLeft_rotateLeft {w : Nat} (x : BitVec w) (m n : Nat) :
    (x.rotateLeft m).rotateLeft n = x.rotateLeft (m + n) := by
  refine BitVec.eq_of_getMsbD_eq fun i hi => ?_
  have hlt : (n + i) % w < w := Nat.mod_lt _ (Nat.zero_lt_of_lt hi)
  simp [BitVec.getMsbD_rotateLeft, hi, hlt, Nat.add_assoc]

theorem rotateLeft_zero {w : Nat} (x : BitVec w) : x.rotateLeft 0 = x := by
  refine BitVec.eq_of_getMsbD_eq fun i hi => ?_
  simp [BitVec.getMsbD_rotateLeft, hi, Nat.mod_eq_of_lt]

theorem rotateLeft_one_iterate {w : Nat} (x : BitVec w) (n : Nat) : (·.rotateLeft 1)^[n] x = x.rotateLeft n := by
  induction n with
  | zero => exact (rotateLeft_zero x).symm
  | succ n ih => rw [Function.iterate_succ_apply', ih, rotateLeft_rotateLeft]

/-- Nine rotates take nine bits once around. -/
theorem rolWord_nine_rolStep (q : Byte × Flags) : rolWord (rolStep^[9] q) = rolWord q :=
  have hs : Function.Semiconj rolWord rolStep (·.rotateLeft 1) := rolWord_rolStep
  calc rolWord (rolStep^[9] q)
      = (·.rotateLeft 1)^[9] (rolWord q) := hs.iterate_right 9 q
    _ = (rolWord q).rotateLeft 9 := rotateLeft_one_iterate _ 9
    _ = (rolWord q).rotateLeft 0 := BitVec.rotateLeft_mod_eq_rotateLeft.symm
    _ = rolWord q := rotateLeft_zero _

theorem rolWord_inj {q q' : Byte × Flags} (h : rolWord q = rolWord q') : q.1 = q'.1 ∧ q.2.c = q'.2.c :=
  ⟨by simpa [rolWord] using congrArg (BitVec.setWidth 8) h, by simpa [rolWord] using congrArg BitVec.msb h⟩

/-! ### The statements -/

/-- Settles O10: every form runs the read class or the immediate mode of the exact sum. -/
theorem adcAddsWithCarry : Obligations.AdcAddsWithCarry := by
  intro s b lo hi h
  refine ⟨ReadsImmediate.of_op h (fun _ => adcOp) rfl rfl (adcOp_eq b _),
    ReadForms.of_op h adcOp (fun v _ => adcOp_eq v _) ?_⟩
  simp only [formsRun_cons, formsRun_nil, and_true]
  and_intros <;> rfl

/-- Settles O11: every form, $EB among them, runs the read class or the immediate mode of the exact difference. -/
theorem sbcSubtractsWithBorrow : Obligations.SbcSubtractsWithBorrow := by
  intro s b lo hi h
  refine ⟨ReadsImmediate.of_op h (fun _ => sbcOp) rfl rfl (sbcOp_eq b _),
    ReadsImmediate.of_op h (fun _ => sbcOp) rfl rfl (sbcOp_eq b _),
    ReadForms.of_op h sbcOp (fun v _ => sbcOp_eq v _) ?_⟩
  simp only [formsRun_cons, formsRun_nil, and_true]
  and_intros <;> rfl

/-- Settles O15: every form runs the read class or the immediate mode of its operation, and $89 decodes as a NOP. -/
theorem logicCombinesAWithTheOperand : Obligations.LogicCombinesAWithTheOperand := by
  intro s b lo hi h
  refine ⟨ReadsImmediate.of_op h (fun _ => andOp) rfl rfl (andOp_eq b _),
    ReadForms.of_op h andOp (fun v _ => andOp_eq v _) ?_,
    ReadsImmediate.of_op h (fun _ => oraOp) rfl rfl (oraOp_eq b _),
    ReadForms.of_op h oraOp (fun v _ => oraOp_eq v _) ?_,
    ReadsImmediate.of_op h (fun _ => eorOp) rfl rfl (eorOp_eq b _),
    ReadForms.of_op h eorOp (fun v _ => eorOp_eq v _) ?_,
    ReadForms.of_op h bitOp (fun v _ => bitOp_eq v _) ?_, rfl⟩
  all_goals
    simp only [formsRun_cons, formsRun_nil, and_true]
    and_intros <;> rfl

/-- Settles O16: every form runs the read class or the immediate mode of the compare with its register. -/
theorem comparesSetOnlyFlags : Obligations.ComparesSetOnlyFlags := by
  intro s b lo hi h
  refine ⟨ReadsImmediate.of_op h (fun _ => cmpOp) rfl rfl (cmpOp_eq b _),
    ReadForms.of_op h cmpOp (fun v _ => cmpOp_eq v _) ?_,
    ReadsImmediate.of_op h (fun _ => cpxOp) rfl rfl (cpxOp_eq b _),
    ReadForms.of_op h cpxOp (fun v _ => cpxOp_eq v _) ?_,
    ReadsImmediate.of_op h (fun _ => cpyOp) rfl rfl (cpyOp_eq b _),
    ReadForms.of_op h cpyOp (fun v _ => cpyOp_eq v _) ?_⟩
  all_goals
    simp only [formsRun_cons, formsRun_nil, and_true]
    and_intros <;> rfl

/-- Settles O17: every form runs the read-modify-write class of its operation. -/
theorem incAndDecChangeMemoryByOne : Obligations.IncAndDecChangeMemoryByOne := by
  intro s b lo hi h
  refine ⟨ModifyForms.of_op h incOp (fun v _ => incOp_eq v _) ?_, ModifyForms.of_op h decOp (fun v _ => decOp_eq v _) ?_⟩
  all_goals
    simp only [formsRun_cons, formsRun_nil, and_true]
    and_intros <;> rfl

/-- Settles O18: each runs the implied mode of its operation. -/
theorem indexRegistersCountByOne : Obligations.IndexRegistersCountByOne := fun _ h =>
  ⟨DoesImplied.of_op h inxOp rfl rfl (inxOp_eq _), DoesImplied.of_op h inyOp rfl rfl (inyOp_eq _),
    DoesImplied.of_op h dexOp rfl rfl (dexOp_eq _), DoesImplied.of_op h deyOp rfl rfl (deyOp_eq _)⟩

/-- Settles O19: the accumulator forms run the implied mode and the memory forms the read-modify-write class of the exact
shift; and nine ROLs rotate nine bits once around. -/
theorem shiftsWorkOnAAndOnMemory : Obligations.ShiftsWorkOnAAndOnMemory := by
  refine ⟨fun s b lo hi h => ?_, fun v p => ?_⟩
  · refine ⟨DoesImplied.of_onA h aslOp (fun _ => aslOp_eq s.a _) rfl rfl,
      ModifyForms.of_op h aslOp (fun v _ => aslOp_eq v _) ?_,
      DoesImplied.of_onA h lsrOp (fun _ => lsrOp_eq s.a _) rfl rfl,
      ModifyForms.of_op h lsrOp (fun v _ => lsrOp_eq v _) ?_,
      DoesImplied.of_onA h rolOp (fun _ => rolOp_eq s.a _) rfl rfl,
      ModifyForms.of_op h rolOp (fun v _ => rolOp_eq v _) ?_,
      DoesImplied.of_onA h rorOp (fun _ => rorOp_eq s.a _) rfl rfl,
      ModifyForms.of_op h rorOp (fun v _ => rorOp_eq v _) ?_⟩
    all_goals
      simp only [formsRun_cons, formsRun_nil, and_true]
      and_intros <;> rfl
  · have hnine := rolWord_nine_rolStep (v, p)
    rw [rolStep_eq] at hnine
    exact rolWord_inj hnine

end Sys2Proof.Machine
end

section
/-! PROOF SUPPORT. The interrupt decision at the end of an instruction (60_exceptions.md R303 to R305): it is the poll of the
second-to-last cycle, which sees the lines in that cycle and I as that cycle leaves it. -/

namespace Sys2Proof.Machine

/-- A read that follows accesses in the given directions takes place in the last cycle of these accesses and itself. -/
theorem elapsed_snoc_read (ds : List Dir) (is : List CycleIn) : elapsed (ds ++ [.read]) is = delay ds is + 1 := by
  induction is generalizing ds with
  | nil =>
    match ds with
    | [] => rfl
    | .read :: ds | .write :: ds => exact congrArg (· + 1) List.length_append
  | cons i is ih =>
    match ds with
    | [] =>
      have := ih []
      simp only [List.nil_append, elapsed, delay, elapsed_nil] at this ⊢
      split <;> omega
    | .read :: ds =>
      have := ih (.read :: ds)
      simp only [List.cons_append, elapsed, delay, ih ds] at this ⊢
      split <;> omega
    | .write :: ds =>
      simp only [List.cons_append, elapsed, delay, ih ds]
      omega

/-- The inputs in the cycle of a read that follows accesses in the given directions are those the poll at its end sees. -/
theorem State.input_of_snoc_read (s : State) (ds : List Dir) :
    (s.line.passAll ds).skip.head = s.inputAt (elapsed (ds ++ [.read]) s.inputs - 1) := by
  rw [Line.head_passAll_skip, elapsed_snoc_read, Nat.add_sub_cancel]
  rfl

/-- The poll at the end of a cycle that reads, after accesses in the given directions (R303). -/
theorem pollCur_of_read {s : State} {v : View} {c : Cycle} {ds : List Dir} (hline : v.line = s.line.passAll ds)
    (hread : (v.req c).dir = .read) (hhook : c.hook = .none) :
    ((v.wait c).access c).pollCur = s.pollAfter (ds ++ [.read]) ((v.wait c).access c).cpu.p.i := by
  have hwait : (v.wait c).line = (s.line.passAll ds).skip := by rw [View.wait, hread, hline]; rfl
  have hdet : (v.wait c).line.next.det = s.nmiBy (ds ++ [.read]) := by
    rw [hwait, ← s.det_line, ← passAll_snoc]
    rfl
  have hirq : (v.wait c).line.head.irqLine = (s.inputAt (elapsed (ds ++ [.read]) s.inputs - 1)).irqLine := by
    rw [hwait, s.input_of_snoc_read]
  rw [State.pollAfter, ← hdet, ← hirq, View.access, hhook]
  rfl

/-- The decision after a run is the poll of its second-to-last row (R305). -/
theorem run_takeInt {cs : List Cycle} {c d : Cycle} (hfin : ∀ e ∈ cs ++ [c], e.fin = fun _ => false)
    (hhook : d.hook = .none) (hend : d.ending = .poll) (v : View) :
    (v.run (cs ++ [c, d])).takeInt = (((v.through cs).wait c).access c).pollCur := by
  obtain ⟨hcs, hc⟩ := List.forall_mem_append.1 hfin
  have hc : c.fin = fun _ => false := hc c (List.mem_singleton_self c)
  rw [View.run_append hcs (List.cons_ne_nil _ _)]
  simp only [View.run, hc, hend, List.isEmpty_cons, List.isEmpty_nil, Bool.or_self, Bool.true_or, Bool.false_eq_true,
    if_false, if_true, View.finish, View.access, hhook]
  rfl

/-- The decision after a quiet instruction whose second-to-last row reads: the poll at the end of that row, with the I it
leaves (R303, R305). -/
theorem runInstr_takeInt {bytes : List Byte} {skeleton cs : List Cycle} {c d : Cycle} {ds : List Dir} {s t : State}
    (h : s.quiet) (ht : runInstr bytes skeleton s = .next t) (hsplit : supply bytes skeleton = cs ++ [c, d])
    (hfin : ∀ e ∈ cs ++ [c], e.fin = fun _ => false) (hlast : d.hook = .none ∧ d.ending = .poll)
    (hline : (s.begin.view.through cs).line = s.line.passAll ds)
    (hread : ((s.begin.view.through cs).req c).dir = .read) (hhook : c.hook = .none) :
    t.takeInt = s.pollAfter (ds ++ [.read]) (((s.begin.view.through cs).wait c).access c).cpu.p.i := by
  obtain ⟨u, hu, hv, -⟩ := runInstr_view bytes skeleton h
  obtain rfl : u = t := Host.Outcome.next.inj (hu.symm.trans ht)
  obtain ⟨hd, hend⟩ := hlast
  have hv : u.takeInt = (s.begin.view.run (cs ++ [c, d])).takeInt := hsplit ▸ congrArg View.takeInt hv
  rw [hv, run_takeInt hfin hd hend, pollCur_of_read hline hread hhook]

end Sys2Proof.Machine
end

section
/-! PROOF. Stack and flag instructions (43_stack_flags.md R200 to R210). -/

namespace Sys2Proof.Machine

/-! ### The operations on the registers -/

theorem plaOp_eq (v : Byte) (r : Regs) : plaOp v r = { r with a := v, p := nz r.p v } := setNZ_eq _ v

/-- The six flags of a byte are its bits 7, 6, 3, 2, 1 and 0, as digits (R27). -/
theorem unpackFlags_eq_flagsOf (m : Byte) : unpackFlags m = flagsOf m := by
  have hbit (k : Nat) : m.getLsbD k = decide (m.toNat / 2 ^ k % 2 = 1) := Nat.testBit_eq_decide_div_mod_eq
  rw [unpackFlags, hbit, hbit, hbit, hbit, hbit, hbit, pow_zero, Nat.div_one]
  rfl

theorem plpOp_eq (v : Byte) (r : Regs) : plpOp v r = { r with p := flagsOf v } := by rw [plpOp, unpackFlags_eq_flagsOf]

/-- The stack stays in page $01 (R23). -/
theorem toNat_stackAddr (b : Byte) : (stackAddr b).toNat = 256 + b.toNat := toNat_cat 0x01 b

/-! ### When a change of I is seen -/

/-- The decision after an implied instruction comes from the poll of its opcode fetch, with the old I (R102, R206, R207). -/
theorem implied_takeInt {op : Byte} {f : Regs → Regs} {s t : State} (h : s.quiet)
    (ht : runInstr [op] (impliedOp f) s = .next t) : t.takeInt = s.pollAfter (reads 1) s.p.i :=
  runInstr_takeInt (cs := []) (c := { opcodeFetch with given := some op }) (ds := reads 0) h ht rfl
    (List.forall_mem_singleton.2 rfl) ⟨rfl, rfl⟩ rfl rfl rfl

/-- The decision after a pull comes from the poll of the cycle that moves S up, with the old I (R114, R203). -/
theorem pull_takeInt {op : Byte} {f : ReadOp} {s t : State} (h : s.quiet)
    (ht : runInstr [op] (pullSkeleton f) s = .next t) : t.takeInt = s.pollAfter (reads 3) s.p.i :=
  runInstr_takeInt (cs := [{ opcodeFetch with given := some op }, dummyPc]) (c := pullStart) (ds := reads 2) h ht rfl
    (fun e he => (pullRows_ignoreD op e he).2) ⟨rfl, rfl⟩ rfl rfl rfl

/-- The decision after RTI comes from the poll of the cycle that pulls PCL, after P has been pulled (R118, R224). -/
theorem interruptReturn_takeInt {op : Byte} {s t : State} (h : s.quiet)
    (ht : runInstr [op] interruptReturnSkeleton s = .next t) :
    t.takeInt = s.pollAfter (reads 5) (flagsOf s.pulled).i := by
  rw [← unpackFlags_eq_flagsOf, State.pulled, ← answer_view]
  exact runInstr_takeInt (ds := reads 4)
    (cs := [{ opcodeFetch with given := some op }, dummyPc, pullStart] ++
      [pullCycle (fun b c => { c with p := unpackFlags b, sp := c.sp + 1 })])
    (c := pullCycle (fun b c => { c with data := b, sp := c.sp + 1 })) h ht rfl
    (List.forall_mem_append.2 ⟨List.forall_mem_append.2
      ⟨fun e he => (pullRows_ignoreD op e he).2, List.forall_mem_singleton.2 rfl⟩, List.forall_mem_singleton.2 rfl⟩)
    ⟨rfl, rfl⟩ rfl rfl rfl

/-- An implied instruction does its operation, and the decision after it is taken with the old I. -/
theorem DoesImplied.takeInt {s : State} {i : Instr} {op : Byte} {r : Regs} (hd : DoesImplied s i op r) {f : Regs → Regs}
    (h : s.quiet) (hx : exec i s = runInstr [op] (impliedOp f) s) :
    ∃ t, exec i s = .next t ∧ t.takeInt = s.pollAfter (reads 1) s.p.i :=
  have ⟨_, t, ht, _⟩ := hd
  ⟨t, ht, implied_takeInt h (hx.symm.trans ht)⟩

/-! ### The statements -/

/-- Settles O21: the two pushes and the pull run their skeletons with their operations. -/
theorem pushesAndPullsOfAAndP : Obligations.PushesAndPullsOfAAndP := fun _ h =>
  ⟨Pushes.of_op h Regs.a rfl rfl rfl, Pushes.of_op h phpValue rfl rfl (packFlags_eq_statusByte _ true),
    Pulls.of_op h plaOp rfl rfl (plaOp_eq _ _) fun _ _ => trivial, toNat_stackAddr⟩

/-- Settles O22: each runs the implied mode of its operation, which writes its flag only. -/
theorem flagInstructionsWriteOneFlag : Obligations.FlagInstructionsWriteOneFlag := fun _ h =>
  ⟨DoesImplied.of_op h clcOp rfl rfl rfl, DoesImplied.of_op h secOp rfl rfl rfl, DoesImplied.of_op h cldOp rfl rfl rfl,
    DoesImplied.of_op h sedOp rfl rfl rfl, DoesImplied.of_op h clvOp rfl rfl rfl, DoesImplied.of_op h cliOp rfl rfl rfl,
    DoesImplied.of_op h seiOp rfl rfl rfl⟩

/-- Settles O24: the effects are those of the implied mode and of the pull; the decision is the poll of the second-to-last
cycle, before the last one of CLI, SEI and PLP writes I, and after the fourth one of RTI has. -/
theorem maskingIsDelayedByOneInstruction : Obligations.MaskingIsDelayedByOneInstruction := by
  intro s h
  obtain ⟨-, -, -, -, -, hcli, hsei⟩ := flagInstructionsWriteOneFlag s h
  obtain ⟨t, ht, -⟩ := interruptReturn_spec 0x40 h
  exact ⟨⟨hcli, hcli.takeInt h rfl⟩, ⟨hsei, hsei.takeInt h rfl⟩,
    Pulls.of_op h plpOp rfl rfl (plpOp_eq _ _) fun _ ht => pull_takeInt h ht,
    t, ht, interruptReturn_takeInt h ht⟩

end Sys2Proof.Machine
end

section
/-! PROOF. Control transfer and the NOPs (44_control.md R220 to R235, 45_undocumented.md R270). -/

namespace Sys2Proof.Machine

/-! ### Jumps, JSR and the returns -/

/-- The high byte of an indirect target is read in the page of the pointer (R221). -/
theorem samePageNext_cat (hi lo : Byte) : samePageNext (cat hi lo) = cat hi (lo + 1) := by
  rw [samePageNext, hi8_cat, lo8_cat]

/-- A write moves no cell, so what a later write overwrites does not depend on it. -/
@[simp] theorem State.overwrites_store (s : State) (b : Addr) (v : Byte) (w a : Addr) :
    (s.store b v).overwrites w a = s.overwrites w a := rfl

/-- The operand byte of JSR is what memory holds after the two pushes where they have overwritten it (R116, R222). -/
theorem jsrHigh_eq (s : State) (hi : Byte) :
    jsrHigh s hi =
      if s.overwrites (stackAddr s.sp) (s.pc + 2) || s.overwrites (stackAddr (s.sp - 1)) (s.pc + 2) then
        (((s.store (stackAddr s.sp) (hi8 (s.pc + 2))).store (stackAddr (s.sp - 1)) (lo8 (s.pc + 2))).peek
          (s.pc + 2)).getD hi
      else hi := by
  rw [jsrHigh, State.peek_store, State.peek_store, State.overwrites_store]
  cases s.overwrites (stackAddr (s.sp - 1)) (s.pc + 2) with
  | true => simp
  | false => cases s.overwrites (stackAddr s.sp) (s.pc + 2) <;> simp

/-- Settles O25: each runs its skeleton, and the pointer of the indirect one stays in its page. -/
theorem jumpsLoadPC : Obligations.JumpsLoadPC := by
  intro s lo hi h
  obtain ⟨t, ht, he, -⟩ := jump_spec 0x4C lo hi h
  obtain ⟨u, hu, hd, -⟩ := jumpIndirect_spec 0x6C lo hi h
  have hp := jumpIndirect_performs 0x6C lo hi h hu
  rw [samePageNext_cat] at hd hp
  exact ⟨⟨rfl, t, ht, he.endsWith, he.sameBytes, jump_performs 0x4C lo hi h ht⟩,
    ⟨rfl, u, hu, hd.endsWith, hd.sameBytes, hp⟩⟩

/-- Settles O26: JSR runs its skeleton with the high byte that the pushes leave. -/
theorem jsrPushesItsLastByteAddress : Obligations.JsrPushesItsLastByteAddress := by
  intro s lo hi h
  obtain ⟨t, ht, he, -⟩ := call_spec 0x20 lo (jsrHigh s hi) h
  have hp := call_performs 0x20 lo (jsrHigh s hi) h ht
  have hx : exec (.jsrAbs lo hi) s = .next t := ht
  rw [jsrHigh_eq] at he hp
  exact ⟨rfl, t, hx, he.endsWith, he.peek, hp⟩

/-- Settles O27: RTS runs its skeleton. -/
theorem rtsReturnsPastTheAddressPulled : Obligations.RtsReturnsPastTheAddressPulled := by
  intro s h
  obtain ⟨t, ht, he, -⟩ := return_spec 0x60 h
  exact ⟨rfl, t, ht, he.endsWith, he.sameBytes, return_performs 0x60 h ht⟩

/-- Settles O28: RTI runs its skeleton, and the decision is the poll of the cycle that pulls PCL, with the I just pulled. -/
theorem rtiRestoresStatusAndPC : Obligations.RtiRestoresStatusAndPC := by
  intro s h
  obtain ⟨t, ht, he, -⟩ := interruptReturn_spec 0x40 h
  rw [unpackFlags_eq_flagsOf] at he
  exact ⟨rfl, t, ht, he.endsWith, he.sameBytes, interruptReturn_takeInt h ht, interruptReturn_performs 0x40 h ht⟩

/-! ### BRK -/

theorem EntryDone.peek {s t : State} {r : Regs} {b : Bool} (h : EntryDone s r b t) (a : Addr) :
    t.peek a = peekIn s.busMap (entryMem s r b) a := by rw [State.peek, h.map, h.mem]

/-- The registers after an exception entry, with the vector as the state after it holds it. -/
theorem EntryDone.regs_peek {s t : State} {r : Regs} {b : Bool} (h : EntryDone s r b t) :
    t.toRegs = { r with
      sp := r.sp - 3
      p := { r.p with i := true }
      pc := cat ((t.peek (s.entryVector + 1)).getD (s.replyAfter [.read, .read, .write, .write, .write, .read]))
        ((t.peek s.entryVector).getD (s.replyAfter [.read, .read, .write, .write, .write])) } := by
  rw [h.peek, h.peek, h.regs, entryRegs]

/-- Settles O29: BRK runs its skeleton, which ends in an exception entry with B = 1. -/
theorem brkTakesTheSoftwareInterrupt : Obligations.BrkTakesTheSoftwareInterrupt := by
  intro s h
  obtain ⟨t, ht, he, hrst, -⟩ := break_spec 0x00 h
  have hp := break_performs 0x00 h ht
  rw [packFlags_eq_statusByte] at hp
  exact ⟨rfl, t, ht, ⟨he.regs_peek, he.seq, he.t, hrst, he.map, he.params⟩, he.threePushed rfl, he.takeInt, hp⟩

/-! ### The branches -/

/-- Settles O32: each runs the relative mode with its condition. -/
theorem branchesTestOneFlag : Obligations.BranchesTestOneFlag := fun _ _ h =>
  ⟨Branches.of_op h bplCond rfl rfl, Branches.of_op h bmiCond rfl rfl, Branches.of_op h bvcCond rfl rfl,
    Branches.of_op h bvsCond rfl rfl, Branches.of_op h bccCond rfl rfl, Branches.of_op h bcsCond rfl rfl,
    Branches.of_op h bneCond rfl rfl, Branches.of_op h beqCond rfl rfl⟩

/-! ### The NOPs -/

/-- An implied instruction without an operation advances PC only. -/
theorem DoesImplied.of_id {s : State} {i : Instr} {op : Byte} (h : s.quiet) (he : encode i = [op])
    (hx : exec i s = runInstr [op] (impliedOp id) s) : DoesImplied s i op s.toRegs :=
  DoesImplied.of_op h id he hx rfl

/-- An immediate instruction that discards its operand advances PC only. -/
theorem ReadsImmediate.of_nop {s : State} {i : Instr} {op b : Byte} (h : s.quiet) (he : encode i = [op, b])
    (hx : exec i s = runInstr [op, b] (immediate nopOp) s) : ReadsImmediate s i op b s.toRegs :=
  ReadsImmediate.of_op h (fun _ => nopOp) he hx rfl

/-- Settles O33: every form runs the implied mode, the immediate mode or the read class of an operation that keeps the
registers. -/
theorem nopsOnlyAdvancePC : Obligations.NopsOnlyAdvancePC := by
  intro s b lo hi h
  refine ⟨.of_id h rfl rfl, .of_id h rfl rfl, .of_id h rfl rfl, .of_id h rfl rfl, .of_id h rfl rfl, .of_id h rfl rfl,
    .of_id h rfl rfl, .of_nop h rfl rfl, .of_nop h rfl rfl, .of_nop h rfl rfl, .of_nop h rfl rfl, .of_nop h rfl rfl,
    ReadForms.of_op h nopOp (fun _ _ => rfl) ?forms⟩
  simp only [formsRun_cons, formsRun_nil, and_true]
  and_intros <;> rfl

end Sys2Proof.Machine
end

section
/-! PROOF. Undocumented instructions and KIL (45_undocumented.md R250 to R272). -/

namespace Sys2Proof.Machine

/-! ### The operations on the registers -/

theorem sloOp_eq (v : Byte) (r : Regs) :
    sloOp v r = ((doubled r.p v 0).1, orTo r (doubled r.p v 0).2 (doubled r.p v 0).1) := by
  rw [sloOp, asl8_eq, oraOp_eq]
  rfl

theorem rlaOp_eq (v : Byte) (r : Regs) :
    rlaOp v r =
      ((doubled r.p v (carryOf r.p)).1, andTo r (doubled r.p v (carryOf r.p)).2 (doubled r.p v (carryOf r.p)).1) := by
  rw [rlaOp, rol8_eq, andOp_eq]
  rfl

theorem sreOp_eq (v : Byte) (r : Regs) :
    sreOp v r = ((halved r.p v 0).1, xorTo r (halved r.p v 0).2 (halved r.p v 0).1) := by
  rw [sreOp, lsr8_eq, eorOp_eq]
  rfl

/-- The flags before the add are those of the rotate, so the add takes the carry out of it (R253). -/
theorem rraOp_eq (v : Byte) (r : Regs) :
    rraOp v r =
      ((halved r.p v (carryOf r.p)).1,
        sumTo { r with p := (halved r.p v (carryOf r.p)).2 } (halved r.p v (carryOf r.p)).1) := by
  rw [rraOp, ror8_eq, adcOp_eq]

theorem dcpOp_eq (v : Byte) (r : Regs) : dcpOp v r = (v - 1, { r with p := compared r.p r.a (v - 1) }) := by
  rw [dcpOp, cmpOp_eq]

theorem iscOp_eq (v : Byte) (r : Regs) : iscOp v r = (v + 1, differenceTo r (v + 1)) := by rw [iscOp, sbcOp_eq]

theorem laxOp_eq (v : Byte) (r : Regs) : laxOp v r = { r with a := v, x := v, p := nz r.p v } := setNZ_eq _ v

theorem lasOp_eq (v : Byte) (r : Regs) :
    lasOp v r = { r with a := v &&& r.sp, x := v &&& r.sp, sp := v &&& r.sp, p := nz r.p (v &&& r.sp) } :=
  setNZ_eq _ (v &&& r.sp)

theorem ancOp_eq (v : Byte) (r : Regs) :
    ancOp v r = { r with
      a := r.a &&& v
      p := { nz r.p (r.a &&& v) with c := decide (128 ≤ (r.a &&& v).toNat) } } := by
  rw [← byte_bit7_eq_le, ancOp, andOp_eq]
  rfl

theorem alrOp_eq (v : Byte) (r : Regs) :
    alrOp v r = { r with a := (halved r.p (r.a &&& v) 0).1, p := (halved r.p (r.a &&& v) 0).2 } := by
  rw [alrOp, lsr8_eq]

theorem arrOp_eq (v : Byte) (r : Regs) :
    arrOp v r =
      let w := BitVec.ofNat 8 ((r.a &&& v).toNat / 2 + 128 * carryOf r.p)
      { r with
        a := w
        p := { nz r.p w with c := w.toNat.testBit 6, v := w.toNat.testBit 6 != w.toNat.testBit 5 } } := by
  rw [arrOp, shr_or_bit, flagsNZ_eq]
  rfl

theorem xaaOp_eq (q : Params) (v : Byte) (r : Regs) :
    xaaOp q v r = { r with
      a := (r.a ||| q.xaaMagic) &&& r.x &&& v
      p := nz r.p ((r.a ||| q.xaaMagic) &&& r.x &&& v) } :=
  setNZ_eq _ ((r.a ||| q.xaaMagic) &&& r.x &&& v)

theorem axsOp_eq (v : Byte) (r : Regs) :
    axsOp v r = { r with
      x := (r.a &&& r.x) - v
      p := { nz r.p ((r.a &&& r.x) - v) with c := decide (v.toNat ≤ (r.a &&& r.x).toNat) } } := by
  rw [axsOp, flagsNZ_eq]
  rfl

/-! ### The statements -/

/-- Settles O34: every form runs the read-modify-write class of its operation. -/
theorem combinedModifyInstructions : Obligations.CombinedModifyInstructions := by
  intro s b lo hi h
  refine ⟨ModifyForms.of_op h sloOp (fun v _ => sloOp_eq v _) ?slo,
    ModifyForms.of_op h rlaOp (fun v _ => rlaOp_eq v _) ?rla,
    ModifyForms.of_op h sreOp (fun v _ => sreOp_eq v _) ?sre,
    ModifyForms.of_op h rraOp (fun v _ => rraOp_eq v _) ?rra,
    ModifyForms.of_op h dcpOp (fun v _ => dcpOp_eq v _) ?dcp,
    ModifyForms.of_op h iscOp (fun v _ => iscOp_eq v _) ?isc⟩
  all_goals
    simp only [formsRun_cons, formsRun_nil, and_true]
    and_intros <;> rfl

/-- Settles O35: SAX runs the write class with `A & X`, LAX and LAS the read class and LAX # the immediate mode of their
operations; the immediate mode hands its operation P_LXA_MAGIC. -/
theorem combinedLoadsAndStores : Obligations.CombinedLoadsAndStores := by
  intro s b lo hi h
  refine ⟨StoreForms.of_op h saxValue (fun _ => rfl) ?sax,
    ReadForms.of_op h laxOp (fun v _ => laxOp_eq v _) ?lax,
    ReadsImmediate.of_op h lxaOp rfl rfl (laxOp_eq _ _),
    ReadForms.of_op h lasOp (fun v _ => lasOp_eq v _) ?las⟩
  all_goals
    simp only [formsRun_cons, formsRun_nil, and_true]
    and_intros <;> rfl

/-- Settles O36: each runs the immediate mode of its operation, which for XAA is given P_XAA_MAGIC. -/
theorem immediateCombinations : Obligations.ImmediateCombinations := by
  intro s b h
  refine ⟨⟨?anc0B, ?anc2B⟩, ?alr, ?arr, ?xaa, ?axs⟩
  case anc0B | anc2B => exact ReadsImmediate.of_op h (fun _ => ancOp) rfl rfl (ancOp_eq b _)
  case alr => exact ReadsImmediate.of_op h (fun _ => alrOp) rfl rfl (alrOp_eq b _)
  case arr => exact ReadsImmediate.of_op h (fun _ => arrOp) rfl rfl (arrOp_eq b _)
  case xaa => exact ReadsImmediate.of_op h xaaOp rfl rfl (xaaOp_eq _ b _)
  case axs => exact ReadsImmediate.of_op h (fun _ => axsOp) rfl rfl (axsOp_eq b _)

/-- Settles O37: each form runs the storing skeleton of the SH family with its source; only TAS writes a register besides. -/
theorem highByteStores : Obligations.HighByteStores := by
  intro s b lo hi h
  refine ⟨?ahxAbsY, ?ahxIndY, ?shy, ?shx, ?tas⟩
  case ahxAbsY => exact StoresHigh.of_op h (.absY lo hi) saxValue id rfl rfl rfl (fun _ => rfl) fun _ => rfl
  case ahxIndY => exact StoresHigh.of_op h (.indY b) saxValue id rfl rfl rfl (fun _ => rfl) fun _ => rfl
  case shy => exact StoresHigh.of_op h (.absX lo hi) Regs.y id rfl rfl rfl (fun _ => rfl) fun _ => rfl
  case shx => exact StoresHigh.of_op h (.absY lo hi) Regs.x id rfl rfl rfl (fun _ => rfl) fun _ => rfl
  case tas => exact StoresHigh.of_op h (.absY lo hi) saxValue tasOp rfl rfl rfl (fun _ => rfl) fun _ => rfl

/-- Settles O38: the twelve opcodes run one skeleton, which ends in the halted state. -/
theorem kilHaltsTheCPU : Obligations.KilHaltsTheCPU := by
  intro s h f hf
  have hrun : encode f.1 = [f.2] ∧ exec f.1 s = runInstr [f.2] haltSkeleton s := by
    revert f
    simp only [List.forall_mem_cons, List.not_mem_nil, false_imp_iff, implies_true, and_true]
    and_intros <;> rfl
  obtain ⟨he, hx⟩ := hrun
  obtain ⟨t, ht, hregs, hseq, -, hmem, hmap, -, hrst, -, htake, -⟩ := halt_spec f.2 h
  have hhalted : t.halted = true := by rw [State.halted, hseq]; rfl
  exact ⟨he, t, hx.trans ht, hhalted, hregs, htake, hrst, State.peek_congr hmem hmap, halt_performs f.2 h ht⟩

end Sys2Proof.Machine
end

section
/-! PROOF SUPPORT. What one cycle does to the latches (60_exceptions.md R301 to R306, R319, R320): how it begins, and
what a stalled, a halted and an ordinary cycle leave. -/

namespace Sys2Proof.Machine

/-! ### The start of a cycle -/

/-- How a cycle starts (R324): with the reset sequence, with the interrupt sequence, or by going on. -/
theorem startStep_cases (s : State) :
    (s.rstPending ≠ none ∧ s.startStep = { s with stop := false, rstPending := none, seq := .resetSeq, t := 1 }) ∨
    ((s.rstPending = none ∧ s.seq = .instr ∧ s.t = 1 ∧ s.takeInt = true) ∧
      s.startStep = { s with
        stop := false, takeInt := false, seq := .intSeq (if s.nmiDetected then .nmi else .irq) }) ∨
    ((s.rstPending = none ∧ ¬ (s.seq = .instr ∧ s.t = 1 ∧ s.takeInt = true)) ∧ s.startStep = { s with stop := false }) := by
  rw [State.startStep, State.startCycle]
  split
  · next hr => exact .inl ⟨Option.isSome_iff_ne_none.1 hr, rfl⟩
  · next hr =>
    have hr : s.rstPending = none := Option.not_isSome_iff_eq_none.1 hr
    split
    · next hi =>
      simp only [Bool.and_eq_true, beq_iff_eq] at hi
      obtain ⟨⟨hs, ht⟩, hi⟩ := hi
      exact .inr (.inl ⟨⟨hr, hs, ht, hi⟩, rfl⟩)
    · next hi =>
      simp only [Bool.and_eq_true, beq_iff_eq, and_assoc] at hi
      exact .inr (.inr ⟨⟨hr, hi⟩, rfl⟩)

/-- The start of a cycle leaves no reset waiting, and moves neither the vector, nor a latch but the decision, nor the inputs. -/
theorem startStep_rest (s : State) :
    s.startStep.rstPending = none ∧ s.startStep.ea = s.ea ∧
    s.startStep.toLatches = { s.toLatches with takeInt := s.startStep.takeInt } ∧ s.startStep.input = s.input := by
  rcases startStep_cases s with ⟨-, h⟩ | ⟨⟨hr, -⟩, h⟩ | ⟨⟨hr, -⟩, h⟩ <;> rw [h]
  · exact ⟨rfl, rfl, rfl, rfl⟩
  · exact ⟨hr, rfl, rfl, rfl⟩
  · exact ⟨hr, rfl, rfl, rfl⟩

/-- A cycle that begins as one of the halted state is one (R288). -/
theorem startStep_halted (s : State) : s.startStep.halted = s.stays := by
  rcases startStep_cases s with ⟨hr, h⟩ | ⟨⟨hr, hs, -⟩, h⟩ | ⟨⟨hr, -⟩, h⟩ <;>
    rw [h, State.stays, State.halted, State.halted]
  · obtain ⟨k, hk⟩ := Option.ne_none_iff_exists'.1 hr
    rw [hk]; rfl
  · rw [hr, hs]; rfl
  · rw [hr]; rfl

/-! ### Stalled and halted cycles -/

/-- What a stall cycle does to the bus moves no latch and no reset request, and hides no input of the cycle. -/
theorem stallBus_latches (s : State) (a : Addr) :
    (s.stallBus a).toLatches = s.toLatches ∧ (s.stallBus a).rstPending = s.rstPending ∧
      (s.stallBus a).input = s.input := by
  unfold State.stallBus
  split
  · exact ⟨rfl, rfl, rfl⟩
  · split <;> exact ⟨rfl, rfl, rfl⟩

/-- A stall cycle runs the edge detector, and no other latch moves (R320). -/
theorem stallCycle_latches (s : State) (c : Cycle) :
    (s.stallCycle c).toLatches = s.edge.toLatches ∧ (s.stallCycle c).rstPending = s.rstPending := by
  obtain ⟨hl, hr, hi⟩ := stallBus_latches s (s.reqOf c).addr
  have h : (s.stallCycle c).toLatches = (s.stallBus (s.reqOf c).addr).edge.toLatches := rfl
  rw [h, State.edge_toLatches, State.edge_toLatches, hl, hi]
  exact ⟨rfl, hr⟩

/-- A halted cycle runs the edge detector, and no other latch moves (R319). -/
theorem haltedCycle_latches (s : State) : s.haltedCycle.toLatches = s.edge.toLatches := rfl

/-! ### Ordinary cycles -/

/-- Whether a hook chooses the vector under the given parameters (R310). -/
def Hook.choosesVector (k : Hook) (q : Params) : Bool :=
  match k with
  | .vector h => q.hijackCycle == h
  | _ => false

/-- The registers and the micro-state after the action of a cycle. -/
def State.acted (s : State) (c : Cycle) : Cpu := c.act s.params (s.byteOf c.given (s.reqOf c)) s.toCpu

/-- The poll of a cycle before what its hook does to it (R303). -/
def State.pollOf (s : State) (c : Cycle) : Bool := s.edge.nmiDetected || (s.input.irqLine && !(s.acted c).p.i)

/-- What a hook leaves: no register changes, the NMI latch is cleared where the vector is chosen, and the poll is that of R306 in
cycle 2 of a branch. -/
theorem hook_latches (s : State) (k : Hook) :
    (s.hook k).toRegs = s.toRegs ∧ (s.hook k).stalled = s.stalled ∧
    (s.hook k).ea = (if k.choosesVector s.params && s.nmiDetected then 0xFFFA else s.ea) ∧
    (s.hook k).toLatches = { s.toLatches with
      nmiDetected := s.nmiDetected && !k.choosesVector s.params
      pollCur := s.pollCur &&
        !(decide (k = .branch) && s.takenInPage && s.params.branchIrqDelay && !s.pollPrev) } := by
  cases k with
  | none => simp [State.hook, Hook.choosesVector]
  | branch => simp [State.hook, Hook.choosesVector, Bool.and_comm, Bool.and_left_comm]
  | vector k => simp [State.hook, Hook.choosesVector, State.vectorHook, Bool.and_comm]

/-- The latches at the end of the access phase (R301, R303, R304, R306, R310). -/
theorem accessPhase_latches (s : State) (c : Cycle) :
    (s.accessPhase c).toRegs = (s.acted c).toRegs ∧ (s.accessPhase c).stalled = false ∧
    (s.accessPhase c).ea =
      (if c.hook.choosesVector s.params && s.edge.nmiDetected then 0xFFFA else (s.acted c).ea) ∧
    (s.accessPhase c).toLatches =
      { nmiPrev := s.input.nmiLine
        nmiDetected := s.edge.nmiDetected && !c.hook.choosesVector s.params
        pollPrev := s.pollCur
        pollCur := s.pollOf c &&
          !(decide (c.hook = .branch) && (s.acted c).takenInPage && s.params.branchIrqDelay && !s.pollCur)
        takeInt := s.takeInt } := by
  obtain ⟨hregs, hstall, hea, hlatch⟩ := hook_latches
    { s.perform c.given (s.reqOf c) with toCpu := s.acted c }.edge.pollShift c.hook
  rw [State.accessPhase, ← State.acted, hregs, hstall, hea, hlatch]
  cases s.reqOf c <;> exact ⟨rfl, rfl, rfl, rfl⟩

/-- The end of an instruction or a sequence decides on an interrupt and changes the CPU's place, no more. -/
theorem finish_latches (s : State) (e : Ending) :
    (s.finish e).toRegs = s.toRegs ∧ (s.finish e).stalled = s.stalled ∧ (s.finish e).ea = s.ea ∧
    (s.finish e).toLatches = { s.toLatches with takeInt := (s.finish e).takeInt } := by
  cases e <;> exact ⟨rfl, rfl, rfl, rfl⟩

/-- An ordinary cycle leaves what its access phase does, but for the decision. -/
theorem normalCycle_latches (s : State) (c : Cycle) (last : Bool) :
    (s.normalCycle c last).toRegs = (s.accessPhase c).toRegs ∧ (s.normalCycle c last).stalled = (s.accessPhase c).stalled ∧
    (s.normalCycle c last).ea = (s.accessPhase c).ea ∧
    (s.normalCycle c last).toLatches =
      { (s.accessPhase c).toLatches with takeInt := (s.normalCycle c last).takeInt } := by
  simp only [State.normalCycle]
  split
  · exact finish_latches (s.accessPhase c) c.ending
  · exact ⟨rfl, rfl, rfl, rfl⟩

/-! ### What a cycle is -/

/-- What a cycle can be (R324): one of the halted state, or that of a row, stalled or not. -/
theorem cycle_cases {s : State} (h : s.OnRow) :
    (s.stays = true ∧ s.cycle = s.startStep.haltedCycle) ∨
    (s.stays = false ∧ ∃ c last, s.startStep.currentRow = some (c, last) ∧ RowAt s.startStep c last ∧
      ((s.startStep.reqOf c).isRead = true ∧ s.cycle = s.startStep.stallCycle c ∨
        s.cycle = s.startStep.normalCycle c last)) := by
  cases hh : s.stays with
  | true => exact .inl ⟨rfl, cycle_of_halted ((startStep_halted s).trans hh)⟩
  | false =>
    have hh : s.startStep.halted = false := (startStep_halted s).trans hh
    obtain ⟨c, last, hc, hat⟩ := (startStep_onRow h).currentRow hh
    refine .inr ⟨rfl, c, last, hc, hat, ?_⟩
    rw [cycle_of_row hh hc]
    split
    · next hs => exact .inl ⟨(Bool.and_eq_true_iff.1 hs).1, rfl⟩
    · exact .inr rfl

end Sys2Proof.Machine
end

section
/-! PROOF SUPPORT. What the row of the cycle at hand asks for at its end (60_exceptions.md R305 to R307, R310): its hook, told by
the place of the CPU, and the ending of the last row. -/

namespace Sys2Proof.Machine

/-! ### The rows -/

/-- The skeleton of what is executing (R100, R309, R312). -/
def State.skeleton (s : State) : List Cycle :=
  match s.seq with
  | .instr => microcode s.ir
  | .intSeq _ => interruptSequence
  | .resetSeq => resetSequence
  | .halted => []

/-- Cycle 1 of every instruction is the opcode fetch (R101). -/
theorem microcode_head (op : Byte) : (microcode op)[0]? = some opcodeFetch := by
  have h : ∀ cs ∈ microcodeTable, cs[0]? = some opcodeFetch := by
    simp only [microcodeTable, microRow0, microRow1, microRow2, microRow3, microRow4, microRow5, microRow6, microRow7,
      microRow8, microRow9, microRowA, microRowB, microRowC, microRowD, microRowE, microRowF, List.forall_mem_append,
      List.forall_mem_cons, List.not_mem_nil, false_implies, implies_true, and_true]
    and_intros <;> rfl
  exact h _ (microcode_mem op)

/-- The row of the cycle at hand stands in the skeleton at the place that `t` names. -/
theorem currentRow_fst (s : State) : s.currentRow.map Prod.fst = s.skeleton[s.t - 1]? := by
  have hd (cs : List Cycle) : cs[s.t - 1]? = (s.rowsLeft cs).head? := List.head?_drop.symm
  cases hs : s.seq with
  | instr =>
    simp only [State.currentRow, State.skeleton, hs, beq_iff_eq]
    split
    · next ht => rw [ht, microcode_head]; rfl
    · rw [hd]; cases s.rowsLeft (microcode s.ir) <;> rfl
  | intSeq k =>
    simp only [State.currentRow, State.skeleton, hs, hd]
    cases s.rowsLeft interruptSequence <;> rfl
  | resetSeq =>
    simp only [State.currentRow, State.skeleton, hs, hd]
    cases s.rowsLeft resetSequence <;> rfl
  | halted => simp only [State.currentRow, State.skeleton, hs]; rfl

theorem skeleton_of_currentRow {s : State} {c : Cycle} {last : Bool} (h : s.currentRow = some (c, last)) :
    s.skeleton[s.t - 1]? = some c := by
  rw [← currentRow_fst, h]; rfl

/-! ### What a row asks for at the end of its cycle -/

/-- What BRK and the interrupt sequence ask for at the end of cycle `t` (R310). -/
def entryHook (t : Nat) : Hook := if t = 4 then .vector .four else if t = 5 then .vector .five else .none

/-- What is asked for at the end of cycle `t` of a sequence, or of an instruction with the given opcode (R306, R310). -/
def rowHook (q : Seq) (op : Byte) (t : Nat) : Hook :=
  match q with
  | .instr => if op = 0x00 then entryHook t else if isBranch op ∧ t = 2 then .branch else .none
  | .intSeq _ => entryHook t
  | .resetSeq | .halted => .none

theorem microcode_hooks : ∀ op : Byte,
    (microcode op).map Cycle.hook = (List.range (microcode op).length).map fun n => rowHook .instr op (n + 1) := by
  decide

theorem skeleton_hooks (s : State) :
    s.skeleton.map Cycle.hook = (List.range s.skeleton.length).map fun n => rowHook s.seq s.ir (n + 1) := by
  rw [State.skeleton]
  cases s.seq with
  | instr => exact microcode_hooks s.ir
  | intSeq k => rfl
  | resetSeq => rfl
  | halted => rfl

/-- The hook of the row of the cycle at hand. -/
theorem hook_of_currentRow {s : State} {c : Cycle} {last : Bool} (h1 : 1 ≤ s.t) (h : s.currentRow = some (c, last)) :
    c.hook = rowHook s.seq s.ir s.t := by
  have hc := skeleton_of_currentRow h
  obtain ⟨hn, -⟩ := List.getElem?_eq_some_iff.1 hc
  have hmap := congrArg (·[s.t - 1]?) (skeleton_hooks s)
  simp only [List.getElem?_map, hc, Option.map_some, List.getElem?_range hn, Nat.sub_add_cancel h1,
    Option.some.injEq] at hmap
  exact hmap

theorem entryHook_choosesVector (s : State) : (entryHook s.t).choosesVector s.params = (s.t == s.hijackT) := by
  rw [State.hijackT, entryHook]
  by_cases h4 : s.t = 4
  · cases hk : s.params.hijackCycle <;> simp [Hook.choosesVector, h4, hk]
  · by_cases h5 : s.t = 5
    · cases hk : s.params.hijackCycle <;> simp [Hook.choosesVector, h5, hk]
    · cases hk : s.params.hijackCycle <;> simp [Hook.choosesVector, h4, h5]

/-- The vector is chosen at the end of the cycle at hand exactly where its row asks for it (R310). -/
theorem rowHook_choosesVector {s : State} (hr : s.rstPending = none) :
    (rowHook s.seq s.ir s.t).choosesVector s.params = s.samplesVector := by
  rw [State.samplesVector, hr, ← entryHook_choosesVector]
  cases s.seq with
  | instr =>
    by_cases h0 : s.ir = 0x00
    · simp [rowHook, h0]
    · simp only [rowHook, h0, if_false, beq_eq_false_iff_ne.2 h0, Bool.and_false]
      split <;> rfl
  | intSeq k => simp [rowHook]
  | resetSeq => simp [rowHook, Hook.choosesVector]
  | halted => simp [rowHook, Hook.choosesVector]

/-- The vector is chosen in an interrupt sequence or in BRK, in cycle `P_HIJACK_CYCLE` (R310). -/
theorem place_of_samplesVector {s : State} (h : s.samplesVector = true) :
    s.t = s.hijackT ∧ ((∃ k, s.seq = .intSeq k) ∨ s.seq = .instr ∧ s.ir = 0x00) := by
  simp only [State.samplesVector, Bool.and_eq_true, beq_iff_eq] at h
  obtain ⟨⟨-, ht⟩, hseq⟩ := h
  refine ⟨ht, ?_⟩
  cases hs : s.seq with
  | instr => rw [hs] at hseq; exact .inr ⟨rfl, beq_iff_eq.1 hseq⟩
  | intSeq k => exact .inl ⟨k, rfl⟩
  | resetSeq => rw [hs] at hseq; cases hseq
  | halted => rw [hs] at hseq; cases hseq

/-- The row at whose end the vector is chosen is a push: it writes, and leaves `ea` alone (R309, R320). -/
theorem vectorRow_writes {s : State} {c : Cycle} {last : Bool} (hv : s.samplesVector = true)
    (h : s.currentRow = some (c, last)) : (s.reqOf c).isRead = false ∧ (s.acted c).ea = s.ea := by
  have hc := skeleton_of_currentRow h
  obtain ⟨ht, hplace⟩ := place_of_samplesVector hv
  rw [ht, State.hijackT] at hc
  rcases hplace with ⟨k, hs⟩ | ⟨hs, h0⟩
  · have hcs : s.skeleton = interruptSequence := by rw [State.skeleton, hs]
    rw [hcs] at hc
    cases hk : s.params.hijackCycle <;> rw [hk] at hc <;> cases hc <;> exact ⟨rfl, rfl⟩
  · have hcs : s.skeleton = breakSkeleton := by rw [State.skeleton, hs, h0]; rfl
    rw [hcs] at hc
    cases hk : s.params.hijackCycle <;> rw [hk] at hc <;> cases hc <;> exact ⟨rfl, rfl⟩

/-! ### Branches -/

/-- The skeleton of a conditional branch, whose condition is read off its opcode (R112, R227 to R234). -/
theorem microcode_of_isBranch {op : Byte} (h : isBranch op = true) : microcode op = branchSkeleton (branchTaken op) := by
  have hmem : ∀ op : Byte, isBranch op = true → op ∈ [0x10, 0x30, 0x50, 0x70, 0x90, 0xB0, 0xD0, 0xF0] := by decide
  have hcond : ∀ op ∈ ([0x10, 0x30, 0x50, 0x70, 0x90, 0xB0, 0xD0, 0xF0] : List Byte),
      microcode op = branchSkeleton (branchTaken op) := by
    simp only [List.forall_mem_cons, List.not_mem_nil, false_implies, implies_true, and_true]
    refine ⟨?_, ?_, ?_, ?_, ?_, ?_, ?_, ?_⟩ <;> refine congrArg branchSkeleton (funext fun p => ?_)
    case refine_1 | refine_2 => obtain ⟨_ | _, v, d, i, z, c⟩ := p <;> rfl
    case refine_3 | refine_4 => obtain ⟨n, _ | _, d, i, z, c⟩ := p <;> rfl
    case refine_5 | refine_6 => obtain ⟨n, v, d, i, z, _ | _⟩ := p <;> rfl
    case refine_7 | refine_8 => obtain ⟨n, v, d, i, _ | _, c⟩ := p <;> rfl
  exact hcond op (hmem op h)

/-- Only cycle 2 of a conditional branch asks for the delay of R306. -/
theorem rowHook_eq_branch {q : Seq} {op : Byte} {t : Nat} :
    rowHook q op t = .branch ↔ q = .instr ∧ isBranch op = true ∧ t = 2 := by
  have hentry : entryHook t ≠ .branch := by
    rw [entryHook]
    split
    · simp
    · split <;> simp
  cases q with
  | instr =>
    have hb : op = 0x00 → isBranch op = false := by rintro rfl; decide
    simp only [rowHook, true_and]
    split
    · next h0 => simp [hb h0, hentry]
    · simp
  | intSeq k => simp [rowHook, hentry]
  | resetSeq => simp [rowHook]
  | halted => simp [rowHook]

/-- What cycle 2 of a branch finds out (R112, R306). -/
theorem branchRow_takenInPage {s : State} {c : Cycle} {last : Bool} (hs : s.seq = .instr) (hb : isBranch s.ir = true)
    (ht : s.t = 2) (h : s.currentRow = some (c, last)) :
    (s.acted c).takenInPage =
      (branchTaken s.ir s.p && hi8 (s.pc + 1 + sext16 (s.answerNow s.pc)) == hi8 (s.pc + 1)) := by
  have hc := skeleton_of_currentRow h
  simp only [State.skeleton, hs, ht, microcode_of_isBranch hb] at hc
  cases hc
  rfl

/-- The delay of R306, by the row of the cycle at hand. -/
theorem delaysIrq_eq {s : State} {c : Cycle} {last : Bool} (hr : s.rstPending = none) (h1 : 1 ≤ s.t)
    (h : s.currentRow = some (c, last)) :
    s.delaysIrq = (decide (c.hook = .branch) && (s.acted c).takenInPage && s.params.branchIrqDelay) := by
  have hhook := hook_of_currentRow h1 h
  by_cases hb : c.hook = .branch
  · obtain ⟨hs, hop, ht⟩ := rowHook_eq_branch.1 (hhook.symm.trans hb)
    rw [branchRow_takenInPage hs hop ht h, State.delaysIrq, hr, hs, ht, hop]
    simp only [hb, BEq.rfl, decide_true, Bool.and_true, Bool.true_and, Bool.and_assoc]
    rw [Bool.and_comm, Bool.and_assoc]
  · rw [decide_eq_false hb, Bool.false_and, Bool.false_and, Bool.eq_false_iff]
    intro hd
    simp only [State.delaysIrq, Bool.and_eq_true, beq_iff_eq] at hd
    obtain ⟨⟨⟨⟨⟨⟨-, -⟩, hs⟩, ht⟩, hop⟩, -⟩, -⟩ := hd
    exact hb (hhook.trans (rowHook_eq_branch.2 ⟨hs, hop, ht⟩))

/-! ### The last row -/

/-- The last cycle of what is executing ends as its row says. -/
theorem RowAt.normalCycle_ends {s : State} {c : Cycle} {last : Bool} (h : RowAt s c last) (h1 : 1 ≤ s.t)
    (ht : (s.normalCycle c last).t = 1) : s.normalCycle c last = ((s.accessPhase c).finish c.ending).tick := by
  simp only [State.normalCycle] at ht ⊢
  split
  · rfl
  · next hgo =>
    rw [if_neg hgo] at ht
    have : (s.accessPhase c).t + 1 = 1 := ht
    have := h.t
    omega

theorem microcode_endings : ∀ op : Byte, mnemonicAt op ≠ .brk → mnemonicAt op ≠ .kil →
    ∀ e ∈ (microcode op).map Cycle.ending, e = .poll := by
  decide

/-- Only in cycle 1 does a cycle begin something else than what is executing, where no reset waits. -/
theorem startStep_inside {s : State} (hr : s.rstPending = none) (h2 : 2 ≤ s.t) : s.startStep = { s with stop := false } := by
  rcases startStep_cases s with ⟨hn, -⟩ | ⟨⟨-, -, h1, -⟩, -⟩ | ⟨-, hst⟩
  · exact absurd hr hn
  · omega
  · exact hst

/-- The cycle that takes the CPU from within an instruction or a sequence to its end is that of a row of it, and ends as this
row says. -/
theorem cycle_of_lastRow {s : State} (h : s.OnRow) (hr : s.rstPending = none) (hs : s.seq ≠ .halted) (h2 : 2 ≤ s.t)
    (ht : s.cycle.t = 1) :
    ∃ c ∈ s.skeleton, s.cycle = (({ s with stop := false }.accessPhase c).finish c.ending).tick := by
  have hst := startStep_inside hr h2
  rcases cycle_cases h with ⟨hh, -⟩ | ⟨-, c, last, hrow, hat, ⟨-, hc⟩ | hc⟩
  · simp [State.stays, State.halted, hs] at hh
  · have : s.cycle.t = s.t := by rw [hc, (stallCycle_rest _ _).1, hst]
    omega
  · rw [hst] at hrow hat hc
    exact ⟨c, List.mem_of_getElem? (skeleton_of_currentRow hrow),
      hc.trans (hat.normalCycle_ends (Nat.le_of_lt h2) (hc ▸ ht))⟩

end Sys2Proof.Machine
end

section
/-! PROOF SUPPORT. The two kinds of cycles (60_exceptions.md R301 to R306, R310, R319, R320): those that wait and those that go
on, each with all it does to the latches. -/

namespace Sys2Proof.Machine

/-- Whether a cycle chooses the vector, and whether it may delay the interrupt, is settled once it has begun. -/
theorem startStep_samples (s : State) :
    s.startStep.samplesVector = s.samplesVector ∧ s.startStep.delaysIrq = s.delaysIrq := by
  rcases startStep_cases s with ⟨hr, h⟩ | ⟨⟨hr, hs, ht, -⟩, h⟩ | ⟨-, h⟩ <;> rw [h]
  · obtain ⟨k, hk⟩ := Option.ne_none_iff_exists'.1 hr
    simp [State.samplesVector, State.delaysIrq, hk]
  · refine ⟨?_, by simp [State.delaysIrq, hs, ht]⟩
    simp only [State.samplesVector, State.hijackT, hr, hs, ht]
    cases s.params.hijackCycle <;> rfl
  · exact ⟨rfl, rfl⟩

/-- What the edge detector finds is settled before a cycle begins. -/
theorem startStep_edge (s : State) :
    s.startStep.edge.toLatches = { s.edge.toLatches with takeInt := s.startStep.takeInt } := by
  obtain ⟨-, -, hlatch, hin⟩ := startStep_rest s
  rw [State.edge_toLatches, State.edge_toLatches, hlatch, hin]

/-- A cycle in which the CPU does not go on: it is stalled, or in the halted state (R319, R320). -/
structure State.Waits (s : State) : Prop where
  idle : s.stays = true ∨ s.cycle.stalled = true
  samples : s.samplesVector = false
  nmiPrev : s.cycle.nmiPrev = s.input.nmiLine
  nmiDetected : s.cycle.nmiDetected = s.edge.nmiDetected
  polls : s.cycle.pollPrev = s.pollPrev ∧ s.cycle.pollCur = s.pollCur

/-- A cycle in which the CPU goes on: the latches are sampled (R301, R303, R304), and the vector is chosen (R310) or a poll
dropped (R306), where this is due. -/
structure State.GoesOn (s : State) : Prop where
  running : s.stays = false ∧ s.cycle.stalled = false
  nmiPrev : s.cycle.nmiPrev = s.input.nmiLine
  nmiDetected : s.cycle.nmiDetected = (s.edge.nmiDetected && !s.samplesVector)
  vector : s.samplesVector = true → s.cycle.ea = if s.edge.nmiDetected then 0xFFFA else s.ea
  pollPrev : s.cycle.pollPrev = s.pollCur
  pollCur : s.cycle.pollCur =
    ((s.edge.nmiDetected || (s.input.irqLine && !s.cycle.p.i)) && !(s.delaysIrq && !s.pollCur))

/-- A cycle that only runs the edge detector waits. -/
theorem waits_of_edge {s : State} (hi : s.stays = true ∨ s.cycle.stalled = true) (hv : s.samplesVector = false)
    (h : s.cycle.toLatches = s.startStep.edge.toLatches) : s.Waits := by
  rw [startStep_edge] at h
  exact ⟨hi, hv, (congrArg Latches.nmiPrev h :), (congrArg Latches.nmiDetected h :), (congrArg Latches.pollPrev h :),
    (congrArg Latches.pollCur h :)⟩

/-- An ordinary cycle goes on; its row says whether it chooses the vector or may drop the poll. -/
theorem goesOn_of_normalCycle {s : State} {c : Cycle} {last : Bool} (h1 : 1 ≤ s.startStep.t) (hh : s.stays = false)
    (hrow : s.startStep.currentRow = some (c, last)) (hc : s.cycle = s.startStep.normalCycle c last) : s.GoesOn := by
  obtain ⟨hr, hea, hlatch, hin⟩ := startStep_rest s
  obtain ⟨hsv, hdelay⟩ := startStep_samples s
  have hdet : s.startStep.edge.nmiDetected = s.edge.nmiDetected :=
    (congrArg Latches.nmiDetected (startStep_edge s) :)
  have hcur : s.startStep.pollCur = s.pollCur := (congrArg Latches.pollCur hlatch :)
  obtain ⟨nregs, nstall, nea, nlatch⟩ := normalCycle_latches s.startStep c last
  obtain ⟨aregs, astall, aea, alatch⟩ := accessPhase_latches s.startStep c
  have hchoose : c.hook.choosesVector s.startStep.params = s.samplesVector := by
    rw [hook_of_currentRow h1 hrow, rowHook_choosesVector hr, hsv]
  have hp : s.cycle.p = (s.startStep.acted c).p := congrArg Regs.p ((hc ▸ nregs).trans aregs)
  rw [← hc] at nlatch nea nstall
  rw [alatch, hchoose, hdet, hcur, hin, ← delaysIrq_eq hr h1 hrow, hdelay, State.pollOf, ← hp, hdet, hin] at nlatch
  rw [aea, hchoose, hdet] at nea
  exact {
    running := ⟨hh, nstall.trans astall⟩
    nmiPrev := congrArg Latches.nmiPrev nlatch
    nmiDetected := congrArg Latches.nmiDetected nlatch
    vector := fun hv => by
      obtain ⟨-, hacted⟩ := vectorRow_writes (hsv.trans hv) hrow
      rw [nea, hv, Bool.true_and, hacted, hea]
    pollPrev := congrArg Latches.pollPrev nlatch
    pollCur := congrArg Latches.pollCur nlatch }

/-- Every cycle of a CPU on a row is of the one kind or the other. -/
theorem waits_or_goesOn {s : State} (h : s.OnRow) : s.Waits ∨ s.GoesOn := by
  obtain ⟨hsv, -⟩ := startStep_samples s
  rcases cycle_cases h with ⟨hh, hc⟩ | ⟨hh, c, last, hrow, -, ⟨hread, hc⟩ | hc⟩
  · refine .inl (waits_of_edge (.inl hh) ?_ (hc ▸ haltedCycle_latches _))
    simp only [State.stays, State.halted, Bool.and_eq_true, beq_iff_eq] at hh
    simp [State.samplesVector, hh]
  · refine .inl (waits_of_edge (.inr (hc ▸ rfl)) ?_ (hc ▸ (stallCycle_latches _ c).1))
    rw [← hsv, Bool.eq_false_iff]
    intro hv
    obtain ⟨hwrite, -⟩ := vectorRow_writes hv hrow
    exact Bool.false_ne_true (hwrite.symm.trans hread)
  · exact .inr (goesOn_of_normalCycle (startStep_onRow h).one_le hh hrow hc)

end Sys2Proof.Machine
end

section
/-! PROOF. Interrupts, reset and the halted state (60_exceptions.md R301 to R319). -/

namespace Sys2Proof.Machine

/-! ### The latches -/

/-- Until it is chosen, the vector is $FFFE (R310). -/
theorem State.Inv.ea_of_samplesVector {s : State} (h : s.Inv) (hv : s.samplesVector = true) : s.ea = 0xFFFE := by
  obtain ⟨ht, hplace⟩ := place_of_samplesVector hv
  have h4 : 4 ≤ s.t := by rw [ht, State.hijackT]; cases s.params.hijackCycle <;> decide
  have hentry : s.seq = .intSeq .nmi ∨ s.seq = .intSeq .irq ∨ s.seq = .instr ∧ s.ir = 0x00 := by
    rcases hplace with ⟨k, hs⟩ | hbrk
    · cases k <;> simp [hs]
    · exact .inr (.inr hbrk)
  rcases h.vector h4 hentry with hea | ⟨hlt, -⟩
  · exact hea
  · omega

/-- Settles O42: a cycle waits or goes on, and in the one that chooses the vector, `ea` is $FFFE before (R310). -/
theorem nmiIsEdgeDetectedAndTakenOnce : Obligations.NmiIsEdgeDetectedAndTakenOnce := by
  intro s hinv det
  rcases waits_or_goesOn hinv.onRow with h | h
  · exact ⟨h.nmiPrev, fun _ => h.nmiDetected, fun hv => absurd (h.samples.symm.trans hv) Bool.false_ne_true⟩
  · refine ⟨h.nmiPrev, fun hv => ?_, fun hv => ⟨?_, ?_⟩⟩
    · rw [h.nmiDetected, hv, Bool.not_false, Bool.and_true]; rfl
    · rw [h.nmiDetected, hv, Bool.not_true, Bool.and_false]
    · rw [h.vector hv, hinv.ea_of_samplesVector hv]; rfl

/-- Settles O43: a cycle that waits keeps both polls, and one that goes on moves them. -/
theorem pollAndItsHistory : Obligations.PollAndItsHistory := by
  intro s hinv det
  rcases waits_or_goesOn hinv.onRow with h | h
  · refine ⟨fun hh hs => ?_, fun _ => h.polls⟩
    have := h.idle
    simp [hh, hs] at this
  · obtain ⟨hh, hs⟩ := h.running
    refine ⟨fun _ _ => ⟨h.pollPrev, ?_⟩, fun hi => ?_⟩
    · rw [h.pollCur]
      cases s.delaysIrq && !s.pollCur
      · exact Bool.and_true _
      · exact Bool.and_false _
    · simp [hh, hs] at hi

/-! ### Sequences that start -/

/-- A cycle that begins a sequence with a dummy read at PC: the sequence stays the one begun, stalled or not. -/
theorem cycle_of_dummyPc {s : State} (hh : s.startStep.halted = false)
    (hrow : s.startStep.currentRow = some (dummyPc, false)) :
    s.cycle.seq = s.startStep.seq ∧ s.cycle.takeInt = s.startStep.takeInt ∧
      s.cycle.rstPending = s.startStep.rstPending := by
  rw [cycle_of_row hh hrow]
  split
  · obtain ⟨hcpu, -⟩ := stallCycle_rest s.startStep dummyPc
    obtain ⟨hlatch, hrst⟩ := stallCycle_latches s.startStep dummyPc
    exact ⟨congrArg (·.seq) hcpu, (congrArg Latches.takeInt hlatch :), hrst⟩
  · exact ⟨rfl, rfl, rfl⟩

/-- A waiting reset starts its sequence in the next cycle, whatever was running (R312, R324). -/
theorem cycle_of_reset {s : State} (h : s.rstPending ≠ none) : s.cycle.rstPending = none ∧ s.cycle.seq = .resetSeq := by
  rcases startStep_cases s with ⟨-, hst⟩ | ⟨⟨hr, -⟩, -⟩ | ⟨⟨hr, -⟩, -⟩
  · obtain ⟨hseq, -, hrst⟩ := cycle_of_dummyPc (s := s) (by rw [hst]; rfl) (by rw [hst]; rfl)
    rw [hseq, hrst, hst]
    exact ⟨rfl, rfl⟩
  · exact absurd hr h
  · exact absurd hr h

/-- A decision to take an interrupt starts the sequence in the next cycle, in the place of the opcode fetch (R305, R308). -/
theorem cycle_of_takeInt {s : State} (hr : s.rstPending = none) (hs : s.seq = .instr) (ht : s.t = 1)
    (hi : s.takeInt = true) : s.cycle.takeInt = false ∧ ∃ k, s.cycle.seq = .intSeq k := by
  rcases startStep_cases s with ⟨hn, -⟩ | ⟨-, hst⟩ | ⟨⟨-, hn⟩, -⟩
  · exact absurd hr hn
  · have hrow : s.startStep.currentRow = some (dummyPc, false) := by
      rw [hst]
      simp only [State.currentRow, State.rowsLeft, ht]
      rfl
    obtain ⟨hseq, htake, -⟩ := cycle_of_dummyPc (by rw [hst]; rfl) hrow
    rw [hseq, htake, hst]
    exact ⟨rfl, _, rfl⟩
  · exact absurd ⟨hs, ht, hi⟩ hn

/-- Settles O44: the last row of such an instruction decides by the poll of the cycle before, and a decision starts the
interrupt sequence. -/
theorem decisionIsThePollBeforeTheLastCycle : Obligations.DecisionIsThePollBeforeTheLastCycle := by
  intro s hinv hr
  refine ⟨fun hs hbrk hkil h2 ht => ?_, fun hi => ?_⟩
  · obtain ⟨c, hmem, hc⟩ := cycle_of_lastRow hinv.onRow hr (by simp [hs]) h2 ht
    have hend : c.ending = .poll := by
      simp only [State.skeleton, hs] at hmem
      exact microcode_endings s.ir hbrk hkil _ (List.mem_map_of_mem hmem)
    obtain ⟨-, -, -, hlatch⟩ := accessPhase_latches { s with stop := false } c
    rw [hc, hend]
    exact ⟨congrArg Latches.pollPrev hlatch, rfl⟩
  · obtain ⟨hs, ht⟩ := hinv.takeInt hi
    exact cycle_of_takeInt hr hs ht hi

/-- Settles O46: the run of the interrupt sequence, with the vector it chooses. -/
theorem interruptEntryIsPrecise : Obligations.InterruptEntryIsPrecise := by
  intro s h hr hs ht hi
  obtain ⟨t, hst, he, hrst, -⟩ := interrupt_spec h hr hs ht hi
  have hp := interrupt_performs h hr hs ht hi hst
  rw [packFlags_eq_statusByte] at hp
  exact ⟨t, hst, ⟨he.regs_peek, he.seq, he.t, hrst.trans hr.symm, he.map, he.params⟩, he.threePushed rfl, he.takeInt, hp⟩

/-- Settles O47: any cycle with a reset waiting begins the sequence, and a step runs it to its end. -/
theorem resetSequenceWritesNothing : Obligations.ResetSequenceWritesNothing := by
  intro s hr
  refine ⟨cycle_of_reset hr, fun h => ?_⟩
  obtain ⟨t, hst, hregs, hseq, ht, hmem, hmap, -, hrst, htake, -⟩ := reset_spec h hr
  exact ⟨t, hst, hregs, hseq, ht, hrst, htake, State.peek_congr hmem hmap, reset_performs h hr hst⟩

/-! ### The halted state -/

/-- In the halted state with no reset waiting, a cycle and a step are one halted cycle (R288, R324, R329). -/
theorem cycle_and_step_of_halted {s : State} (hh : s.halted = true) (hr : s.rstPending = none) :
    s.cycle = { s with stop := false }.haltedCycle ∧ step s = .next s.cycle := by
  have hs : s.seq = .halted := beq_iff_eq.1 hh
  have hst : s.startStep = { s with stop := false } := by simp [State.startStep, State.startCycle, hr, hs]
  have hc : s.cycle = { s with stop := false }.haltedCycle := by rw [cycle_of_halted (by rw [hst]; exact hh), hst]
  exact ⟨hc, by simp [step, State.atFetch, State.resume, hst, hs, hc]⟩

/-- A reset of either kind leaves the halted state, clears the NMI latch, and waits to start its sequence (R350, R353). -/
theorem hostReset_rest (s : State) (k : ResetKind) :
    (s.hostReset k).halted = false ∧ (s.hostReset k).nmiDetected = false ∧ (s.hostReset k).rstPending = some k := by
  cases k <;> exact ⟨rfl, rfl, rfl⟩

/-- Settles O52: a cycle and a step are one halted cycle, whose effect is read off its definition. -/
theorem haltedCyclesOnlyCount : Obligations.HaltedCyclesOnlyCount := by
  intro s hh hr
  obtain ⟨hc, hst⟩ := cycle_and_step_of_halted hh hr
  have hreset (k : ResetKind) : (s.hostReset k).halted = false ∧ (s.hostReset k).nmiDetected = false ∧
      (s.hostReset k).cycle.seq = .resetSeq := by
    obtain ⟨hhalt, hnmi, hrst⟩ := hostReset_rest s k
    exact ⟨hhalt, hnmi, (cycle_of_reset (by simp [hrst])).2⟩
  have hlatch (hbus : s.input.stallReq = false) : { s with stop := false }.haltedCycle.busLatch = s.busLatch := by
    have : ({ s with stop := false } : State).input.stallReq = false := hbus
    simp [State.haltedCycle, this]
  rw [hst, hc]
  exact ⟨rfl, rfl, rfl, rfl, hh, rfl, rfl, rfl, rfl, rfl, hr, rfl, hlatch, rfl, hreset⟩

end Sys2Proof.Machine
end

section
/-! PROOF. The cycle counts of the grid (70_reset_and_hazards.md R367). A skeleton none of whose rows can be the last one
before its time takes one cycle per row; the others are those of the read class with an unfixed address and of the branches,
whose accesses are known. That the grid gives every opcode the count of its skeleton is read off the two tables. -/

namespace Sys2Proof.Machine

/-! ### How long a skeleton is -/

/-- Rows none of which ends the instruction before the rows that follow it. -/
def NoEarlyEnd (cs : List Cycle) : Prop := ∀ c ∈ cs, c.fin = fun _ => false

theorem NoEarlyEnd.supply {cs : List Cycle} (h : NoEarlyEnd cs) (bytes : List Byte) : NoEarlyEnd (supply bytes cs) := by
  induction cs generalizing bytes with
  | nil => cases bytes <;> exact h
  | cons c cs ih =>
    obtain ⟨hc, hcs⟩ := List.forall_mem_cons.1 h
    cases bytes with
    | nil => exact h
    | cons b bs =>
      rw [Machine.supply]
      split
      · exact List.forall_mem_cons.2 ⟨hc, ih hcs bs⟩
      · exact List.forall_mem_cons.2 ⟨hc, ih hcs (b :: bs)⟩

theorem supply_length (bytes : List Byte) (cs : List Cycle) : (supply bytes cs).length = cs.length := by
  induction cs generalizing bytes with
  | nil => cases bytes <;> rfl
  | cons c cs ih =>
    cases bytes with
    | nil => rfl
    | cons b bs =>
      rw [supply]
      split <;> exact congrArg (· + 1) (ih _)

/-- Rows without an early end make one access each. -/
theorem accesses_length {cs : List Cycle} (h : NoEarlyEnd cs) (v : View) : (v.accesses cs).length = cs.length := by
  induction cs generalizing v with
  | nil => rfl
  | cons c cs ih =>
    obtain ⟨hc, hcs⟩ := List.forall_mem_cons.1 h
    simp only [View.accesses, List.length_cons, hc, Bool.or_false]
    cases cs with
    | nil => rfl
    | cons d ds => exact congrArg (· + 1) (ih hcs _)

/-! ### How many cycles an instruction takes -/

/-- An instruction completes and adds this many cycles to the counter. -/
def Takes (s : State) (i : Instr) (n : Nat) : Prop :=
  ∃ t, exec i s = .next t ∧ t.cycles = s.cycles + BitVec.ofNat 64 n

/-- Without an early end, one cycle per row. -/
theorem takes_of_noEarlyEnd {s : State} {i : Instr} (h : s.quiet) (hu : s.unstalled)
    (hm : NoEarlyEnd (microcode i.opcode)) : Takes s i (microcode i.opcode).length := by
  obtain ⟨t, ht, -⟩ := runInstr_view (fetchedBytes s i) (microcode i.opcode) h
  obtain ⟨-, hcycles⟩ := runInstr_performs h ht hu
  rw [accesses_length (hm.supply _), supply_length] at hcycles
  exact ⟨t, (exec_eq_microcode i s).trans ht, hcycles⟩

/-- Every meaning but that of JSR runs on the bytes of its encoding (R101, R116). -/
theorem exec_eq_encode {s : State} {i : Instr} (h : i.opcode ≠ 0x20) :
    exec i s = runInstr (encode i) (microcode i.opcode) s := by
  rw [exec_eq_microcode]
  unfold fetchedBytes
  split
  · exact absurd rfl h
  · rfl

theorem fetches_length (m : Mode) (op : Byte) (s : State) : (m.fetches op s).length = m.reads := by cases m <;> rfl

/-- The read class takes one more cycle where the index crosses a page (R104 to R107, R109, R110). -/
theorem takes_of_readRows {s : State} {i : Instr} (h : s.quiet) (hu : s.unstalled) (m : Mode) {f : ReadOp}
    (he : encode i = m.bytes i.opcode) (hm : microcode i.opcode = m.readRows f) (hjsr : i.opcode ≠ 0x20) :
    Takes s i (if m.crosses s then m.reads + 1 + 1 else m.reads + 1) := by
  obtain ⟨t, ht, -⟩ := read_spec m i.opcode f h
  obtain ⟨-, hcycles⟩ := read_performs m i.opcode f h ht hu
  refine ⟨t, by rw [exec_eq_encode hjsr, he, hm, ht], ?_⟩
  rw [hcycles, Mode.readAccesses, List.length_append, List.length_append, fetches_length]
  cases m.crosses s <;> rfl

/-- A branch takes two cycles, three if it is taken, four if it is taken to another page (R112). -/
theorem takes_of_branchSkeleton {s : State} {i : Instr} (h : s.quiet) (hu : s.unstalled) {rel : Byte}
    {cond : Flags → Bool} (he : encode i = [i.opcode, rel]) (hm : microcode i.opcode = branchSkeleton cond)
    (hjsr : i.opcode ≠ 0x20) :
    Takes s i (if cond s.p then if hi8 (s.pc + 2 + sext16 rel) = hi8 (s.pc + 2) then 3 else 4 else 2) := by
  obtain ⟨t, ht, -⟩ := branch_spec i.opcode rel cond h
  obtain ⟨-, hcycles⟩ := branch_performs i.opcode rel cond h ht hu
  refine ⟨t, by rw [exec_eq_encode hjsr, he, hm, ht], ?_⟩
  rw [hcycles, branchAccesses, branchTarget]
  split
  · split <;> rfl
  · rfl

/-! ### The grid and the skeletons -/

/-- The entry of the grid for an opcode (R367). -/
def countAt (op : Byte) : Count := cycleGrid.flatten.getD op.toNat (.n 0)

/-- Each row of the grid has sixteen entries, so the rows put together have the entry of an opcode at its place. -/
theorem countAt_eq : ∀ op : Byte, countAt op = (cycleGrid.getD (op.toNat / 16) []).getD (op.toNat % 16) (.n 0) := by
  decide

/-- An entry of the grid is right about a skeleton. -/
inductive Count.Fits : Count → List Cycle → Prop
  | fixed {k : Nat} {cs : List Cycle} (hlen : cs.length = k) (hend : NoEarlyEnd cs) : Fits (.n k) cs
  | plusX (f : ReadOp) : Fits (.plusX 4) (readAbsX f)
  | plusY (f : ReadOp) : Fits (.plusY 4) (readAbsY f)
  | plusInd (f : ReadOp) : Fits (.plusInd 5) (readIndY f)
  | branch (cond : Flags → Bool) : Fits .branch (branchSkeleton cond)

theorem addressRows_length (m : Mode) : m.addressRows.length = m.reads := by cases m <;> rfl

theorem addressRows_noEarlyEnd (m : Mode) : NoEarlyEnd m.addressRows := by
  cases m <;>
  simp only [NoEarlyEnd, Mode.addressRows, zpAddress, zpIndexedAddress, absAddress, absIndexedAddress, indXAddress,
    indYAddress, List.forall_mem_cons, List.not_mem_nil, false_implies, implies_true, and_true] <;>
  and_intros <;> rfl

theorem readRows_fit (m : Mode) (f : ReadOp) (hu : m.hasUnfixed = false) : Count.Fits (.n (m.reads + 1)) (m.readRows f) := by
  simp only [Mode.readRows, hu, Bool.false_eq_true, if_false]
  refine .fixed ?_ (List.forall_mem_append.2 ⟨addressRows_noEarlyEnd m, List.forall_mem_singleton.2 rfl⟩)
  rw [List.length_append, addressRows_length]; rfl

theorem storeRows_fit (m : Mode) {ds : List Cycle} (hd : NoEarlyEnd ds) :
    Count.Fits (.n (m.readsBeforeStore + ds.length)) (m.storeRows ds) := by
  cases hu : m.hasUnfixed with
  | false =>
    simp only [Mode.storeRows, Mode.readsBeforeStore, hu, Bool.false_eq_true, if_false, Nat.add_zero]
    refine .fixed ?_ (List.forall_mem_append.2 ⟨addressRows_noEarlyEnd m, hd⟩)
    rw [List.length_append, addressRows_length]
  | true =>
    simp only [Mode.storeRows, Mode.readsBeforeStore, hu, if_true]
    refine .fixed ?_ (List.forall_mem_append.2 ⟨addressRows_noEarlyEnd m, List.forall_mem_cons.2 ⟨rfl, hd⟩⟩)
    rw [List.length_append, addressRows_length, List.length_cons, Nat.add_assoc, Nat.add_comm 1]

/-- The read class of the modes without an unfixed address. -/
theorem readSkeletons_fit (f : ReadOp) :
    Count.Fits (.n 3) (readZp f) ∧ Count.Fits (.n 4) (readZpX f) ∧ Count.Fits (.n 4) (readZpY f) ∧
    Count.Fits (.n 4) (readAbs f) ∧ Count.Fits (.n 6) (readIndX f) :=
  ⟨readRows_fit (.zp 0) f rfl, readRows_fit (.zpX 0) f rfl, readRows_fit (.zpY 0) f rfl, readRows_fit (.abs 0 0) f rfl,
    readRows_fit (.indX 0) f rfl⟩

/-- The write class. -/
theorem writeSkeletons_fit (w : Regs → Byte) :
    Count.Fits (.n 3) (writeZp w) ∧ Count.Fits (.n 4) (writeZpX w) ∧ Count.Fits (.n 4) (writeZpY w) ∧
    Count.Fits (.n 4) (writeAbs w) ∧ Count.Fits (.n 5) (writeAbsX w) ∧ Count.Fits (.n 5) (writeAbsY w) ∧
    Count.Fits (.n 6) (writeIndX w) ∧ Count.Fits (.n 6) (writeIndY w) := by
  have hw (m : Mode) := storeRows_fit m (ds := [writeCycle w]) (List.forall_mem_singleton.2 rfl)
  exact ⟨hw (.zp 0), hw (.zpX 0), hw (.zpY 0), hw (.abs 0 0), hw (.absX 0 0), hw (.absY 0 0), hw (.indX 0), hw (.indY 0)⟩

/-- The read-modify-write class. -/
theorem rmwSkeletons_fit (f : RmwOp) :
    Count.Fits (.n 5) (rmwZp f) ∧ Count.Fits (.n 6) (rmwZpX f) ∧ Count.Fits (.n 6) (rmwAbs f) ∧
    Count.Fits (.n 7) (rmwAbsX f) ∧ Count.Fits (.n 7) (rmwAbsY f) ∧ Count.Fits (.n 8) (rmwIndX f) ∧
    Count.Fits (.n 8) (rmwIndY f) := by
  have hend : NoEarlyEnd (rmwTail f) := by simp [NoEarlyEnd, rmwTail]
  have hm (m : Mode) := storeRows_fit m hend
  exact ⟨hm (.zp 0), hm (.zpX 0), hm (.abs 0 0), hm (.absX 0 0), hm (.absY 0 0), hm (.indX 0), hm (.indY 0)⟩

/-- The SH family. -/
theorem shSkeletons_fit (reg : Regs → Byte) :
    Count.Fits (.n 5) (shAbsX reg) ∧ (∀ act, Count.Fits (.n 5) (shAbsY reg act)) ∧ Count.Fits (.n 6) (shIndY reg) := by
  have hs (m : Mode) (idx : Index) (act : Regs → Regs) :=
    storeRows_fit m (ds := [shCycle idx reg act]) (List.forall_mem_singleton.2 rfl)
  exact ⟨hs (.absX 0 0) Regs.x id, hs (.absY 0 0) Regs.y, hs (.indY 0) Regs.y id⟩

/-- The skeletons without a memory operand, but for the branches. -/
theorem otherSkeletons_fit :
    (∀ f, Count.Fits (.n 2) (impliedOp f)) ∧ (∀ f, Count.Fits (.n 2) (immediateWith f)) ∧
    (∀ w, Count.Fits (.n 3) (pushSkeleton w)) ∧ (∀ f, Count.Fits (.n 4) (pullSkeleton f)) ∧
    Count.Fits (.n 3) jumpSkeleton ∧ Count.Fits (.n 5) jumpIndirectSkeleton ∧ Count.Fits (.n 6) callSkeleton ∧
    Count.Fits (.n 6) returnSkeleton ∧ Count.Fits (.n 6) interruptReturnSkeleton ∧ Count.Fits (.n 7) breakSkeleton ∧
    Count.Fits (.n 2) haltSkeleton := by
  and_intros <;> intros <;> refine .fixed rfl ?_ <;>
  simp only [NoEarlyEnd, impliedOp, immediateWith, pushSkeleton, pullSkeleton, jumpSkeleton, jumpIndirectSkeleton,
    callSkeleton, returnSkeleton, interruptReturnSkeleton, exceptionReturn, breakSkeleton, exceptionEntry, vectorFetch,
    haltSkeleton, List.cons_append, List.nil_append, List.forall_mem_cons, List.not_mem_nil, false_implies, implies_true,
    and_true] <;>
  and_intros <;> rfl

/-- The grid is right about every opcode's skeleton (R367). -/
theorem microcode_fits (op : Byte) : (countAt op).Fits (microcode op) := by
  have hrows : List.Forall₂ (List.Forall₂ Count.Fits) cycleGrid
      [microRow0, microRow1, microRow2, microRow3, microRow4, microRow5, microRow6, microRow7, microRow8, microRow9,
        microRowA, microRowB, microRowC, microRowD, microRowE, microRowF] := by
    simp only [cycleGrid, microRow0, microRow1, microRow2, microRow3, microRow4, microRow5, microRow6, microRow7, microRow8,
      microRow9, microRowA, microRowB, microRowC, microRowD, microRowE, microRowF, List.forall₂_cons, List.Forall₂.nil,
      immediate, readSkeletons_fit, writeSkeletons_fit, rmwSkeletons_fit, shSkeletons_fit, otherSkeletons_fit,
      Count.Fits.plusX, Count.Fits.plusY, Count.Fits.plusInd, Count.Fits.branch, and_true]
  have htable : List.Forall₂ Count.Fits cycleGrid.flatten microcodeTable := by
    simpa [microcodeTable] using List.rel_flatten hrows
  have hlt : op.toNat < microcodeTable.length := microcodeTable_length ▸ op.isLt
  have hlt' : op.toNat < cycleGrid.flatten.length := by rwa [htable.length_eq]
  rw [countAt, microcode, List.getD_eq_getElem _ _ hlt, List.getD_eq_getElem _ _ hlt']
  exact htable.get hlt' hlt

/-! ### The instructions -/

/-- Whether an entry of the grid is one for instructions of this many bytes. -/
def Count.isFor : Count → Nat → Bool
  | .n _, _ => true
  | .plusX _, k | .plusY _, k => k == 3
  | .plusInd _, k | .branch, k => k == 2

theorem countAt_isFor (i : Instr) : (countAt i.opcode).isFor (encode i).length = true := by cases i <;> rfl

theorem encode_of_length_three {i : Instr} (h : (encode i).length = 3) : ∃ lo hi, encode i = [i.opcode, lo, hi] := by
  obtain ⟨op, lo, hi, he⟩ := List.length_eq_three.1 h
  exact ⟨lo, hi, by rw [Instr.opcode, he]; rfl⟩

theorem encode_of_length_two {i : Instr} (h : (encode i).length = 2) : ∃ b, encode i = [i.opcode, b] := by
  obtain ⟨op, b, he⟩ := List.length_eq_two.1 h
  exact ⟨b, by rw [Instr.opcode, he]; rfl⟩

/-- Settles O39: by the kind of the grid's entry, which fits the skeleton that the instruction runs. -/
theorem cyclesFollowTheGrid : Obligations.CyclesFollowTheGrid := by
  intro s i h hu
  change Takes s i (cyclesByGrid s i)
  have hfor := countAt_isFor i
  have hfit := microcode_fits i.opcode
  rw [cyclesByGrid, ← countAt_eq]
  generalize hcount : countAt i.opcode = count at hfor hfit
  generalize hrows : microcode i.opcode = rows at hfit
  have hjsr : (∀ k, count ≠ .n k) → i.opcode ≠ 0x20 := by
    rintro hne hop
    exact hne 6 (by rw [← hcount, hop]; rfl)
  cases hfit with
  | fixed hlen hend =>
    subst hrows hlen
    exact takes_of_noEarlyEnd h hu hend
  | plusX f =>
    obtain ⟨lo, hi, he⟩ := encode_of_length_three (beq_iff_eq.1 hfor)
    rw [he]
    exact takes_of_readRows h hu (.absX lo hi) he hrows (hjsr (by simp))
  | plusY f =>
    obtain ⟨lo, hi, he⟩ := encode_of_length_three (beq_iff_eq.1 hfor)
    rw [he]
    exact takes_of_readRows h hu (.absY lo hi) he hrows (hjsr (by simp))
  | plusInd f =>
    obtain ⟨b, he⟩ := encode_of_length_two (beq_iff_eq.1 hfor)
    rw [he]
    exact takes_of_readRows h hu (.indY b) he hrows (hjsr (by simp))
  | branch cond =>
    obtain ⟨rel, he⟩ := encode_of_length_two (beq_iff_eq.1 hfor)
    rw [he]
    have hb : isBranch i.opcode = true := by rw [isBranch, ← countAt_eq, hcount]; rfl
    exact takes_of_branchSkeleton h hu he (microcode_of_isBranch hb) (hjsr (by simp))

end Sys2Proof.Machine
end

section
/-! PROOF. The host's reset (70_reset_and_hazards.md R350 to R356): what the call itself does, and what its sequence leaves. -/

namespace Sys2Proof.Machine

/-- Settles O48: the reset of either kind is read off its definition, and the cycle after it starts its sequence. -/
theorem hostResetSetsTheLatches : Obligations.HostResetSetsTheLatches := by
  intro s k
  obtain ⟨hhalted, hnmi, hrst⟩ := hostReset_rest s k
  obtain ⟨-, hcycle⟩ := cycle_of_reset (s := s.hostReset k) (by simp [hrst])
  refine ⟨⟨hnmi, ?_, ?_, ?_, hhalted, ?_, hrst, ?_, hcycle⟩, rfl, rfl, rfl, rfl, rfl, rfl, rfl, rfl⟩ <;> cases k <;> rfl

/-! ### The open-bus latch -/

/-- A run of rows leaves in the latch the byte of its last access (R57). -/
theorem run_latch {cs : List Cycle} (hcs : cs ≠ []) (v : View) :
    (v.run cs).trace.log.head?.map (·.2.data) = some (v.run cs).trace.latch := by
  induction cs generalizing v with
  | nil => exact absurd rfl hcs
  | cons c cs ih =>
    rw [View.run]
    split
    · obtain ⟨htrace, -⟩ := access_trace (v.wait c) c
      rw [(finish_trace _ c.ending).1, htrace]
      rfl
    · next hgo =>
      refine ih ?_ _
      rintro rfl
      simp at hgo

/-- A step with a reset waiting is a run of the rows of the reset sequence (R312). -/
theorem step_of_reset {s : State} (h : s.rstPending ≠ none) : step s = .next (runSeq resetSequence s.startStep) := by
  rcases startStep_cases s with ⟨-, hst⟩ | ⟨⟨hr, -⟩, -⟩ | ⟨⟨hr, -⟩, -⟩
  · rw [step, hst]
    rfl
  · exact absurd hr h
  · exact absurd hr h

/-- The reset sequence leaves the high byte of the vector in the latch (R57, R312). -/
theorem reset_latch {s t : State} (h : s.quiet) (hu : s.unstalled) (hr : s.rstPending ≠ none) (ht : step s = .next t) :
    t.busLatch = s.answer (reads 6) 0xFFFD := by
  obtain ⟨hlog, -⟩ := reset_performs h hr ht hu
  have hgo : s.startStep.going := by
    rcases startStep_cases s with ⟨-, hst⟩ | ⟨-, hst⟩ | ⟨-, hst⟩ <;> rw [hst] <;> exact ⟨h, rfl⟩
  have hrun : runSeq resetSequence s.startStep = t := Host.Outcome.next.inj ((step_of_reset hr).symm.trans ht)
  have hlatch : t.busLog.head?.map (·.2.data) = some t.busLatch := by
    have := run_latch (cs := resetSequence) (by simp [resetSequence]) s.startStep.view
    rwa [← (runSeq_view resetSequence hgo).1, hrun] at this
  rw [hlog] at hlatch
  exact (Option.some.inj hlatch).symm

/-! ### The state after the sequence -/

/-- The reset call changes nothing that the bus answers with (R353). -/
theorem hostReset_answer (s : State) (k : ResetKind) (ds : List Dir) (a : Addr) :
    (s.hostReset k).answer ds a = s.answer ds a := by cases k <;> rfl

/-- Settles O49: the reset sequence starts from the registers and the counter that the reset call leaves. -/
theorem afterTheResetSequence : Obligations.AfterTheResetSequence := by
  intro s k h hu
  obtain ⟨-, -, hrst⟩ := hostReset_rest s k
  have hr : (s.hostReset k).rstPending ≠ none := by simp [hrst]
  have hquiet : (s.hostReset k).quiet := by cases k <;> exact h
  have hunst : (s.hostReset k).unstalled := by cases k <;> exact hu
  obtain ⟨t, ht, hregs, -⟩ := reset_spec hquiet hr
  obtain ⟨-, hcycles⟩ := reset_performs hquiet hr ht hunst
  have hlatch := reset_latch hquiet hunst hr ht
  rw [hostReset_answer, hostReset_answer] at hregs
  rw [hostReset_answer] at hlatch
  refine ⟨t, ht, congrArg Regs.pc hregs, hlatch, congrArg (·.p.i) hregs, ?_⟩
  cases k <;>
  exact ⟨(congrArg Regs.a hregs :), (congrArg Regs.x hregs :), (congrArg Regs.y hregs :), (congrArg Regs.sp hregs :),
    (congrArg Regs.p hregs :), hcycles⟩

end Sys2Proof.Machine
end

section
/-! PROOF. The encoding (30_encoding.md): the opcode map and the encoder agree, so decoding and encoding are inverses of each
other. -/

namespace Sys2Proof

/-- The operand bytes that a mode takes of the two bytes after the opcode (R82). -/
def Shape.operands : Shape → Byte → Byte → List Byte
  | .none _, _, _ => []
  | .one _, b, _ => [b]
  | .two _, lo, hi => [lo, hi]

theorem shapes_length : shapes.length = 256 := by
  simp only [shapes, List.length_append]
  rfl

/-- An entry of the opcode map stands at the place of its opcode. -/
theorem shapeOf_mem_zipIdx (op : Byte) : (shapeOf op, op.toNat) ∈ shapes.zipIdx := by
  have hlt : op.toNat < shapes.length := shapes_length ▸ op.isLt
  rw [List.mk_mem_zipIdx_iff_getElem?, shapeOf, List.getD_eq_getElem _ _ hlt]
  exact List.getElem?_eq_getElem hlt

/-- What the opcode map makes of an opcode and two bytes encodes as the opcode and the operand bytes its mode takes. -/
theorem encode_decode3 (op lo hi : Byte) : encode (decode3 op lo hi) = op :: (shapeOf op).operands lo hi := by
  have h : ∀ p ∈ shapes.zipIdx, encode (p.1.build lo hi) = BitVec.ofNat 8 p.2 :: p.1.operands lo hi := by
    simp only [shapes, shapeRow0, shapeRow1, shapeRow2, shapeRow3, shapeRow4, shapeRow5, shapeRow6, shapeRow7, shapeRow8,
      shapeRow9, shapeRowA, shapeRowB, shapeRowC, shapeRowD, shapeRowE, shapeRowF, List.zipIdx_append, List.zipIdx_cons,
      List.zipIdx_nil, List.length_append, List.length_cons, List.length_nil, List.forall_mem_append,
      List.forall_mem_cons, List.not_mem_nil, false_implies, implies_true, and_true, Nat.reduceAdd]
    and_intros <;> rfl
  have := h _ (shapeOf_mem_zipIdx op)
  rwa [BitVec.ofNat_toNat, BitVec.setWidth_eq] at this

theorem opcode_decode3 (op lo hi : Byte) : (decode3 op lo hi).opcode = op := by
  rw [Instr.opcode, encode_decode3]; rfl

/-- Every instruction is what the opcode map makes of its own bytes. -/
theorem decode3_encode (i : Instr) : decode3 i.opcode ((encode i).getD 1 0) ((encode i).getD 2 0) = i := by
  cases i <;> rfl

/-- The decoder reads an opcode and the operand bytes its mode takes, and leaves the rest (R80, R81). -/
theorem decode_operands (op lo hi : Byte) (rest : List Byte) :
    decode (op :: ((shapeOf op).operands lo hi ++ rest)) = .ok (decode3 op lo hi, rest) := by
  simp only [decode, decode3]
  cases shapeOf op <;> rfl

/-- Where the decoder finds an instruction, it has read its opcode and the operand bytes its mode takes. -/
theorem eq_operands_of_decode {bs rest : List Byte} {i : Instr} (h : decode bs = .ok (i, rest)) :
    ∃ op lo hi, bs = op :: ((shapeOf op).operands lo hi ++ rest) ∧ i = decode3 op lo hi := by
  unfold decode at h
  split at h
  · cases h
  · next op bs =>
    refine ⟨op, ?_⟩
    unfold decode3
    split at h <;> cases h
    · next hs => exact ⟨0, 0, by rw [hs]; rfl, by rw [hs]; rfl⟩
    · next b hs => exact ⟨b, 0, by rw [hs]; rfl, by rw [hs]; rfl⟩
    · next lo hi hs => exact ⟨lo, hi, by rw [hs]; rfl, by rw [hs]; rfl⟩

/-- Settles O1: an instruction is what the opcode map makes of its bytes, and those are its opcode and the operand bytes its
mode takes. -/
theorem decodeOfEncode : Obligations.DecodeOfEncode := by
  intro i rest
  rw [← decode3_encode i, encode_decode3, List.cons_append, decode_operands]

/-- Settles O2: what the decoder read is an opcode and the operand bytes its mode takes, and the instruction encodes as
them. -/
theorem encodeOfDecode : Obligations.EncodeOfDecode := by
  intro bs rest i h
  obtain ⟨op, lo, hi, rfl, rfl⟩ := eq_operands_of_decode h
  rw [encode_decode3, List.cons_append]

/-- Settles O3: the length is one more than the number of operand bytes of the mode that the map gives for the byte. -/
theorem opcodeByteFixesTheInstruction : Obligations.OpcodeByteFixesTheInstruction := by
  intro op
  refine ⟨1 + ((shapeOf op).operands 0 0).length, by omega, ?_, fun b c rest => ⟨decode3 op b c, ?_⟩⟩
  · cases shapeOf op <;> simp [Shape.operands]
  · have hop := opcode_decode3 op b c
    have henc := encode_decode3 op b c
    have hdec (rest : List Byte) := decode_operands op b c rest
    rw [Instr.length, Instr.WellFormed, henc, hop]
    unfold wellFormedBytes
    cases hs : shapeOf op <;> simp only [hs, Shape.operands] at hdec ⊢ <;> exact ⟨hdec _, rfl, trivial, rfl, trivial⟩

/-- Settles O4: the decoder computes each of them. -/
theorem specWordsDecode : Obligations.SpecWordsDecode := ⟨rfl, rfl, rfl, rfl, rfl, rfl, rfl, rfl, rfl⟩

end Sys2Proof
end

section
/-! PROOF SUPPORT. What one cycle does outside the CPU (20_memory.md R53, R57, R59; 60_exceptions.md R320): the access it
makes, memory, the record of the bus and the open-bus latch; and which row is the last one of what is executing. -/

namespace Sys2Proof.Machine

/-! ### The start of a cycle -/

/-- The start of a cycle leaves alone what is outside the CPU. -/
theorem startStep_outside (s : State) :
    s.startStep.mem = s.mem ∧ s.startStep.busMap = s.busMap ∧ s.startStep.params = s.params ∧
    s.startStep.inputs = s.inputs ∧ s.startStep.draws = s.draws ∧ s.startStep.busLog = s.busLog ∧
    s.startStep.busLatch = s.busLatch ∧ s.startStep.toRegs = s.toRegs := by
  rcases startStep_cases s with ⟨-, h⟩ | ⟨-, h⟩ | ⟨-, h⟩ <;> rw [h] <;> exact ⟨rfl, rfl, rfl, rfl, rfl, rfl, rfl, rfl⟩

/-! ### Ordinary cycles -/

/-- The access that a cycle makes in a state (R52). -/
def State.accessOf (s : State) (c : Cycle) : Access :=
  ⟨(s.reqOf c).addr, (s.reqOf c).dir, s.byteOf c.given (s.reqOf c), (s.reqOf c).kind⟩

/-- A row of the table or of a sequence is given no byte: the bus answers its reads. -/
theorem skeleton_given (s : State) : ∀ c ∈ s.skeleton, c.given = none := by
  have hmicro : ∀ op : Byte, (microcode op).all (·.given.isNone) = true := by decide
  have hall : s.skeleton.all (·.given.isNone) = true := by
    unfold State.skeleton
    split
    · exact hmicro s.ir
    · rfl
    · rfl
    · rfl
  exact fun c hc => Option.isNone_iff_eq_none.1 (List.all_eq_true.1 hall c hc)

theorem mem_skeleton_of_currentRow {s : State} {c : Cycle} {last : Bool} (h : s.currentRow = some (c, last)) :
    c ∈ s.skeleton := List.mem_of_getElem? (skeleton_of_currentRow h)

/-- A hook changes nothing on the bus. -/
theorem hook_bus (s : State) (k : Hook) :
    (s.hook k).mem = s.mem ∧ (s.hook k).busMap = s.busMap ∧ (s.hook k).params = s.params ∧
    (s.hook k).inputs = s.inputs ∧ (s.hook k).draws = s.draws ∧ (s.hook k).busLog = s.busLog ∧
    (s.hook k).busLatch = s.busLatch ∧ (s.hook k).rstPending = s.rstPending ∧ (s.hook k).breakpoints = s.breakpoints := by
  cases k <;> exact ⟨rfl, rfl, rfl, rfl, rfl, rfl, rfl, rfl, rfl⟩

/-- The access phase of a cycle makes the cycle's access, and changes nothing else outside the CPU (R53). -/
theorem accessPhase_bus (s : State) (c : Cycle) :
    (s.accessPhase c).mem = (s.perform c.given (s.reqOf c)).mem ∧ (s.accessPhase c).busMap = s.busMap ∧
    (s.accessPhase c).params = s.params ∧ (s.accessPhase c).inputs = s.inputs ∧ (s.accessPhase c).draws = s.draws ∧
    (s.accessPhase c).busLog = (s.cycles, s.accessOf c) :: s.busLog ∧ (s.accessPhase c).busLatch = (s.accessOf c).data ∧
    (s.accessPhase c).rstPending = s.rstPending ∧ (s.accessPhase c).breakpoints = s.breakpoints := by
  obtain ⟨hm, hb, hp, hi, hd, hlog, hlatch, hr, hbr⟩ := hook_bus
    { s.perform c.given (s.reqOf c) with toCpu := s.acted c }.edge.pollShift c.hook
  rw [State.accessPhase, ← State.acted, hm, hb, hp, hi, hd, hlog, hlatch, hr, hbr, State.accessOf]
  cases s.reqOf c <;> exact ⟨rfl, rfl, rfl, rfl, rfl, rfl, rfl, rfl, rfl⟩

/-- An ordinary cycle makes its row's access, and nothing else happens outside the CPU (R53, R57). -/
theorem normalCycle_bus (s : State) (c : Cycle) (last : Bool) :
    (s.normalCycle c last).mem = (s.perform c.given (s.reqOf c)).mem ∧ (s.normalCycle c last).busMap = s.busMap ∧
    (s.normalCycle c last).params = s.params ∧ (s.normalCycle c last).inputs = s.inputs.tail ∧
    (s.normalCycle c last).draws = s.draws + 1 ∧
    (s.normalCycle c last).busLog = (s.cycles, s.accessOf c) :: s.busLog ∧
    (s.normalCycle c last).busLatch = (s.accessOf c).data ∧ (s.normalCycle c last).rstPending = s.rstPending ∧
    (s.normalCycle c last).breakpoints = s.breakpoints := by
  obtain ⟨hm, hb, hp, hi, hd, hlog, hlatch, hr, hbr⟩ := accessPhase_bus s c
  rw [← hm, ← hb, ← hp, ← hi, ← hd, ← hlog, ← hlatch, ← hr, ← hbr, State.normalCycle]
  split
  · cases c.ending <;> exact ⟨rfl, rfl, rfl, rfl, rfl, rfl, rfl, rfl, rfl⟩
  · exact ⟨rfl, rfl, rfl, rfl, rfl, rfl, rfl, rfl, rfl⟩

/-- What an access does to plain memory: a read nothing, and a write stores its byte (R59). -/
theorem perform_mem (s : State) (g : Option Byte) (r : Req) :
    (r.dir = .read → (s.perform g r).mem = s.mem) ∧
    (r.dir = .write → (s.perform g r).mem = storeIn s.busMap s.mem r.addr (s.byteOf g r)) := by
  cases r with
  | read a k => exact ⟨fun _ => rfl, nofun⟩
  | write a v k => exact ⟨nofun, fun _ => rfl⟩

/-- The byte of a read is what the bus answers, where none is given (R52). -/
theorem byteOf_read {s : State} {r : Req} (h : r.dir = .read) : s.byteOf none r = s.answerNow r.addr := by
  cases r with
  | read a k => rfl
  | write a v k => cases h

/-! ### Stall cycles -/

/-- A stall cycle changes nothing outside the CPU but what R320 says: the bus sees the read again, or the DMA controller's
byte, or nothing. -/
theorem stallCycle_bus (s : State) (c : Cycle) :
    (s.stallCycle c).mem = s.mem ∧ (s.stallCycle c).busMap = s.busMap ∧ (s.stallCycle c).params = s.params ∧
    (s.stallCycle c).inputs = s.inputs.tail ∧ (s.stallCycle c).draws = s.draws + 1 ∧
    (s.stallCycle c).breakpoints = s.breakpoints ∧
    if s.input.dmaDrives then (s.stallCycle c).busLatch = s.input.dmaData ∧ (s.stallCycle c).busLog = s.busLog
    else if s.params.stallReread then
      (s.stallCycle c).busLatch = s.answerNow (s.reqOf c).addr ∧
      (s.stallCycle c).busLog =
        (s.cycles, ⟨(s.reqOf c).addr, .read, s.answerNow (s.reqOf c).addr, .dummy⟩) :: s.busLog
    else (s.stallCycle c).busLatch = s.busLatch ∧ (s.stallCycle c).busLog = s.busLog := by
  unfold State.stallCycle State.stallBus
  split
  · exact ⟨rfl, rfl, rfl, rfl, rfl, rfl, rfl, rfl⟩
  · split <;> exact ⟨rfl, rfl, rfl, rfl, rfl, rfl, rfl, rfl⟩

/-! ### The last row -/

theorem atFetch_iff (s : State) : s.atFetch = true ↔ s.seq = .instr ∧ s.t = 1 := by simp [State.atFetch]

/-- The first one of the rows left, and whether it is the last one. -/
def firstRow : List Cycle → Option (Cycle × Bool)
  | [] => none
  | c :: cs => some (c, cs.isEmpty)

/-- Cycle 1 of every instruction is the opcode fetch (R101). -/
theorem currentRow_of_atFetch {s : State} (h : s.atFetch = true) : s.currentRow = some (opcodeFetch, false) := by
  obtain ⟨hs, ht⟩ := (atFetch_iff s).1 h
  simp only [State.currentRow, hs, ht]
  rfl

/-- Any other row is the first one left of the skeleton at hand. -/
theorem currentRow_eq_firstRow {s : State} (h : s.atFetch = false) : s.currentRow = firstRow (s.rowsLeft s.skeleton) := by
  cases hs : s.seq with
  | instr =>
    have ht : (s.t == 1) = false := by
      rw [State.atFetch, hs] at h
      exact h
    simp only [State.currentRow, State.skeleton, hs, ht, Bool.false_eq_true, if_false]
    cases s.rowsLeft (microcode s.ir) <;> rfl
  | intSeq k =>
    simp only [State.currentRow, State.skeleton, hs]
    cases s.rowsLeft interruptSequence <;> rfl
  | resetSeq =>
    simp only [State.currentRow, State.skeleton, hs]
    cases s.rowsLeft resetSequence <;> rfl
  | halted =>
    simp only [State.currentRow, State.skeleton, State.rowsLeft, hs, List.drop_nil]
    rfl

/-- A row that is the last one of its skeleton stands at its end. -/
theorem getLast_of_currentRow {s : State} {c : Cycle} (h : s.currentRow = some (c, true)) :
    s.skeleton.getLast? = some c := by
  cases hf : s.atFetch with
  | true => rw [currentRow_of_atFetch hf] at h; cases h
  | false =>
    rw [currentRow_eq_firstRow hf] at h
    match hrows : s.rowsLeft s.skeleton with
    | [] => rw [hrows] at h; cases h
    | d :: ds =>
      rw [hrows, firstRow, Option.some.injEq, Prod.mk.injEq, List.isEmpty_iff] at h
      obtain ⟨rfl, rfl⟩ := h
      have hlast := congrArg List.getLast? hrows
      rw [State.rowsLeft, List.getLast?_drop] at hlast
      split at hlast
      · cases hlast
      · exact hlast

end Sys2Proof.Machine
end

section
/-! PROOF. One access per cycle (20_memory.md R53, R57, R60), the stall interface (60_exceptions.md R320), and the ends at
which no interrupt is decided on (R307). -/

namespace Sys2Proof.Machine

/-! ### One access per cycle -/

/-- Settles O41: the cycle of a row that is not stalled makes the row's access, and nothing else happens on the bus. -/
theorem eachCycleMakesOneAccess : Obligations.EachCycleMakesOneAccess := by
  intro s hinv hh hstall
  obtain ⟨hm, hb, -, -, -, hlog, -, -⟩ := startStep_outside s
  obtain ⟨-, -, -, hin⟩ := startStep_rest s
  rcases cycle_cases hinv.onRow with ⟨h, -⟩ | ⟨-, c, last, hrow, -, ⟨-, hc⟩ | hc⟩
  · exact absurd (hh.symm.trans h) Bool.false_ne_true
  · rw [hc] at hstall
    exact absurd hstall (by simp [State.stallCycle])
  · obtain ⟨nm, nb, -, -, -, nlog, nlatch, -⟩ := normalCycle_bus s.startStep c last
    obtain ⟨hread, hwrite⟩ := perform_mem s.startStep c.given (s.startStep.reqOf c)
    rw [← hc] at nm nb nlog nlatch
    rw [startStep_cycles, hlog] at nlog
    refine ⟨_, nlog, nlatch, fun hd => ⟨?_, ?_⟩, fun hd b => ?_⟩
    · have hbyte : (s.startStep.accessOf c).data = s.startStep.answerNow (s.startStep.reqOf c).addr := by
        rw [State.accessOf, skeleton_given _ c (mem_skeleton_of_currentRow hrow)]
        exact byteOf_read hd
      rw [hbyte, State.answerNow, hin, State.peek_congr hm hb]
      rfl
    · rw [nm, hread hd, hm]
    · rw [State.peek, nb, nm, hwrite hd, hb, hm]
      exact s.peek_store _ _ b

/-! ### The end of a sequence -/

/-- The cycle that takes the CPU from within what is executing to its end is that of its last row, or of one after which it is
done. -/
theorem cycle_of_end {s : State} (h : s.OnRow) (hr : s.rstPending = none) (hs : s.seq ≠ .halted) (h2 : 2 ≤ s.t)
    (ht : s.cycle.t = 1) :
    ∃ c last, { s with stop := false }.currentRow = some (c, last) ∧
      (last = true ∨ c.fin ({ s with stop := false }.accessPhase c).toCpu = true) ∧
      s.cycle = (({ s with stop := false }.accessPhase c).finish c.ending).tick := by
  have hst := startStep_inside hr h2
  rcases cycle_cases h with ⟨hh, -⟩ | ⟨-, c, last, hrow, hat, ⟨-, hc⟩ | hc⟩
  · simp [State.stays, State.halted, hs] at hh
  · have : s.cycle.t = s.t := by rw [hc, (stallCycle_rest _ _).1, hst]
    omega
  · rw [hst] at hrow hat hc
    have hc' := hc.trans (hat.normalCycle_ends (Nat.le_of_lt h2) (hc ▸ ht))
    refine ⟨c, last, hrow, ?_, hc'⟩
    by_contra hgo
    simp only [not_or, Bool.not_eq_true] at hgo
    have hnext : s.cycle = ({ s with stop := false }.accessPhase c).nextT.tick := by
      rw [hc, State.normalCycle, hgo.1, hgo.2]; rfl
    have : s.cycle.t = s.t + 1 := by rw [hnext]; exact congrArg (· + 1) hat.t
    omega

/-- Where no row ends what is executing early, the cycle that ends it is that of the last row. -/
theorem cycle_of_getLast {s : State} {e : Ending} (h : s.OnRow) (hr : s.rstPending = none) (hs : s.seq ≠ .halted)
    (h2 : 2 ≤ s.t) (ht : s.cycle.t = 1) (hfin : NoEarlyEnd s.skeleton)
    (hend : s.skeleton.getLast?.map Cycle.ending = some e) :
    ∃ c, s.cycle = (({ s with stop := false }.accessPhase c).finish e).tick := by
  obtain ⟨c, last, hrow, hlast, hc⟩ := cycle_of_end h hr hs h2 ht
  have hskel : { s with stop := false }.skeleton = s.skeleton := rfl
  have hmem := mem_skeleton_of_currentRow hrow
  rcases hlast with rfl | hf
  · have hc' := getLast_of_currentRow hrow
    rw [hskel] at hc'
    rw [hc', Option.map_some, Option.some.injEq] at hend
    exact ⟨c, hend ▸ hc⟩
  · rw [hfin c (hskel ▸ hmem)] at hf
    exact absurd hf Bool.false_ne_true

/-- BRK and KIL have one skeleton each, and all its rows are performed. -/
theorem skeleton_of_brk_or_kil {op : Byte} :
    (mnemonicAt op = .brk → microcode op = breakSkeleton) ∧ (mnemonicAt op = .kil → microcode op = haltSkeleton) := by
  have hbrk : ∀ op : Byte, mnemonicAt op = .brk → op = 0x00 := by decide
  have hkil : ∀ op : Byte, mnemonicAt op = .kil →
      op ∈ [0x02, 0x12, 0x22, 0x32, 0x42, 0x52, 0x62, 0x72, 0x92, 0xB2, 0xD2, 0xF2] := by decide
  have hhalt : ∀ op ∈ ([0x02, 0x12, 0x22, 0x32, 0x42, 0x52, 0x62, 0x72, 0x92, 0xB2, 0xD2, 0xF2] : List Byte),
      microcode op = haltSkeleton := by
    simp only [List.forall_mem_cons, List.not_mem_nil, false_implies, implies_true, and_true]
    exact ⟨rfl, rfl, rfl, rfl, rfl, rfl, rfl, rfl, rfl, rfl, rfl, rfl⟩
  exact ⟨fun h => hbrk op h ▸ rfl, fun h => hhalt op (hkil op h)⟩

/-- The skeletons whose last row decides on no interrupt (R307). -/
theorem sequences_noEarlyEnd :
    NoEarlyEnd interruptSequence ∧ NoEarlyEnd resetSequence ∧ NoEarlyEnd breakSkeleton ∧ NoEarlyEnd haltSkeleton := by
  simp [NoEarlyEnd, interruptSequence, resetSequence, breakSkeleton, haltSkeleton, exceptionEntry, vectorFetch, dummyPc,
    pushCycle, suppressedPush, opcodeFetch]

/-- Settles O45: all rows of a sequence, of BRK and of KIL are performed, and the last one ends without a decision. -/
theorem noDecisionAfterSequences : Obligations.NoDecisionAfterSequences := by
  intro s hinv hr h2 ht
  obtain ⟨hint, hreset, hbreak, hkil⟩ := sequences_noEarlyEnd
  have hplain {cs : List Cycle} (hs : s.seq ≠ .halted) (hcs : s.skeleton = cs) (hfin : NoEarlyEnd cs)
      (hend : cs.getLast?.map Cycle.ending = some .noPoll) : s.cycle.takeInt = false ∧ s.cycle.seq = .instr := by
    obtain ⟨c, hc⟩ := cycle_of_getLast hinv.onRow hr hs h2 ht (hcs ▸ hfin) (hcs ▸ hend)
    rw [hc]; exact ⟨rfl, rfl⟩
  refine ⟨fun h => ?_, fun hs hk => ?_⟩
  · cases hs : s.seq with
    | instr =>
      have hb := h.resolve_left (by simp [hs])
      exact hplain (by simp [hs]) (by rw [State.skeleton, hs]; exact skeleton_of_brk_or_kil.1 hb) hbreak rfl
    | intSeq k => exact hplain (by simp [hs]) (by rw [State.skeleton, hs]) hint rfl
    | resetSeq => exact hplain (by simp [hs]) (by rw [State.skeleton, hs]) hreset rfl
    | halted =>
      have hrows : s.rows = 1 := by rw [State.rows, hs]
      have := hinv.le_rows
      omega
  · have hcs : s.skeleton = haltSkeleton := by rw [State.skeleton, hs]; exact skeleton_of_brk_or_kil.2 hk
    obtain ⟨c, hc⟩ := cycle_of_getLast (e := .halt) hinv.onRow hr (by simp [hs]) h2 ht (hcs ▸ hkil) (hcs ▸ rfl)
    obtain ⟨-, -, -, hlatch⟩ := accessPhase_latches { s with stop := false } c
    have htake : s.takeInt = false := by
      rw [Bool.eq_false_iff]
      intro hi
      obtain ⟨-, h1⟩ := hinv.takeInt hi
      omega
    rw [hc]
    exact ⟨(congrArg Latches.takeInt hlatch).trans htake, rfl⟩

/-! ### Stalls -/

/-- The state with another `stall_req` in the cycle at hand, whose input is given (R320). -/
def State.withStall (s : State) (i : CycleIn) (is : List CycleIn) (b : Bool) : State :=
  { s with inputs := { i with stallReq := b } :: is }

theorem startStep_withStall (s : State) (i : CycleIn) (is : List CycleIn) (b : Bool) :
    (s.withStall i is b).startStep = s.startStep.withStall i is b := by
  simp only [State.startStep, State.startCycle, apply_ite (State.withStall · i is b)]
  rfl

theorem hook_withStall (s : State) (i : CycleIn) (is : List CycleIn) (b : Bool) (k : Hook) :
    (s.withStall i is b).hook k = (s.hook k).withStall i is b := by cases k <;> rfl

theorem finish_withStall (s : State) (i : CycleIn) (is : List CycleIn) (b : Bool) (e : Ending) :
    (s.withStall i is b).finish e = (s.finish e).withStall i is b := by cases e <;> rfl

/-- An ordinary cycle does not look at `stall_req`. -/
theorem normalCycle_withStall (s : State) (i : CycleIn) (is : List CycleIn) (b : Bool) (c : Cycle) (last : Bool) :
    (s.withStall i is b).normalCycle c last = (s.withStall i is true).normalCycle c last := by
  have hphase (b : Bool) : (s.withStall i is b).accessPhase c =
      ((s.withStall i is true).accessPhase c).withStall i is b := by
    unfold State.accessPhase
    rw [← hook_withStall]
    have hreq : (s.withStall i is b).reqOf c = (s.withStall i is true).reqOf c := rfl
    rw [hreq]
    cases (s.withStall i is true).reqOf c <;> rfl
  generalize (s.withStall i is true).accessPhase c = p at hphase
  have hcpu (b : Bool) : (p.withStall i is b).toCpu = p.toCpu := rfl
  have hnormal (b : Bool) : (s.withStall i is b).normalCycle c last =
      ((if last || c.fin p.toCpu then p.finish c.ending else p.nextT).withStall i is true).tick := by
    rw [State.normalCycle, hphase, hcpu, finish_withStall]
    split <;> rfl
  rw [hnormal b, hnormal true]

theorem isRead_of_dir (r : Req) : (r.dir = .read → r.isRead = true) ∧ (r.dir = .write → r.isRead = false) := by
  cases r with
  | read a k => exact ⟨fun _ => rfl, nofun⟩
  | write a v k => exact ⟨nofun, fun _ => rfl⟩

/-- Settles O51: without the request the cycle is an ordinary one, and with it only a read becomes a stall cycle. -/
theorem stallsHoldReadsOnly : Obligations.StallsHoldReadsOnly := by
  intro s i is hinv hh hin hreq go
  have hgo : go = (s.withStall i is false).cycle := rfl
  have hs : s = s.withStall i is true := by
    obtain ⟨n, irq, st, d, dd, stop, reply⟩ := i
    simp only at hreq
    rw [hreq] at hin
    rw [State.withStall, ← hin]
  obtain ⟨-, -, -, hi⟩ := startStep_rest s
  have hinput : s.input = i := by rw [State.input, State.inputAt, hin]; rfl
  have hhalt : s.startStep.halted = false := (startStep_halted s).trans hh
  obtain ⟨c, last, hrow, -⟩ := (startStep_onRow hinv.onRow).currentRow hhalt
  have hrow' : (s.withStall i is false).startStep.currentRow = some (c, last) := by rw [startStep_withStall]; exact hrow
  have hgo' : go = s.startStep.normalCycle c last := by
    rw [hgo, cycle_of_row (by rw [startStep_withStall]; exact hhalt) hrow', startStep_withStall]
    have hno : ((s.startStep.withStall i is false).input.stallReq) = false := rfl
    have hs' : s.startStep.withStall i is true = s.startStep := by rw [← startStep_withStall, ← hs]
    rw [hno, Bool.and_false, if_neg Bool.false_ne_true, normalCycle_withStall, hs']
  have hcycle : s.cycle = if (s.startStep.reqOf c).isRead then s.startStep.stallCycle c else go := by
    rw [cycle_of_row hhalt hrow, hi, hinput, hreq, Bool.and_true, hgo']
  obtain ⟨hm, -, hp, hin', -, hlog, hlatch, hregs⟩ := startStep_outside s
  obtain ⟨-, -, -, -, -, nlog, -⟩ := normalCycle_bus s.startStep c last
  rw [← hgo', startStep_cycles, hlog] at nlog
  refine ⟨_, nlog, fun hd => ?_, fun hd => ?_⟩
  · rw [hcycle, (isRead_of_dir _).2 hd, if_neg Bool.false_ne_true]
  · have hdata : (s.startStep.accessOf c).data = s.startStep.answerNow (s.startStep.reqOf c).addr := by
      rw [State.accessOf, skeleton_given _ c (mem_skeleton_of_currentRow hrow)]
      exact byteOf_read hd
    obtain ⟨hcpu, hcyc⟩ := stallCycle_rest s.startStep c
    obtain ⟨slatch, -⟩ := stallCycle_latches s.startStep c
    obtain ⟨sm, -, -, sin, -, -, sbus⟩ := stallCycle_bus s.startStep c
    rw [startStep_edge] at slatch
    rw [hcycle, (isRead_of_dir _).1 hd, if_pos rfl]
    rw [hi, hp, hlog, hlatch, startStep_cycles, ← hdata] at sbus
    rw [← hinput]
    exact ⟨rfl, (congrArg (·.toRegs) hcpu).trans hregs, congrArg (·.toMicro) hcpu, sm.trans hm,
      (congrArg Latches.pollPrev slatch :), (congrArg Latches.pollCur slatch :), (congrArg Latches.nmiDetected slatch :),
      (congrArg Latches.nmiPrev slatch :), hcyc.trans (by rw [startStep_cycles]),
      by rw [sin, hin', hin]; rfl, sbus⟩

end Sys2Proof.Machine
end

section
/-! PROOF SUPPORT. The invariant of the machine (10_state.md R33, 60_exceptions.md R310, R353) over one cycle: it holds once
the cycle has begun, and the halted, the stalled and the ordinary cycle each keep it. -/

namespace Sys2Proof.Machine

/-- BRK or an interrupt sequence is executing (R309, R119). -/
def State.InEntry (s : State) : Prop := (∃ k, s.seq = .intSeq k) ∨ s.seq = .instr ∧ s.ir = 0x00

theorem State.inEntry_iff (s : State) :
    s.InEntry ↔ s.seq = .intSeq .nmi ∨ s.seq = .intSeq .irq ∨ s.seq = .instr ∧ s.ir = 0x00 := by
  unfold State.InEntry
  constructor
  · rintro (⟨_ | _, hk⟩ | h)
    · exact .inl hk
    · exact .inr (.inl hk)
    · exact .inr (.inr h)
  · rintro (h | h | h)
    · exact .inl ⟨_, h⟩
    · exact .inl ⟨_, h⟩
    · exact .inr h

/-- From cycle 4 of an entry on, `ea` is the vector: $FFFE until one is chosen, then either (R310). -/
def State.VectorIn (s : State) : Prop := 4 ≤ s.t → s.InEntry → s.ea = 0xFFFE ∨ s.hijackT < s.t ∧ s.ea = 0xFFFA

/-- The invariant in a cycle that has begun: a decision or a reset has started its sequence, so neither waits. -/
structure State.Begun (s : State) : Prop where
  mem : Memory.wf s.mem
  onRow : s.OnRow
  takeInt : s.takeInt = false
  rst : s.rstPending = none
  vector : s.VectorIn

theorem State.OnRow.le_rows {s : State} (h : s.OnRow) : s.t = 1 ∨ s.t ≤ s.rows := h.imp_right And.right

/-- The invariant of a state in which no reset waits. -/
theorem State.Inv.of_onRow {s : State} (hmem : Memory.wf s.mem) (hrow : s.OnRow)
    (htake : s.takeInt = true → s.seq = .instr ∧ s.t = 1) (hrst : s.rstPending = none) (hvec : s.VectorIn) : s.Inv where
  mem := hmem
  one_le := hrow.one_le
  le_rows := hrow.le_rows
  takeInt := htake
  reset h := absurd hrst h
  vector h4 he := hvec h4 (s.inEntry_iff.2 he)

theorem State.Begun.inv {s : State} (h : s.Begun) : s.Inv :=
  .of_onRow h.mem h.onRow (fun hi => absurd (h.takeInt.symm.trans hi) Bool.false_ne_true) h.rst h.vector

/-- Whether `ea` is the vector is told by the registers, the micro-state and the parameters. -/
theorem State.VectorIn.congr {s u : State} (h : s.VectorIn) (hcpu : u.toCpu = s.toCpu) (hp : u.params = s.params) :
    u.VectorIn := by
  simpa only [State.VectorIn, State.InEntry, State.hijackT, hcpu, hp] using h

/-- A cycle of a state that meets the invariant meets it once it has begun. -/
theorem State.Inv.begun {s : State} (h : s.Inv) : s.startStep.Begun := by
  obtain ⟨hmem, -, hparams, -⟩ := startStep_outside s
  obtain ⟨hrst, -⟩ := startStep_rest s
  refine ⟨hmem ▸ h.mem, startStep_onRow h.onRow, ?_, hrst, ?_⟩
  · rcases startStep_cases s with ⟨hr, hst⟩ | ⟨-, hst⟩ | ⟨⟨-, hn⟩, hst⟩ <;> rw [hst]
    · obtain ⟨-, -, htake, -⟩ := h.reset hr
      exact htake
    · rw [Bool.eq_false_iff]
      intro hi
      obtain ⟨hs, ht⟩ := h.takeInt hi
      exact hn ⟨hs, ht, hi⟩
  · rcases startStep_cases s with ⟨-, hst⟩ | ⟨⟨-, -, ht, -⟩, hst⟩ | ⟨-, hst⟩ <;> rw [hst]
    · exact fun h4 => absurd h4 (by simp)
    · exact fun h4 => absurd h4 (by simp [ht])
    · exact fun h4 he => h.vector h4 (s.inEntry_iff.1 he)

/-! ### Cycles that do not go on -/

theorem State.Begun.haltedCycle {s : State} (h : s.Begun) : s.haltedCycle.Begun :=
  ⟨h.mem, h.onRow, h.takeInt, h.rst, h.vector⟩

theorem State.Begun.stallCycle {s : State} (h : s.Begun) (c : Cycle) : (s.stallCycle c).Begun := by
  obtain ⟨hcpu, -⟩ := stallCycle_rest s c
  obtain ⟨hlatch, hrst⟩ := stallCycle_latches s c
  obtain ⟨hmem, -, hparams, -⟩ := stallCycle_bus s c
  exact ⟨hmem ▸ h.mem, h.onRow.congr (congrArg (·.seq) hcpu) (congrArg (·.t) hcpu) (congrArg (·.ir) hcpu),
    (congrArg Latches.takeInt hlatch).trans h.takeInt, hrst.trans h.rst, h.vector.congr hcpu hparams⟩

/-! ### Ordinary cycles -/

/-- A row after the first one keeps the CPU's place. -/
theorem keepsPlace_of_currentRow {s : State} {c : Cycle} {last : Bool} (h2 : 2 ≤ s.t)
    (h : s.currentRow = some (c, last)) : c.KeepsPlace := by
  have hc : c ∈ s.skeleton.tail := by
    have := skeleton_of_currentRow h
    rw [show s.t - 1 = s.t - 2 + 1 by omega, ← List.getElem?_tail] at this
    exact List.mem_of_getElem? this
  unfold State.skeleton at hc
  split at hc
  · exact (microcode_keepsPlace s.ir).2 c hc
  · exact sequences_keepPlace.1 c (List.mem_of_mem_tail hc)
  · exact sequences_keepPlace.2 c (List.mem_of_mem_tail hc)
  · cases hc

/-- In an entry, the row of cycle 3 puts $FFFE into `ea`, and the rows after it leave it (R309, R310). -/
theorem entryRow_ea {s : State} {c : Cycle} {last : Bool} (he : s.InEntry) (h3 : 3 ≤ s.t)
    (h : s.currentRow = some (c, last)) : (s.acted c).ea = if s.t = 3 then 0xFFFE else s.ea := by
  have hskel : ∃ b, s.skeleton.drop 2 = exceptionEntry b := by
    rcases he with ⟨k, hs⟩ | ⟨hs, h0⟩
    · exact ⟨false, by rw [State.skeleton, hs]; rfl⟩
    · exact ⟨true, by rw [State.skeleton, hs, h0]; rfl⟩
  obtain ⟨b, hb⟩ := hskel
  have hc := skeleton_of_currentRow h
  rw [show s.t - 1 = 2 + (s.t - 3) by omega, ← List.getElem?_drop, hb] at hc
  obtain ⟨n, hn⟩ : ∃ n, s.t = n + 3 := ⟨s.t - 3, by omega⟩
  rw [hn, Nat.add_sub_cancel] at hc
  match n with
  | 0 => cases hc; rw [hn]; rfl
  | 1 | 2 | 3 | 4 => cases hc; rw [hn]; rfl
  | n + 5 => cases hc

/-- Choosing the vector neither begins nor ends an entry. -/
theorem hook_inEntry (s : State) (k : Hook) : (s.hook k).InEntry ↔ s.InEntry := by
  cases k with
  | none => rfl
  | branch => rfl
  | vector k =>
    have hir : (s.vectorHook k).ir = s.ir := rfl
    unfold State.hook State.InEntry
    rw [hir]
    rcases vectorHook_seq s k with h | h | h <;> rw [h] <;> cases s.seq <;> simp [Seq.hijack, Seq.plain]

theorem accessPhase_inEntry {c : Cycle} (hk : c.KeepsPlace) (s : State) : (s.accessPhase c).InEntry ↔ s.InEntry := by
  rw [State.accessPhase, hook_inEntry]
  simp only [State.InEntry, State.pollShift_toCpu, State.edge_toCpu, hk.seq, hk.ir]

/-- An ordinary cycle keeps `ea` the vector from cycle 4 of an entry on (R310). -/
theorem State.Begun.normalCycle_vectorIn {s : State} {c : Cycle} {last : Bool} (h : s.Begun)
    (hrow : s.currentRow = some (c, last)) (hat : RowAt s c last) : (s.normalCycle c last).VectorIn := by
  intro h4 he
  by_cases hgo : last || c.fin (s.accessPhase c).toCpu
  · have : (s.normalCycle c last).t = 1 := by
      rw [State.normalCycle, if_pos hgo]; exact finish_t _ _
    omega
  have hn : s.normalCycle c last = (s.accessPhase c).nextT.tick := by rw [State.normalCycle, if_neg hgo]
  have ht : (s.normalCycle c last).t = s.t + 1 := by rw [hn]; exact congrArg (· + 1) hat.t
  have hentry : s.InEntry := by
    rw [hn] at he
    exact (accessPhase_inEntry (keepsPlace_of_currentRow (by omega) hrow) s).1 he
  obtain ⟨-, -, hea, -⟩ := normalCycle_latches s c last
  obtain ⟨-, -, aea, -⟩ := accessPhase_latches s c
  obtain ⟨-, -, hparams, -⟩ := normalCycle_bus s c last
  have hhook : c.hook = entryHook s.t := by
    rw [hook_of_currentRow (by omega) hrow]
    rcases hentry with ⟨k, hs⟩ | ⟨hs, h0⟩
    · rw [hs]; rfl
    · rw [hs, h0]; rfl
  have hT : (s.normalCycle c last).hijackT = s.hijackT := by rw [State.hijackT, State.hijackT, hparams]
  rw [hea, aea, hhook, entryHook_choosesVector, entryRow_ea hentry (by omega) hrow, hT, ht]
  split
  · next hv =>
    simp only [Bool.and_eq_true, beq_iff_eq] at hv
    exact .inr ⟨by omega, rfl⟩
  · split
    · exact .inl rfl
    · rcases h.vector (by omega) hentry with hfe | ⟨hlt, hfa⟩
      · exact .inl hfe
      · exact .inr ⟨by omega, hfa⟩

theorem perform_wf {s : State} (h : Memory.wf s.mem) (g : Option Byte) (r : Req) : Memory.wf (s.perform g r).mem := by
  cases r with
  | read a k => exact h
  | write a v k => exact wf_storeIn h a v

/-- An ordinary cycle meets the invariant: it goes on to the next row, or ends what is executing at a boundary or in the
halted state. -/
theorem State.Begun.normalCycle {s : State} {c : Cycle} {last : Bool} (h : s.Begun)
    (hrow : s.currentRow = some (c, last)) (hat : RowAt s c last) : (s.normalCycle c last).Inv := by
  obtain ⟨hmem, -, -, -, -, -, -, hrst, -⟩ := normalCycle_bus s c last
  have hwf : Memory.wf (s.normalCycle c last).mem := hmem ▸ perform_wf h.mem _ _
  refine .of_onRow hwf (hat.normalCycle_onRow h.onRow.one_le) ?_ (hrst.trans h.rst) (h.normalCycle_vectorIn hrow hat)
  obtain ⟨-, -, -, alatch⟩ := accessPhase_latches s c
  have hacc : (s.accessPhase c).takeInt = false := (congrArg Latches.takeInt alatch).trans h.takeInt
  have hnot {u : State} (hu : u.takeInt = (s.accessPhase c).takeInt) : u.takeInt = true → u.seq = .instr ∧ u.t = 1 :=
    fun hi => absurd ((hu.trans hacc).symm.trans hi) Bool.false_ne_true
  rw [State.normalCycle]
  split
  · cases c.ending
    · exact fun _ => ⟨rfl, rfl⟩
    · exact fun _ => ⟨rfl, rfl⟩
    · exact hnot rfl
  · exact hnot rfl

/-- One cycle keeps the invariant. -/
theorem State.Inv.cycle {s : State} (h : s.Inv) : s.cycle.Inv := by
  have hb := h.begun
  rcases cycle_cases h.onRow with ⟨-, hc⟩ | ⟨-, c, last, hrow, hat, ⟨-, hc⟩ | hc⟩ <;> rw [hc]
  · exact hb.haltedCycle.inv
  · exact (hb.stallCycle c).inv
  · exact hb.normalCycle hrow hat

theorem State.Inv.iterate_cycle {s : State} (h : s.Inv) (n : Nat) : (State.cycle^[n] s).Inv := by
  induction n generalizing s with
  | zero => exact h
  | succ n ih => rw [Function.iterate_succ_apply]; exact ih h.cycle

/-- The host's reset of either kind keeps the invariant (R353): it clears the latches and waits at cycle 1. -/
theorem State.Inv.hostReset {s : State} (h : s.Inv) (k : ResetKind) : (s.hostReset k).Inv := by
  cases k <;> exact ⟨h.mem, Nat.le_refl 1, .inl rfl, nofun, fun _ => ⟨rfl, rfl, rfl, rfl, rfl, rfl⟩,
    fun h4 => absurd (show 4 ≤ 1 from h4) (by decide)⟩

/-- Settles O59: memory lists nothing, and the CPU waits at cycle 1 with its latches clear. -/
theorem resetMeetsTheInvariant : Obligations.ResetMeetsTheInvariant :=
  ⟨Memory.wf_nil, Nat.le_refl 1, .inl rfl, nofun, fun _ => ⟨rfl, rfl, rfl, rfl, rfl, rfl⟩, fun h4 => absurd h4 (by decide)⟩

end Sys2Proof.Machine
end

section
/-! PROOF SUPPORT. A run of rows is a run of cycles (60_exceptions.md R324, R329): each row takes its stall cycles and then
one ordinary cycle, and `runSeq` ends where a step ends. -/

namespace Sys2Proof.Machine

/-- Where a step ends: at a boundary, in the halted state, or stopped by the host (R329, R332). -/
def State.AtRest (s : State) : Prop := s.atBoundary = true ∨ s.halted = true ∨ s.stop = true

/-- The second state is the first one after the first state, by whole cycles, at which a step ends. -/
inductive RunsTo : State → State → Prop where
  | last {s : State} (h : s.cycle.AtRest) : RunsTo s s.cycle
  | next {s u : State} (h : ¬ s.cycle.AtRest) (hrun : RunsTo s.cycle u) : RunsTo s u

/-- The number of cycles of a run. -/
theorem RunsTo.exists_iterate {s u : State} (h : RunsTo s u) :
    ∃ n, 1 ≤ n ∧ u = State.cycle^[n] s ∧ u.AtRest ∧ ∀ m, 1 ≤ m → m < n → ¬ (State.cycle^[m] s).AtRest := by
  induction h with
  | last h => exact ⟨1, Nat.le_refl 1, rfl, h, fun m h1 hm => by omega⟩
  | @next s u h hrun ih =>
    obtain ⟨n, h1, hu, hrest, hbefore⟩ := ih
    refine ⟨n + 1, by omega, hu, hrest, fun m hm1 hm => ?_⟩
    match m with
    | 1 => exact h
    | m + 2 => exact hbefore (m + 1) (by omega) (by omega)

/-- A run is told by its first cycle. -/
theorem RunsTo.of_cycle_eq {s s' u : State} (hc : s'.cycle = s.cycle) (h : RunsTo s u) : RunsTo s' u := by
  cases h with
  | last h => rw [← hc] at h ⊢; exact .last h
  | next h hrun => rw [← hc] at h hrun; exact .next h hrun

/-- A state inside a run: nothing has stopped it, and neither a reset nor a decision waits. -/
structure State.Running (s : State) : Prop where
  stop : s.stop = false
  rst : s.rstPending = none
  takeInt : s.takeInt = false
  halted : s.halted = false

theorem State.Running.startStep {s : State} (h : s.Running) : s.startStep = s := by
  have hstop : { s with stop := false } = s := by rw [← h.stop]
  rw [State.startStep, hstop, State.startCycle]
  simp [h.rst, h.takeInt]

/-- A cycle inside a run (R320, R324). -/
theorem State.Running.cycle_eq {s : State} {c : Cycle} {last : Bool} (h : s.Running)
    (hrow : s.currentRow = some (c, last)) :
    s.cycle = if (s.reqOf c).isRead && s.input.stallReq then s.stallCycle c else s.normalCycle c last := by
  have := cycle_of_row (s := s) (by rw [h.startStep]; exact h.halted) (by rw [h.startStep]; exact hrow)
  rwa [h.startStep] at this

/-! ### Stall cycles -/

/-- The row of the cycle at hand is told by the registers and the micro-state. -/
theorem currentRow_congr {s u : State} (h : u.toCpu = s.toCpu) : u.currentRow = s.currentRow := by
  simp only [State.currentRow, State.rowsLeft, h]

theorem State.Running.stallCycle {s : State} (h : s.Running) {c : Cycle} (hstop : (s.stallCycle c).stop = false) :
    (s.stallCycle c).Running := by
  obtain ⟨hcpu, -⟩ := stallCycle_rest s c
  obtain ⟨hlatch, hrst⟩ := stallCycle_latches s c
  refine ⟨hstop, hrst.trans h.rst, (congrArg Latches.takeInt hlatch).trans h.takeInt, ?_⟩
  rw [State.halted, hcpu]
  exact h.halted

theorem stallCycle_notBoundary (s : State) (c : Cycle) : (s.stallCycle c).atBoundary = false := by
  simp [State.atBoundary, State.stallCycle]

theorem State.Running.stallCycle_notAtRest {s : State} (h : s.Running) {c : Cycle}
    (hstop : (s.stallCycle c).stop = false) : ¬ (s.stallCycle c).AtRest := by
  simp [State.AtRest, stallCycle_notBoundary, (h.stallCycle hstop).halted, hstop]

theorem stallRun_of_stop {c : Cycle} {is : List CycleIn} {s : State} (h : s.stop = true) : stallRun c is s = s := by
  cases is with
  | nil => rfl
  | cons i is => simp [stallRun, h]

/-- The stall cycles before a read are cycles of the run: it ends among them, or goes on with the read. -/
theorem runsTo_of_stallRun {c : Cycle} {last : Bool} {u : State} (is : List CycleIn) {s : State} (h : s.Running)
    (hin : s.inputs = is) (hrow : s.currentRow = some (c, last)) (hread : (s.reqOf c).isRead = true)
    (hstop : (stallRun c is s).stop = true → u = stallRun c is s)
    (hgo : (stallRun c is s).Running → (stallRun c is s).input.stallReq = false →
      RunsTo (stallRun c is s) u) : RunsTo s u := by
  induction is generalizing s with
  | nil => exact hgo h (show s.input.stallReq = false by rw [State.input, State.inputAt, hin]; rfl)
  | cons i is ih =>
    have hinput : s.input = i := by rw [State.input, State.inputAt, hin]; rfl
    by_cases hs : i.stallReq = true
    · have hc : s.cycle = s.stallCycle c := by
        rw [h.cycle_eq hrow, hread, hinput, hs, Bool.and_self, if_pos rfl]
      have hrun : stallRun c (i :: is) s = stallRun c is (s.stallCycle c) := by
        simp [stallRun, h.stop, hs]
      rw [hrun] at hstop hgo
      by_cases hst : (s.stallCycle c).stop = true
      · rw [hstop (by rwa [stallRun_of_stop hst]), stallRun_of_stop hst, ← hc]
        exact .last (hc ▸ .inr (.inr hst))
      · have hst : (s.stallCycle c).stop = false := Bool.eq_false_iff.2 hst
        obtain ⟨hcpu, -⟩ := stallCycle_rest s c
        obtain ⟨-, -, hparams, hinputs, -⟩ := stallCycle_bus s c
        refine .next (hc ▸ h.stallCycle_notAtRest hst) ?_
        rw [hc]
        refine ih (h.stallCycle hst) (by rw [hinputs, hin]; rfl) (by rw [currentRow_congr hcpu]; exact hrow) ?_ hstop hgo
        rw [State.reqOf, hcpu, hparams]
        exact hread
    · have hs : i.stallReq = false := Bool.eq_false_iff.2 hs
      have hrun : stallRun c (i :: is) s = s := by simp [stallRun, hs]
      rw [hrun] at hgo
      exact hgo h (hinput ▸ hs)

/-- Waiting for the bus changes neither the registers nor the micro-state, nor what an access depends on (R320). -/
theorem waitBus_rest (s : State) (c : Cycle) :
    (s.waitBus c).toCpu = s.toCpu ∧ (s.waitBus c).params = s.params ∧ (s.waitBus c).mem = s.mem ∧
      (s.waitBus c).busMap = s.busMap := by
  have hrun (is : List CycleIn) (s : State) : (stallRun c is s).toCpu = s.toCpu ∧ (stallRun c is s).params = s.params ∧
      (stallRun c is s).mem = s.mem ∧ (stallRun c is s).busMap = s.busMap := by
    induction is generalizing s with
    | nil => exact ⟨rfl, rfl, rfl, rfl⟩
    | cons i is ih =>
      rw [stallRun]
      split
      · exact ⟨rfl, rfl, rfl, rfl⟩
      · obtain ⟨hcpu, -⟩ := stallCycle_rest s c
        obtain ⟨hmem, hmap, hparams, -⟩ := stallCycle_bus s c
        obtain ⟨h1, h2, h3, h4⟩ := ih (s.stallCycle c)
        exact ⟨h1.trans hcpu, h2.trans hparams, h3.trans hmem, h4.trans hmap⟩
  rw [State.waitBus]
  split
  · exact hrun s.inputs s
  · exact ⟨rfl, rfl, rfl, rfl⟩

theorem waitBus_reqOf (s : State) (c : Cycle) : (s.waitBus c).reqOf c = s.reqOf c := by
  obtain ⟨hcpu, hparams, -⟩ := waitBus_rest s c
  rw [State.reqOf, hcpu, hparams]; rfl

/-- The wait before an access is part of the run: it ends there, or goes on with the access in an ordinary cycle. -/
theorem runsTo_of_waitBus {c : Cycle} {last : Bool} {u s : State} (h : s.Running)
    (hrow : s.currentRow = some (c, last)) (hstop : (s.waitBus c).stop = true → u = s.waitBus c)
    (hgo : (s.waitBus c).Running → (s.waitBus c).cycle = (s.waitBus c).normalCycle c last → RunsTo (s.waitBus c) u) :
    RunsTo s u := by
  have hcycle {w : State} (hw : w.Running) (hrow : w.currentRow = some (c, last))
      (hno : ((w.reqOf c).isRead && w.input.stallReq) = false) : w.cycle = w.normalCycle c last := by
    rw [hw.cycle_eq hrow, hno, if_neg Bool.false_ne_true]
  have hrow' : (s.waitBus c).currentRow = some (c, last) := (currentRow_congr (waitBus_rest s c).1).trans hrow
  cases hread : (s.reqOf c).isRead with
  | true =>
    have hw : s.waitBus c = stallRun c s.inputs s := by rw [State.waitBus, hread, if_pos rfl]
    refine runsTo_of_stallRun s.inputs h rfl hrow hread (hw ▸ hstop) fun hr hs => ?_
    rw [← hw] at hr hs ⊢
    exact hgo hr (hcycle hr hrow' (by rw [hs, Bool.and_false]))
  | false =>
    have hw : s.waitBus c = s := by rw [State.waitBus, hread, if_neg Bool.false_ne_true]
    rw [hw] at hgo
    exact hgo h (hcycle h hrow (by rw [hread, Bool.false_and]))

/-! ### Rows -/

/-- The run of a row and those after it. -/
theorem runSeq_cons (c : Cycle) (cs : List Cycle) (s : State) :
    runSeq (c :: cs) s =
      if (s.waitBus c).stop then s.waitBus c
      else if cs.isEmpty || c.fin ((s.waitBus c).accessPhase c).toCpu then
        (((s.waitBus c).accessPhase c).finish c.ending).tick
      else if ((s.waitBus c).accessPhase c).nextT.tick.stop then ((s.waitBus c).accessPhase c).nextT.tick
      else runSeq cs ((s.waitBus c).accessPhase c).nextT.tick := rfl

/-- A row after the first one begins the rows left of the skeleton at hand. -/
theorem currentRow_of_rowsLeft {s : State} {c : Cycle} {cs : List Cycle} (hin : s.atFetch = false)
    (h : s.rowsLeft s.skeleton = c :: cs) : s.currentRow = some (c, cs.isEmpty) := by
  rw [currentRow_eq_firstRow hin, h]; rfl

/-- A row that keeps the kind of sequence keeps the skeleton and does not halt the CPU; the hook only tells an NMI from an
IRQ. -/
theorem hook_skeleton (s : State) (k : Hook) :
    (s.hook k).skeleton = s.skeleton ∧ (s.hook k).halted = s.halted ∧ (s.hook k).t = s.t := by
  cases k with
  | none => exact ⟨rfl, rfl, rfl⟩
  | branch => exact ⟨rfl, rfl, rfl⟩
  | vector k =>
    have hir : (s.vectorHook k).ir = s.ir := rfl
    unfold State.hook State.skeleton State.halted
    rw [hir]
    rcases vectorHook_seq s k with h | h | h <;> rw [h] <;> cases s.seq <;> exact ⟨rfl, rfl, rfl⟩

/-- The access phase of a row that keeps the CPU's place keeps the skeleton. -/
theorem accessPhase_skeleton {c : Cycle} (hk : c.KeepsPlace) (s : State) : (s.accessPhase c).skeleton = s.skeleton := by
  rw [State.accessPhase, (hook_skeleton _ _).1]
  simp only [State.skeleton, State.pollShift_toCpu, State.edge_toCpu, hk.seq, hk.ir]

/-- The opcode fetch and the rows that keep the CPU's place leave the cycle number and the kind of sequence. -/
theorem accessPhase_place {c : Cycle} (hk : c.KeepsPlace ∨ c = opcodeFetch) (s : State) :
    (s.accessPhase c).t = s.t ∧ (s.accessPhase c).halted = s.halted := by
  obtain ⟨-, hh, ht⟩ := hook_skeleton
    { s.perform c.given (s.reqOf c) with toCpu := s.acted c }.edge.pollShift c.hook
  have hseq : (s.acted c).seq = s.seq ∧ (s.acted c).t = s.t := by
    rcases hk with hk | rfl
    · exact ⟨hk.seq .., hk.t ..⟩
    · exact ⟨rfl, rfl⟩
  rw [State.accessPhase, ← State.acted, ht, hh, State.halted, State.halted]
  exact ⟨hseq.2, congrArg (· == Seq.halted) hseq.1⟩

/-- Where a skeleton ends, a step ends. -/
theorem finish_atRest {s : State} (hrst : s.rstPending = none) (hs : s.stalled = false) (e : Ending) :
    (s.finish e).tick.AtRest := by
  cases e with
  | poll => exact .inl (by simp [State.atBoundary, State.tick, State.finish, State.arrive, hrst, hs])
  | noPoll => exact .inl (by simp [State.atBoundary, State.tick, State.finish, State.arrive, hrst, hs])
  | halt => exact .inr (.inl rfl)

/-- Where the next row follows, the run goes on, unless the host stops it. -/
theorem State.Running.nextT {s : State} {c : Cycle} (h : s.Running) (hk : c.KeepsPlace ∨ c = opcodeFetch)
    (hstop : (s.accessPhase c).nextT.tick.stop = false) : (s.accessPhase c).nextT.tick.Running := by
  obtain ⟨-, -, -, -, -, -, -, hrst, -⟩ := accessPhase_bus s c
  obtain ⟨-, -, -, hlatch⟩ := accessPhase_latches s c
  exact ⟨hstop, hrst.trans h.rst, (congrArg Latches.takeInt hlatch).trans h.takeInt,
    (accessPhase_place hk s).2.trans h.halted⟩

theorem State.Running.nextT_notAtRest {s : State} {c : Cycle} (h : s.Running) (hk : c.KeepsPlace ∨ c = opcodeFetch)
    (h1 : 1 ≤ s.t) (hstop : (s.accessPhase c).nextT.tick.stop = false) : ¬ (s.accessPhase c).nextT.tick.AtRest := by
  have ht : (s.accessPhase c).nextT.tick.t = s.t + 1 := congrArg (· + 1) (accessPhase_place hk s).1
  have hb : (s.accessPhase c).nextT.tick.atBoundary = false := by
    rw [State.atBoundary, ht, beq_false_of_ne (show s.t + 1 ≠ 1 by omega), Bool.and_false, Bool.false_and]
  rintro (hat | hat | hat)
  · exact absurd (hb.symm.trans hat) Bool.false_ne_true
  · exact absurd ((h.nextT hk hstop).halted.symm.trans hat) Bool.false_ne_true
  · exact absurd (hstop.symm.trans hat) Bool.false_ne_true

/-- One row: the run ends with its cycle, or goes on with the rows that follow. -/
theorem runsTo_row {s : State} {c : Cycle} {cs : List Cycle} (h : s.Running) (h1 : 1 ≤ s.t)
    (hk : c.KeepsPlace ∨ c = opcodeFetch) (hrow : s.currentRow = some (c, cs.isEmpty))
    (hnext : cs ≠ [] → (s.waitBus c).Running → ((s.waitBus c).accessPhase c).nextT.tick.Running →
      RunsTo ((s.waitBus c).accessPhase c).nextT.tick (runSeq cs ((s.waitBus c).accessPhase c).nextT.tick)) :
    RunsTo s (runSeq (c :: cs) s) := by
  rw [runSeq_cons]
  refine runsTo_of_waitBus h hrow (fun hs => if_pos hs) fun hw hc => ?_
  have h1 : 1 ≤ (s.waitBus c).t := by rwa [(waitBus_rest s c).1]
  rw [State.normalCycle] at hc
  rw [if_neg (Bool.eq_false_iff.1 hw.stop)]
  by_cases hend : (cs.isEmpty || c.fin ((s.waitBus c).accessPhase c).toCpu) = true
  · rw [if_pos hend] at hc ⊢
    obtain ⟨-, -, -, -, -, -, -, hrst, -⟩ := accessPhase_bus (s.waitBus c) c
    obtain ⟨-, hstall, -⟩ := accessPhase_latches (s.waitBus c) c
    rw [← hc]
    exact .last (hc ▸ finish_atRest (hrst.trans hw.rst) hstall c.ending)
  · rw [if_neg hend] at hc ⊢
    have hne : cs ≠ [] := by rintro rfl; exact hend rfl
    split
    · next hstop =>
      rw [← hc] at hstop ⊢
      exact .last (.inr (.inr hstop))
    · next hstop =>
      have hstop := Bool.eq_false_iff.2 hstop
      exact .next (hc ▸ hw.nextT_notAtRest hk h1 hstop) (hc ▸ hnext hne hw (hw.nextT hk hstop))

/-- Running the rows left of the skeleton at hand, after its first one, is a run of cycles. -/
theorem runsTo_runSeq (cs : List Cycle) {s : State} (h : s.Running) (h1 : 1 ≤ s.t) (hin : s.atFetch = false)
    (hrows : s.rowsLeft s.skeleton = cs) (hne : cs ≠ []) (hk : ∀ c ∈ cs, c.KeepsPlace) : RunsTo s (runSeq cs s) := by
  induction cs generalizing s with
  | nil => exact absurd rfl hne
  | cons c cs ih =>
    obtain ⟨hkc, hkcs⟩ := List.forall_mem_cons.1 hk
    refine runsTo_row h h1 (.inl hkc) (currentRow_of_rowsLeft hin hrows) fun hne _ hn => ?_
    have hw : (s.waitBus c).t = s.t ∧ (s.waitBus c).skeleton = s.skeleton := by
      rw [State.skeleton, (waitBus_rest s c).1]; exact ⟨rfl, rfl⟩
    have ht : ((s.waitBus c).accessPhase c).nextT.tick.t = s.t + 1 := by
      rw [← hw.1]; exact congrArg (· + 1) (accessPhase_place (.inl hkc) _).1
    have hs : ((s.waitBus c).accessPhase c).nextT.tick.skeleton = s.skeleton :=
      (accessPhase_skeleton hkc _).trans hw.2
    have hin' : ((s.waitBus c).accessPhase c).nextT.tick.atFetch = false := by
      rw [State.atFetch, ht, beq_false_of_ne (show s.t + 1 ≠ 1 by omega), Bool.and_false]
    refine ih hn (by omega) hin' ?_ hne hkcs
    rw [State.rowsLeft] at hrows ⊢
    rw [hs, ht, show s.t + 1 - 1 = s.t - 1 + 1 by omega, ← List.tail_drop, hrows, List.tail_cons]

end Sys2Proof.Machine
end

section
/-! PROOF SUPPORT. The bytes of an instruction (30_encoding.md R81, 40_addressing.md R101): what the fetch cycles receive is
what the bus answers there, so the meaning of an instruction is the run of its skeleton's rows. -/

namespace Sys2Proof.Machine

/-! ### The inputs of the cycles to come -/

theorem inputAt_next {s u : State} (hi : u.inputs = s.inputs.tail) (hd : u.draws = s.draws + 1) (n : Nat) :
    u.inputAt n = s.inputAt (n + 1) := by
  rw [State.inputAt, State.inputAt, hi, hd, List.getD_eq_getElem?_getD, List.getD_eq_getElem?_getD, List.getElem?_tail,
    Nat.add_right_comm, Nat.add_assoc]

theorem delay_nil (ds : List Dir) : delay ds [] = ds.length := by
  match ds with
  | [] => rfl
  | .read :: _ => rfl
  | .write :: _ => rfl

theorem input_eq_head {s : State} {i : CycleIn} {is : List CycleIn} (h : s.inputs = i :: is) : s.input = i := by
  rw [State.input, State.inputAt, h]; rfl

/-- What a device answers after an access in a direction that does not wait. -/
theorem replyAfter_cons {s u : State} {d : Dir} (hi : u.inputs = s.inputs.tail) (hd : u.draws = s.draws + 1)
    (hgo : d = .read → s.input.stallReq = false) (ds : List Dir) : u.replyAfter ds = s.replyAfter (d :: ds) := by
  have hdelay : delay (d :: ds) s.inputs = delay ds u.inputs + 1 := by
    rw [hi]
    match hin : s.inputs with
    | [] => rw [List.tail_nil, delay_nil, delay_nil]; rfl
    | i :: is =>
      cases d with
      | write => exact Nat.add_comm 1 _
      | read =>
        have hs : i.stallReq = false := input_eq_head hin ▸ hgo rfl
        simp [delay, hs, Nat.add_comm 1]
  rw [State.replyAfter, inputAt_next hi hd, ← hdelay]; rfl

/-- A stalled cycle moves no answer of the reads that wait. -/
theorem replyAfter_stalled {s u : State} {ds : List Dir} (hi : u.inputs = s.inputs.tail) (hd : u.draws = s.draws + 1)
    (hs : s.input.stallReq = true) (hds : ds.head? ≠ some .write) : u.replyAfter ds = s.replyAfter ds := by
  have hdelay : delay ds s.inputs = delay ds u.inputs + 1 := by
    rw [hi]
    match hin : s.inputs with
    | [] => simp [State.input, State.inputAt, hin, idleInput] at hs
    | i :: is =>
      have hs : i.stallReq = true := input_eq_head hin ▸ hs
      match ds with
      | [] => simp [delay, hs, Nat.add_comm 1]
      | .read :: ds => simp [delay, hs, Nat.add_comm 1]
      | .write :: ds => exact absurd rfl hds
  rw [State.replyAfter, inputAt_next hi hd, ← hdelay]; rfl

/-- The wait before an access leaves the answers to the accesses from it on. -/
theorem waitBus_replyAfter {s : State} {c : Cycle} {ds : List Dir} (hds : ds = [] ∧ (s.reqOf c).dir = .read ∨
    ds.head? = some (s.reqOf c).dir) : (s.waitBus c).replyAfter ds = s.replyAfter ds := by
  have hrun (hds : ds.head? ≠ some .write) (is : List CycleIn) (s : State) (hin : s.inputs = is) :
      (stallRun c is s).replyAfter ds = s.replyAfter ds := by
    induction is generalizing s with
    | nil => rfl
    | cons i is ih =>
      rw [stallRun]
      split
      · rfl
      · next h =>
        obtain ⟨-, -, -, hi, hd, -⟩ := stallCycle_bus s c
        simp only [Bool.or_eq_true, Bool.not_eq_true', not_or, Bool.not_eq_false] at h
        have hs : s.input.stallReq = true := (input_eq_head hin).symm ▸ h.2
        rw [ih (s.stallCycle c) (by rw [hi, hin]; rfl), replyAfter_stalled hi hd hs hds]
  rw [State.waitBus]
  split
  · next hr =>
    have hread : (s.reqOf c).dir = .read := by
      cases hq : s.reqOf c with
      | read a k => rfl
      | write a v k => rw [hq] at hr; cases hr
    refine hrun (fun hw => ?_) s.inputs s rfl
    rcases hds with ⟨rfl, -⟩ | hds
    · cases hw
    · rw [hds, hread] at hw; cases hw
  · rfl

/-- A read whose wait the host does not stop takes place in a cycle that is not stalled. -/
theorem waitBus_stallReq {s : State} {c : Cycle} (hread : (s.reqOf c).dir = .read) (hstop : (s.waitBus c).stop = false) :
    (s.waitBus c).input.stallReq = false := by
  have hrun (is : List CycleIn) (s : State) (hin : s.inputs = is) (hstop : (stallRun c is s).stop = false) :
      (stallRun c is s).input.stallReq = false := by
    induction is generalizing s with
    | nil => exact show s.input.stallReq = false by rw [State.input, State.inputAt, hin]; rfl
    | cons i is ih =>
      rw [stallRun] at hstop ⊢
      split at hstop
      · next h =>
        rw [if_pos h, input_eq_head hin]
        simpa [hstop] using h
      · next h =>
        obtain ⟨-, -, -, hi, -⟩ := stallCycle_bus s c
        rw [if_neg h]
        exact ih _ (by rw [hi, hin]; rfl) hstop
  have hr : (s.reqOf c).isRead = true := (isRead_of_dir _).1 hread
  rw [State.waitBus, if_pos hr] at hstop ⊢
  exact hrun s.inputs s rfl hstop

/-! ### One row of a run -/

theorem replyAfter_nil {s : State} (h : s.input.stallReq = false) : s.replyAfter [] = s.input.reply := by
  have hdelay : delay [] s.inputs = 0 := by
    match hin : s.inputs with
    | [] => rfl
    | i :: is =>
      have hs : i.stallReq = false := input_eq_head hin ▸ h
      simp [delay, hs]
  rw [State.replyAfter, hdelay]; rfl

theorem answer_eq (s : State) (ds : List Dir) (a : Addr) : s.answer ds a = (s.peek a).getD (s.replyAfter ds) := rfl

/-- A read row that waits, and is not stopped there, reads what the bus was to answer. -/
theorem waitBus_answerNow {s : State} {c : Cycle} (hread : (s.reqOf c).dir = .read) (hstop : (s.waitBus c).stop = false)
    (a : Addr) : (s.waitBus c).answerNow a = s.answer [] a := by
  obtain ⟨-, -, hm, hb⟩ := waitBus_rest s c
  rw [State.answerNow, ← replyAfter_nil (waitBus_stallReq hread hstop), waitBus_replyAfter (.inl ⟨rfl, hread⟩),
    State.peek, hm, hb]; rfl

/-- The state after a row that does not end a run. -/
def State.afterRow (s : State) (c : Cycle) : State := ((s.waitBus c).accessPhase c).nextT.tick

theorem afterRow_bus (s : State) (c : Cycle) :
    (s.afterRow c).mem = ((s.waitBus c).perform c.given (s.reqOf c)).mem ∧ (s.afterRow c).busMap = s.busMap ∧
    (s.afterRow c).inputs = (s.waitBus c).inputs.tail ∧ (s.afterRow c).draws = (s.waitBus c).draws + 1 := by
  obtain ⟨hm, hb, -, hi, hd, -⟩ := accessPhase_bus (s.waitBus c) c
  obtain ⟨-, -, -, hmap⟩ := waitBus_rest s c
  rw [waitBus_reqOf] at hm
  exact ⟨hm, hb.trans hmap, congrArg List.tail hi, congrArg (· + 1) hd⟩

/-- A byte stored is what the bus answers where it lies (R59). -/
theorem store_answer (s : State) (a : Addr) (v : Byte) (ds : List Dir) (b : Addr) :
    (s.store a v).answer ds b = if s.overwrites a b then v else s.answer ds b := by
  have h : (s.store a v).answer ds b = ((s.store a v).peek b).getD (s.replyAfter ds) := rfl
  rw [h, State.peek_store]
  split <;> rfl

theorem overwrites_congr {s u : State} (h : u.busMap = s.busMap) (w a : Addr) : u.overwrites w a = s.overwrites w a := by
  simp only [State.overwrites, State.cell?, State.writable, h]

/-- The row after a read row, with what it has read. -/
theorem afterRow_read {s : State} {c : Cycle} (hg : c.given = none) (hread : (s.reqOf c).dir = .read)
    (hstop : (s.waitBus c).stop = false) :
    (s.afterRow c).toRegs = (c.act s.params (s.answer [] (s.reqOf c).addr) s.toCpu).toRegs ∧
    (s.afterRow c).busMap = s.busMap ∧ ∀ ds a, (s.afterRow c).answer ds a = s.answer (.read :: ds) a := by
  obtain ⟨hcpu, hp, hmem, -⟩ := waitBus_rest s c
  obtain ⟨hm, hb, hi, hd⟩ := afterRow_bus s c
  obtain ⟨hregs, -⟩ := accessPhase_latches (s.waitBus c) c
  refine ⟨?_, hb, fun ds a => ?_⟩
  · rw [State.acted, waitBus_reqOf, hg, byteOf_read hread, waitBus_answerNow hread hstop, hp, hcpu] at hregs
    exact hregs
  · have hmem : (s.afterRow c).mem = s.mem := hm.trans (((perform_mem _ _ _).1 hread).trans hmem)
    rw [answer_eq, replyAfter_cons hi hd (fun _ => waitBus_stallReq hread hstop),
      waitBus_replyAfter (.inr (by rw [hread]; rfl)), State.peek, hmem, hb]
    rfl

/-- The row after a write row. -/
theorem afterRow_write {s : State} {c : Cycle} {a : Addr} {v : Byte} {k : Kind} (hw : s.reqOf c = .write a v k) :
    (s.afterRow c).toRegs = (c.act s.params v s.toCpu).toRegs ∧ (s.afterRow c).busMap = s.busMap ∧
    ∀ ds b, (s.afterRow c).answer ds b = if s.overwrites a b then v else s.answer (.write :: ds) b := by
  have hwait : s.waitBus c = s := by rw [State.waitBus, hw]; rfl
  obtain ⟨hm, hb, hi, hd⟩ := afterRow_bus s c
  obtain ⟨hregs, -⟩ := accessPhase_latches (s.waitBus c) c
  rw [hwait] at hm hi hd hregs
  rw [hw] at hm
  refine ⟨?_, hb, fun ds b => ?_⟩
  · rw [State.acted, hw] at hregs
    rw [State.afterRow, hwait]
    exact hregs
  · rw [← store_answer, answer_eq, replyAfter_cons (d := .write) hi hd (fun h => by cases h), State.peek, hm, hb]
    rfl

/-- The row after a push of a byte of PC. -/
theorem afterRow_push (s : State) (f : Addr → Byte) :
    (s.afterRow (pushCycle fun c => f c.pc)).pc = s.pc ∧ (s.afterRow (pushCycle fun c => f c.pc)).sp = s.sp - 1 ∧
    (s.afterRow (pushCycle fun c => f c.pc)).busMap = s.busMap ∧
    ∀ ds b, (s.afterRow (pushCycle fun c => f c.pc)).answer ds b =
      if s.overwrites (stackAddr s.sp) b then f s.pc else s.answer (.write :: ds) b := by
  obtain ⟨hregs, hb, ha⟩ := afterRow_write (s := s) (c := pushCycle fun c => f c.pc) rfl
  exact ⟨by rw [hregs]; rfl, by rw [hregs]; rfl, hb, ha⟩

/-- Runs of a row agree where the runs after it do. -/
theorem runSeq_cons_congr {s : State} {c : Cycle} {cs ds : List Cycle} (hlen : cs.isEmpty = ds.isEmpty)
    (h : (s.waitBus c).stop = false → runSeq cs (s.afterRow c) = runSeq ds (s.afterRow c)) :
    runSeq (c :: cs) s = runSeq (c :: ds) s := by
  rw [runSeq_cons, runSeq_cons, hlen]
  split
  · rfl
  · next hstop =>
    split
    · rfl
    · split
      · rfl
      · exact h (Bool.eq_false_iff.2 hstop)

/-- A row that is given the byte the bus answers runs as it does without. -/
theorem runSeq_given {s : State} {c : Cycle} {b : Byte} (cs : List Cycle) (hg : c.given = none)
    (hread : (s.reqOf c).dir = .read) (hb : b = s.answer [] (s.reqOf c).addr) :
    runSeq ({ c with given := some b } :: cs) s = runSeq (c :: cs) s := by
  have hstall (is : List CycleIn) (u : State) : stallRun { c with given := some b } is u = stallRun c is u := by
    induction is generalizing u with
    | nil => rfl
    | cons i is ih =>
      have hc : u.stallCycle { c with given := some b } = u.stallCycle c := rfl
      rw [stallRun, stallRun, hc, ih]
  have hw : s.waitBus { c with given := some b } = s.waitBus c := by
    rw [State.waitBus, State.waitBus, hstall]; rfl
  rw [runSeq_cons, runSeq_cons, hw]
  by_cases hstop : (s.waitBus c).stop = true
  · rw [if_pos hstop, if_pos hstop]
  · have hbyte : (s.waitBus c).byteOf (some b) (s.reqOf c) = (s.waitBus c).byteOf none (s.reqOf c) := by
      rw [byteOf_read hread, waitBus_answerNow hread (Bool.eq_false_iff.2 hstop), ← hb]
      cases hr : s.reqOf c with
      | read a k => rfl
      | write a v k => rw [hr] at hread; cases hread
    have hperform : (s.waitBus c).perform (some b) (s.reqOf c) = (s.waitBus c).perform none (s.reqOf c) := by
      cases hr : s.reqOf c with
      | read a k => rw [hr] at hbyte; simp only [State.perform, hbyte]
      | write a v k => rfl
    have hacc : (s.waitBus c).accessPhase { c with given := some b } = (s.waitBus c).accessPhase c := by
      have hq : (s.waitBus c).reqOf { c with given := some b } = (s.waitBus c).reqOf c := rfl
      rw [State.accessPhase, State.accessPhase, hq, waitBus_reqOf, hg, hperform, hbyte]
    rw [hacc]

/-! ### The fetch rows of a skeleton -/

/-- A row that fetches the byte at PC. -/
structure Cycle.Fetches (c : Cycle) : Prop where
  fetch : c.fetch = true
  given : c.given = none
  req : ∀ q r, (c.req q r).dir = .read ∧ (c.req q r).addr = r.pc

theorem opcodeFetch_fetches : opcodeFetch.Fetches := ⟨rfl, rfl, fun _ _ => ⟨rfl, rfl⟩⟩

theorem operandFetch_fetches (act : Params → Byte → Cpu → Cpu) : (operandFetch act).Fetches :=
  ⟨rfl, rfl, fun _ _ => ⟨rfl, rfl⟩⟩

theorem supply_isEmpty (bs : List Byte) (cs : List Cycle) : (supply bs cs).isEmpty = cs.isEmpty := by
  cases bs with
  | nil => rw [supply_nil]
  | cons b bs =>
    cases cs with
    | nil => rfl
    | cons c cs => rw [supply]; split <;> rfl

/-- A fetch row that is supplied the byte the bus answers at PC. -/
theorem runSeq_supply_fetch {s : State} {c : Cycle} {b : Byte} {bs : List Byte} {cs : List Cycle} (hc : c.Fetches)
    (hb : b = s.answer [] s.pc)
    (h : (s.waitBus c).stop = false → runSeq (supply bs cs) (s.afterRow c) = runSeq cs (s.afterRow c)) :
    runSeq (supply (b :: bs) (c :: cs)) s = runSeq (c :: cs) s := by
  obtain ⟨hread, haddr⟩ : (s.reqOf c).dir = .read ∧ (s.reqOf c).addr = s.pc := hc.req ..
  rw [supply, if_pos hc.fetch, runSeq_given _ hc.given hread (haddr ▸ hb)]
  exact runSeq_cons_congr (supply_isEmpty bs cs) h

/-- A row that fetches no byte of the instruction. -/
theorem runSeq_supply_skip {s : State} {c : Cycle} {bs : List Byte} {cs : List Cycle} (hc : c.fetch = false)
    (h : (s.waitBus c).stop = false → runSeq (supply bs cs) (s.afterRow c) = runSeq cs (s.afterRow c)) :
    runSeq (supply bs (c :: cs)) s = runSeq (c :: cs) s := by
  cases bs with
  | nil => rw [supply_nil]
  | cons b bs =>
    rw [supply, if_neg (Bool.eq_false_iff.1 hc)]
    exact runSeq_cons_congr (supply_isEmpty _ cs) h

/-- What the rows of a skeleton fetch: each fetch row the byte at PC, and a third row only after the low byte of an address.
-/
structure FetchRows (cs : List Cycle) : Prop where
  fetches : ∀ c ∈ cs, c.fetch = true → c.Fetches
  low : ∀ c ∈ cs[2]?, c.fetch = true → cs[1]? = some fetchLo

theorem FetchRows.append {cs ds : List Cycle} (h2 : 2 ≤ cs.length) (hc : FetchRows cs) (hd : ∀ d ∈ ds, d.fetch = false) :
    FetchRows (cs ++ ds) := by
  have hnot : ∀ d ∈ ds, d.fetch = true → d.Fetches := fun d hdm hf => absurd (hd d hdm ▸ hf) Bool.false_ne_true
  refine ⟨List.forall_mem_append.2 ⟨hc.fetches, hnot⟩, fun c hcm hf => ?_⟩
  rw [List.getElem?_append_left (by omega)]
  by_cases h3 : 2 < cs.length
  · rw [List.getElem?_append_left h3] at hcm
    exact hc.low c hcm hf
  · rw [List.getElem?_append_right (by omega)] at hcm
    exact absurd (hd c (List.mem_of_getElem? hcm) ▸ hf) Bool.false_ne_true

theorem addressRows_fetchRows (m : Mode) : FetchRows m.addressRows := by
  cases m <;>
  refine ⟨?_, ?_⟩ <;>
  simp [Mode.addressRows, zpAddress, zpIndexedAddress, absAddress, absIndexedAddress, indXAddress, indYAddress, fetchZp,
    fetchLo, fetchHi, fetchHiIndexed, zpIndexCycle, ptrIndexCycle, ptrLo, ptrHi, ptrHiIndexed, opcodeFetch_fetches,
    operandFetch_fetches]

theorem readRows_fetchRows (m : Mode) (op : ReadOp) : FetchRows (m.readRows op) := by
  refine (addressRows_fetchRows m).append (addressRows_keepsPlace m).1 ?_
  split <;> simp [readUnfixed, readCycle]

theorem storeRows_fetchRows (m : Mode) {ds : List Cycle} (hd : ∀ d ∈ ds, d.fetch = false) : FetchRows (m.storeRows ds) := by
  refine (addressRows_fetchRows m).append (addressRows_keepsPlace m).1 ?_
  split
  · exact List.forall_mem_cons.2 ⟨rfl, hd⟩
  · exact hd

theorem writeRows_fetchRows (m : Mode) (w : Regs → Byte) : FetchRows (m.storeRows [writeCycle w]) :=
  storeRows_fetchRows m (by simp [writeCycle])

theorem rmwRows_fetchRows (m : Mode) (f : RmwOp) : FetchRows (m.storeRows (rmwTail f)) :=
  storeRows_fetchRows m (by simp [rmwTail])

theorem shRows_fetchRows (m : Mode) (idx : Index) (reg : Regs → Byte) (act : Regs → Regs) :
    FetchRows (m.storeRows [shCycle idx reg act]) :=
  storeRows_fetchRows m (by simp [shCycle])

/-- A conditional branch fetches its offset in cycle 2 (R112). -/
theorem branchSkeleton_fetchRows (cond : Flags → Bool) : FetchRows (branchSkeleton cond) := by
  have hcond : ∀ act fin, ({ operandFetch act with fin := fin, hook := .branch } : Cycle).Fetches :=
    fun _ _ => ⟨rfl, rfl, fun _ _ => ⟨rfl, rfl⟩⟩
  refine ⟨?_, by simp [branchSkeleton]⟩
  simp only [branchSkeleton, List.forall_mem_cons, List.not_mem_nil, false_implies, implies_true, and_true]
  exact ⟨fun _ => opcodeFetch_fetches, fun _ => hcond _ _, nofun, nofun⟩

/-- The skeletons without a memory operand. -/
theorem otherSkeletons_fetchRows :
    (∀ f, FetchRows (impliedOp f)) ∧ (∀ f, FetchRows (immediateWith f)) ∧ (∀ w, FetchRows (pushSkeleton w)) ∧
    (∀ f, FetchRows (pullSkeleton f)) ∧ (∀ f, FetchRows (branchSkeleton f)) ∧ FetchRows jumpSkeleton ∧
    FetchRows jumpIndirectSkeleton ∧ FetchRows callSkeleton ∧ FetchRows returnSkeleton ∧
    FetchRows interruptReturnSkeleton ∧ FetchRows breakSkeleton ∧ FetchRows haltSkeleton := by
  refine ⟨?_, ?_, ?_, ?_, branchSkeleton_fetchRows, ?_, ?_, ?_, ?_, ?_, ?_, ?_⟩ <;> intros <;> refine ⟨?_, ?_⟩ <;>
  simp [impliedOp, immediateWith, pushSkeleton, pullSkeleton, jumpSkeleton, jumpIndirectSkeleton, callSkeleton,
    returnSkeleton, interruptReturnSkeleton, exceptionReturn, breakSkeleton, exceptionEntry, vectorFetch, haltSkeleton,
    dummyPc, dummyStack, pushCycle, pullStart, pullCycle, fetchLo, fetchHi, opcodeFetch_fetches, operandFetch_fetches]

theorem microcode_fetchRows (op : Byte) : FetchRows (microcode op) := by
  have h : ∀ cs ∈ microcodeTable, FetchRows cs := by
    simp only [microcodeTable, microRow0, microRow1, microRow2, microRow3, microRow4, microRow5, microRow6, microRow7,
      microRow8, microRow9, microRowA, microRowB, microRowC, microRowD, microRowE, microRowF, immediate, readSkeletons_eq,
      writeSkeletons_eq, rmwSkeletons_eq, shSkeletons_eq, List.forall_mem_append, List.forall_mem_cons, List.not_mem_nil,
      false_implies, implies_true, and_true, readRows_fetchRows, writeRows_fetchRows, rmwRows_fetchRows,
      shRows_fetchRows, otherSkeletons_fetchRows]
  exact h _ (microcode_mem op)

/-- Whether an opcode's skeleton fetches the operand bytes of its mode right after the opcode (R102 to R115); JSR does not
(R116). -/
def fetchesOperands (op : Byte) : Bool :=
  match shapeOf op with
  | .none _ => true
  | .one _ => (microcode op)[1]?.any (·.fetch)
  | .two _ => op == 0x20 || (microcode op)[2]?.any (·.fetch)

theorem fetchesOperands_all (op : Byte) : fetchesOperands op = true := by revert op; decide

/-! ### The bytes of the instruction at PC -/

/-- The run of JSR's rows with its bytes supplied (R116). -/
theorem runSeq_supply_call (s : State) {op lo hi : Byte} (hop : op = s.answer [] s.pc)
    (hlo : lo = s.answer [.read] (s.pc + 1))
    (hhi : hi = jsrHigh s (s.answer [.read, .read, .read, .write, .write] (s.pc + 2))) :
    runSeq (supply [op, lo, hi] callSkeleton) s = runSeq callSkeleton s := by
  refine runSeq_supply_fetch opcodeFetch_fetches hop fun h => ?_
  obtain ⟨r1, b1, a1⟩ := afterRow_read (s := s) (c := opcodeFetch) rfl rfl h
  generalize s.afterRow opcodeFetch = s1 at *
  obtain ⟨pc1, sp1⟩ : s1.pc = s.pc + 1 ∧ s1.sp = s.sp := by rw [r1]; exact ⟨rfl, rfl⟩
  refine runSeq_supply_fetch (operandFetch_fetches _) (by rw [a1, pc1, hlo]) fun h => ?_
  obtain ⟨r2, b2, a2⟩ := afterRow_read (s := s1) (c := fetchLo) rfl rfl h
  generalize s1.afterRow fetchLo = s2 at *
  obtain ⟨pc2, sp2⟩ : s2.pc = s1.pc + 1 ∧ s2.sp = s1.sp := by rw [r2]; exact ⟨rfl, rfl⟩
  refine runSeq_supply_skip rfl fun h => ?_
  obtain ⟨r3, b3, a3⟩ := afterRow_read (s := s2) (c := dummyStack) rfl rfl h
  generalize s2.afterRow dummyStack = s3 at *
  obtain ⟨pc3, sp3⟩ : s3.pc = s2.pc ∧ s3.sp = s2.sp := by rw [r3]; exact ⟨rfl, rfl⟩
  refine runSeq_supply_skip rfl fun _ => runSeq_supply_skip rfl fun _ =>
    runSeq_supply_fetch (operandFetch_fetches _) ?_ fun _ => by rw [supply_nil]
  obtain ⟨pc4, sp4, b4, a4⟩ := afterRow_push s3 hi8
  obtain ⟨pc5, -, -, a5⟩ := afterRow_push (s3.afterRow (pushCycle fun c => hi8 c.pc)) lo8
  have pc2' : s3.pc = s.pc + 2 := by rw [pc3, pc2, pc1]; bv_omega
  have hmap : s3.busMap = s.busMap := by rw [b3, b2, b1]
  rw [a5, pc5, pc4, sp4, a4, a3, a2, a1, pc2', sp3, sp2, sp1, overwrites_congr (b4.trans hmap), overwrites_congr hmap, hhi]
  rfl

theorem fetchedBytes_eq_encode (s : State) {i : Instr} (h : i.opcode ≠ 0x20) : fetchedBytes s i = encode i := by
  unfold fetchedBytes
  split
  · exact absurd rfl h
  · rfl

/-- Every skeleton begins with the opcode fetch (R101). -/
theorem microcode_eq_cons (op : Byte) : microcode op = opcodeFetch :: (microcode op).tail := by
  have h := microcode_head op
  match hm : microcode op with
  | [] => rw [hm] at h; cases h
  | c :: cs => rw [hm] at h; cases h; rfl

/-- The rows of an instruction run alike with the bytes that its fetches will read supplied (R81, R101; log 11). -/
theorem runSeq_supply_fetchInstr (s : State) :
    runSeq (supply (fetchedBytes s s.fetchInstr) (microcode (s.answer [] s.pc))) s =
      runSeq (microcode (s.answer [] s.pc)) s := by
  have hi : s.fetchInstr = decode3 (s.answer [] s.pc) (s.answer [.read] (s.pc + 1))
    (s.answer (beforeHigh (s.answer [] s.pc)) (s.pc + 2)) := rfl
  generalize hop : s.answer [] s.pc = op at hi
  by_cases h20 : op = 0x20
  · subst h20
    have hbytes : fetchedBytes s s.fetchInstr = [0x20, s.answer [.read] (s.pc + 1),
        jsrHigh s (s.answer [.read, .read, .read, .write, .write] (s.pc + 2))] := by rw [hi]; rfl
    rw [hbytes, show microcode 0x20 = callSkeleton from rfl]
    exact runSeq_supply_call s hop.symm rfl rfl
  · have hbytes : fetchedBytes s s.fetchInstr = op :: (shapeOf op).operands (s.answer [.read] (s.pc + 1))
        (s.answer [.read, .read] (s.pc + 2)) := by
      rw [hi, fetchedBytes_eq_encode _ (by rwa [opcode_decode3]), encode_decode3, beforeHigh, if_neg h20]
    have hrows := microcode_fetchRows op
    have hall := fetchesOperands_all op
    rw [fetchesOperands] at hall
    rw [hbytes]
    rw [microcode_eq_cons op] at hrows hall ⊢
    generalize (microcode op).tail = cs at *
    refine runSeq_supply_fetch opcodeFetch_fetches hop.symm fun h => ?_
    obtain ⟨r1, b1, a1⟩ := afterRow_read (s := s) (c := opcodeFetch) rfl rfl h
    generalize s.afterRow opcodeFetch = s1 at *
    have pc1 : s1.pc = s.pc + 1 := by rw [r1]; rfl
    split at hall
    · next hs => rw [hs]; exact congrArg (runSeq · s1) (supply_nil cs)
    · next hs =>
      rw [hs, Shape.operands]
      match cs with
      | [] => rfl
      | c :: cs =>
        exact runSeq_supply_fetch (hrows.fetches c (by simp) hall) (by rw [a1, pc1]) fun _ => by rw [supply_nil]
    · next hs =>
      rw [hs, Shape.operands]
      simp only [h20, beq_iff_eq, Bool.or_eq_true, false_or] at hall
      match cs with
      | [] | [_] => cases hall
      | c :: d :: cs =>
        have hlow := hrows.low d rfl hall
        cases hlow
        refine runSeq_supply_fetch (operandFetch_fetches _) (by rw [a1, pc1]) fun h => ?_
        obtain ⟨r2, b2, a2⟩ := afterRow_read (s := s1) (c := fetchLo) rfl rfl h
        have pc2 : (s1.afterRow fetchLo).pc = s1.pc + 1 := by rw [r2]; rfl
        refine runSeq_supply_fetch (hrows.fetches d (by simp) hall) ?_ fun _ => by rw [supply_nil]
        rw [a2, a1, pc2, pc1, show s.pc + 1 + 1 = s.pc + 2 by bv_omega]

end Sys2Proof.Machine
end

section
/-! PROOF. A step is a run of cycles (60_exceptions.md R324, R329), so it keeps the invariant. -/

namespace Sys2Proof.Machine

theorem startStep_stop (s : State) : s.startStep.stop = false := by
  rcases startStep_cases s with ⟨-, h⟩ | ⟨-, h⟩ | ⟨-, h⟩ <;> rw [h]

/-- A step from a boundary runs the rows of the opcode that the bus answers at PC (R101, R329). -/
theorem step_of_atFetch {s : State} (hf : s.startStep.atFetch = true) :
    step s = .next (runSeq (microcode (s.startStep.answer [] s.startStep.pc)) s.startStep) := by
  obtain ⟨hs, ht⟩ := (atFetch_iff _).1 hf
  have hbegin : s.startStep.begin = s.startStep := by
    rw [State.begin, ← hs, ← ht, ← startStep_stop s]
  have hop : s.startStep.fetchInstr.opcode = s.startStep.answer [] s.startStep.pc := opcode_decode3 ..
  rw [step, if_pos hf, exec_eq_microcode, runInstr, hbegin, hop, runSeq_supply_fetchInstr]

theorem step_of_not_atFetch {s : State} (hf : s.startStep.atFetch = false) : step s = .next s.startStep.resume := by
  rw [step, if_neg (Bool.eq_false_iff.1 hf)]

/-- Settling what the next cycle begins is done once. -/
theorem State.Begun.running {s : State} (h : s.startStep.Begun) (hh : s.startStep.halted = false) :
    s.startStep.Running where
  stop := startStep_stop s
  rst := h.rst
  takeInt := h.takeInt
  halted := hh

theorem State.Running.cycle_eq_startStep {s : State} (h : s.startStep.Running) : s.startStep.cycle = s.cycle := by
  rw [State.cycle, State.cycle, h.startStep]

/-- Running an instruction from its fetch on is a run of cycles (R101). -/
theorem runsTo_instr {s : State} (h : s.Running) (hf : s.atFetch = true) :
    RunsTo s (runSeq (microcode (s.answer [] s.pc)) s) := by
  obtain ⟨hs, ht⟩ := (atFetch_iff _).1 hf
  obtain ⟨hlen, hkeep⟩ := microcode_keepsPlace (s.answer [] s.pc)
  have hne : (microcode (s.answer [] s.pc)).tail ≠ [] := by
    intro h0
    have := congrArg List.length h0
    rw [List.length_tail, List.length_nil] at this
    omega
  have hrow : s.currentRow = some (opcodeFetch, (microcode (s.answer [] s.pc)).tail.isEmpty) := by
    rw [List.isEmpty_eq_false_iff.2 hne, currentRow_of_atFetch hf]
  rw [microcode_eq_cons]
  refine runsTo_row h (Nat.le_of_eq ht.symm) (.inr rfl) hrow fun _ hw hn => ?_
  have hplace : (s.afterRow opcodeFetch).t = 2 ∧ (s.afterRow opcodeFetch).seq = .instr ∧
      (s.afterRow opcodeFetch).ir = s.answer [] s.pc := by
    obtain ⟨hcpu, -⟩ := waitBus_rest s opcodeFetch
    rw [← waitBus_answerNow (c := opcodeFetch) rfl hw.stop]
    exact ⟨congrArg (· + 1) ((congrArg (·.t) hcpu).trans ht), (congrArg (·.seq) hcpu).trans hs,
      congrArg (fun c : Cpu => (s.waitBus opcodeFetch).answerNow c.pc) hcpu⟩
  obtain ⟨ht2, hs2, hir⟩ := hplace
  refine runsTo_runSeq _ hn ?_ ?_ ?_ hne hkeep
  · exact Nat.le_of_lt (Nat.lt_of_lt_of_eq (by decide) ht2.symm)
  · exact show (s.afterRow opcodeFetch).atFetch = false by rw [State.atFetch, ht2, hs2]; rfl
  · exact show (s.afterRow opcodeFetch).rowsLeft (s.afterRow opcodeFetch).skeleton = _ by
      rw [State.rowsLeft, State.skeleton, hs2, ht2, hir]; exact List.drop_one

/-- The rest of what is executing is a run of cycles. -/
theorem runsTo_resume {s : State} (h : s.Running) (hrow : s.OnRow) (hf : s.atFetch = false) : RunsTo s s.resume := by
  have h1 := hrow.one_le
  have hrun {cs : List Cycle} (hskel : s.skeleton = cs) (hlen : s.t ≤ cs.length)
      (hk : ∀ c ∈ s.rowsLeft cs, c.KeepsPlace) : RunsTo s (runSeq (s.rowsLeft cs) s) := by
    refine runsTo_runSeq _ h h1 hf (by rw [hskel]) (fun h0 => ?_) hk
    have := congrArg List.length h0
    rw [State.rowsLeft, List.length_drop, List.length_nil] at this
    omega
  have hle {n : Nat} (hn : s.rows = n) (hfirst : s.t ≠ 1 ∨ 1 ≤ n) : s.t ≤ n := by unfold State.OnRow at hrow; omega
  rw [State.resume]
  match hs : s.seq with
  | .halted => exact absurd (h.halted.symm.trans (by rw [State.halted, hs]; rfl)) Bool.false_ne_true
  | .instr =>
    have hne : s.t ≠ 1 := fun ht => by simp [State.atFetch, hs, ht] at hf
    refine hrun (by rw [State.skeleton, hs]) (hle (by rw [State.rows, hs]) (.inl hne)) fun c hc =>
      (microcode_keepsPlace s.ir).2 c ?_
    rw [State.rowsLeft, show s.t - 1 = s.t - 2 + 1 by omega, ← List.drop_tail] at hc
    exact List.mem_of_mem_drop hc
  | .intSeq k =>
    exact hrun (by rw [State.skeleton, hs]) (hle (by rw [State.rows, hs]) (.inr (by decide))) fun c hc =>
      sequences_keepPlace.1 c (List.mem_of_mem_drop hc)
  | .resetSeq =>
    exact hrun (by rw [State.skeleton, hs]) (hle (by rw [State.rows, hs]) (.inr (by decide))) fun c hc =>
      sequences_keepPlace.2 c (List.mem_of_mem_drop hc)

/-- A step from a state that meets the invariant is a run of cycles to where a step ends. -/
theorem runsTo_step {s : State} (h : s.Inv) : ∃ u, step s = .next u ∧ RunsTo s u := by
  have hb := h.begun
  cases hf : s.startStep.atFetch with
  | true =>
    have hh : s.startStep.halted = false := by
      rw [State.halted, ((atFetch_iff _).1 hf).1]; rfl
    have hr := State.Begun.running hb hh
    exact ⟨_, step_of_atFetch hf, (runsTo_instr hr hf).of_cycle_eq hr.cycle_eq_startStep.symm⟩
  | false =>
    refine ⟨_, step_of_not_atFetch hf, ?_⟩
    cases hh : s.startStep.halted with
    | true =>
      have hresume : s.startStep.resume = s.cycle := by
        have hs : s.startStep.seq = .halted := eq_of_beq hh
        rw [cycle_of_halted hh, State.resume, hs]
      rw [hresume]
      exact .last (.inr (.inl (by rw [cycle_of_halted hh]; exact hh)))
    | false =>
      have hr := State.Begun.running hb hh
      exact (runsTo_resume hr hb.onRow hf).of_cycle_eq hr.cycle_eq_startStep.symm

/-- Settles O58: a step is a run of cycles, one after the other, to the first state at which it ends. -/
theorem stepIsARunOfCycles : Obligations.StepIsARunOfCycles := by
  intro s h
  obtain ⟨u, hstep, hrun⟩ := runsTo_step h
  obtain ⟨n, h1, rfl, hrest, hbefore⟩ := hrun.exists_iterate
  refine ⟨n, h1, hstep, hrest, fun m hm1 hm => ?_⟩
  simpa [State.AtRest] using hbefore m hm1 hm

/-- Settles O60: a step is some number of cycles, and each cycle keeps the invariant. -/
theorem everyStepKeepsTheInvariant : Obligations.EveryStepKeepsTheInvariant := by
  intro s h
  refine ⟨fun t ht => ?_, h.cycle, h.hostReset⟩
  obtain ⟨n, -, hn, -⟩ := stepIsARunOfCycles s h
  obtain rfl : State.cycle^[n] s = t := by rw [hn] at ht; cases ht; rfl
  exact h.iterate_cycle n

end Sys2Proof.Machine
end

section
/-! PROOF. Stepping, the bytes of an instruction at PC, the status byte, the bus map and the stack page: the statements that
follow from what the definitions say once. -/

namespace Sys2Proof.Machine

/-- Settles O6: the meaning of every instruction is a run of its rows, which ends in a state. -/
theorem everyStepAnswersAState : Obligations.EveryStepAnswersAState := by
  have hexec (i : Instr) (s : State) : ∃ t, exec i s = .next t := ⟨_, exec_eq_microcode i s⟩
  refine ⟨fun s => ?_, hexec⟩
  rw [step]
  split
  · exact hexec ..
  · exact ⟨_, rfl⟩

/-! ### The instruction at PC -/

/-- The bus answers what memory holds. -/
theorem answer_of_peek {s : State} {a : Addr} {b : Byte} (h : s.peek a = some b) (ds : List Dir) : s.answer ds a = b := by
  rw [answer_eq, h]; rfl

/-- Where memory holds the bytes of an instruction from PC on, that is the instruction fetched. -/
theorem fetchInstr_of_peek {s : State} {i : Instr}
    (h : ∀ (k : Nat) (b : Byte), (encode i)[k]? = some b → s.peek (s.pc + BitVec.ofNat 16 k) = some b) :
    s.fetchInstr = i := by
  have henc : encode i = i.opcode :: (shapeOf i.opcode).operands ((encode i).getD 1 0) ((encode i).getD 2 0) := by
    conv_lhs => rw [← decode3_encode i]
    rw [encode_decode3]
  have h0 : s.answer [] s.pc = i.opcode := by
    refine answer_of_peek ?_ []
    have := h 0 i.opcode (by rw [henc]; rfl)
    rwa [BitVec.add_zero] at this
  rw [State.fetchInstr, h0]
  conv_rhs => rw [← decode3_encode i]
  have hbyte (k : Nat) (ds : List Dir) (hk : k < (encode i).length) :
      s.answer ds (s.pc + BitVec.ofNat 16 k) = (encode i).getD k 0 :=
    answer_of_peek (h k _ (by rw [List.getD_eq_getElem _ _ hk]; exact List.getElem?_eq_getElem hk)) ds
  have hlen := congrArg List.length henc
  unfold decode3
  cases hs : shapeOf i.opcode with
  | none j => rfl
  | one f =>
    rw [hs] at hlen
    exact congrArg f (hbyte 1 _ (hlen ▸ (by decide : 1 < 2)))
  | two f =>
    rw [hs] at hlen
    exact congrArg₂ f (hbyte 1 _ (hlen ▸ (by decide : 1 < 3))) (hbyte 2 _ (hlen ▸ (by decide : 2 < 3)))

/-- The meaning of an instruction begins with the stop flag down, whatever it was. -/
theorem exec_stop (i : Instr) (s : State) (b : Bool) : exec i { s with stop := b } = exec i s := by
  rw [exec_eq_microcode, exec_eq_microcode]
  have hbytes : fetchedBytes { s with stop := b } i = fetchedBytes s i := by cases i <;> rfl
  rw [hbytes]
  rfl

/-- Settles O5: at a boundary with nothing to take, what is fetched is the instruction memory holds. -/
theorem stepRunsTheDecodedInstruction : Obligations.StepRunsTheDecodedInstruction := by
  intro s i hr hs ht hi _ hpeek
  have hstart : s.startStep = { s with stop := false } := by
    simp [State.startStep, State.startCycle, hr, hi]
  have hfetch : s.startStep.fetchInstr = i := by
    rw [hstart]; exact fetchInstr_of_peek hpeek
  rw [step, if_pos (by rw [hstart, State.atFetch, hs, ht]; rfl), hfetch, hstart, exec_stop]

/-! ### The status byte and the reset state -/

/-- The flags of a pushed status byte are those it was made of, whatever B is (R26, R27). -/
theorem unpackFlags_packFlags (p : Flags) (b : Bool) : unpackFlags (packFlags p b) = p := by
  obtain ⟨n, v, d, i, z, c⟩ := p
  revert n v d i z c b
  decide

/-- Settles O20: by the layouts of R26 and R27, bit by bit. -/
theorem statusByteLayout : Obligations.StatusByteLayout :=
  ⟨packFlags_eq_statusByte, unpackFlags_eq_flagsOf, unpackFlags_packFlags⟩

/-- Settles O50: the fields of the reset state, and a hard reset of it, are evaluated. -/
theorem resetState : Obligations.ResetState :=
  ⟨rfl, rfl, rfl, rfl, rfl, rfl, rfl, rfl, rfl, rfl, rfl, rfl, rfl, rfl, rfl, rfl, rfl, rfl, rfl⟩

/-! ### Stepping by cycles -/

/-- Settles O57, by induction on the count. -/
theorem stepCyclesStopsBetweenCycles : Obligations.StepCyclesStopsBetweenCycles := by
  intro n
  induction n with
  | zero => exact fun s => ⟨0, Nat.le_refl 0, rfl, fun h => by omega, fun k h1 hk => by omega⟩
  | succ n ih =>
    intro s
    by_cases hstop : s.cycle.stop = true
    · refine ⟨1, by omega, if_pos hstop, fun _ => ⟨Nat.le_refl 1, hstop⟩, fun k h1 hk => by omega⟩
    · obtain ⟨m, hle, hrun, hend, hbefore⟩ := ih s.cycle
      refine ⟨m + 1, by omega, (if_neg hstop).trans hrun, fun hm => ⟨by omega, (hend (by omega)).2⟩, fun k h1 hk => ?_⟩
      match k with
      | 1 => exact Bool.eq_false_iff.2 hstop
      | k + 2 => exact hbefore (k + 1) (by omega) (by omega)

/-! ### The bus map of the system -/

/-- The cells of the system's bus map (R51): RAM mirrored every $0800, no memory at the devices, and plain memory above. -/
theorem cellOf_nesMap (a : Addr) :
    cellOf nesMap a = (if a.toNat < 0x2000 then some (a.toNat % 0x800) else if a.toNat < 0x4020 then none else some a.toNat) ∧
    (writableAt nesMap a = true ↔ a.toNat < 0x2000 ∨ 0x4020 ≤ a.toNat) := by
  have := a.isLt
  by_cases h1 : a.toNat < 0x2000
  · have hr : regionOf nesMap a = some { base := 0x0000, size := 0x2000, kind := .memory 0x0800 true } := by
      simp [regionOf, nesMap, Region.holds, h1]
    simp [cellOf, writableAt, hr, Region.cell?, Region.writable, h1]
  · by_cases h2 : a.toNat < 0x4020
    · have hr : regionOf nesMap a = some { base := 0x2000, size := 0x2020, kind := .device } := by
        simp [regionOf, nesMap, Region.holds, h1, h2]; omega
      simp [cellOf, writableAt, hr, Region.cell?, Region.writable, h1, h2]
    · have hr : regionOf nesMap a = some { base := 0x4020, size := 0xBFE0, kind := .memory 0 true } := by
        simp [regionOf, nesMap, Region.holds, h1, h2]; omega
      simp [cellOf, writableAt, hr, Region.cell?, Region.writable, h1, h2]; omega

/-- Settles O54: two addresses select one cell exactly where their ranges and offsets agree. -/
theorem busMapOfTheSystem : Obligations.BusMapOfTheSystem := by
  intro s a b v hmap
  obtain ⟨hca, hwa⟩ := cellOf_nesMap a
  obtain ⟨hcb, -⟩ := cellOf_nesMap b
  rw [State.peek_store, State.overwrites, State.cell?, State.cell?, State.writable, hmap, hca, hcb]
  refine ⟨fun h => ?_, fun h1 h2 => ?_, fun h => ?_⟩
  · have hw : writableAt nesMap a = true := hwa.2 (.inl h)
    rw [hw, if_pos h]
    refine if_congr ?_ rfl rfl
    by_cases hb : b.toNat < 0x2000
    · simp [hb]
    · by_cases hb' : b.toNat < 0x4020
      · simp [hb, hb']
      · simp [hb, hb']; omega
  · have hw : writableAt nesMap a = false := Bool.eq_false_iff.2 fun hw => by have := hwa.1 hw; omega
    rw [State.peek, hmap, peekIn, hca, if_neg (by omega), if_pos h2, hw, Bool.and_false]
    exact ⟨rfl, rfl⟩
  · have hw : writableAt nesMap a = true := hwa.2 (.inr h)
    rw [hw, if_neg (show ¬ a.toNat < 0x2000 by omega), if_neg (show ¬ a.toNat < 0x4020 by omega)]
    refine if_congr ?_ rfl rfl
    rw [← BitVec.toNat_inj]
    by_cases hb : b.toNat < 0x2000
    · simp [hb]; omega
    · by_cases hb' : b.toNat < 0x4020
      · simp [hb, hb']; omega
      · simp [hb, hb']

/-! ### The stack page -/

/-- On both maps of the model the stack page is memory that takes writes, and its bytes are cells of their own (R23, R51). -/
theorem cellOf_stack {map : List Region} (hmap : map = flatMap ∨ map = nesMap) (b : Byte) :
    cellOf map (stackAddr b) = some (256 + b.toNat) ∧ writableAt map (stackAddr b) = true := by
  have hb := b.isLt
  have ha := toNat_stackAddr b
  rcases hmap with rfl | rfl
  · have hr : regionOf flatMap (stackAddr b) = some { base := 0x0000, size := 0x10000, kind := .memory 0 true } := by
      simp [regionOf, flatMap, Region.holds, ha]; omega
    simp [cellOf, writableAt, hr, Region.cell?, Region.writable, ha]
  · obtain ⟨hc, hw⟩ := cellOf_nesMap (stackAddr b)
    rw [ha] at hc hw
    rw [hc, if_pos (by omega), Nat.mod_eq_of_lt (by omega), hw]
    exact ⟨rfl, .inl (by omega)⟩

/-- A byte pushed is what its address of the stack page holds. -/
theorem peekIn_push {map : List Region} (hmap : map = flatMap ∨ map = nesMap) (m : List Host.Cell) (x y v : Byte) :
    peekIn map (storeIn map m (stackAddr x) v) (stackAddr y) =
      if y = x then some v else peekIn map m (stackAddr y) := by
  obtain ⟨hcx, hwx⟩ := cellOf_stack hmap x
  obtain ⟨hcy, -⟩ := cellOf_stack hmap y
  rw [peekIn_storeIn, hcx, hcy, hwx]
  refine if_congr ?_ rfl rfl
  rw [← BitVec.toNat_inj]
  simp

/-- Settles O30: the two bytes that JSR pushes are those that RTS pulls. -/
theorem callAndReturnComeBack : Obligations.CallAndReturnComeBack := by
  intro s lo hi h hmap
  obtain ⟨t, ht, he, hg, -⟩ := call_spec 0x20 lo (jsrHigh s hi) h
  obtain ⟨u, hu, hd, -⟩ := return_spec 0x60 hg
  have hregt : t.toRegs = _ := he.regs
  have hsp : t.sp = s.sp - 2 := congrArg Regs.sp hregt
  have hsp1 : t.sp + 1 = s.sp - 1 := by rw [hsp]; bv_omega
  have hsp2 : t.sp + 2 = s.sp := by rw [hsp]; bv_omega
  have hlo : t.peek (stackAddr (t.sp + 1)) = some (lo8 (s.pc + 2)) := by
    rw [he.peek, hsp1, peekIn_push hmap, if_pos rfl]
  have hhi : t.peek (stackAddr (t.sp + 2)) = some (hi8 (s.pc + 2)) := by
    rw [he.peek, hsp2, peekIn_push hmap, if_neg (by bv_omega), peekIn_push hmap, if_pos rfl]
  have hpc : cat (hi8 (s.pc + 2)) (lo8 (s.pc + 2)) + 1 = s.pc + 3 := by
    rw [cat_hi8_lo8, BitVec.add_assoc]; rfl
  refine ⟨t, u, ht, hu, ?_, hd.sameBytes⟩
  have hregs := hd.regs
  rw [answer_of_peek hlo, answer_of_peek hhi, hpc, hsp2, hregt] at hregs
  exact hregs

/-- RTI after an exception entry gives back what the entry saved (R313, R314). -/
theorem rti_of_entryDone {s t : State} {r : Regs} {b : Bool} (hmap : s.busMap = flatMap ∨ s.busMap = nesMap)
    (he : EntryDone s r b t) (hg : t.quiet) : ∃ u, exec .rti t = .next u ∧ u.toRegs = r := by
  obtain ⟨u, hu, hd, -⟩ := interruptReturn_spec 0x40 hg
  have hregt := he.regs
  have hsp : t.sp = r.sp - 3 := congrArg Regs.sp hregt
  have hsp1 : t.sp + 1 = r.sp - 2 := by rw [hsp]; bv_omega
  have hsp2 : t.sp + 2 = r.sp - 1 := by rw [hsp]; bv_omega
  have hsp3 : t.sp + 3 = r.sp := by rw [hsp]; bv_omega
  have hp : t.peek (stackAddr (t.sp + 1)) = some (packFlags r.p b) := by
    rw [he.peek, entryMem, hsp1, peekIn_push hmap, if_pos rfl]
  have hlo : t.peek (stackAddr (t.sp + 2)) = some (lo8 r.pc) := by
    rw [he.peek, entryMem, hsp2, peekIn_push hmap, if_neg (by bv_omega), peekIn_push hmap, if_pos rfl]
  have hhi : t.peek (stackAddr (t.sp + 3)) = some (hi8 r.pc) := by
    rw [he.peek, entryMem, hsp3, peekIn_push hmap, if_neg (by bv_omega), peekIn_push hmap, if_neg (by bv_omega),
      peekIn_push hmap, if_pos rfl]
  have hregs := hd.regs
  rw [answer_of_peek hp, answer_of_peek hlo, answer_of_peek hhi, unpackFlags_packFlags, cat_hi8_lo8, hsp3, hregt]
    at hregs
  exact ⟨u, hu, hregs⟩

/-- Settles O31: the entry of the interrupt sequence, and that of BRK, save what RTI pulls. -/
theorem returnResumesWhatWasInterrupted : Obligations.ReturnResumesWhatWasInterrupted := by
  intro s h hmap
  refine ⟨fun hr hs ht hi => ?_, ?_⟩
  · obtain ⟨t, hstep, he, -, hg, -⟩ := interrupt_spec h hr hs ht hi
    obtain ⟨u, hu, hregs⟩ := rti_of_entryDone hmap he hg
    exact ⟨t, u, hstep, hu, hregs⟩
  · obtain ⟨t, hbrk, he, -, hg, -⟩ := break_spec 0x00 h
    obtain ⟨u, hu, hregs⟩ := rti_of_entryDone hmap he hg
    exact ⟨t, u, hbrk, hu, hregs⟩

end Sys2Proof.Machine
end

section
/-! PROOF. The debugger does not touch the machine (60_exceptions.md R330): each part of a cycle, run with any breakpoints,
leaves the state it leaves without them, but for what the host sees. -/

namespace Sys2Proof.Machine

/-- The state with the debugger's fields replaced: the breakpoints, the reason recorded and the stop flag. -/
def State.onHost (s : State) (bs : List Breakpoint) (r : Option BreakReason) (b : Bool) : State :=
  { s with breakpoints := bs, breakReason := r, stop := b }

theorem startStep_onHost (s : State) (bs : List Breakpoint) (r : Option BreakReason) (b : Bool) :
    (s.onHost bs r b).startStep = s.startStep.onHost bs r false := by
  simp only [State.startStep, State.startCycle, apply_ite (State.onHost · bs r false)]
  rfl

theorem perform_onHost (s : State) (g : Option Byte) (q : Req) (bs : List Breakpoint) (r : Option BreakReason) (b : Bool) :
    ∃ r' b', (s.onHost bs r b).perform g q = (s.perform g q).onHost bs r' b' := by
  cases q with
  | read a k => exact ⟨_, _, rfl⟩
  | write a v k => exact ⟨_, _, rfl⟩

theorem hook_onHost (s : State) (k : Hook) (bs : List Breakpoint) (r : Option BreakReason) (b : Bool) :
    (s.onHost bs r b).hook k = (s.hook k).onHost bs r b := by
  cases k <;> rfl

theorem byteOf_onHost (s : State) (g : Option Byte) (q : Req) (bs : List Breakpoint) (r : Option BreakReason) (b : Bool) :
    (s.onHost bs r b).byteOf g q = s.byteOf g q := by cases q <;> rfl

theorem accessPhase_onHost (s : State) (c : Cycle) (bs : List Breakpoint) (r : Option BreakReason) (b : Bool) :
    ∃ r' b', (s.onHost bs r b).accessPhase c = (s.accessPhase c).onHost bs r' b' := by
  obtain ⟨r', b', h⟩ := perform_onHost s c.given (s.reqOf c) bs r b
  have hq : (s.onHost bs r b).reqOf c = s.reqOf c := rfl
  refine ⟨r', b', ?_⟩
  rw [State.accessPhase, State.accessPhase, hq, byteOf_onHost, h, ← hook_onHost]
  rfl

theorem finish_onHost (s : State) (e : Ending) (bs : List Breakpoint) (r : Option BreakReason) (b : Bool) :
    ∃ r' b', ((s.onHost bs r b).finish e).tick = (s.finish e).tick.onHost bs r' b' := by
  cases e <;> exact ⟨_, _, rfl⟩

theorem normalCycle_onHost (s : State) (c : Cycle) (last : Bool) (bs : List Breakpoint) (r : Option BreakReason) (b : Bool) :
    ∃ r' b', (s.onHost bs r b).normalCycle c last = (s.normalCycle c last).onHost bs r' b' := by
  obtain ⟨r', b', h⟩ := accessPhase_onHost s c bs r b
  have hcpu : ((s.accessPhase c).onHost bs r' b').toCpu = (s.accessPhase c).toCpu := rfl
  simp only [State.normalCycle, h, hcpu]
  split
  · exact finish_onHost ..
  · exact ⟨_, _, rfl⟩

theorem stallCycle_onHost (s : State) (c : Cycle) (bs : List Breakpoint) (r : Option BreakReason) (b : Bool) :
    ∃ r' b', (s.onHost bs r b).stallCycle c = (s.stallCycle c).onHost bs r' b' := by
  have hin : (s.onHost bs r b).input = s.input := rfl
  have hp : (s.onHost bs r b).params = s.params := rfl
  simp only [State.stallCycle, State.stallBus, hin, hp]
  split
  · exact ⟨_, _, rfl⟩
  · split <;> exact ⟨_, _, rfl⟩

theorem cycle_onHost (s : State) (bs : List Breakpoint) (r : Option BreakReason) (b : Bool) :
    ∃ r' b', (s.onHost bs r b).cycle = s.cycle.onHost bs r' b' := by
  have hh (u : State) : (u.onHost bs r false).halted = u.halted := rfl
  have hrow (u : State) : (u.onHost bs r false).currentRow = u.currentRow := rfl
  have hstall (u : State) (c : Cycle) : (((u.onHost bs r false).reqOf c).isRead && (u.onHost bs r false).input.stallReq) =
    ((u.reqOf c).isRead && u.input.stallReq) := rfl
  simp only [State.cycle, startStep_onHost, hh, hrow, hstall]
  split
  · exact ⟨_, _, rfl⟩
  · split
    · exact ⟨_, _, rfl⟩
    · split
      · exact stallCycle_onHost ..
      · exact normalCycle_onHost ..

/-- Settles O56: a cycle reads none of the debugger's fields but to write them. -/
theorem breakpointsDoNotChangeTheMachine : Obligations.BreakpointsDoNotChangeTheMachine :=
  fun s bs => cycle_onHost s bs s.breakReason s.stop

end Sys2Proof.Machine
end

section
/-! PROOF. The micro-state is dead at a boundary (10_state.md R33): two CPUs with the same registers make the same accesses,
row after row, because every row reads only what a row before it has written. -/

namespace Sys2Proof.Machine

/-- Two CPUs with the same registers, at the same place. -/
structure Cpu.Alike (x y : Cpu) : Prop where
  regs : y.toRegs = x.toRegs
  seq : y.seq = x.seq
  t : y.t = x.t

/-- What a hook does to the registers and the micro-state (R310). -/
def Hook.onCpu (k : Hook) (q : Params) (nmi : Bool) (c : Cpu) : Cpu :=
  match k with
  | .vector j =>
    { c with
      ea := if nmi && q.hijackCycle == j then 0xFFFA else c.ea
      seq := if nmi && q.hijackCycle == j then c.seq.hijack else if !nmi && q.hijackCycle == j then c.seq.plain else c.seq }
  | _ => c

theorem Cpu.Alike.onCpu {x y : Cpu} (h : x.Alike y) (k : Hook) (q : Params) (nmi : Bool) :
    (k.onCpu q nmi x).Alike (k.onCpu q nmi y) := by
  obtain ⟨hregs, hseq, ht⟩ := h
  cases k with
  | none => exact ⟨hregs, hseq, ht⟩
  | branch => exact ⟨hregs, hseq, ht⟩
  | vector j => exact ⟨hregs, by rw [Hook.onCpu, Hook.onCpu, hseq], ht⟩

/-- Two CPUs run rows alike: whatever bytes the bus answers, they make the same accesses and end at the same row, and their
registers are the same after each. -/
def RunAlike (q : Params) : List Cycle → Cpu → Cpu → Prop
  | [], _, _ => True
  | c :: cs, x, y =>
    c.req q y = c.req q x ∧ ∀ b,
      (c.act q b x).Alike (c.act q b y) ∧ (c.hook = .branch → (c.act q b y).takenInPage = (c.act q b x).takenInPage) ∧
      ∀ nmi,
        c.fin (c.hook.onCpu q nmi (c.act q b y)) = c.fin (c.hook.onCpu q nmi (c.act q b x)) ∧
        RunAlike q cs
          { c.hook.onCpu q nmi (c.act q b x) with t := (c.hook.onCpu q nmi (c.act q b x)).t + 1 }
          { c.hook.onCpu q nmi (c.act q b y) with t := (c.hook.onCpu q nmi (c.act q b y)).t + 1 }

/-! ### The run of a state with another micro-state -/

/-- The state with other registers and another micro-state. -/
def State.withCpu (s : State) (c : Cpu) : State := { s with toCpu := c }

theorem Cpu.Alike.forgetMicro {s : State} {c : Cpu} (h : s.toCpu.Alike c) :
    (s.withCpu c).forgetMicro = s.forgetMicro := by
  obtain ⟨hregs, hseq, ht⟩ := h
  simp only [State.forgetMicro, State.withCpu, hregs, hseq, ht]

theorem stallCycle_withCpu {s : State} {c : Cycle} {x : Cpu} (h : c.req s.params x = s.reqOf c) :
    (s.withCpu x).stallCycle c = (s.stallCycle c).withCpu x := by
  have hq : (s.withCpu x).reqOf c = s.reqOf c := h
  have hbus : (s.withCpu x).stallBus (s.reqOf c).addr = (s.stallBus (s.reqOf c).addr).withCpu x := by
    simp only [State.stallBus, apply_ite (State.withCpu · x)]
    rfl
  rw [State.stallCycle, State.stallCycle, hq, hbus]
  rfl

theorem waitBus_withCpu {s : State} {c : Cycle} {x : Cpu} (h : c.req s.params x = s.reqOf c) :
    (s.withCpu x).waitBus c = (s.waitBus c).withCpu x := by
  have hrun (is : List CycleIn) (s : State) (h : c.req s.params x = s.reqOf c) :
      stallRun c is (s.withCpu x) = (stallRun c is s).withCpu x := by
    induction is generalizing s with
    | nil => rfl
    | cons i is ih =>
      have hstop : (s.withCpu x).stop = s.stop := rfl
      obtain ⟨hcpu, -⟩ := stallCycle_rest s c
      obtain ⟨-, -, hp, -⟩ := stallCycle_bus s c
      rw [stallRun, stallRun, hstop, stallCycle_withCpu h, ih (s.stallCycle c) (by rw [State.reqOf, hp, hcpu]; exact h)]
      split <;> rfl
  have hq : (s.withCpu x).reqOf c = s.reqOf c := h
  have hin : (s.withCpu x).inputs = s.inputs := rfl
  rw [State.waitBus, State.waitBus, hq, hin, hrun s.inputs s h]
  split <;> rfl

theorem hook_withCpu {s : State} {x : Cpu} (k : Hook) (h : k = .branch → x.takenInPage = s.takenInPage) :
    (s.withCpu x).hook k = (s.hook k).withCpu (k.onCpu s.params s.nmiDetected x) := by
  cases k with
  | none => rfl
  | branch =>
    have ht : (s.withCpu x).takenInPage = s.takenInPage := h rfl
    simp only [State.hook, State.branchHook, ht]
    rfl
  | vector j => rfl

theorem hook_toCpu (s : State) (k : Hook) : (s.hook k).toCpu = k.onCpu s.params s.nmiDetected s.toCpu := by
  cases k <;> rfl

/-- The access phase of a row, with another micro-state in which the row reads the same. -/
theorem accessPhase_withCpu {s : State} {c : Cycle} {x : Cpu} (h : c.req s.params x = s.reqOf c)
    (ha : ∀ b, (c.act s.params b s.toCpu).Alike (c.act s.params b x))
    (ht : ∀ b, c.hook = .branch → (c.act s.params b x).takenInPage = (c.act s.params b s.toCpu).takenInPage) :
    ∃ nmi b, (s.accessPhase c).toCpu = c.hook.onCpu s.params nmi (c.act s.params b s.toCpu) ∧
    (s.withCpu x).accessPhase c = (s.accessPhase c).withCpu (c.hook.onCpu s.params nmi (c.act s.params b x)) := by
  generalize hb : s.byteOf c.given (s.reqOf c) = b
  generalize hu : { s.perform c.given (s.reqOf c) with toCpu := c.act s.params b s.toCpu }.edge.pollShift = u
  have hcpu : u.toCpu = c.act s.params b s.toCpu := by rw [← hu]; rfl
  have hp : u.params = s.params := by rw [← hu]; cases s.reqOf c <;> rfl
  have hacc : s.accessPhase c = u.hook c.hook := by rw [State.accessPhase, hb, hu]
  have hq : (s.withCpu x).reqOf c = s.reqOf c := h
  have hbyte : (s.withCpu x).byteOf c.given (s.reqOf c) = b := by rw [← hb]; cases s.reqOf c <;> rfl
  have hshift : { (s.withCpu x).perform c.given (s.reqOf c) with toCpu := c.act s.params b x }.edge.pollShift =
      u.withCpu (c.act s.params b x) := by
    have hi : (c.act s.params b x).p.i = (c.act s.params b s.toCpu).p.i := congrArg (·.p.i) (ha b).regs
    rw [← hu]
    simp only [State.pollShift, State.edge, hi, State.withCpu]
    cases s.reqOf c <;> rfl
  have hacc' : (s.withCpu x).accessPhase c = (u.withCpu (c.act s.params b x)).hook c.hook := by
    rw [State.accessPhase, hq, hbyte, ← hshift]; rfl
  refine ⟨u.nmiDetected, b, ?_, ?_⟩
  · rw [hacc, hook_toCpu, hcpu, hp]
  · rw [hacc', hacc, hook_withCpu _ (by rw [hcpu]; exact ht b), hp]

theorem finish_withCpu {s : State} {x : Cpu} (h : s.toCpu.Alike x) (e : Ending) :
    ((s.withCpu x).finish e).tick.forgetMicro = (s.finish e).tick.forgetMicro := by
  obtain ⟨r, m⟩ := x
  obtain rfl : r = s.toRegs := h.regs
  cases e with
  | poll => rfl
  | noPoll => rfl
  | halt => rfl

/-- Runs of rows that are run alike end in states that differ in the micro-state only. -/
theorem runSeq_withCpu (cs : List Cycle) {s : State} {x : Cpu} (ha : s.toCpu.Alike x) (h : RunAlike s.params cs s.toCpu x) :
    (runSeq cs (s.withCpu x)).forgetMicro = (runSeq cs s).forgetMicro := by
  induction cs generalizing s x with
  | nil => simp only [runSeq, State.forgetMicro, State.withCpu, ha.regs]
  | cons c cs ih =>
    obtain ⟨hreq, hact⟩ := h
    obtain ⟨hcpu, hp, -⟩ := waitBus_rest s c
    rw [runSeq_cons, runSeq_cons, waitBus_withCpu hreq]
    rw [← hcpu] at ha hact
    rw [← hp] at hact
    have hreq : c.req (s.waitBus c).params x = (s.waitBus c).reqOf c := by rw [hp, waitBus_reqOf]; exact hreq
    generalize s.waitBus c = w at *
    have hstop : (w.withCpu x).stop = w.stop := rfl
    obtain ⟨nmi, b, hx, hy⟩ := accessPhase_withCpu hreq (fun b => (hact b).1) (fun b => (hact b).2.1)
    obtain ⟨hal, -, hnext⟩ := hact b
    obtain ⟨hfin, hnext⟩ := hnext nmi
    have hal := hal.onCpu c.hook w.params nmi
    obtain ⟨-, -, hpn, -⟩ := accessPhase_bus w c
    rw [← hx] at hal hfin hnext
    rw [hstop, hy]
    generalize w.accessPhase c = n at *
    generalize c.hook.onCpu w.params nmi (c.act w.params b x) = y at *
    have hcpu : (n.withCpu y).toCpu = y := rfl
    have htick : (n.withCpu y).nextT.tick = n.nextT.tick.withCpu { y with t := y.t + 1 } := rfl
    have hstop' : (n.nextT.tick.withCpu { y with t := y.t + 1 }).stop = n.nextT.tick.stop := rfl
    have hal' : n.nextT.tick.toCpu.Alike { y with t := y.t + 1 } := ⟨hal.regs, hal.seq, congrArg (· + 1) hal.t⟩
    rw [hcpu, hfin, htick, hstop']
    split
    · exact ha.forgetMicro
    · split
      · exact finish_withCpu hal _
      · split
        · exact hal'.forgetMicro
        · exact ih hal' (by rw [← hpn] at hnext; exact hnext)

/-! ### Every skeleton runs alike from every micro-state -/

/-- The micro-state of another CPU, at the place of this one. -/
def Micro.at (m m' : Micro) : Micro := { m' with seq := m.seq, t := m.t }

/-- Rows that run alike from every micro-state. -/
def MicroIsDead (cs : List Cycle) : Prop := ∀ q r m m', RunAlike q cs ⟨r, m⟩ ⟨r, m.at m'⟩

/-- The two rows of the read class after an indexed address: the address, its base and whether a page was crossed are known.
-/
theorem readUnfixed_alike (q : Params) (idx : Index) (op : ReadOp) {x y : Cpu} (h : x.Alike y) (hbase : y.base = x.base)
    (hea : y.ea = x.ea) (hcrossed : y.crossed = x.crossed) : RunAlike q [readUnfixed idx op, readCycle op] x y := by
  obtain ⟨r, seq, ir, t, base, ea, ptr, data, crossed, taken⟩ := x
  obtain ⟨r', seq', ir', t', base', ea', ptr', data', crossed', taken'⟩ := y
  obtain ⟨hregs, hseq, ht⟩ := h
  cases hregs; cases hseq; cases ht; cases hbase; cases hea; cases hcrossed
  cases crossed <;> repeat refine ⟨rfl, fun b => ⟨⟨rfl, rfl, rfl⟩, nofun, fun nmi => ⟨rfl, ?_⟩⟩⟩
  all_goals exact True.intro

theorem readRows_microIsDead (mode : Mode) (op : ReadOp) : MicroIsDead (mode.readRows op) := by
  intro q r m m'
  cases mode <;> repeat refine ⟨rfl, fun b => ⟨⟨rfl, rfl, rfl⟩, nofun, fun nmi => ⟨rfl, ?_⟩⟩⟩
  case absX => exact readUnfixed_alike q Regs.x op ⟨rfl, rfl, rfl⟩ rfl rfl rfl
  case absY => exact readUnfixed_alike q Regs.y op ⟨rfl, rfl, rfl⟩ rfl rfl rfl
  case indY => exact readUnfixed_alike q Regs.y op ⟨rfl, rfl, rfl⟩ rfl rfl rfl
  all_goals exact True.intro

theorem writeRows_microIsDead (mode : Mode) (w : Regs → Byte) : MicroIsDead (mode.storeRows [writeCycle w]) := by
  intro q r m m'
  cases mode <;> repeat refine ⟨rfl, fun b => ⟨⟨rfl, rfl, rfl⟩, nofun, fun nmi => ⟨rfl, ?_⟩⟩⟩
  all_goals exact True.intro

theorem rmwRows_microIsDead (mode : Mode) (f : RmwOp) : MicroIsDead (mode.storeRows (rmwTail f)) := by
  intro q r m m'
  cases mode <;> repeat refine ⟨rfl, fun b => ⟨⟨rfl, rfl, rfl⟩, nofun, fun nmi => ⟨rfl, ?_⟩⟩⟩
  all_goals exact True.intro

theorem shSkeletons_microIsDead :
    (∀ reg, MicroIsDead ((Mode.absX 0 0).storeRows [shCycle Regs.x reg id])) ∧
    (∀ reg act, MicroIsDead ((Mode.absY 0 0).storeRows [shCycle Regs.y reg act])) ∧
    ∀ reg, MicroIsDead ((Mode.indY 0).storeRows [shCycle Regs.y reg id]) := by
  refine ⟨fun reg q r m m' => ?_, fun reg act q r m m' => ?_, fun reg q r m m' => ?_⟩ <;>
    repeat refine ⟨rfl, fun b => ⟨⟨rfl, rfl, rfl⟩, nofun, fun nmi => ⟨rfl, ?_⟩⟩⟩
  all_goals exact True.intro

theorem branchSkeleton_microIsDead (cond : Flags → Bool) : MicroIsDead (branchSkeleton cond) := fun _ _ _ _ =>
  ⟨rfl, fun _ => ⟨⟨rfl, rfl, rfl⟩, nofun, fun _ => ⟨rfl,
    rfl, fun _ => ⟨⟨rfl, rfl, rfl⟩, fun _ => rfl, fun _ => ⟨rfl,
    rfl, fun _ => ⟨⟨rfl, rfl, rfl⟩, nofun, fun _ => ⟨rfl,
    rfl, fun _ => ⟨⟨rfl, rfl, rfl⟩, nofun, fun _ => ⟨rfl, True.intro⟩⟩⟩⟩⟩⟩⟩⟩⟩

/-- The skeletons without a memory operand. -/
theorem otherSkeletons_microIsDead :
    (∀ f, MicroIsDead (impliedOp f)) ∧ (∀ f, MicroIsDead (immediateWith f)) ∧ (∀ w, MicroIsDead (pushSkeleton w)) ∧
    (∀ f, MicroIsDead (pullSkeleton f)) ∧ (∀ f, MicroIsDead (branchSkeleton f)) ∧ MicroIsDead jumpSkeleton ∧
    MicroIsDead jumpIndirectSkeleton ∧ MicroIsDead callSkeleton ∧ MicroIsDead returnSkeleton ∧
    MicroIsDead interruptReturnSkeleton ∧ MicroIsDead breakSkeleton ∧ MicroIsDead haltSkeleton := by
  refine ⟨?_, ?_, ?_, ?_, branchSkeleton_microIsDead, ?_, ?_, ?_, ?_, ?_, ?_, ?_⟩ <;> intros <;> intro q r m m' <;>
    repeat refine ⟨rfl, fun b => ⟨⟨rfl, rfl, rfl⟩, nofun, fun nmi => ⟨rfl, ?_⟩⟩⟩
  all_goals exact True.intro

theorem sequences_microIsDead : MicroIsDead interruptSequence ∧ MicroIsDead resetSequence := by
  refine ⟨fun q r m m' => ?_, fun q r m m' => ?_⟩ <;>
    repeat refine ⟨rfl, fun b => ⟨⟨rfl, rfl, rfl⟩, nofun, fun nmi => ⟨rfl, ?_⟩⟩⟩
  all_goals exact True.intro

/-- No instruction reads micro-state that it has not written (R33). -/
theorem microcode_microIsDead (op : Byte) : MicroIsDead (microcode op) := by
  have h : ∀ cs ∈ microcodeTable, MicroIsDead cs := by
    simp only [microcodeTable, microRow0, microRow1, microRow2, microRow3, microRow4, microRow5, microRow6, microRow7,
      microRow8, microRow9, microRowA, microRowB, microRowC, microRowD, microRowE, microRowF, immediate, readSkeletons_eq,
      writeSkeletons_eq, rmwSkeletons_eq, shSkeletons_eq, List.forall_mem_append, List.forall_mem_cons, List.not_mem_nil,
      false_implies, implies_true, and_true, readRows_microIsDead, writeRows_microIsDead, rmwRows_microIsDead,
      shSkeletons_microIsDead, otherSkeletons_microIsDead]
  exact h _ (microcode_mem op)

/-- The run of a whole skeleton from a state with another micro-state, at the same place. -/
theorem MicroIsDead.runSeq {cs : List Cycle} (h : MicroIsDead cs) {s : State} {x : Cpu} (ha : s.toCpu.Alike x) :
    (runSeq cs (s.withCpu x)).forgetMicro = (runSeq cs s).forgetMicro := by
  obtain ⟨r, m⟩ := x
  obtain rfl : r = s.toRegs := ha.regs
  have hm : m = s.toMicro.at m := by rw [Micro.at, ← ha.seq, ← ha.t]
  refine runSeq_withCpu cs ha ?_
  rw [hm]
  exact h s.params s.toRegs s.toMicro m

/-! ### Steps and snapshots -/

/-- States that differ in the dead micro-state only. -/
theorem eq_withCpu_of_forgetMicro {s u : State} (h : u.forgetMicro = s.forgetMicro) :
    u = s.withCpu u.toCpu ∧ s.toCpu.Alike u.toCpu := by
  have hu : u = u.forgetMicro.withCpu u.toCpu := rfl
  rw [h] at hu
  exact ⟨hu, ⟨congrArg (·.toRegs) h, congrArg (·.seq) h, congrArg (·.t) h⟩⟩

/-- What the next cycle begins is told by the place of the CPU. -/
theorem startStep_withCpu {s : State} {x : Cpu} (ha : s.toCpu.Alike x) :
    ∃ y, (s.withCpu x).startStep = s.startStep.withCpu y ∧ s.startStep.toCpu.Alike y := by
  obtain ⟨r, seq, ir, t, base, ea, ptr, data, crossed, taken⟩ := x
  obtain ⟨hregs, hseq, ht⟩ := ha
  cases hregs; cases hseq; cases ht
  refine ⟨⟨s.toRegs, s.startStep.seq, ir, s.startStep.t, base, ea, ptr, data, crossed, taken⟩, ?_, ?_⟩
  · rcases startStep_cases s with ⟨hr, h⟩ | ⟨⟨hr, hs, h1, hi⟩, h⟩ | ⟨⟨hr, hn⟩, h⟩ <;> rw [h]
    · simp [State.startStep, State.startCycle, State.withCpu, Option.isSome_iff_ne_none.2 hr]
    · simp [State.startStep, State.startCycle, State.withCpu, hr, hs, h1, hi]
    · simp [State.startStep, State.startCycle, State.withCpu, hr, hn, and_assoc]
  · obtain ⟨-, -, -, -, -, -, -, hregs⟩ := startStep_outside s
    exact ⟨hregs.symm, rfl, rfl⟩

/-- Two states between instructions that differ in the dead micro-state only step alike. -/
theorem step_withCpu {s : State} {x : Cpu} (hs : s.betweenInstructions) (ha : s.toCpu.Alike x) :
    ∃ t w, step s = .next t ∧ step (s.withCpu x) = .next w ∧ w.forgetMicro = t.forgetMicro := by
  obtain ⟨y, hy, ha⟩ := startStep_withCpu ha
  have hseq : (s.startStep.withCpu y).seq = s.startStep.seq := ha.seq
  have ht : (s.startStep.withCpu y).t = s.startStep.t := ha.t
  have hf : (s.withCpu x).startStep.atFetch = s.startStep.atFetch := by
    rw [hy, State.atFetch, State.atFetch, hseq, ht]
  have h1 : s.startStep.t = 1 := by
    obtain ⟨-, h1, -⟩ := hs
    rcases startStep_cases s with ⟨-, h⟩ | ⟨-, h⟩ | ⟨-, h⟩ <;> rw [h]
    · exact h1
    · exact h1
  cases hff : s.startStep.atFetch with
  | true =>
    have hpc : (s.startStep.withCpu y).answer [] (s.startStep.withCpu y).pc =
        s.startStep.answer [] s.startStep.pc := congrArg (fun r : Regs => s.startStep.answer [] r.pc) ha.regs
    refine ⟨_, _, step_of_atFetch hff, step_of_atFetch (hf.trans hff), ?_⟩
    rw [hy, hpc]
    exact (microcode_microIsDead _).runSeq ha
  | false =>
    refine ⟨_, _, step_of_not_atFetch hff, step_of_not_atFetch (hf.trans hff), ?_⟩
    have hrows (cs : List Cycle) : s.startStep.rowsLeft cs = cs ∧ (s.startStep.withCpu y).rowsLeft cs = cs := by
      rw [State.rowsLeft, State.rowsLeft, ht, h1]; exact ⟨rfl, rfl⟩
    rw [hy, State.resume, State.resume, hseq]
    cases hq : s.startStep.seq with
    | instr => simp [State.atFetch, hq, h1] at hff
    | intSeq k =>
      rw [(hrows interruptSequence).1, (hrows interruptSequence).2]
      exact sequences_microIsDead.1.runSeq ha
    | resetSeq =>
      rw [(hrows resetSequence).1, (hrows resetSequence).2]
      exact sequences_microIsDead.2.runSeq ha
    | halted => exact Cpu.Alike.forgetMicro (s := s.startStep.haltedCycle) ha

theorem mayStore_iff (s : State) : s.mayStore = true ↔ s.betweenInstructions := by
  simp only [State.mayStore, State.betweenInstructions, Bool.and_eq_true, Bool.or_eq_true, beq_iff_eq, Bool.not_eq_true']
  tauto

/-- A snapshot holds all of the CPU but the dead micro-state (R39). -/
theorem restore_saved {s u : State} (hs : s.betweenInstructions) (h : s.SameSurroundings u) :
    (u.restore s.saved).forgetMicro = s.forgetMicro := by
  obtain ⟨hstall, ht, hseq⟩ := hs
  obtain ⟨hmem, hmap, hp, hi, hd, hlog, hb, hr, hstop⟩ := h
  have hhalt : (if s.halted then Seq.halted else .instr) = s.seq := by
    rw [State.halted]
    rcases hseq with hq | hq <;> rw [hq] <;> rfl
  have hrestore : u.restore s.saved = { s with
      ir := u.ir, base := u.base, ea := u.ea, ptr := u.ptr, data := u.data, crossed := u.crossed, taken := u.taken } := by
    rw [State.restore, State.saved, hmem, hmap, hp, hi, hd, hlog, hb, hr, hstop, hhalt, ← hstall, ← ht]
  rw [hrestore]; rfl

/-- Settles O55: a step from between instructions begins with a row that reads none of the micro-state, and a snapshot holds
the rest of the CPU. -/
theorem microStateIsDeadAtABoundary : Obligations.MicroStateIsDeadAtABoundary := by
  intro s u
  refine ⟨fun hs hu => ?_, fun hs => ?_, fun hs => ?_, fun hb => ?_⟩
  · obtain ⟨hu, ha⟩ := eq_withCpu_of_forgetMicro hu
    rw [hu]
    exact step_withCpu hs ha
  · exact ⟨s.saved, if_pos ((mayStore_iff s).2 hs), restore_saved hs⟩
  · exact if_neg fun h => hs ((mayStore_iff s).1 h)
  · simp only [State.atBoundary, Bool.and_eq_true, beq_iff_eq, Bool.not_eq_true'] at hb
    obtain ⟨⟨⟨-, hq⟩, ht⟩, hstall⟩ := hb
    exact ⟨hstall, ht, .inl hq⟩

end Sys2Proof.Machine
end

section
/-! PROOF. What an instruction may write (10_state.md R20 to R23, R28): each mnemonic has a footprint of registers and
flags, every row of its skeleton stays within it, and so does every run of the rows, stopped by the host or not. -/

namespace Sys2Proof.Machine

/-- The registers and the stored flags, but for PC. -/
inductive Part where
  | a | x | y | sp | n | v | d | i | z | c
deriving DecidableEq

/-- The registers with some of them, and PC, put at zero. -/
def Regs.forget (ps : List Part) (r : Regs) : Regs where
  a := if .a ∈ ps then 0 else r.a
  x := if .x ∈ ps then 0 else r.x
  y := if .y ∈ ps then 0 else r.y
  sp := if .sp ∈ ps then 0 else r.sp
  pc := 0
  p :=
    { n := !decide (.n ∈ ps) && r.p.n
      v := !decide (.v ∈ ps) && r.p.v
      d := !decide (.d ∈ ps) && r.p.d
      i := !decide (.i ∈ ps) && r.p.i
      z := !decide (.z ∈ ps) && r.p.z
      c := !decide (.c ∈ ps) && r.p.c }

/-- What the instructions of a mnemonic may write. -/
def footprint : Mnemonic → List Part
  | .lda | .txa | .tya | .and | .ora | .eor | .xaa => [.a, .n, .z]
  | .adc | .sbc | .rra | .isc | .arr => [.a, .n, .v, .z, .c]
  | .slo | .rla | .sre | .anc | .alr => [.a, .n, .z, .c]
  | .lax => [.a, .x, .n, .z]
  | .las => [.a, .x, .sp, .n, .z]
  | .ldx | .tax | .tsx | .inx | .dex => [.x, .n, .z]
  | .axs => [.x, .n, .z, .c]
  | .ldy | .tay | .iny | .dey => [.y, .n, .z]
  | .txs | .tas | .pha | .php | .jsr | .rts => [.sp]
  | .pla => [.a, .sp, .n, .z]
  | .plp | .rti => [.sp, .n, .v, .d, .i, .z, .c]
  | .brk => [.sp, .i]
  | .bit => [.n, .v, .z]
  | .cmp | .cpx | .cpy | .dcp | .asl | .lsr | .rol | .ror => [.n, .z, .c]
  | .inc | .dec => [.n, .z]
  | .clv => [.v]
  | .sed | .cld => [.d]
  | .sei | .cli => [.i]
  | .clc | .sec => [.c]
  | .sta | .stx | .sty | .sax | .ahx | .shx | .shy | .jmp | .bpl | .bmi | .bvc | .bvs | .bcc | .bcs | .bne | .beq | .nop
  | .kil => []

/-- What an opcode may write: A too, where it is an accumulator form. -/
def opFootprint (op : Byte) : List Part :=
  if op ∈ ([0x0A, 0x4A, 0x2A, 0x6A] : List Byte) then .a :: footprint (mnemonicAt op) else footprint (mnemonicAt op)

/-- Rows that write no register or flag outside a footprint. -/
def Within (ps : List Part) (cs : List Cycle) : Prop :=
  ∀ c ∈ cs, ∀ q b cpu, (c.act q b cpu).toRegs.forget ps = cpu.toRegs.forget ps

/-- Rows that write nothing to memory. -/
def NoWrites (cs : List Cycle) : Prop := ∀ c ∈ cs, ∀ q cpu, (c.req q cpu).isRead = true

/-! ### Runs -/

/-- What every cycle of a run keeps, the run keeps. -/
theorem runSeq_preserves {P : State → Prop} (cs : List Cycle) (hstall : ∀ c ∈ cs, ∀ u, P u → P (u.stallCycle c))
    (hnormal : ∀ c ∈ cs, ∀ last u, P u → P (u.normalCycle c last)) (hend : ∀ u, P u → P { u with seq := .instr, t := 1 })
    {s : State} (h : P s) : P (runSeq cs s) := by
  induction cs generalizing s with
  | nil => exact hend s h
  | cons c cs ih =>
    obtain ⟨hs, hstall⟩ := List.forall_mem_cons.1 hstall
    obtain ⟨hn, hnormal⟩ := List.forall_mem_cons.1 hnormal
    have hrun (is : List CycleIn) (u : State) (hu : P u) : P (stallRun c is u) := by
      induction is generalizing u with
      | nil => exact hu
      | cons i is ih =>
        rw [stallRun]
        split
        · exact hu
        · exact ih _ (hs u hu)
    have hw : P (s.waitBus c) := by
      rw [State.waitBus]
      split
      · exact hrun _ s h
      · exact h
    have hn := hn cs.isEmpty _ hw
    rw [State.normalCycle] at hn
    rw [runSeq_cons]
    split
    · exact hw
    · split
      · next hend => rwa [if_pos hend] at hn
      · next hend =>
        rw [if_neg hend] at hn
        split
        · exact hn
        · exact ih hstall hnormal hn

theorem runSeq_regs {ps : List Part} {cs : List Cycle} (h : Within ps cs) (s : State) :
    (runSeq cs s).toRegs.forget ps = s.toRegs.forget ps := by
  refine runSeq_preserves (P := fun u => u.toRegs.forget ps = s.toRegs.forget ps) cs (fun c _ u hu => ?_)
    (fun c hc last u hu => ?_) (fun u hu => hu) rfl
  · rwa [(stallCycle_rest u c).1]
  · obtain ⟨hregs, -⟩ := normalCycle_latches u c last
    obtain ⟨haregs, -⟩ := accessPhase_latches u c
    rw [hregs, haregs]
    exact (h c hc ..).trans hu

theorem runSeq_mem {cs : List Cycle} (h : NoWrites cs) (s : State) : (runSeq cs s).mem = s.mem := by
  refine runSeq_preserves (P := fun u => u.mem = s.mem) cs (fun c _ u hu => ?_) (fun c hc last u hu => ?_)
    (fun u hu => hu) rfl
  · obtain ⟨hm, -⟩ := stallCycle_bus u c
    exact hm.trans hu
  · obtain ⟨hm, -⟩ := normalCycle_bus u c last
    have hread : (u.reqOf c).dir = .read := by
      have := h c hc u.params u.toCpu
      cases hr : u.reqOf c with
      | read a k => rfl
      | write a v k => rw [← State.reqOf, hr] at this; cases this
    exact hm.trans (((perform_mem _ _ _).1 hread).trans hu)

/-- A run leaves what is outside the CPU and memory, and a reset request. -/
theorem runSeq_outside (cs : List Cycle) (s : State) :
    (runSeq cs s).busMap = s.busMap ∧ (runSeq cs s).params = s.params ∧ (runSeq cs s).rstPending = s.rstPending ∧
    (runSeq cs s).breakpoints = s.breakpoints := by
  refine runSeq_preserves (P := fun u => u.busMap = s.busMap ∧ u.params = s.params ∧ u.rstPending = s.rstPending ∧
    u.breakpoints = s.breakpoints) cs (fun c _ u hu => ?_) (fun c _ last u hu => ?_) (fun u hu => hu) ⟨rfl, rfl, rfl, rfl⟩
  · obtain ⟨hb, hp, hr, hbr⟩ := hu
    obtain ⟨-, hb', hp', -, -, hbr', -⟩ := stallCycle_bus u c
    obtain ⟨-, hr'⟩ := stallCycle_latches u c
    exact ⟨hb'.trans hb, hp'.trans hp, hr'.trans hr, hbr'.trans hbr⟩
  · obtain ⟨hb, hp, hr, hbr⟩ := hu
    obtain ⟨-, hb', hp', -, -, -, -, hr', hbr'⟩ := normalCycle_bus u c last
    exact ⟨hb'.trans hb, hp'.trans hp, hr'.trans hr, hbr'.trans hbr⟩

/-- A row with its byte supplied asks for and does the same. -/
theorem mem_supply {bs : List Byte} {cs : List Cycle} {c : Cycle} (h : c ∈ supply bs cs) :
    ∃ d ∈ cs, c.req = d.req ∧ c.act = d.act := by
  induction cs generalizing bs with
  | nil => cases bs <;> cases h
  | cons d cs ih =>
    cases bs with
    | nil => exact ⟨c, h, rfl, rfl⟩
    | cons b bs =>
      rw [supply] at h
      split at h
      · rcases List.mem_cons.1 h with rfl | h
        · exact ⟨d, List.mem_cons_self, rfl, rfl⟩
        · obtain ⟨e, he, hea⟩ := ih h
          exact ⟨e, List.mem_cons_of_mem _ he, hea⟩
      · rcases List.mem_cons.1 h with rfl | h
        · exact ⟨c, List.mem_cons_self, rfl, rfl⟩
        · obtain ⟨e, he, hea⟩ := ih h
          exact ⟨e, List.mem_cons_of_mem _ he, hea⟩

theorem Within.supply {ps : List Part} {cs : List Cycle} (h : Within ps cs) (bs : List Byte) : Within ps (supply bs cs) := by
  intro c hc
  obtain ⟨d, hd, -, ha⟩ := mem_supply hc
  rw [ha]
  exact h d hd

theorem NoWrites.supply {cs : List Cycle} (h : NoWrites cs) (bs : List Byte) : NoWrites (supply bs cs) := by
  intro c hc
  obtain ⟨d, hd, hq, -⟩ := mem_supply hc
  rw [hq]
  exact h d hd

/-! ### The skeletons -/

theorem addressRows_within (ps : List Part) (mode : Mode) : Within ps mode.addressRows := by
  cases mode <;>
  simp only [Within, Mode.addressRows, zpAddress, zpIndexedAddress, absAddress, absIndexedAddress, indXAddress, indYAddress,
    List.forall_mem_cons, List.not_mem_nil, false_implies, implies_true, and_true] <;>
  and_intros <;> exact fun _ _ _ => rfl

theorem Within.append {ps : List Part} {cs ds : List Cycle} (hc : Within ps cs) (hd : Within ps ds) : Within ps (cs ++ ds) :=
  List.forall_mem_append.2 ⟨hc, hd⟩

theorem readRows_within {ps : List Part} (mode : Mode) {op : ReadOp} (h : ∀ m r, (op m r).forget ps = r.forget ps) :
    Within ps (mode.readRows op) := by
  have hread : ∀ q b cpu, ((readCycle op).act q b cpu).toRegs.forget ps = cpu.toRegs.forget ps :=
    fun _ b cpu => h b cpu.toRegs
  refine (addressRows_within ps mode).append ?_
  split
  · refine List.forall_mem_cons.2 ⟨fun q b cpu => ?_, List.forall_mem_singleton.2 hread⟩
    simp only [readUnfixed]
    split
    · rfl
    · exact h b cpu.toRegs
  · exact List.forall_mem_singleton.2 hread

theorem storeRows_within {ps : List Part} (mode : Mode) {ds : List Cycle} (h : Within ps ds) :
    Within ps (mode.storeRows ds) := by
  refine (addressRows_within ps mode).append ?_
  split
  · exact List.forall_mem_cons.2 ⟨fun _ _ _ => rfl, h⟩
  · exact h

theorem writeRows_within (ps : List Part) (mode : Mode) (w : Regs → Byte) : Within ps (mode.storeRows [writeCycle w]) :=
  storeRows_within mode (List.forall_mem_singleton.2 fun _ _ _ => rfl)

theorem rmwRows_within {ps : List Part} (mode : Mode) {f : RmwOp} (h : ∀ m r, (f m r).2.forget ps = r.forget ps) :
    Within ps (mode.storeRows (rmwTail f)) := by
  refine storeRows_within mode ?_
  simp only [Within, rmwTail, List.forall_mem_cons, List.not_mem_nil, false_implies, implies_true, and_true, true_and]
  exact fun _ _ cpu => h cpu.data cpu.toRegs

theorem shRows_within {ps : List Part} (mode : Mode) (idx : Index) (reg : Regs → Byte) {act : Regs → Regs}
    (h : ∀ r, (act r).forget ps = r.forget ps) : Within ps (mode.storeRows [shCycle idx reg act]) :=
  storeRows_within mode (List.forall_mem_singleton.2 fun _ _ cpu => h cpu.toRegs)

theorem impliedOp_within {ps : List Part} {f : Regs → Regs} (h : ∀ r, (f r).forget ps = r.forget ps) :
    Within ps (impliedOp f) :=
  List.forall_mem_cons.2 ⟨fun _ _ _ => rfl, List.forall_mem_singleton.2 fun _ _ cpu => h cpu.toRegs⟩

theorem immediateWith_within {ps : List Part} {op : Params → ReadOp} (h : ∀ q m r, (op q m r).forget ps = r.forget ps) :
    Within ps (immediateWith op) :=
  List.forall_mem_cons.2 ⟨fun _ _ _ => rfl,
    List.forall_mem_singleton.2 fun q b cpu => h q b { cpu.toRegs with pc := cpu.pc + 1 }⟩

theorem pullSkeleton_within {ps : List Part} {op : ReadOp} (hs : decide (.sp ∈ ps) = true)
    (h : ∀ m r, (op m r).forget ps = r.forget ps) : Within ps (pullSkeleton op) := by
  simp only [Within, pullSkeleton, List.forall_mem_cons, List.not_mem_nil, false_implies, implies_true, and_true]
  refine ⟨fun _ _ _ => rfl, fun _ _ _ => rfl, fun _ _ cpu => ?_, fun _ b cpu => h b cpu.toRegs⟩
  simp [pullStart, Regs.forget, of_decide_eq_true hs]

theorem pushSkeleton_within {ps : List Part} (hps : ps = [.sp]) (w : Regs → Byte) : Within ps (pushSkeleton w) := by
  subst hps
  simp only [Within, pushSkeleton, List.forall_mem_cons, List.not_mem_nil, false_implies, implies_true, and_true]
  and_intros <;> intros <;> rfl

theorem branchSkeleton_within (ps : List Part) (cond : Flags → Bool) : Within ps (branchSkeleton cond) := by
  simp only [Within, branchSkeleton, List.forall_mem_cons, List.not_mem_nil, false_implies, implies_true, and_true]
  and_intros <;> intros <;> rfl

/-- The jumps and KIL write PC only. -/
theorem jumpSkeletons_within (ps : List Part) :
    Within ps jumpSkeleton ∧ Within ps jumpIndirectSkeleton ∧ Within ps haltSkeleton := by
  simp only [Within, jumpSkeleton, jumpIndirectSkeleton, haltSkeleton, List.forall_mem_cons, List.not_mem_nil, false_implies,
    implies_true, and_true, true_and]
  and_intros <;> intros <;> rfl

/-- JSR and RTS write S too. -/
theorem callSkeletons_within {ps : List Part} (hps : ps = [.sp]) : Within ps callSkeleton ∧ Within ps returnSkeleton := by
  subst hps
  simp only [Within, callSkeleton, returnSkeleton, List.forall_mem_cons, List.not_mem_nil, false_implies, implies_true,
    and_true]
  and_intros <;> intros <;> rfl

theorem breakSkeleton_within {ps : List Part} (hps : ps = [.sp, .i]) : Within ps breakSkeleton := by
  subst hps
  simp only [Within, breakSkeleton, exceptionEntry, vectorFetch, List.cons_append, List.nil_append, List.forall_mem_cons,
    List.not_mem_nil, false_implies, implies_true, and_true, true_and]
  and_intros <;> intros <;> rfl

theorem interruptReturnSkeleton_within {ps : List Part} (hps : ps = [.sp, .n, .v, .d, .i, .z, .c]) :
    Within ps interruptReturnSkeleton := by
  subst hps
  simp only [Within, interruptReturnSkeleton, exceptionReturn, List.forall_mem_cons, List.not_mem_nil, false_implies,
    implies_true, and_true]
  and_intros <;> intros <;> rfl

/-- Every instruction writes within the footprint of its opcode. -/
theorem microcode_within (op : Byte) : Within (opFootprint op) (microcode op) := by
  have hjump (ps : List Part) := (jumpSkeletons_within ps).1
  have hjumpIndirect (ps : List Part) := (jumpSkeletons_within ps).2.1
  have hhalt (ps : List Part) := (jumpSkeletons_within ps).2.2
  have hcall {ps : List Part} (hps : ps = [.sp]) := (callSkeletons_within hps).1
  have hreturn {ps : List Part} (hps : ps = [.sp]) := (callSkeletons_within hps).2
  have h : ∀ p ∈ microcodeTable.zipIdx, Within (opFootprint (BitVec.ofNat 8 p.2)) p.1 := by
    simp only [microcodeTable, microRow0, microRow1, microRow2, microRow3, microRow4, microRow5, microRow6, microRow7,
      microRow8, microRow9, microRowA, microRowB, microRowC, microRowD, microRowE, microRowF, List.zipIdx_append,
      List.zipIdx_cons, List.zipIdx_nil, List.length_append, List.length_cons, List.length_nil, List.forall_mem_append,
      List.forall_mem_cons, List.not_mem_nil, false_implies, implies_true, and_true, Nat.reduceAdd, immediate,
      readSkeletons_eq, writeSkeletons_eq, rmwSkeletons_eq, shSkeletons_eq]
    and_intros <;>
    apply_rules [readRows_within, writeRows_within, rmwRows_within, shRows_within, impliedOp_within, immediateWith_within,
      pushSkeleton_within, pullSkeleton_within, branchSkeleton_within, hjump, hjumpIndirect, hhalt, hcall, hreturn,
      breakSkeleton_within, interruptReturnSkeleton_within] <;> intros <;> rfl
  have := h _ (microcode_mem_zipIdx op)
  rwa [BitVec.ofNat_toNat, BitVec.setWidth_eq] at this

/-- The mnemonics that write to memory: the stores, the read-modify-write instructions, the pushes, JSR and BRK. -/
def memoryWriters : List Mnemonic :=
  [.sta, .stx, .sty, .sax, .ahx, .shx, .shy, .tas, .inc, .dec, .asl, .lsr, .rol, .ror, .slo, .rla, .sre, .rra, .dcp, .isc,
   .pha, .php, .jsr, .brk]

theorem readRows_noWrites (mode : Mode) (op : ReadOp) : NoWrites (mode.readRows op) := by
  cases mode <;>
  simp [NoWrites, Mode.readRows, Mode.hasUnfixed, Mode.addressRows, zpAddress, zpIndexedAddress, absAddress,
    absIndexedAddress, indXAddress, indYAddress, opcodeFetch, operandFetch, fetchZp, fetchLo, fetchHi, fetchHiIndexed,
    zpIndexCycle, ptrIndexCycle, ptrLo, ptrHi, ptrHiIndexed, readUnfixed, readCycle, Req.isRead]

/-- The other skeletons without a write. -/
theorem otherSkeletons_noWrites :
    (∀ f, NoWrites (impliedOp f)) ∧ (∀ f, NoWrites (immediateWith f)) ∧ (∀ f, NoWrites (pullSkeleton f)) ∧
    (∀ f, NoWrites (branchSkeleton f)) ∧ NoWrites jumpSkeleton ∧ NoWrites jumpIndirectSkeleton ∧ NoWrites returnSkeleton ∧
    NoWrites interruptReturnSkeleton ∧ NoWrites haltSkeleton := by
  simp [NoWrites, impliedOp, immediateWith, pullSkeleton, branchSkeleton, jumpSkeleton, jumpIndirectSkeleton, returnSkeleton,
    interruptReturnSkeleton, exceptionReturn, haltSkeleton, opcodeFetch, operandFetch, fetchLo, fetchHi, dummyPc, pullStart,
    pullCycle, Req.isRead]

/-- Only the instructions listed have a row that writes. -/
theorem microcode_noWrites {op : Byte} (h : mnemonicAt op ∉ memoryWriters) : NoWrites (microcode op) := by
  have htable : ∀ p ∈ microcodeTable.zipIdx, mnemonicAt (BitVec.ofNat 8 p.2) ∈ memoryWriters ∨ NoWrites p.1 := by
    simp only [microcodeTable, microRow0, microRow1, microRow2, microRow3, microRow4, microRow5, microRow6, microRow7,
      microRow8, microRow9, microRowA, microRowB, microRowC, microRowD, microRowE, microRowF, List.zipIdx_append,
      List.zipIdx_cons, List.zipIdx_nil, List.length_append, List.length_cons, List.length_nil, List.forall_mem_append,
      List.forall_mem_cons, List.not_mem_nil, false_implies, implies_true, and_true, Nat.reduceAdd, immediate,
      readSkeletons_eq, writeSkeletons_eq, rmwSkeletons_eq, shSkeletons_eq, readRows_noWrites, otherSkeletons_noWrites,
      or_true, true_and]
    and_intros <;> exact .inl (by decide)
  have := htable _ (microcode_mem_zipIdx op)
  rw [BitVec.ofNat_toNat, BitVec.setWidth_eq] at this
  exact this.resolve_left h

/-! ### The lists -/

/-- Two register files that agree outside a footprint agree in each part that is not in it. -/
theorem eq_of_forget {ps : List Part} {r r' : Regs} (h : r'.forget ps = r.forget ps) :
    (.a ∉ ps → r'.a = r.a) ∧ (.x ∉ ps → r'.x = r.x) ∧ (.y ∉ ps → r'.y = r.y) ∧ (.sp ∉ ps → r'.sp = r.sp) ∧
    (.n ∉ ps → r'.p.n = r.p.n) ∧ (.v ∉ ps → r'.p.v = r.p.v) ∧ (.d ∉ ps → r'.p.d = r.p.d) ∧ (.i ∉ ps → r'.p.i = r.p.i) ∧
    (.z ∉ ps → r'.p.z = r.p.z) ∧ (.c ∉ ps → r'.p.c = r.p.c) := by
  simp only [Regs.forget, Regs.mk.injEq, Flags.mk.injEq] at h
  obtain ⟨ha, hx, hy, hsp, -, hn, hv, hd, hi, hz, hc⟩ := h
  refine ⟨fun h => ?_, fun h => ?_, fun h => ?_, fun h => ?_, fun h => ?_, fun h => ?_, fun h => ?_, fun h => ?_, fun h => ?_,
    fun h => ?_⟩
  · simpa [h] using ha
  · simpa [h] using hx
  · simpa [h] using hy
  · simpa [h] using hsp
  · simpa [h] using hn
  · simpa [h] using hv
  · simpa [h] using hd
  · simpa [h] using hi
  · simpa [h] using hz
  · simpa [h] using hc

/-- What an instruction leaves, whatever the state it runs in: the parts outside its footprint; memory, if it has no row that
writes; and what is outside the CPU. -/
theorem exec_leaves (i : Instr) (s : State) :
    ∃ t, exec i s = .next t ∧ t.toRegs.forget (opFootprint i.opcode) = s.toRegs.forget (opFootprint i.opcode) ∧
    (mnemonicAt i.opcode ∉ memoryWriters → t.mem = s.mem) ∧
    t.busMap = s.busMap ∧ t.params = s.params ∧ t.rstPending = s.rstPending ∧ t.breakpoints = s.breakpoints :=
  ⟨_, exec_eq_microcode i s, runSeq_regs ((microcode_within _).supply _) s.begin,
    fun h => runSeq_mem ((microcode_noWrites h).supply _) s.begin, runSeq_outside _ s.begin⟩

/-- Settles O53: the lists of R20 to R23 and R28 hold every opcode whose footprint has the part. -/
theorem onlyTheListedInstructionsWriteARegister : Obligations.OnlyTheListedInstructionsWriteARegister := by
  intro s i
  obtain ⟨t, ht, hregs, hmem, hmap, hp, hr, hb⟩ := exec_leaves i s
  obtain ⟨ha, hx, hy, hsp, hn, hv, hd, hi, hz, hc⟩ := eq_of_forget hregs
  generalize i.opcode = op at *
  refine ⟨t, ht, fun h h' => ha ?_, fun h => hx ?_, fun h => hy ?_, fun h => hsp ?_, fun h => hv ?_, fun h => hd ?_,
    fun h => hi ?_, fun h => hc ?_, fun h => ⟨hn ?_, hz ?_⟩, hmem, hmap, hp, hr, hb⟩
  case refine_1 => clear * - h h'; revert op; decide
  all_goals clear * - h; revert op; decide

end Sys2Proof.Machine
end
